-- ==== Sys2Proof/Word.lean ====
section
/-!
DEFINITION. The number types of the block: bytes, and the numbers by which streams, descriptors, pages, slots, classes and
table entries are named (spec/00 Conventions, Table 1-2).
-/
namespace Sys2Proof

/-- One byte, as carried on a link and stored in a page. -/
abbrev Byte := BitVec 8

/-- A stream number, 0–255 (R1). -/
abbrev StreamId := Fin 256

/-- A block descriptor handle, 0–127 (R54). -/
abbrev Handle := Fin 128

/-- A page number, 0–511 (R51). -/
abbrev Page := Fin 512

/-- An engagement slot number, 0–7 (R72). -/
abbrev SlotNo := Fin 8

/-- An egress class, 0–3 (R126). -/
abbrev EgressClass := Fin 4

/-- A classification entry number, 0–63 (R92). -/
abbrev EntryNo := Fin 64

/-- A counter of 32 bits, which wraps modulo 2^32 (R4, R164). -/
abbrev Count32 := BitVec 32

end Sys2Proof
end

