-- ==== Sys2Proof/Config.lean ====
section
/-!
DEFINITION. The figures that the part fixes: its identity, its capacities, the bounds of its queues, and the two values the
model chose where the manual gives none (notes/assumptions/3.md, 4.md). The manual leaves no value open after which the part
goes on, so there is no free value.
-/
namespace Sys2Proof.Config

open Sys2Proof

/-- Vendor code of IDENT (R158). -/
def vendorCode : BitVec 16 := 0x4D4C

/-- Part code of IDENT (R158). -/
def partCode : BitVec 16 := 0x4816

/-- Revision of IDENT (R158). -/
def revision : Byte := 1

/-- Bytes of a page (R51). -/
def pageBytes : Nat := 512

/-- Bound of the ingress FIFO (R119). -/
def fifoDepth : Nat := 32

/-- Bound of the command queue (R150). -/
def commandDepth : Nat := 4

/-- Bound of the reply queue, a reply in flight counted (R127). -/
def replyDepth : Nat := 4

/-- Bound of the notice queue, a notice in flight counted (R177). -/
def noticeDepth : Nat := 16

/-- Bound of the parked-cell list (R82). -/
def parkedDepth : Nat := 8

/-- Greatest credit count (R132). -/
def creditMax : Nat := 15

/-- Where the repeat count and the lost-since-last count stay (R176, R178). -/
def noticeCountMax : Nat := 255

/-- Greatest block size in bytes, w·R·C (R2). -/
def blockBytesMax : Nat := 4096

/-- Shortest low pulse on RESET_N that resets the part, in ns (R188: 2 µs). -/
def resetLowNs : Nat := 2000

/-- What a page byte that no sample has written reads as. DESIGN CHOICE, unsafe: the manual gives the byte no meaning and
never sends it (R52; notes/assumptions/4.md). -/
def unwrittenByte : Byte := 0

/-- The straps of `State.reset`. DESIGN CHOICE, unsafe: the board sets them (R188; notes/assumptions/3.md). -/
def resetStraps : BitVec 3 := 0

end Sys2Proof.Config
end

