-- ==== Sys2Proof/Syntax.lean ====
section
/-!
DEFINITION. The commands of the block: one constructor per row of spec/opcode_table.json, in the table's order.
-/
namespace Sys2Proof

/-- One event of the part, whole and indivisible (spec/95). The management commands carry no operand: they execute the
command record that the agent took (R149, R152). -/
inductive Instr
  /-- RESET_N_ASSERT (R188): RESET_N is low for `lowNs` ns. -/
  | resetNAssert (lowNs : Nat)
  /-- RESET_N_RELEASE (R188): the rising edge of RESET_N, with the straps UNIT_ADDR2–UNIT_ADDR0 at that edge. -/
  | resetNRelease (straps : BitVec 3)
  /-- INIT_SWEEP_COMPLETION (R88). -/
  | initSweepCompletion
  /-- CELL_ARRIVAL (R107): the bytes that CB_DV framed as one cell, in the order sent (R184). -/
  | cellArrival (bytes : List Byte)
  /-- BUS_RESET_SEQUENCE (R122). -/
  | busResetSequence
  /-- BUS_SWEEP_STEP (R90). -/
  | busSweepStep
  /-- DISPATCH (R81). -/
  | dispatch
  /-- WRITE_BACK_COMPLETION (R76 step 2). -/
  | writeBackCompletion
  /-- FETCH_COMPLETION (R76 step 4). -/
  | fetchCompletion
  /-- CELL_ASSEMBLY (R25). -/
  | cellAssembly
  /-- DRAIN_COMPLETION (R17, R85). -/
  | drainCompletion
  /-- COMMAND_TAKE (R151). -/
  | commandTake
  /-- IDENT (R158). -/
  | ident
  /-- CLASS_WRITE (R101). -/
  | classWrite
  /-- CLASS_READ (R103). -/
  | classRead
  /-- STREAM_OPEN (R11). -/
  | streamOpen
  /-- STREAM_CLOSE_GRACEFUL: STREAM_CLOSE with form GRACEFUL (R16). -/
  | streamCloseGraceful
  /-- STREAM_CLOSE_ABORT: STREAM_CLOSE with form ABORT (R18). -/
  | streamCloseAbort
  /-- STREAM_PAUSE (R12). -/
  | streamPause
  /-- STREAM_RESUME (R13). -/
  | streamResume
  /-- STREAM_CUT (R14). -/
  | streamCut
  /-- STREAM_RELEASE (R15). -/
  | streamRelease
  /-- STREAM_RECONFIGURE (R21, R22). -/
  | streamReconfigure
  /-- STREAM_QUERY (R23). -/
  | streamQuery
  /-- POOL_QUERY (R159). -/
  | poolQuery
  /-- LIMITS_WRITE (R161, R162). -/
  | limitsWrite
  /-- LIMITS_READ (R163). -/
  | limitsRead
  /-- COUNTERS_READ: COUNTERS_READ with clear option no (R165). -/
  | countersRead
  /-- COUNTERS_READ_CLEAR: COUNTERS_READ with clear option yes (R165). -/
  | countersReadClear
  /-- NOTICE_MASK_WRITE (R166). -/
  | noticeMaskWrite
  /-- UNIT_RESET_STREAMS: UNIT_RESET with level STREAMS (R167). -/
  | unitResetStreams
  /-- UNIT_RESET_FULL: UNIT_RESET with level FULL (R167). -/
  | unitResetFull
  /-- STREAMS_TEARDOWN (R170): the operation of a STREAMS reset on one stream. -/
  | streamsTeardown
  /-- FRAME_COMPLETION (R140). -/
  | frameCompletion
  /-- CREDIT_GRANT (R132): the grant value g of the return-lane byte. -/
  | creditGrant (g : BitVec 4)
  /-- EGRESS_LINK_RESET (R144), with the spare bits of its return-lane byte (R187). -/
  | egressLinkReset (spare : BitVec 4)
  /-- RETURN_LANE_OTHER (R187): the return-lane byte, whose type is neither 1 nor 2. -/
  | returnLaneOther (byte : Byte)
  /-- STALL_EXPIRY (R134). -/
  | stallExpiry
  deriving DecidableEq, Repr

end Sys2Proof
end

