-- ==== Sys2Proof/WellFormed.lean ====
section
/-!
DEFINITION. Which terms of `Instr` stand for an event the part can meet.
-/
namespace Sys2Proof

/-- The type of a return-lane byte, its bits 7–4 (R187). -/
def returnLaneType (b : Byte) : BitVec 4 := b.extractLsb' 4 4

/-- The payload length that a cell's header states, bits 6–0 of byte 1 (R184). -/
def cellLengthField (bytes : List Byte) : Nat := ((bytes.getD 1 0).extractLsb' 0 7).toNat

/-- A command is well formed when its operands are ones its row can carry: a low pulse on RESET_N of at least 2 µs (R188), a
cell of 5 header bytes, as many payload bytes as the header states and 2 check bytes (R184), a return-lane byte of another
type than 1 and 2 (R187). -/
def Instr.wellFormed : Instr → Bool
  | .resetNAssert lowNs => decide (Config.resetLowNs ≤ lowNs)
  | .cellArrival bytes => decide (bytes.length = 7 + cellLengthField bytes)
  | .returnLaneOther b => decide (returnLaneType b ≠ 1 ∧ returnLaneType b ≠ 2)
  | .resetNRelease _ | .initSweepCompletion | .busResetSequence | .busSweepStep | .dispatch | .writeBackCompletion
  | .fetchCompletion | .cellAssembly | .drainCompletion | .commandTake | .ident | .classWrite | .classRead | .streamOpen
  | .streamCloseGraceful | .streamCloseAbort | .streamPause | .streamResume | .streamCut | .streamRelease
  | .streamReconfigure | .streamQuery | .poolQuery | .limitsWrite | .limitsRead | .countersRead | .countersReadClear
  | .noticeMaskWrite | .unitResetStreams | .unitResetFull | .streamsTeardown | .frameCompletion | .creditGrant _
  | .egressLinkReset _ | .stallExpiry => true

end Sys2Proof
end

