-- ==== Sys2Proof/Decode.lean ====
section
/-!
DEFINITION. What bits spell a command. No row of spec/opcode_table.json gives bits, so no word spells one; the one place
where the part itself reads its command from a single byte is the return lane (R187), and its byte is written here too.
-/
namespace Sys2Proof

/-- The command that a word of `nbits` bits spells by the bits of spec/opcode_table.json: none, since no row gives bits. -/
def decodeTableWord (_nbits _w : Nat) : Option Instr := none

/-- The command that a byte of the return lane carries: type 1 a credit grant of the low four bits, type 2 an egress link
reset with four spare bits, any other type neither (R187). -/
def decodeReturnLane (b : Byte) : Instr :=
  if returnLaneType b = 1 then .creditGrant (b.extractLsb' 0 4)
  else if returnLaneType b = 2 then .egressLinkReset (b.extractLsb' 0 4)
  else .returnLaneOther b

/-- The byte of the return lane that carries a command: the type in bits 7–4, the grant value or the spare bits in bits 3–0
(R187); a command that is no indication of the return lane has none. -/
def returnLaneByte : Instr → Option Byte
  | .creditGrant g => some (1#4 ++ g)
  | .egressLinkReset spare => some (2#4 ++ spare)
  | .returnLaneOther b => some b
  | .resetNAssert _ | .resetNRelease _ | .initSweepCompletion | .cellArrival _ | .busResetSequence | .busSweepStep
  | .dispatch | .writeBackCompletion | .fetchCompletion | .cellAssembly | .drainCompletion | .commandTake | .ident
  | .classWrite | .classRead | .streamOpen | .streamCloseGraceful | .streamCloseAbort | .streamPause | .streamResume
  | .streamCut | .streamRelease | .streamReconfigure | .streamQuery | .poolQuery | .limitsWrite | .limitsRead
  | .countersRead | .countersReadClear | .noticeMaskWrite | .unitResetStreams | .unitResetFull | .streamsTeardown
  | .frameCompletion | .stallExpiry => none

end Sys2Proof
end

