-- ==== Sys2Proof/Machine/State.lean ====
section
/-!
DEFINITION. The state of the block, each piece in the part that owns it (spec/00 Table 1-1), and the state after reset.
-/
namespace Sys2Proof.Machine

open Sys2Proof

/-! ### Streams and context records (spec/01) -/

/-- Stream state (R6). -/
inductive StreamState
  | closed | opened | paused | draining | faulted
  deriving DecidableEq, Repr

/-- Fill order of a block (R36). -/
inductive FillOrder
  | rowFirst | columnFirst
  deriving DecidableEq, Repr

/-- Release mode (R41, R42). -/
inductive ReleaseMode
  | immediate | held
  deriving DecidableEq, Repr

/-- Gap policy (R30, R31). -/
inductive GapPolicy
  | resync | tolerate
  deriving DecidableEq, Repr

/-- Broken policy (R32). -/
inductive BrokenPolicy
  | emit | discard
  deriving DecidableEq, Repr

/-- Held-overflow policy (R43, R44). -/
inductive OverflowPolicy
  | dropOldest | fault
  deriving DecidableEq, Repr

/-- The shape of a block: sample width in bytes, rows, columns, fill order. -/
structure Geometry where
  w : Nat
  rows : Nat
  cols : Nat
  order : FillOrder
  deriving DecidableEq, Repr

/-- Samples of a whole block, R·C. -/
def Geometry.samples (g : Geometry) : Nat := g.rows * g.cols

/-- Bytes of a whole block, w·R·C. -/
def Geometry.bytes (g : Geometry) : Nat := g.w * g.samples

/-- Pages of a block, ceil(w·R·C / 512) (R51). -/
def Geometry.pages (g : Geometry) : Nat := (g.bytes + (Config.pageBytes - 1)) / Config.pageBytes

/-- The configuration of a stream (Table 1-5). -/
structure StreamCfg where
  geom : Geometry
  mode : ReleaseMode
  cls : EgressClass
  heldLimit : Nat
  gap : GapPolicy
  broken : BrokenPolicy
  overflow : OverflowPolicy
  deriving DecidableEq, Repr

/-- Fill sub-state; in FILLING the current block, the fill index k and the spliced mark are present (Table 1-6, R3, R7). -/
inductive Fill
  | empty
  | filling (cur : Handle) (k : Nat) (spliced : Bool)
  | hunting
  deriving DecidableEq, Repr

/-- The six stream counters (Table 1-7). -/
structure StreamCounters where
  cells : Count32
  duplicates : Count32
  gaps : Count32
  blocksCompleted : Count32
  blocksDropped : Count32
  samplesDiscarded : Count32
  deriving DecidableEq, Repr

/-- All six stream counters at 0 (R4, R5). -/
def StreamCounters.zero : StreamCounters := ⟨0, 0, 0, 0, 0, 0⟩

/-- One context record (R1). -/
structure Ctx where
  cfg : StreamCfg
  state : StreamState
  fill : Fill
  expected : BitVec 8
  seqValid : Bool
  nextBlock : BitVec 16
  held : List Handle
  counters : StreamCounters
  deriving DecidableEq, Repr

/-- The reset configuration (Table 1-8). -/
def StreamCfg.reset : StreamCfg where
  geom := ⟨2, 1, 256, .rowFirst⟩
  mode := .immediate
  cls := 0
  heldLimit := 4
  gap := .resync
  broken := .emit
  overflow := .dropOldest

/-- The reset value of every context record (Table 1-8). -/
def Ctx.reset : Ctx where
  cfg := .reset
  state := .closed
  fill := .empty
  expected := 0
  seqValid := false
  nextBlock := 0
  held := []
  counters := .zero

/-! ### Cells (spec/02, spec/06) -/

/-- The kinds of cell that reach the FIFO. -/
inductive StreamCellKind
  | data | mark
  deriving DecidableEq, Repr

/-- An accepted DATA or MARK cell with its resolved stream (R25, R116). Its payload length is the length of its payload. -/
structure StreamCell where
  kind : StreamCellKind
  sync : Bool
  seq : BitVec 8
  payload : List Byte
  stream : StreamId
  deriving DecidableEq, Repr

/-! ### Ingress port (spec/06) -/

/-- Port state (R108). -/
inductive IngressState
  | init | ready | busReset
  deriving DecidableEq, Repr

/-- Response codes (R117, Table 12-2). -/
inductive Response
  | accept | refuseFormat | refuseFull
  deriving DecidableEq, Repr

/-- The ingress port (Table 6-1) and its two output pins. -/
structure Ingress where
  port : IngressState
  fifo : List StreamCell
  /-- FIFO hold flag (R120). -/
  holdFlag : Bool
  /-- HOLD drive: pin HOLD_N is driven (R121). -/
  hold : Bool
  /-- Response lane in the window of the last cell; `none` is undriven (R117, R189; notes/assumptions/17.md). -/
  rsp : Option Response
  deriving DecidableEq, Repr

/-! ### Tag classifier (spec/05) -/

/-- Action of a classification entry. -/
inductive ClassAction
  | stream | spread | discard
  deriving DecidableEq, Repr

/-- A classification entry (Table 5-2). -/
structure ClassEntry where
  valid : Bool
  value : BitVec 12
  care : BitVec 12
  action : ClassAction
  base : StreamId
  width : Nat
  deriving DecidableEq, Repr

/-- An entry after power-on and a FULL reset (R92). -/
def ClassEntry.reset : ClassEntry := ⟨false, 0, 0, .stream, 0, 0⟩

/-- The tag classifier (Table 5-1). -/
structure Classifier where
  table : Vector ClassEntry 64
  unitAddr : BitVec 3
  deriving DecidableEq, Repr

/-! ### Context engine (spec/04) -/

/-- Engagement slot state (Table 4-2). -/
inductive SlotState
  | vacant | evicting | fetching | clean | dirty
  deriving DecidableEq, Repr

/-- One engagement slot (R72); its rank stands in the last-use order. -/
structure Slot where
  state : SlotState
  stream : Option StreamId
  copy : Ctx
  inUse : Bool
  deriving DecidableEq, Repr

/-- A VACANT slot; its copy stands for no record (notes/assumptions/16.md). -/
def Slot.vacant : Slot := ⟨.vacant, none, .reset, false⟩

/-- The three parties that the fetch unit serves (R79). -/
inductive Party
  | management | drain | dispatcher
  deriving DecidableEq, Repr

/-- A fetch in service (R76). The slot's state tells write-back (EVICTING) from read (FETCHING). -/
structure Fetch where
  party : Party
  stream : StreamId
  slot : SlotNo
  deriving DecidableEq, Repr

/-- Where the engagement of the management agent or of the drain-completion service stands (R74, R79, R87). -/
inductive EngReq
  /-- Nothing asked. -/
  | idle
  /-- Asked and not served: a waiter of the stream's slot or of another party's fetch, or the engine is not RUNNING. -/
  | asked (t : StreamId)
  /-- Its request waits at the fetch unit. -/
  | lodged (t : StreamId)
  /-- The fetch unit serves its request. -/
  | fetching (t : StreamId)
  /-- Its fetch completed in SWEEP_WAIT and the slot was not handed to it (R87). -/
  | fetched (t : StreamId)
  /-- It holds the in-use mark of a slot. -/
  | holds (t : StreamId) (i : SlotNo)
  deriving DecidableEq, Repr

/-- The two sweeps. -/
inductive SweepKind
  | init | bus
  deriving DecidableEq, Repr

/-- Engine mode (Table 4-5): SWEEP_WAIT with the sweep recorded; BUS_SWEEP with the next stream and whether an init sweep
was asked meanwhile (R87). -/
inductive EngineMode
  | running
  | sweepWait (k : SweepKind)
  | initSweep
  | busSweep (next : StreamId) (initAsked : Bool)
  deriving DecidableEq, Repr

/-- The context engine (Table 4-1). -/
structure Engine where
  store : Vector Ctx 256
  slots : Vector Slot 8
  /-- Last-use order, least recently used first. -/
  lru : List SlotNo
  fetch : Option Fetch
  /-- The read for the dispatcher is at its end, and its completion waits for the assembler (notes/assumptions/20.md). -/
  readWaits : Bool
  mgmt : EngReq
  drainReq : EngReq
  /-- The dispatcher's waiting fetch request (R79, R81). -/
  dispReq : Option StreamId
  /-- The slot that the FIFO head waits on (R75 kind 4; notes/assumptions/8.md). -/
  dispWait : Option SlotNo
  parked : List StreamCell
  drainList : List StreamId
  mode : EngineMode
  deriving DecidableEq, Repr

/-! ### Buffer pool (spec/03) -/

/-- Descriptor state (Table 3-2). -/
inductive DescState
  | free | filling | held | queued | sending
  deriving DecidableEq, Repr

/-- Flags of a block. -/
structure BlockFlags where
  short : Bool
  broken : Bool
  spliced : Bool
  deriving DecidableEq, Repr

/-- No flag. -/
def BlockFlags.none : BlockFlags := ⟨false, false, false⟩

/-- A block descriptor (Table 3-2). -/
structure Desc where
  state : DescState
  stream : StreamId
  blockNo : BitVec 16
  geom : Geometry
  pages : List Page
  count : Nat
  flags : BlockFlags
  deriving DecidableEq, Repr

/-- A FREE descriptor; its other fields have no meaning and are blank in the model (R54; notes/assumptions/16.md). -/
def Desc.free : Desc := ⟨.free, 0, 0, ⟨0, 0, 0, .rowFirst⟩, [], 0, .none⟩

/-- An entry of the drain registry (R65). -/
structure DrainEntry where
  count : Nat
  pending : Bool
  deriving DecidableEq, Repr

/-- The buffer pool (Table 3-1). -/
structure Pool where
  /-- The bytes of the pages, at address page · 512 + byte, in canonical form. -/
  mem : List Host.Cell
  desc : Vector Desc 128
  freePages : List Page
  freeDesc : List Handle
  drain : Vector DrainEntry 256
  /-- Pool-low condition (R63). -/
  low : Bool
  deriving DecidableEq, Repr

/-! ### Block assembler (spec/02) -/

/-- The cell being assembled, with its slot (R81, R83). `stale` is set when a FULL reset overtakes the operation: the
descriptor it was filling as it stood at the reset, if any (R172; notes/assumptions/15.md). -/
structure Assembly where
  cell : StreamCell
  slot : SlotNo
  stale : Option (Handle × Desc)
  deriving DecidableEq, Repr

/-! ### Management agent (spec/08) -/

/-- Reply status (Table 8-3). -/
inductive Status
  | done | draining | badCommand | badArgument | badState
  deriving DecidableEq, Repr

/-- A reply record (R154). -/
structure Reply where
  id : BitVec 16
  code : Byte
  status : Status
  replayed : Bool
  result : List Byte
  deriving DecidableEq, Repr

/-- The entry of the transaction cache (R155). -/
structure CacheEntry where
  id : BitVec 16
  code : Byte
  reply : Reply
  deriving DecidableEq, Repr

/-- Level of a unit reset (R167). -/
inductive ResetLevel
  | streams | full
  deriving DecidableEq, Repr

/-- Agent state (Table 8-2). A running STREAMS teardown is EXECUTING. -/
inductive AgentState
  | idle
  | waitingReplySpace
  /-- EXECUTING one command record. -/
  | executing (record : List Byte)
  /-- EXECUTING a STREAMS teardown that has come to stream `next` (R170). -/
  | tearing (next : StreamId)
  | resetPending (level : ResetLevel)
  deriving DecidableEq, Repr

/-- The limits record (Table 8-6). -/
structure Limits where
  holdMark : Nat
  releaseMark : Nat
  reserve : Nat
  stallLimit : BitVec 16
  weights : Vector Nat 4
  /-- Bit n set: class n is discardable. -/
  discardable : BitVec 4
  deriving DecidableEq, Repr

/-- The defaults of Table 8-6. -/
def Limits.reset : Limits := ⟨24, 16, 32, 2000, #v[4, 3, 2, 1], 0b1000⟩

/-- The fifteen global counters (Table 8-7). -/
structure Counters where
  cellsSeen : Count32
  checkErrors : Count32
  cellsUnclaimed : Count32
  cellsRefusedFull : Count32
  cellsRefusedFormat : Count32
  cellsAccepted : Count32
  cellsDiscardClass : Count32
  mgmtDropped : Count32
  allocFailures : Count32
  framesSent : Count32
  stallDiscards : Count32
  creditOverflows : Count32
  noticesLost : Count32
  linkResets : Count32
  egressLinkResets : Count32
  deriving DecidableEq, Repr

/-- All fifteen counters at 0. -/
def Counters.zero : Counters := ⟨0, 0, 0, 0, 0, 0, 0, 0, 0, 0, 0, 0, 0, 0, 0⟩

/-- The management agent (Table 8-1). -/
structure Agent where
  cmdq : List (List Byte)
  state : AgentState
  cache : Option CacheEntry
  limits : Limits
  counters : Counters
  deriving DecidableEq, Repr

/-! ### Notice unit (spec/09) -/

/-- Notice kinds (Table 9-2). -/
inductive NoticeKind
  | seqGap | noBuffer | heldOverflow | streamFault | streamClosed | egressStall | ingressRefused | linkReset
  deriving DecidableEq, Repr

/-- A notice record (R176). `lost` is the lost-since-last written at its first take, if it has been taken (R179). -/
structure Notice where
  kind : NoticeKind
  stream : Option StreamId
  repeats : Nat
  lost : Option Nat
  deriving DecidableEq, Repr

/-- The notice unit (Table 9-1). Bit n − 1 of the mask is the enable of kind code n (R185). -/
structure NoticeUnit where
  queue : List Notice
  mask : Byte
  lost : Nat
  deriving DecidableEq, Repr

/-! ### Egress scheduler and frame link port (spec/07) -/

/-- The egress scheduler (Table 7-1). -/
structure Egress where
  queues : Vector (List Handle) 4
  replies : List Reply
  curClass : EgressClass
  budget : Nat
  deriving DecidableEq, Repr

/-- Frame link port state (Table 7-2). -/
inductive LinkState
  | idle | sending | waiting | stalled
  deriving DecidableEq, Repr

/-- The in-flight item (R136): a block carries the class queue it was taken from and its abort mark. -/
inductive Item
  | block (h : Handle) (cls : EgressClass) (aborted : Bool)
  | reply (r : Reply)
  | notice (n : Notice)
  deriving DecidableEq, Repr

/-- The frame link port (Table 7-1). -/
structure Link where
  credit : Nat
  port : LinkState
  /-- Stall timer: stopped, or running with µs left (R134). -/
  timer : Option Nat
  inflight : Option Item
  /-- The bytes of the frame on the link, empty when none is sent (R137, R186). -/
  frame : List Byte
  deriving DecidableEq, Repr

/-! ### The block -/

/-- The whole state. -/
structure State where
  ingress : Ingress
  classifier : Classifier
  engine : Engine
  /-- The cell being assembled; at most one (R73, R81). -/
  assembler : List Assembly
  pool : Pool
  egress : Egress
  link : Link
  agent : Agent
  notices : NoticeUnit
  /-- RESET_N is low (R188). -/
  resetLow : Bool
  /-- The commands that wait, first in first out. -/
  pending : List Instr
  deriving DecidableEq, Repr

/-- Reasons to stop with a fault: none. The manual gives the part no condition that stops it, and no access leaves the page
memory; every illegal input has an outcome there (INVENTORY.md, Faults). -/
inductive Fault
  deriving DecidableEq, Repr

/-- Reasons to refuse a command. -/
inductive Refusal
  /-- The command has no meaning in this model yet. Raised by `exec` alone; safe. No arm raises it. -/
  | notModelled (mnemonic : String)
  deriving DecidableEq, Repr

/-! ### Reset values -/

/-- The ingress port at the release of RESET_N (Table 6-1). -/
def Ingress.reset : Ingress := ⟨.init, [], false, true, none⟩

/-- The classifier at the release of RESET_N, with the sampled straps (R92, R188). -/
def Classifier.reset (straps : BitVec 3) : Classifier := ⟨Vector.replicate 64 .reset, straps⟩

/-- The context engine once the init sweep has begun and written its values (Table 4-1, R88). -/
def Engine.reset : Engine where
  store := Vector.replicate 256 .reset
  slots := Vector.replicate 8 .vacant
  lru := [0, 1, 2, 3, 4, 5, 6, 7]
  fetch := none
  readWaits := false
  mgmt := .idle
  drainReq := .idle
  dispReq := none
  dispWait := none
  parked := []
  drainList := []
  mode := .initSweep

/-- The reset values of the pool (Table 3-1); page contents are kept (R52). -/
def Pool.reset (mem : List Host.Cell) : Pool where
  mem := mem
  desc := Vector.replicate 128 .free
  freePages := List.finRange 512
  freeDesc := List.finRange 128
  drain := Vector.replicate 256 ⟨0, false⟩
  low := false

/-- The scheduler at power-on: the budget is the default weight of class 0 (R148). -/
def Egress.reset : Egress := ⟨Vector.replicate 4 [], [], 0, 4⟩

/-- The frame link port at power-on (R148). -/
def Link.reset : Link := ⟨0, .idle, none, none, []⟩

/-- The agent at power-on and after a FULL reset (Table 8-1). -/
def Agent.reset : Agent := ⟨[], .idle, none, .reset, .zero⟩

/-- The notice unit at power-on and after a FULL reset (Table 9-1). -/
def NoticeUnit.reset : NoticeUnit := ⟨[], 0xFF, 0⟩

/-- The block right after the release of RESET_N with the given straps: the init sweep runs, the port is in INIT (R188). -/
def State.powerOn (straps : BitVec 3) (mem : List Host.Cell) (pending : List Instr) : State where
  ingress := .reset
  classifier := .reset straps
  engine := .reset
  assembler := []
  pool := .reset mem
  egress := .reset
  link := .reset
  agent := .reset
  notices := .reset
  resetLow := false
  pending := pending

/-- The machine right after reset: pages not written, no command waiting; the straps are the model's choice
(notes/assumptions/3.md). -/
def State.reset : State := .powerOn Config.resetStraps [] []

end Sys2Proof.Machine
end

