-- ==== Sys2Proof/Machine/Flags.lean ====
section
/-!
DEFINITION. The conditions and counters of the block: the FIFO hold flag (R120), the pool-low condition (R63), the HOLD drive
(R121), the places taken in the reply and notice queues (R127, R128), and the advance of a counter (R4, R164).
-/
namespace Sys2Proof.Machine

open Sys2Proof

/-! ### Global counters (R164) -/

/-- The fifteen counters by name (Table 8-7). -/
inductive CounterName
  | cellsSeen | checkErrors | cellsUnclaimed | cellsRefusedFull | cellsRefusedFormat | cellsAccepted | cellsDiscardClass
  | mgmtDropped | allocFailures | framesSent | stallDiscards | creditOverflows | noticesLost | linkResets
  | egressLinkResets
  deriving DecidableEq, Repr

/-- A counter advances by one, wrapping modulo 2^32. -/
def Counters.inc (c : Counters) : CounterName → Counters
  | .cellsSeen => { c with cellsSeen := c.cellsSeen + 1 }
  | .checkErrors => { c with checkErrors := c.checkErrors + 1 }
  | .cellsUnclaimed => { c with cellsUnclaimed := c.cellsUnclaimed + 1 }
  | .cellsRefusedFull => { c with cellsRefusedFull := c.cellsRefusedFull + 1 }
  | .cellsRefusedFormat => { c with cellsRefusedFormat := c.cellsRefusedFormat + 1 }
  | .cellsAccepted => { c with cellsAccepted := c.cellsAccepted + 1 }
  | .cellsDiscardClass => { c with cellsDiscardClass := c.cellsDiscardClass + 1 }
  | .mgmtDropped => { c with mgmtDropped := c.mgmtDropped + 1 }
  | .allocFailures => { c with allocFailures := c.allocFailures + 1 }
  | .framesSent => { c with framesSent := c.framesSent + 1 }
  | .stallDiscards => { c with stallDiscards := c.stallDiscards + 1 }
  | .creditOverflows => { c with creditOverflows := c.creditOverflows + 1 }
  | .noticesLost => { c with noticesLost := c.noticesLost + 1 }
  | .linkResets => { c with linkResets := c.linkResets + 1 }
  | .egressLinkResets => { c with egressLinkResets := c.egressLinkResets + 1 }

/-- A counter of the bank advances by one. -/
def count (c : CounterName) (s : State) : State :=
  { s with agent.counters := s.agent.counters.inc c }

/-! ### The HOLD line (R121) -/

/-- Whether the unit drives HOLD: the port is not READY, the hold flag is set, pool-low is asserted, or RESET_N is low
(R121, R188). -/
def holdDue (s : State) : Bool :=
  s.resetLow || s.ingress.port != .ready || s.ingress.holdFlag || s.pool.low

/-- The port judges its HOLD drive again. -/
def judgeHold (s : State) : State :=
  { s with ingress.hold := holdDue s }

/-! ### The FIFO hold flag (R120) -/

/-- The flag at an entry: set at or above the hold mark. -/
def holdFlagAtEntry (l : Limits) (occupancy : Nat) (flag : Bool) : Bool :=
  if l.holdMark ≤ occupancy then true else flag

/-- The flag at a removal: cleared at or below the release mark. -/
def holdFlagAtRemoval (l : Limits) (occupancy : Nat) (flag : Bool) : Bool :=
  if occupancy ≤ l.releaseMark then false else flag

/-- The flag at a LIMITS_WRITE that changes either mark. -/
def holdFlagAtMarks (l : Limits) (occupancy : Nat) (flag : Bool) : Bool :=
  if l.holdMark ≤ occupancy then true else if occupancy ≤ l.releaseMark then false else flag

/-- A cell joins the tail of the ingress FIFO; the hold flag and HOLD are judged (R116, R120). -/
def fifoEntry (c : StreamCell) (s : State) : State :=
  let fifo := s.ingress.fifo ++ [c]
  judgeHold { s with
    ingress.fifo := fifo
    ingress.holdFlag := holdFlagAtEntry s.agent.limits fifo.length s.ingress.holdFlag }

/-- The head of the ingress FIFO is removed; the hold flag and HOLD are judged (R119, R120). -/
def fifoRemoval (s : State) : State :=
  let fifo := s.ingress.fifo.tail
  judgeHold { s with
    ingress.fifo := fifo
    ingress.holdFlag := holdFlagAtRemoval s.agent.limits fifo.length s.ingress.holdFlag }

/-! ### The pool-low condition (R63) -/

/-- The pool recomputes the pool-low condition and hands it to the ingress port, which judges HOLD again (R63, R121). -/
def judgePoolLow (s : State) : State :=
  judgeHold { s with pool.low := decide (s.pool.freePages.length < s.agent.limits.reserve) }

/-! ### Places taken in the reply and notice queues (R127, R128) -/

/-- Places taken in the reply queue: the queued records and the reply in flight (R127). -/
def replyOccupancy (s : State) : Nat :=
  s.egress.replies.length +
    (match s.link.inflight with
      | some (.reply _) => 1
      | some (.block _ _ _) | some (.notice _) | none => 0)

/-- Places taken in the notice queue: the queued records and the notice in flight (R128, R177). -/
def noticePlaces (s : State) : Nat :=
  s.notices.queue.length +
    (match s.link.inflight with
      | some (.notice _) => 1
      | some (.block _ _ _) | some (.reply _) | none => 0)

end Sys2Proof.Machine
end

