-- ==== Sys2Proof/Machine/Memory.lean ====
section
/-!
DEFINITION. The bytes of the pages (R51, R52): a list of (address, byte) pairs with strictly rising addresses and no entry
equal to what an unlisted address reads as.
-/
namespace Sys2Proof.Machine

open Sys2Proof

/-- The page memory, at address page · 512 + byte. -/
abbrev Memory := List Host.Cell

/-- The byte at an address; an address that no sample has written reads as `Config.unwrittenByte`. -/
def Memory.read : Memory → Nat → Byte
  | [], _ => Config.unwrittenByte
  | (a, v) :: m, addr => if a = addr then v else if addr < a then Config.unwrittenByte else Memory.read m addr

/-- One entry in front of a memory of higher addresses, unless it is what an unlisted address reads as. -/
def Memory.put (addr : Nat) (v : Byte) (m : Memory) : Memory :=
  if v = Config.unwrittenByte then m else (addr, v) :: m

/-- Writes one byte, keeping the canonical form. -/
def Memory.write : Memory → Nat → Byte → Memory
  | [], addr, v => Memory.put addr v []
  | (a, b) :: m, addr, v =>
    if a = addr then Memory.put addr v m
    else if addr < a then Memory.put addr v ((a, b) :: m)
    else (a, b) :: Memory.write m addr v

/-- Every address of the memory is above `lo`, they rise strictly, and no entry holds the unwritten byte. -/
def Memory.wfFrom : Option Nat → Memory → Bool
  | _, [] => true
  | lo, (a, v) :: m =>
    (match lo with
      | none => true
      | some b => decide (b < a)) && decide (v ≠ Config.unwrittenByte) && Memory.wfFrom (some a) m

/-- The canonical form. -/
def Memory.wf (m : Memory) : Bool := Memory.wfFrom none m

/-- Address of byte `b` of a block whose page list is `pages`: byte b mod 512 of the page at index ⌊b / 512⌋ (R36). -/
def pageAddress (pages : List Page) (b : Nat) : Option Nat :=
  (pages[b / Config.pageBytes]?).map (fun p => p.val * Config.pageBytes + b % Config.pageBytes)

/-- Writes bytes at block byte `b` onward. A block byte lies in the page list for every position of the block (R51). -/
def writeBlockBytes (pages : List Page) : Memory → Nat → List Byte → Memory
  | m, _, [] => m
  | m, b, v :: vs =>
    match pageAddress pages b with
    | some addr => writeBlockBytes pages (m.write addr v) (b + 1) vs
    | none => writeBlockBytes pages m (b + 1) vs

/-- Reads `n` bytes at block byte `b` onward. -/
def readBlockBytes (pages : List Page) (m : Memory) : Nat → Nat → List Byte
  | _, 0 => []
  | b, n + 1 =>
    (match pageAddress pages b with
      | some addr => m.read addr
      | none => Config.unwrittenByte) :: readBlockBytes pages m (b + 1) n

/-- Row of the sample of fill index k (R36). -/
def Geometry.rowOf (g : Geometry) (k : Nat) : Nat :=
  match g.order with
  | .rowFirst => k / g.cols
  | .columnFirst => k % g.rows

/-- Column of the sample of fill index k (R36). -/
def Geometry.colOf (g : Geometry) (k : Nat) : Nat :=
  match g.order with
  | .rowFirst => k % g.cols
  | .columnFirst => k / g.rows

/-- First block byte of the sample at a row and column, w·(r·C + c) (R36). -/
def Geometry.byteAt (g : Geometry) (row col : Nat) : Nat := g.w * (row * g.cols + col)

/-- Fill index of the position at a row and column (R40, R138). -/
def Geometry.indexAt (g : Geometry) (row col : Nat) : Nat :=
  match g.order with
  | .rowFirst => row * g.cols + col
  | .columnFirst => col * g.rows + row

end Sys2Proof.Machine
end

