-- ==== Sys2Proof/Machine/Operands.lean ====
section
/-!
DEFINITION. The operand forms of the commands: the layout of a cell and its check (R184), of a command record and its
argument blocks (R185), and the results that replies carry (Table 11-2).
-/
namespace Sys2Proof.Machine

open Sys2Proof

/-! ### Bits and bytes, most significant first (spec/11) -/

/-- The bits of a byte, bit 7 first. -/
def byteBits (b : Byte) : List Bool :=
  [b.getLsbD 7, b.getLsbD 6, b.getLsbD 5, b.getLsbD 4, b.getLsbD 3, b.getLsbD 2, b.getLsbD 1, b.getLsbD 0]

/-- Two bytes as a number, high byte first. -/
def word16 (hi lo : Byte) : BitVec 16 := hi ++ lo

/-- A 16-bit number as two bytes, high byte first. -/
def bytes16 (v : BitVec 16) : List Byte := [v.extractLsb' 8 8, v.extractLsb' 0 8]

/-- A 32-bit number as four bytes, high byte first. -/
def bytes32 (v : BitVec 32) : List Byte :=
  [v.extractLsb' 24 8, v.extractLsb' 16 8, v.extractLsb' 8 8, v.extractLsb' 0 8]

/-- A number as one byte. -/
def byteOf (n : Nat) : Byte := BitVec.ofNat 8 n

/-- A flag as one byte, 1 for yes. -/
def byteOfBool (b : Bool) : Byte := if b then 1 else 0

/-- The stream that a byte names. -/
def streamOf (b : Byte) : StreamId := Fin.ofNat 256 b.toNat

/-- A byte that holds 0 for no and 1 for yes, any other value illegal. -/
def boolArg (b : Byte) : Option Bool := if b = 0 then some false else if b = 1 then some true else none

/-! ### The checks (R184, R186) -/

/-- One bit into the CRC-16 register: shift left, and exclusive-or 1021h when the bit shifted out differs from the data bit. -/
def crc16Bit (reg : BitVec 16) (b : Bool) : BitVec 16 :=
  if reg.getLsbD 15 != b then (reg <<< 1) ^^^ 0x1021#16 else reg <<< 1

/-- The CRC-16 of a cell over header and payload. -/
def crc16 (bytes : List Byte) : BitVec 16 :=
  bytes.foldl (fun reg b => (byteBits b).foldl crc16Bit reg) 0xFFFF#16

/-- One bit into the CRC-32 register, with polynomial 04C11DB7h. -/
def crc32Bit (reg : BitVec 32) (b : Bool) : BitVec 32 :=
  if reg.getLsbD 31 != b then (reg <<< 1) ^^^ 0x04C11DB7#32 else reg <<< 1

/-- The frame check over common header and body, the final register inverted. -/
def crc32 (bytes : List Byte) : BitVec 32 :=
  ~~~ (bytes.foldl (fun reg b => (byteBits b).foldl crc32Bit reg) 0xFFFFFFFF#32)

/-! ### Cells (R107, R184) -/

/-- Kind of a cell on the bus. -/
inductive CellKind
  | data | mark | mgmt | fill
  deriving DecidableEq, Repr

/-- A cell as the ingress port reads it. -/
structure Cell where
  version : BitVec 4
  kind : CellKind
  sync : Bool
  tag : BitVec 12
  seq : BitVec 8
  payload : List Byte
  /-- The cell check equals the CRC-16 over header and payload. -/
  checkOk : Bool
  deriving DecidableEq, Repr

/-- The kind that bits 3–2 of byte 0 encode. -/
def cellKindOf (k : BitVec 2) : CellKind :=
  if k = 0 then .data else if k = 1 then .mark else if k = 2 then .mgmt else .fill

/-- Reads a cell from its bytes (Table 11-1); `none` when the bytes are not header, payload of the stated length and check:
then they are no arrival (R107; notes/assumptions/13.md). -/
def parseCell (bytes : List Byte) : Option Cell :=
  match bytes with
  | b0 :: _ :: b2 :: b3 :: b4 :: rest =>
    let len := cellLengthField bytes
    match rest.drop len with
    | [c1, c0] => some {
        version := b0.extractLsb' 4 4
        kind := cellKindOf (b0.extractLsb' 2 2)
        sync := b0.getLsbD 1
        tag := (word16 b2 b3).extractLsb' 0 12
        seq := b4
        payload := rest.take len
        checkOk := decide (crc16 (bytes.take (5 + len)) = word16 c1 c0) }
    | _ => none
  | _ => none

/-! ### Command records (R149, R185) -/

/-- The command codes of Table 11-2, and any other. -/
inductive Command
  | ident | classWrite | classRead | streamOpen | streamClose | streamPause | streamResume | streamCut | streamRelease
  | streamReconfigure | streamQuery | poolQuery | limitsWrite | limitsRead | countersRead | noticeMaskWrite | unitReset
  deriving DecidableEq, Repr

/-- The command that a code names (Table 11-2). -/
def commandOf (code : Byte) : Option Command :=
  match code.toNat with
  | 0x01 => some .ident
  | 0x02 => some .classWrite
  | 0x03 => some .classRead
  | 0x04 => some .streamOpen
  | 0x05 => some .streamClose
  | 0x06 => some .streamPause
  | 0x07 => some .streamResume
  | 0x08 => some .streamCut
  | 0x09 => some .streamRelease
  | 0x0A => some .streamReconfigure
  | 0x0B => some .streamQuery
  | 0x0C => some .poolQuery
  | 0x0D => some .limitsWrite
  | 0x0E => some .limitsRead
  | 0x0F => some .countersRead
  | 0x10 => some .noticeMaskWrite
  | 0x11 => some .unitReset
  | _ => none

/-- Length of the command's argument block in bytes (Table 11-2). -/
def Command.argLength : Command → Nat
  | .ident | .poolQuery | .limitsRead => 0
  | .classWrite | .streamOpen | .streamReconfigure => 8
  | .streamClose => 2
  | .limitsWrite => 11
  | .classRead | .streamPause | .streamResume | .streamCut | .streamRelease | .streamQuery | .countersRead
  | .noticeMaskWrite | .unitReset => 1

/-- Whether the command acts on a stream, and so on its engaged record (R86, R152). -/
def Command.onStream : Command → Bool
  | .streamOpen | .streamClose | .streamPause | .streamResume | .streamCut | .streamRelease | .streamReconfigure
  | .streamQuery => true
  | .ident | .classWrite | .classRead | .poolQuery | .limitsWrite | .limitsRead | .countersRead | .noticeMaskWrite
  | .unitReset => false

/-- Command code of a record, byte 0. -/
def recordCode (r : List Byte) : Byte := r.getD 0 0

/-- Transaction id of a record, bytes 2–3. -/
def recordId (r : List Byte) : BitVec 16 := word16 (r.getD 2 0) (r.getD 3 0)

/-- Argument block of a record, bytes 4 onward. -/
def recordArgs (r : List Byte) : List Byte := r.drop 4

/-- The command of a record, if its code names one. -/
def recordCommand (r : List Byte) : Option Command := commandOf (recordCode r)

/-- Checks 1 and 2 of R153, on code and record length: the status they give, or `none` when both pass. -/
def judgeRecord (r : List Byte) : Option Status :=
  match recordCommand r with
  | none => some .badCommand
  | some c => if (recordArgs r).length = c.argLength then none else some .badArgument

/-- The stream that a stream command names, the first byte of its argument block. -/
def recordStream (r : List Byte) : StreamId := streamOf ((recordArgs r).getD 0 0)

/-! ### The configuration block (R185, R2) -/

/-- Every field of a configuration is in range and w·R·C is at most 4096 (R2, Table 1-5). -/
def StreamCfg.valid (c : StreamCfg) : Bool :=
  decide (1 ≤ c.geom.w ∧ c.geom.w ≤ 4 ∧ 1 ≤ c.geom.rows ∧ c.geom.rows ≤ 64 ∧ 1 ≤ c.geom.cols ∧ c.geom.cols ≤ 1024 ∧
    1 ≤ c.heldLimit ∧ c.heldLimit ≤ 16 ∧ c.geom.bytes ≤ Config.blockBytesMax)

/-- Reads a configuration block of 7 bytes; `none` when a field is out of range or w·R·C is above 4096. -/
def parseCfg (a : List Byte) : Option StreamCfg :=
  match a with
  | [w, rows, c1, c0, cls, limit, policy] =>
    let cfg : StreamCfg := {
      geom := ⟨w.toNat, rows.toNat, (word16 c1 c0).toNat, if policy.getLsbD 0 then .columnFirst else .rowFirst⟩
      mode := if policy.getLsbD 1 then .held else .immediate
      cls := Fin.ofNat 4 cls.toNat
      heldLimit := limit.toNat
      gap := if policy.getLsbD 2 then .tolerate else .resync
      broken := if policy.getLsbD 3 then .discard else .emit
      overflow := if policy.getLsbD 4 then .fault else .dropOldest }
    if cls.toNat < 4 && cfg.valid then some cfg else none
  | _ => none

/-- A configuration as its block of 7 bytes. -/
def StreamCfg.toBytes (c : StreamCfg) : List Byte :=
  [byteOf c.geom.w, byteOf c.geom.rows] ++ bytes16 (BitVec.ofNat 16 c.geom.cols) ++
  [byteOf c.cls.val, byteOf c.heldLimit,
   byteOf ((if c.geom.order = .columnFirst then 1 else 0) + (if c.mode = .held then 2 else 0) +
     (if c.gap = .tolerate then 4 else 0) + (if c.broken = .discard then 8 else 0) +
     (if c.overflow = .fault then 16 else 0))]

/-! ### The classification entry block (R185, R101, R102) -/

/-- The entry reaches the management range: the match value has a 1 in every cared bit among 4–11 (R102). -/
def ClassEntry.reachesManagement (e : ClassEntry) : Bool :=
  decide ((e.care &&& 0xFF0#12) &&& ~~~ e.value = 0#12)

/-- Checks 3 and 4 of R101, made for a valid entry only. -/
def ClassEntry.legal (e : ClassEntry) : Bool :=
  !e.valid ||
    ((e.action != .spread || decide (e.base.val + 2 ^ e.width - 1 ≤ 255)) && !e.reachesManagement)

/-- The action that bits 7–4 of byte 6 encode. -/
def classActionOf (n : Nat) : Option ClassAction :=
  match n with
  | 0 => some .stream
  | 1 => some .spread
  | 2 => some .discard
  | _ => none

/-- The code of an action. -/
def ClassAction.code : ClassAction → Nat
  | .stream => 0
  | .spread => 1
  | .discard => 2

/-- Reads an entry block of 8 bytes with the four checks of R101; `none` when one fails. -/
def parseEntry (a : List Byte) : Option (EntryNo × ClassEntry) :=
  match a with
  | [n, valid, v1, v0, m1, m0, act, base] =>
    match boolArg valid, classActionOf (act.extractLsb' 4 4).toNat with
    | some valid, some action =>
      let width := (act.extractLsb' 0 4).toNat
      let value := word16 v1 v0
      let care := word16 m1 m0
      let e : ClassEntry := ⟨valid, value.extractLsb' 0 12, care.extractLsb' 0 12, action, streamOf base, width⟩
      if decide (n.toNat < 64) && decide (value.toNat ≤ 4095) && decide (care.toNat ≤ 4095) && decide (width ≤ 4)
          && (action != .spread || decide (1 ≤ width)) && e.legal then
        some (Fin.ofNat 64 n.toNat, e)
      else none
    | _, _ => none
  | _ => none

/-- An entry with its number as its block of 8 bytes. -/
def ClassEntry.toBytes (n : EntryNo) (e : ClassEntry) : List Byte :=
  [byteOf n.val, byteOfBool e.valid] ++ bytes16 (e.value.setWidth 16) ++ bytes16 (e.care.setWidth 16) ++
  [byteOf (16 * e.action.code + e.width), byteOf e.base.val]

/-- Reads an entry number 0–63 (R103). -/
def parseEntryNo (a : List Byte) : Option EntryNo :=
  match a with
  | [n] => if n.toNat < 64 then some (Fin.ofNat 64 n.toNat) else none
  | _ => none

/-! ### The limits block (R185, R161) -/

/-- The four checks of R161. -/
def Limits.valid (l : Limits) : Bool :=
  decide (2 ≤ l.holdMark ∧ l.holdMark ≤ 32 ∧ l.releaseMark < l.holdMark ∧ l.reserve ≤ 256) &&
    l.weights.toList.all (fun w => decide (1 ≤ w ∧ w ≤ 8))

/-- Reads a limits block of 11 bytes; `none` when R161 refuses it. -/
def parseLimits (a : List Byte) : Option Limits :=
  match a with
  | [hold, release, r1, r0, s1, s0, w0, w1, w2, w3, set] =>
    let l : Limits := ⟨hold.toNat, release.toNat, (word16 r1 r0).toNat, word16 s1 s0,
      #v[w0.toNat, w1.toNat, w2.toNat, w3.toNat], set.extractLsb' 0 4⟩
    if l.valid then some l else none
  | _ => none

/-- The limits record as its block of 11 bytes. -/
def Limits.toBytes (l : Limits) : List Byte :=
  [byteOf l.holdMark, byteOf l.releaseMark] ++ bytes16 (BitVec.ofNat 16 l.reserve) ++ bytes16 l.stallLimit ++
  l.weights.toList.map byteOf ++ [l.discardable.setWidth 8]

/-! ### Other arguments -/

/-- Form of STREAM_CLOSE, the second argument byte: 0 GRACEFUL, 1 ABORT; `none` for any other value. -/
def closeForm (r : List Byte) : Option Bool := boolArg ((recordArgs r).getD 1 0)

/-- Clear option of COUNTERS_READ. -/
def clearOption (r : List Byte) : Option Bool := boolArg ((recordArgs r).getD 0 0)

/-- Level of UNIT_RESET: 0 STREAMS, 1 FULL. -/
def resetLevelArg (r : List Byte) : Option ResetLevel :=
  match boolArg ((recordArgs r).getD 0 0) with
  | some false => some .streams
  | some true => some .full
  | none => none

/-! ### Codes of enumerated results -/

/-- State code of the STREAM_QUERY result. -/
def StreamState.code : StreamState → Byte
  | .closed => 0
  | .opened => 1
  | .paused => 2
  | .draining => 3
  | .faulted => 4

/-- Sub-state code of the STREAM_QUERY result. -/
def Fill.code : Fill → Byte
  | .empty => 0
  | .filling _ _ _ => 1
  | .hunting => 2

/-- The fill index, 0 when not FILLING (R3). -/
def Fill.index : Fill → Nat
  | .filling _ k _ => k
  | .empty | .hunting => 0

/-- The six stream counters, 4 bytes each, in the order of Table 1-7. -/
def StreamCounters.toBytes (c : StreamCounters) : List Byte :=
  bytes32 c.cells ++ bytes32 c.duplicates ++ bytes32 c.gaps ++ bytes32 c.blocksCompleted ++ bytes32 c.blocksDropped ++
  bytes32 c.samplesDiscarded

/-- The fifteen counters, 4 bytes each, in the order of Table 8-7. -/
def Counters.toBytes (c : Counters) : List Byte :=
  bytes32 c.cellsSeen ++ bytes32 c.checkErrors ++ bytes32 c.cellsUnclaimed ++ bytes32 c.cellsRefusedFull ++
  bytes32 c.cellsRefusedFormat ++ bytes32 c.cellsAccepted ++ bytes32 c.cellsDiscardClass ++ bytes32 c.mgmtDropped ++
  bytes32 c.allocFailures ++ bytes32 c.framesSent ++ bytes32 c.stallDiscards ++ bytes32 c.creditOverflows ++
  bytes32 c.noticesLost ++ bytes32 c.linkResets ++ bytes32 c.egressLinkResets

/-- The STREAM_QUERY result of 41 bytes (R23, R185), with the stream's outstanding count. -/
def queryResult (x : Ctx) (outstanding : Nat) : List Byte :=
  [x.state.code, x.fill.code] ++ x.cfg.toBytes ++ bytes16 (BitVec.ofNat 16 x.fill.index) ++
  [x.expected, byteOfBool x.seqValid] ++ bytes16 x.nextBlock ++ [byteOf x.held.length, byteOf outstanding] ++
  x.counters.toBytes

/-- Number of descriptors in a state (R62). -/
def Pool.countIn (p : Pool) (d : DescState) : Nat := p.desc.toList.countP (fun x => x.state == d)

/-- The POOL_QUERY result of 12 bytes (R159). -/
def poolResult (p : Pool) (e : Egress) : List Byte :=
  bytes16 (BitVec.ofNat 16 p.freePages.length) ++
  [byteOf p.freeDesc.length, byteOf (p.countIn .filling), byteOf (p.countIn .held), byteOf (p.countIn .queued),
   byteOf (p.countIn .sending)] ++
  e.queues.toList.map (fun q => byteOf q.length) ++ [byteOfBool p.low]

/-- The IDENT result of 12 bytes (R158, Table 11-2). -/
def identResult (unitAddr : BitVec 3) : List Byte :=
  bytes16 Config.vendorCode ++ bytes16 Config.partCode ++ [Config.revision, unitAddr.setWidth 8] ++ bytes16 256#16 ++
  [64#8] ++ bytes16 512#16 ++ [128#8]

end Sys2Proof.Machine
end

