-- ==== Sys2Proof/Machine/Frames.lean ====
section
/-!
DEFINITION. The frames of the frame link (R138, R139, R186).
-/
namespace Sys2Proof.Machine

open Sys2Proof

/-- Notice kind codes (Table 11-4). -/
def NoticeKind.code : NoticeKind → Nat
  | .seqGap => 1
  | .noBuffer => 2
  | .heldOverflow => 3
  | .streamFault => 4
  | .streamClosed => 5
  | .egressStall => 6
  | .ingressRefused => 7
  | .linkReset => 8

/-- Status codes (Table 11-3). -/
def Status.code : Status → Byte
  | .done => 0
  | .draining => 1
  | .badCommand => 2
  | .badArgument => 3
  | .badState => 4

/-- Flag byte of a block frame. Table 11-3 names bits 2–0; the others are sent as 0 (DESIGN CHOICE, safe;
notes/assumptions/25.md). -/
def BlockFlags.toByte (f : BlockFlags) : Byte :=
  byteOf ((if f.short then 1 else 0) + (if f.broken then 2 else 0) + (if f.spliced then 4 else 0))

/-- The bytes sent for one position of a block: its page bytes below the sample count, w zero bytes at or above it
(R138 steps 1–3). -/
def positionBytes (m : Memory) (d : Desc) (pos : Nat) : List Byte :=
  let row := pos / d.geom.cols
  let col := pos % d.geom.cols
  if d.geom.indexAt row col < d.count then readBlockBytes d.pages m (d.geom.byteAt row col) d.geom.w
  else List.replicate d.geom.w 0

/-- The payload of a block frame, w·R·C bytes in row-major order (R138). -/
def blockPayload (m : Memory) (d : Desc) : List Byte :=
  (List.range d.geom.samples).flatMap (positionBytes m d)

/-- The body of a block frame. -/
def blockBody (m : Memory) (d : Desc) : List Byte :=
  [byteOf d.stream.val] ++ bytes16 d.blockNo ++
  [d.flags.toByte, byteOf ((if d.geom.order = .columnFirst then 16 else 0) + d.geom.w), byteOf d.geom.rows] ++
  bytes16 (BitVec.ofNat 16 d.geom.cols) ++ bytes16 (BitVec.ofNat 16 d.count) ++ blockPayload m d

/-- The body of a reply frame. Of its flag byte Table 11-3 names bit 0; the others are sent as 0 (DESIGN CHOICE, safe;
notes/assumptions/25.md). -/
def Reply.body (r : Reply) : List Byte :=
  bytes16 r.id ++ [r.code, r.status.code, byteOfBool r.replayed, byteOf r.result.length] ++ r.result

/-- The body of a notice frame, with the lost-since-last of the record's first take. -/
def Notice.body (n : Notice) : List Byte :=
  [byteOf n.kind.code, byteOfBool n.stream.isSome, byteOf ((n.stream.map (fun t => t.val)).getD 0), byteOf n.repeats,
   byteOf (n.lost.getD 0)]

/-- A frame: kind, unit address and body length, then the body, then the frame check (R186). -/
def frameBytes (kind : Byte) (unitAddr : BitVec 3) (body : List Byte) : List Byte :=
  let covered := [kind, unitAddr.setWidth 8] ++ bytes16 (BitVec.ofNat 16 body.length) ++ body
  covered ++ bytes32 (crc32 covered)

/-- The frame of an item, built from it as it stands (R137). -/
def frameOf (unitAddr : BitVec 3) (p : Pool) : Item → List Byte
  | .block h _ _ => frameBytes 1 unitAddr (blockBody p.mem p.desc[h])
  | .reply r => frameBytes 2 unitAddr r.body
  | .notice n => frameBytes 3 unitAddr n.body

end Sys2Proof.Machine
end

