-- ==== Sys2Proof/Machine/Ops.lean ====
section
/-!
DEFINITION. The named operations on the state: the updates of one slot, record, descriptor, queue or registry entry; the
selection and the port states of the egress side (R129–R137); the notice request (R174–R178).
-/
namespace Sys2Proof.Machine

open Sys2Proof

/-! ### Updates of one piece of state -/

/-- Writes one engagement slot. -/
def setSlot (i : SlotNo) (x : Slot) (s : State) : State :=
  { s with engine.slots := s.engine.slots.set i x }

/-- Writes the copy of a record in a slot. -/
def setCopy (i : SlotNo) (x : Ctx) (s : State) : State :=
  setSlot i { s.engine.slots[i] with copy := x } s

/-- Writes the store copy of a record. -/
def setStore (t : StreamId) (x : Ctx) (s : State) : State :=
  { s with engine.store := s.engine.store.set t x }

/-- Writes one block descriptor. -/
def setDesc (h : Handle) (d : Desc) (s : State) : State :=
  { s with pool.desc := s.pool.desc.set h d }

/-- Changes the state of one descriptor (R56). -/
def setDescState (h : Handle) (st : DescState) (s : State) : State :=
  setDesc h { s.pool.desc[h] with state := st } s

/-- Writes one class queue. -/
def setQueue (c : EgressClass) (q : List Handle) (s : State) : State :=
  { s with egress.queues := s.egress.queues.set c q }

/-- Writes one entry of the drain registry. -/
def setDrain (t : StreamId) (e : DrainEntry) (s : State) : State :=
  { s with pool.drain := s.pool.drain.set t e }

/-! ### Selection (R129, R130) -/

/-- Some class queue holds a block. -/
def hasBlocks (e : Egress) : Bool := e.queues.toList.any (fun q => !q.isEmpty)

/-- At least one item waits: a reply, a notice or a block (R129). -/
def hasWaiting (s : State) : Bool :=
  !s.egress.replies.isEmpty || !s.notices.queue.isEmpty || hasBlocks s.egress

/-- The class that comes `n` after `c`, cyclically. -/
def classAfter (c : EgressClass) (n : Nat) : EgressClass := Fin.ofNat 4 (c.val + n)

/-- The weighted round-robin: the class of the next block and the budget after its take (R130). -/
def chooseClass (e : Egress) (l : Limits) : Option (EgressClass × Nat) :=
  if !e.queues[e.curClass].isEmpty && decide (0 < e.budget) then some (e.curClass, e.budget - 1)
  else
    ([classAfter e.curClass 1, classAfter e.curClass 2, classAfter e.curClass 3, e.curClass].find?
      (fun c => !e.queues[c].isEmpty)).map (fun c => (c, l.weights[c] - 1))

/-- An item becomes the in-flight item: one credit is spent, the port enters SENDING, the timer stops and the frame is built
(R129, R134, R137). -/
def startFrame (item : Item) (s : State) : State :=
  { s with link := {
      credit := s.link.credit - 1
      port := .sending
      timer := none
      inflight := some item
      frame := frameOf s.classifier.unitAddr s.pool item } }

/-- The first take of a notice record writes the unit's lost-since-last count into it and returns the count to 0; a record
returned by an abandon keeps its value (R128, R179). -/
def takeNotice (n : Notice) (rest : List Notice) (s : State) : State :=
  match n.lost with
  | some _ => startFrame (.notice n) { s with notices.queue := rest }
  | none =>
    startFrame (.notice { n with lost := some s.notices.lost })
      { s with notices := { queue := rest, mask := s.notices.mask, lost := 0 } }

/-- A block is taken from the class that the round-robin chose: QUEUED to SENDING (R130, R136). -/
def takeBlock (s : State) : State :=
  match chooseClass s.egress s.agent.limits with
  | none => s
  | some (c, budget) =>
    match s.egress.queues[c] with
    | [] => s
    | h :: rest =>
      startFrame (.block h c false)
        (setDescState h .sending (setQueue c rest { s with egress.curClass := c, egress.budget := budget }))

/-- The take for sending: the oldest reply, otherwise the oldest notice, otherwise a block (R129). -/
def takeForSending (s : State) : State :=
  match s.egress.replies with
  | r :: rest => startFrame (.reply r) { s with egress.replies := rest }
  | [] =>
    match s.notices.queue with
    | n :: rest => takeNotice n rest s
    | [] => takeBlock s

/-- The stall timer at an entry into WAITING: loaded with the stall limit; a loaded 0 does not run (R134). -/
def loadedTimer (l : Limits) : Option Nat :=
  if l.stallLimit = 0 then none else some l.stallLimit.toNat

/-- The frame link port is judged again (R129, R133): with nothing in flight it selects when it has credit and something
waits, enters WAITING when something waits without credit, and is IDLE when nothing waits. STALLED is left only by a grant or
an egress link reset. -/
def judgePort (s : State) : State :=
  match s.link.inflight with
  | some _ => s
  | none =>
    match s.link.port with
    | .stalled => s
    | .idle | .sending | .waiting =>
      if hasWaiting s then
        if 0 < s.link.credit then takeForSending s
        else if s.link.port = .waiting then s
        else { s with link.port := .waiting, link.timer := loadedTimer s.agent.limits }
      else { s with link.port := .idle, link.timer := none }

/-! ### Notices (R174–R178) -/

/-- The mask enables the kind. -/
def noticeEnabled (mask : Byte) (k : NoticeKind) : Bool := mask.getLsbD (k.code - 1)

/-- A count that stays at 255 (R176, R178). -/
def saturate (n : Nat) : Nat := min Config.noticeCountMax n

/-- Whether a queued record has the kind and stream of a request. -/
def Notice.isFor (k : NoticeKind) (t : Option StreamId) (n : Notice) : Bool := n.kind == k && n.stream == t

/-- Raises the repeat count of the record of the same kind and stream by one, if one is queued. -/
def coalesce (k : NoticeKind) (t : Option StreamId) : List Notice → Option (List Notice)
  | [] => none
  | n :: ns =>
    if n.isFor k t then some ({ n with repeats := saturate (n.repeats + 1) } :: ns)
    else (coalesce k t ns).map (fun q => n :: q)

/-- A notice request is judged: masked, coalesced, appended or lost, the first that applies (R174). -/
def requestNotice (k : NoticeKind) (t : Option StreamId) (s : State) : State :=
  if noticeEnabled s.notices.mask k then
    match coalesce k t s.notices.queue with
    | some q => { s with notices.queue := q }
    | none =>
      if noticePlaces s < Config.noticeDepth then
        judgePort { s with notices.queue := s.notices.queue ++ [⟨k, t, 1, none⟩] }
      else count .noticesLost { s with notices.lost := saturate (s.notices.lost + 1) }
  else s

/-! ### Replies (R154) -/

/-- A reply record joins the tail of the reply queue; a selection may follow (R129, R154). -/
def appendReply (r : Reply) (s : State) : State :=
  judgePort { s with egress.replies := s.egress.replies ++ [r] }

end Sys2Proof.Machine
end

