-- ==== Sys2Proof/Machine/Engagement.lean ====
section
/-!
DEFINITION. The context engine: engagement, in-use marks, the fetch unit, the dispatcher's decision, the start of the sweeps
(R71–R91).
-/
namespace Sys2Proof.Machine

open Sys2Proof

/-- The slot numbers, 0–7. -/
def slotNos : List SlotNo := [0, 1, 2, 3, 4, 5, 6, 7]

/-- A slot carries stream `t` in CLEAN or DIRTY (R71). -/
def Slot.engages (t : StreamId) (x : Slot) : Bool :=
  x.stream == some t && (x.state == .clean || x.state == .dirty)

/-- The slot in which a stream is engaged (R71). -/
def engagedSlot (e : Engine) (t : StreamId) : Option SlotNo :=
  slotNos.find? (fun i => e.slots[i].engages t)

/-- Some slot is in use. -/
def anyInUse (e : Engine) : Bool := e.slots.toList.any (fun x => x.inUse)

/-- The engagement of the management agent or of the drain-completion service; the dispatcher has its own state. -/
def reqOf (p : Party) (s : State) : EngReq :=
  match p with
  | .management => s.engine.mgmt
  | .drain => s.engine.drainReq
  | .dispatcher => .idle

/-- Writes the engagement of the management agent or of the drain-completion service. -/
def setReq (p : Party) (r : EngReq) (s : State) : State :=
  match p with
  | .management => { s with engine.mgmt := r }
  | .drain => { s with engine.drainReq := r }
  | .dispatcher => s

/-! ### In-use marks (R73) -/

/-- Moves a slot to the most recently used rank. -/
def touch (i : SlotNo) (lru : List SlotNo) : List SlotNo := lru.erase i ++ [i]

/-- Takes the in-use mark of a slot, which becomes the most recently used (R73). -/
def takeMark (i : SlotNo) (s : State) : State :=
  setSlot i { s.engine.slots[i] with inUse := true } { s with engine.lru := touch i s.engine.lru }

/-! ### The fetch unit (R76–R80) -/

/-- The victim of a fetch: the least recently used VACANT slot, otherwise the least recently used slot in CLEAN or DIRTY that
is not in use and on which the FIFO head does not wait: no slot with a waiter is a victim (R77; notes/assumptions/8.md). -/
def victim (e : Engine) : Option SlotNo :=
  match e.lru.find? (fun i => e.slots[i].state == .vacant) with
  | some i => some i
  | none => e.lru.find? (fun i =>
      !e.slots[i].inUse && (e.slots[i].state == .clean || e.slots[i].state == .dirty) && e.dispWait != some i)

/-- Steps 1 to 3 of R76 on the chosen victim: a DIRTY slot begins its write-back, any other takes the new stream and is read. -/
def beginFetch (p : Party) (t : StreamId) (i : SlotNo) (s : State) : State :=
  let x := s.engine.slots[i]
  setSlot i
    (if x.state = .dirty then { x with state := .evicting } else { x with state := .fetching, stream := some t })
    { s with engine.fetch := some ⟨p, t, i⟩ }

/-- A party that asked takes its slot when the stream is engaged and the slot is not in use (R74). -/
def judgeTake (p : Party) (s : State) : State :=
  match reqOf p s with
  | .asked t =>
    match engagedSlot s.engine t with
    | some i => if s.engine.slots[i].inUse then s else setReq p (.holds t i) (takeMark i s)
    | none => s
  | .idle | .lodged _ | .fetching _ | .fetched _ | .holds _ _ => s

/-- The record of stream `t` is being fetched (R74; notes/assumptions/10.md). -/
def beingFetched (e : Engine) (t : StreamId) : Bool :=
  match e.fetch with
  | some f => f.stream == t
  | none => false

/-- A party that asked lodges a fetch request when the stream is neither engaged nor being fetched (R74). -/
def judgeLodge (p : Party) (s : State) : State :=
  match reqOf p s with
  | .asked t =>
    if (engagedSlot s.engine t).isSome || beingFetched s.engine t then s else setReq p (.lodged t) s
  | .idle | .lodged _ | .fetching _ | .fetched _ | .holds _ _ => s

/-- The fetch unit, IDLE, starts the waiting request of the agent or of the drain service: judged again, it needs no fetch
when its stream has been engaged meanwhile (R80). -/
def startRequest (p : Party) (s : State) : State :=
  match s.engine.fetch, reqOf p s with
  | none, .lodged t =>
    match engagedSlot s.engine t with
    | some _ => judgeTake p (setReq p (.asked t) s)
    | none =>
      match victim s.engine with
      | some i => setReq p (.fetching t) (beginFetch p t i s)
      | none => s
  | _, _ => s

/-! ### The dispatcher (R81, Table 4-4) -/

/-- The stream being fetched for the dispatcher. -/
def dispatcherFetch (e : Engine) : Option StreamId :=
  match e.fetch with
  | some ⟨.dispatcher, t, _⟩ => some t
  | some ⟨.management, _, _⟩ | some ⟨.drain, _, _⟩ | none => none

/-- No request of the agent or of the drain service waits at the fetch unit. -/
def noRequestWaits (e : Engine) : Bool :=
  (match e.mgmt with
    | .lodged _ => false
    | .idle | .asked _ | .fetching _ | .fetched _ | .holds _ _ => true) &&
  (match e.drainReq with
    | .lodged _ => false
    | .idle | .asked _ | .fetching _ | .fetched _ | .holds _ _ => true) &&
  e.dispReq.isNone

/-- The FIFO head goes to the parked-cell list (R82). -/
def parkHead (c : StreamCell) (s : State) : State :=
  fifoRemoval { s with engine.parked := s.engine.parked ++ [c] }

/-- The dispatcher's wait on a slot is withdrawn. -/
def dropWait (s : State) : State := { s with engine.dispWait := none }

/-- The FIFO head goes to the free assembler in the event in which it takes the mark of slot `i` (R81). -/
def takeHead (c : StreamCell) (i : SlotNo) (s : State) : State :=
  takeMark i (fifoRemoval { dropWait s with assembler := [⟨c, i, none⟩] })

/-- The FIFO head, of a stream engaged in slot `i`: it waits on a slot in use (R75 kind 4), and takes a free one when the
assembler is free too. With the assembler busy no second cell is taken; a wait on this slot then goes on (R81, Table 4-4;
notes/assumptions/8.md). -/
def sendHead (c : StreamCell) (i : SlotNo) (s : State) : State :=
  if s.engine.slots[i].inUse then { s with engine.dispWait := some i }
  else if s.assembler.isEmpty then takeHead c i s
  else if s.engine.dispWait = some i then s
  else dropWait s

/-- The dispatcher judges the FIFO head; outside RUNNING it takes none. Behind parked cells the head waits as it did (R81,
Table 4-4; notes/assumptions/9.md for parked cells). -/
def dispatchHead (s : State) : State :=
  match s.engine.mode, s.ingress.fifo with
  | .running, c :: _ =>
    match dispatcherFetch s.engine with
    | some u =>
      if c.stream = u then
        if s.engine.parked.length < Config.parkedDepth then parkHead c (dropWait s) else dropWait s
      else
        match engagedSlot s.engine c.stream with
        | some i => sendHead c i s
        | none => dropWait s
    | none =>
      if s.engine.parked.isEmpty then
        match engagedSlot s.engine c.stream with
        | some i => sendHead c i s
        | none =>
          let s := dropWait s
          if s.engine.fetch.isNone && noRequestWaits s.engine then
            match victim s.engine with
            | some i => parkHead c (beginFetch .dispatcher c.stream i s)
            | none => s
          else if s.engine.dispReq.isNone then { s with engine.dispReq := some c.stream }
          else s
      else s
  | _, _ => s

/-- The fetch unit, IDLE, starts the dispatcher's waiting request: the head is judged again, and with no head the request is
cancelled (R81). -/
def startDispatcher (s : State) : State :=
  match s.engine.fetch, s.engine.dispReq with
  | none, some _ => dispatchHead { s with engine.dispReq := none }
  | _, _ => s

/-- The fetch unit, when IDLE and the engine RUNNING, starts the next waiting request: the agent's, otherwise the drain
service's, otherwise the dispatcher's; a request that needs no fetch passes the turn on (R79, R80). -/
def startNext (s : State) : State :=
  match s.engine.mode with
  | .running => startDispatcher (startRequest .drain (startRequest .management s))
  | .sweepWait _ | .initSweep | .busSweep _ _ => s

/-! ### Engagement (R74) -/

/-- An engagement request is taken; in RUNNING it is judged at once, otherwise it waits (R74, R87). -/
def askEngage (p : Party) (t : StreamId) (s : State) : State :=
  let s := setReq p (.asked t) s
  match s.engine.mode with
  | .running => startNext (judgeLodge p (judgeTake p s))
  | .sweepWait _ | .initSweep | .busSweep _ _ => s

/-- The drain-completion service, when it has nothing asked, asks for the head of its list (R85). -/
def serveDrain (s : State) : State :=
  match s.engine.drainReq, s.engine.drainList with
  | .idle, t :: _ => askEngage .drain t s
  | _, _ => s

/-- A drain completion is raised: the stream joins the drain-completion list unless it is there (R67, R85). -/
def raiseDrain (t : StreamId) (s : State) : State :=
  if s.engine.drainList.contains t then s
  else serveDrain { s with engine.drainList := s.engine.drainList ++ [t] }

/-! ### Sweeps (R87–R91) -/

/-- The init sweep begins: every record takes its reset value, every slot is VACANT, and the parked-cell list, the
drain-completion list and the waiting requests are emptied (R88). Operations in progress have ended. -/
def startInitSweep (s : State) : State :=
  { s with engine := .reset, assembler := [] }

/-- Samples of a DATA cell under sample width w, payload length over w rounded down (R4). -/
def StreamCell.samples (w : Nat) (c : StreamCell) : Nat :=
  match c.kind with
  | .data => c.payload.length / w
  | .mark => 0

/-- samples_discarded advances by n. -/
def Ctx.discardSamples (n : Nat) (x : Ctx) : Ctx :=
  { x with counters.samplesDiscarded := x.counters.samplesDiscarded + BitVec.ofNat 32 n }

/-- The bus-reset sweep disposes of the parked cells: the samples of DATA cells count in the record of the parked stream,
whose slot is left DIRTY if any count advanced (R89). -/
def discardParked (s : State) : State :=
  match s.engine.parked with
  | [] => s
  | c :: _ =>
    match engagedSlot s.engine c.stream with
    | none => { s with engine.parked := [] }
    | some i =>
      let x := s.engine.slots[i]
      let n := (s.engine.parked.map (fun c => c.samples x.copy.cfg.geom.w)).sum
      setSlot i { x with copy := x.copy.discardSamples n, state := if n = 0 then x.state else .dirty }
        { s with engine.parked := [] }

/-- The bus-reset sweep begins: the parked cells are discarded and the dispatcher's request and wait withdrawn; stream 0 is
next (R89, R90). -/
def startBusSweep (s : State) : State :=
  let s := discardParked s
  { s with engine.dispReq := none, engine.dispWait := none, engine.mode := .busSweep 0 false }

/-- SWEEP_WAIT ends when no slot is in use and the fetch unit is IDLE (R87). -/
def leaveSweepWait (s : State) : State :=
  match s.engine.mode with
  | .sweepWait k =>
    if !anyInUse s.engine && s.engine.fetch.isNone then
      match k with
      | .init => startInitSweep s
      | .bus => startBusSweep s
    else s
  | .running | .initSweep | .busSweep _ _ => s

/-- A sweep request (R87): in RUNNING it puts the engine in SWEEP_WAIT; a bus-reset request is joined to any sweep pending or
running; an init request replaces a pending bus-reset sweep, and ends a running one after the step in progress. -/
def requestSweep (k : SweepKind) (s : State) : State :=
  match s.engine.mode, k with
  | .running, k => leaveSweepWait { s with engine.mode := .sweepWait k }
  | .sweepWait .bus, .init => { s with engine.mode := .sweepWait .init }
  | .busSweep n _, .init => { s with engine.mode := .busSweep n true }
  | .sweepWait _, _ | .initSweep, _ | .busSweep _ _, .bus => s

/-- An operation in progress has been overtaken by a FULL reset (R172): the reset put the engine in SWEEP_WAIT for the init
sweep, and every operation then still in progress began before it. -/
def overtaken (s : State) : Bool := s.engine.mode == .sweepWait .init

/-! ### Release and hand-on of the in-use mark (R75) -/

/-- The slot's mark goes to the party if it is a waiter of the slot. -/
def handTo (p : Party) (i : SlotNo) (t : StreamId) (s : State) : Option State :=
  match reqOf p s with
  | .asked u => if u = t then some (setReq p (.holds t i) (takeMark i s)) else none
  | .idle | .lodged _ | .fetching _ | .fetched _ | .holds _ _ => none

/-- The slot is handed to the head of the parked-cell list, which leaves the list for the assembler (R75 kind 1, R82, R83).
The assembler is free whenever this is asked in a state that a run reaches (R73; notes/assumptions/23.md). -/
def handToParked (i : SlotNo) (s : State) : State :=
  match s.engine.parked with
  | [] => s
  | c :: rest =>
    if s.assembler.isEmpty then
      takeMark i { s with engine.parked := rest, assembler := [⟨c, i, none⟩] }
    else s

/-- The slot is handed to the FIFO head that waits on it (R75 kind 4). While a cell is in assembly on another slot, or a read
for parked cells waits for the assembler, no second cell is taken: the head goes on waiting, and the slot waits for it
(R81, R83; notes/assumptions/8.md). -/
def handToHead (i : SlotNo) (t : StreamId) (s : State) : State :=
  match s.ingress.fifo with
  | c :: _ =>
    if s.engine.dispWait = some i ∧ c.stream = t ∧ s.assembler.isEmpty ∧ s.engine.readWaits = false then takeHead c i s
    else s
  | [] => s

/-- A parked cell of the slot's stream waits. -/
def parkedWaits (t : StreamId) (e : Engine) : Bool :=
  match e.parked with
  | [] => false
  | c :: _ => c.stream == t

/-- Hands the mark of a slot on, in the event that releases it: parked cell, management operation, drain completion, FIFO
head (R75). -/
def handOn (i : SlotNo) (s : State) : State :=
  match s.engine.slots[i].stream with
  | none => s
  | some t =>
    if parkedWaits t s.engine then handToParked i s
    else
      match handTo .management i t s with
      | some s' => s'
      | none =>
        match handTo .drain i t s with
        | some s' => s'
        | none => handToHead i t s

/-- The end of an operation on a slot: the mark is released, the slot is DIRTY if the operation wrote the record, and the
mark is handed on, or in SWEEP_WAIT is not (R73, R75, R87). -/
def release (i : SlotNo) (wrote : Bool) (s : State) : State :=
  let x := s.engine.slots[i]
  let s := setSlot i { x with inUse := false, state := if wrote then .dirty else x.state } s
  match s.engine.mode with
  | .running => handOn i s
  | .sweepWait _ => leaveSweepWait s
  | .initSweep | .busSweep _ _ => s

/-- The assembler is free again: the FIFO head takes the slot that was released for it meanwhile (R75 kind 4, R81;
notes/assumptions/8.md). -/
def serveHead (s : State) : State :=
  match s.engine.mode, s.engine.dispWait with
  | .running, some i =>
    match s.engine.slots[i].stream with
    | some t => if s.engine.slots[i].inUse then s else handToHead i t s
    | none => s
  | _, _ => s

/-! ### The end of the bus-reset sweep (R91) -/

/-- A requester whose fetch completed in SWEEP_WAIT is handed its slot (R91). -/
def handFetched (p : Party) (s : State) : State :=
  match reqOf p s with
  | .fetched t => judgeTake p (setReq p (.asked t) s)
  | .idle | .asked _ | .lodged _ | .fetching _ | .holds _ _ => s

/-- The waiting users are served as in RUNNING: slots whose fetch completed in SWEEP_WAIT go to their requesters, then the
other waiters take theirs, and the fetch unit starts the highest waiting request (R91; notes/assumptions/21.md). -/
def serveWaiting (s : State) : State :=
  startNext <| judgeLodge .drain <| judgeLodge .management <| judgeTake .drain <| judgeTake .management <|
    handFetched .drain <| handFetched .management s

end Sys2Proof.Machine
end

