-- ==== Sys2Proof/Machine/Storage.lean ====
section
/-!
DEFINITION. The buffer pool and the class queues: the drain registry, allocation, freeing by the place where the asking rule
finds the block, the queue entry, the purges (R51–R70, R126, R134, R141).
-/
namespace Sys2Proof.Machine

open Sys2Proof

/-! ### The drain registry (R65–R68) -/

/-- The outstanding count of a stream. -/
def outstanding (t : StreamId) (s : State) : Nat := s.pool.drain[t].count

/-- The outstanding count rises by one at a queue entry (R66). -/
def riseOutstanding (t : StreamId) (s : State) : State :=
  setDrain t { s.pool.drain[t] with count := s.pool.drain[t].count + 1 } s

/-- The outstanding count falls by one; a fall to 0 with drain pending clears the flag and raises a drain completion (R67). -/
def fallOutstanding (t : StreamId) (s : State) : State :=
  let e := s.pool.drain[t]
  let n := e.count - 1
  if n = 0 && e.pending then raiseDrain t (setDrain t ⟨0, false⟩ s)
  else setDrain t { e with count := n } s

/-- Sets or clears the drain-pending flag (R68). -/
def setDrainPending (t : StreamId) (b : Bool) (s : State) : State :=
  setDrain t { s.pool.drain[t] with pending := b } s

/-! ### Allocation (R58, R59) -/

/-- One descriptor and the pages of a block, from the heads of the free lists; the descriptor is FILLING with its stream,
block number and geometry, flags empty (R54). Its sample count is not yet set (R35) and stands at 0 in the model until the
completion routine writes it (DESIGN CHOICE, safe: nothing reads it while the block is FILLING; notes/assumptions/16.md). `none`
when storage is short: nothing is taken. -/
def allocate (t : StreamId) (blockNo : BitVec 16) (g : Geometry) (s : State) : Option (Handle × State) :=
  match s.pool.freeDesc with
  | [] => none
  | h :: rest =>
    if g.pages ≤ s.pool.freePages.length then
      some (h, judgePoolLow (setDesc h ⟨.filling, t, blockNo, g, s.pool.freePages.take g.pages, 0, .none⟩
        { s with pool.freeDesc := rest, pool.freePages := s.pool.freePages.drop g.pages }))
    else none

/-! ### Freeing (R60) -/

/-- A freeing of a FILLING or HELD block: the pages, then the descriptor, return to the tails of the free lists and the
pool-low condition is recomputed (R60 steps 1, 2, 4). -/
def freeBlock (h : Handle) (s : State) : State :=
  judgePoolLow (setDesc h .free { s with
    pool.freePages := s.pool.freePages ++ s.pool.desc[h].pages
    pool.freeDesc := s.pool.freeDesc ++ [h] })

/-- The class queues without a handle. -/
def withoutHandle (h : Handle) (q : Vector (List Handle) 4) : Vector (List Handle) 4 :=
  #v[q[0].erase h, q[1].erase h, q[2].erase h, q[3].erase h]

/-- A freeing of a QUEUED block: it leaves its class queue and its stream's outstanding count falls (R60 step 3, R67). -/
def freeQueued (h : Handle) (s : State) : State :=
  fallOutstanding s.pool.desc[h].stream (freeBlock h { s with egress.queues := withoutHandle h s.egress.queues })

/-- A freeing of the SENDING block: it leaves the in-flight item and its stream's outstanding count falls (R60 step 3,
R67). -/
def freeSending (h : Handle) (s : State) : State :=
  fallOutstanding s.pool.desc[h].stream (freeBlock h { s with link.inflight := none, link.frame := [] })

/-! ### Queue entry (R9, R41, R126) -/

/-- The class is in the discardable set (R135). -/
def isDiscardable (l : Limits) (c : EgressClass) : Bool := l.discardable.getLsbD c.val

/-- A block of stream `t` that meets a STALLED port in a discardable class is freed and counted in stall_discards; any other
joins the tail of its class queue as QUEUED, its stream's outstanding count rises, and a selection may follow (R9, R41,
R66, R129). -/
def queueEntry (t : StreamId) (c : EgressClass) (h : Handle) (s : State) : State :=
  if s.link.port = .stalled ∧ isDiscardable s.agent.limits c = true then count .stallDiscards (freeBlock h s)
  else judgePort (riseOutstanding t (setQueue c (s.egress.queues[c] ++ [h]) (setDescState h .queued s)))

/-- A release hands on each block of a held list, oldest first (R9). -/
def handOnBlocks (t : StreamId) (c : EgressClass) : List Handle → State → State
  | [], s => s
  | h :: hs, s => handOnBlocks t c hs (queueEntry t c h s)

/-! ### Purges -/

/-- Frees FILLING or HELD blocks in turn (R61). -/
def freeAll : List Handle → State → State
  | [], s => s
  | h :: hs, s => freeAll hs (freeBlock h s)

/-- Frees QUEUED blocks in turn (R61). -/
def freeAllQueued : List Handle → State → State
  | [], s => s
  | h :: hs, s => freeAllQueued hs (freeQueued h s)

/-- The QUEUED handles of a stream, queue by queue from head to tail (R141). -/
def queuedOf (t : StreamId) (s : State) : List Handle :=
  s.egress.queues.toList.flatten.filter (fun h => s.pool.desc[h].stream == t)

/-- The in-flight item is a block of the stream: its abort mark is set (R143). -/
def markAbort (t : StreamId) (s : State) : State :=
  match s.link.inflight with
  | some (.block h c _) =>
    if s.pool.desc[h].stream = t then { s with link.inflight := some (.block h c true) } else s
  | some (.reply _) | some (.notice _) | none => s

/-- The stall purge of one class queue, head to tail, each block counted in stall_discards (R134 step 2). -/
def purgeStalled : List Handle → State → State
  | [], s => s
  | h :: hs, s => purgeStalled hs (count .stallDiscards (freeQueued h s))

/-- The stall purge of one class, if it is in the discardable set. -/
def purgeClass (c : EgressClass) (s : State) : State :=
  if isDiscardable s.agent.limits c then purgeStalled s.egress.queues[c] s else s

end Sys2Proof.Machine
end

