-- ==== Sys2Proof/Machine/BlockOps.lean ====
section
/-!
DEFINITION. What happens to the blocks of one stream: the completion routine (R40–R44), the broken block (R32), the start and
placing of a block (R34–R39), the mark actions (R47, R48), the teardown of a stream (R18). Each operation acts on the rest of
the state and on the current copy of the stream's record.
-/
namespace Sys2Proof.Machine

open Sys2Proof

/-- The state beside the current copy of the record being operated on. -/
abbrev Work := State × Ctx

/-! ### Counters of the record -/

/-- blocks_dropped advances by one. -/
def Ctx.dropBlock (x : Ctx) : Ctx :=
  { x with counters.blocksDropped := x.counters.blocksDropped + 1 }

/-- blocks_completed advances by one. -/
def Ctx.completeBlock (x : Ctx) : Ctx :=
  { x with counters.blocksCompleted := x.counters.blocksCompleted + 1 }

/-- cells advances by one (R25). -/
def Ctx.countCell (x : Ctx) : Ctx :=
  { x with counters.cells := x.counters.cells + 1 }

/-- duplicates advances by one (R28). -/
def Ctx.countDuplicate (x : Ctx) : Ctx :=
  { x with counters.duplicates := x.counters.duplicates + 1 }

/-- gaps advances by one (R29, R30, R31). -/
def Ctx.countGap (x : Ctx) : Ctx :=
  { x with counters.gaps := x.counters.gaps + 1 }

/-! ### The completion routine (R40–R44) -/

/-- A completion on a full held list under DROP_OLDEST (R43). -/
def overflowDropOldest (t : StreamId) (h : Handle) (s : State) (x : Ctx) : Work :=
  match x.held with
  | [] => (setDescState h .held s, { x with held := [h] })
  | oldest :: rest =>
    (requestNotice .heldOverflow (some t) (setDescState h .held (freeBlock oldest s)),
      { x.dropBlock with held := rest ++ [h] })

/-- A completion on a full held list under FAULT (R44). -/
def overflowFault (t : StreamId) (h : Handle) (s : State) (x : Ctx) : Work :=
  (requestNotice .streamFault (some t) (freeBlock h s), { x.dropBlock with state := .faulted, fill := .empty })

/-- The branch of the completion routine on release mode, held limit and held-overflow policy (R41–R44). -/
def placeCompleted (t : StreamId) (h : Handle) (s : State) (x : Ctx) : Work :=
  match x.cfg.mode with
  | .immediate => (queueEntry t x.cfg.cls h s, x)
  | .held =>
    if x.held.length < x.cfg.heldLimit then (setDescState h .held s, { x with held := x.held ++ [h] })
    else
      match x.cfg.overflow with
      | .dropOldest => overflowDropOldest t h s x
      | .fault => overflowFault t h s x

/-- The completion routine: the sample count and the flags, with SPLICED when the spliced mark is set, go into the
descriptor, blocks_completed advances, the current block ends and the sub-state is EMPTY; then the block is held, queued or
freed (R40). -/
def complete (t : StreamId) (h : Handle) (n : Nat) (short broken spliced : Bool) (s : State) (x : Ctx) : Work :=
  placeCompleted t h (setDesc h { s.pool.desc[h] with count := n, flags := ⟨short, broken, spliced⟩ } s)
    { x.completeBlock with fill := .empty }

/-- The CUT action: a FILLING block completes as SHORT with sample count k; EMPTY and HUNTING stay (R14, R47). -/
def cut (t : StreamId) (s : State) (x : Ctx) : Work :=
  match x.fill with
  | .filling h k spliced => complete t h k true false spliced s x
  | .empty | .hunting => (s, x)

/-- A FILLING block is broken under the broken policy; then the sub-state is HUNTING, unless the completion faulted the
stream (R32, R44). EMPTY becomes HUNTING too. -/
def breakAndHunt (t : StreamId) (s : State) (x : Ctx) : Work :=
  match x.fill with
  | .filling h k spliced =>
    match x.cfg.broken with
    | .emit =>
      let r := complete t h k false true spliced s x
      if r.2.state = .faulted then r else (r.1, { r.2 with fill := .hunting })
    | .discard => (freeBlock h s, { x.dropBlock with fill := .hunting })
  | .empty | .hunting => (s, { x with fill := .hunting })

/-- The RELEASE action: in HELD mode the whole held list is handed on (R9, R48). -/
def releaseHeld (t : StreamId) (s : State) (x : Ctx) : Work :=
  match x.cfg.mode with
  | .held => (handOnBlocks t x.cfg.cls x.held s, { x with held := [] })
  | .immediate => (s, x)

/-! ### Placing (R34–R39) -/

/-- A sample of a FILLING block is placed at fill index k; at R·C the block is complete (R34, R36, R37). -/
def placeSample (t : StreamId) (h : Handle) (k : Nat) (spliced : Bool) (sample : List Byte) (s : State) (x : Ctx) : Work :=
  let d := s.pool.desc[h]
  let s := { s with
    pool.mem := writeBlockBytes d.pages s.pool.mem (d.geom.byteAt (d.geom.rowOf k) (d.geom.colOf k)) sample }
  if k + 1 = d.geom.samples then complete t h (k + 1) false false spliced s x
  else (s, { x with fill := .filling h (k + 1) spliced })

/-- A sample finds EMPTY: a block is started and the sample placed at fill index 0; without storage the start fails as a
whole and the stream hunts (R35, R39). -/
def startBlock (t : StreamId) (sample : List Byte) (s : State) (x : Ctx) : Work :=
  match allocate t x.nextBlock x.cfg.geom s with
  | some (h, s) => placeSample t h 0 false sample s { x with nextBlock := x.nextBlock + 1 }
  | none => (requestNotice .noBuffer (some t) (count .allocFailures s), { x.discardSamples 1 with fill := .hunting })

/-- One sample, handled by the sub-state it finds; once the stream has left OPEN it is discarded (R34). -/
def takeSample (t : StreamId) (sample : List Byte) (w : Work) : Work :=
  if w.2.state = .opened then
    match w.2.fill with
    | .empty => startBlock t sample w.1 w.2
    | .filling h k spliced => placeSample t h k spliced sample w.1 w.2
    | .hunting => (w.1, w.2.discardSamples 1)
  else (w.1, w.2.discardSamples 1)

/-- The samples of a cell, sample 0 first (R34). -/
def takeSamples (t : StreamId) : List (List Byte) → Work → Work
  | [], w => w
  | x :: xs, w => takeSamples t xs (takeSample t x w)

/-- The first n samples of w bytes of a payload (R25). -/
def splitSamples (w : Nat) : Nat → List Byte → List (List Byte)
  | 0, _ => []
  | n + 1, bs => bs.take w :: splitSamples w n (bs.drop w)

/-! ### Teardown (R18) -/

/-- The handles that an abort frees before the queued blocks: the current block, then the held list oldest first (R18, R61). -/
def ownedBlocks (x : Ctx) : List Handle :=
  match x.fill with
  | .filling h _ _ => h :: x.held
  | .empty | .hunting => x.held

/-- The teardown of STREAM_CLOSE ABORT and of a STREAMS reset, steps 1 to 6 of R18: drain pending cleared; the current block,
the held list and the queued blocks freed, each counted in blocks_dropped; a SENDING block marked; the record CLOSED. The
port is judged again, since waiting blocks may have gone (R133). -/
def tearDown (t : StreamId) (s : State) (x : Ctx) : Work :=
  let s := freeAll (ownedBlocks x) (setDrainPending t false s)
  let queued := queuedOf t s
  let dropped := (ownedBlocks x).length + queued.length
  (judgePort (markAbort t (freeAllQueued queued s)),
    { x with
      state := .closed
      fill := .empty
      seqValid := false
      held := []
      counters.blocksDropped := x.counters.blocksDropped + BitVec.ofNat 32 dropped })

end Sys2Proof.Machine
end

