-- ==== Sys2Proof/Machine/ResetPin.lean ====
section
/-!
DEFINITION. RESET_N and the end of the init sweep (R88, R188). An event other than the release of RESET_N does nothing while
RESET_N is low.
-/
namespace Sys2Proof.Machine

open Sys2Proof

/-- What a step of this block answers. -/
abbrev StepResult := Host.Outcome State Fault Refusal

/-- An event of the running part: while RESET_N is low the part disregards the cell bus and the return lane and does nothing
(R188). -/
def live (f : State → State) (s : State) : StepResult :=
  if s.resetLow then .next s else .next (f s)

/-- The part held in reset: HOLD driven, response lane undriven, nothing sent; page bytes and the sampled unit address stay
(R52, R188; notes/assumptions/11.md). -/
def heldInReset (s : State) : State :=
  { State.powerOn s.classifier.unitAddr s.pool.mem s.pending with resetLow := true }

/-- RESET_N_ASSERT: a low level of 2 µs or longer resets the part, a shorter one is filtered (R188). -/
def execResetNAssert (lowNs : Nat) (s : State) : StepResult :=
  .next (if Config.resetLowNs ≤ lowNs then heldInReset s else s)

/-- RESET_N_RELEASE: the straps are sampled, every piece of state takes its power-on value, page bytes are kept, and the init
sweep begins with the port in INIT (R52, R88, R188). Without a low level before it there is no edge. -/
def execResetNRelease (straps : BitVec 3) (s : State) : StepResult :=
  .next (if s.resetLow then State.powerOn straps s.pool.mem s.pending else s)

/-- The context engine answers the ingress port, which becomes READY and judges HOLD (R88, R91, R123). -/
def answerPort (s : State) : State :=
  judgeHold { s with ingress.port := .ready }

/-- INIT_SWEEP_COMPLETION: the engine enters RUNNING and answers the ingress port (R88, R123). -/
def initSweepDone (s : State) : State :=
  match s.engine.mode with
  | .initSweep => answerPort { s with engine.mode := .running }
  | .running | .sweepWait _ | .busSweep _ _ => s

/-- INIT_SWEEP_COMPLETION (R88). -/
def execInitSweepCompletion (s : State) : StepResult := live initSweepDone s

end Sys2Proof.Machine
end

