-- ==== Sys2Proof/Machine/Agent.lean ====
section
/-!
DEFINITION. The management agent: the end of an execution, the take of a command, and how a command that acts on no stream
and one that acts on a stream are executed (R151–R157).
-/
namespace Sys2Proof.Machine

open Sys2Proof

/-! ### Replies and the transaction cache (R154, R155) -/

/-- The reply record of an executed command, REPLAYED clear (R154). -/
def replyFor (record : List Byte) (status : Status) (result : List Byte) : Reply :=
  ⟨recordId record, recordCode record, status, false, result⟩

/-- The cache after an execution: replaced when the transaction id is not 0 (R155). -/
def cacheAfter (record : List Byte) (r : Reply) (old : Option CacheEntry) : Option CacheEntry :=
  if recordId record = 0 then old else some ⟨recordId record, recordCode record, r⟩

/-- The end of an execution: the reply is appended, the cache written, and the agent leaves EXECUTING for `next` (R152). The take
that follows in the same event is `takeNext`. -/
def finish (record : List Byte) (status : Status) (result : List Byte) (next : AgentState) (s : State) : State :=
  let r := replyFor record status result
  appendReply r { s with
    agent.state := next
    agent.cache := cacheAfter record r s.agent.cache }

/-- The cached reply with REPLAYED set, when the record is a replay: an entry, an id that is not 0, and id and code equal
(R156). -/
def replayOf (record : List Byte) (cache : Option CacheEntry) : Option Reply :=
  match cache with
  | none => none
  | some e =>
    if recordId record ≠ 0 ∧ recordId record = e.id ∧ recordCode record = e.code then some { e.reply with replayed := true }
    else none

/-! ### The take (R151) -/

/-- A record taken for execution: a wrong code or length ends the execution at once; a stream command asks for its stream's
engagement; any other is executed by its own event (R152, R153). -/
def beginExecution (record : List Byte) (s : State) : State :=
  match judgeRecord record with
  | some status => finish record status [] .idle s
  | none =>
    let s := { s with agent.state := .executing record }
    match recordCommand record with
    | some c => if c.onStream then askEngage .management (recordStream record) s else s
    | none => s

/-- One take: the head leaves the command queue and is answered from the cache or executed (R151, R156). -/
def takeOne (record : List Byte) (rest : List (List Byte)) (s : State) : State :=
  let s := { s with agent.cmdq := rest }
  match replayOf record s.agent.cache with
  | some r => appendReply r s
  | none => beginExecution record s

/-- The take, repeated in the same event while the agent is IDLE again, a record waits and a reply place is free; with a record waiting
and no reply place free the agent waits for one (R151). At most the records queued at the start are taken. -/
def takeCommands : Nat → State → State
  | 0, s => s
  | n + 1, s =>
    match s.agent.state, s.agent.cmdq with
    | .idle, record :: rest =>
      if replyOccupancy s < Config.replyDepth then takeCommands n (takeOne record rest s)
      else { s with agent.state := .waitingReplySpace }
    | _, _ => s

/-- The take, made in each event that may leave the agent IDLE beside a queued record and a free reply place: an arrival in the
command queue, the end of an execution or of a teardown, the freeing of a reply place (R151). -/
def takeNext (s : State) : State := takeCommands s.agent.cmdq.length s

/-- COMMAND_TAKE (R151): the take as an event of its own, which finds nothing due in a state that a run reaches
(notes/assumptions/1.md). -/
def execCommandTake (s : State) : StepResult := live takeNext s

/-! ### Execution -/

/-- What a command leaves: the state, the status of its reply and its result. -/
structure Answer where
  state : State
  status : Status
  result : List Byte

/-- A refused command: nothing changes, the result is empty (R153). -/
def refuse (status : Status) (s : State) : Answer := ⟨s, status, []⟩

/-- Executes, in one event, the record that the agent holds when it is the command of this row; the next take is made in that event
(R151, R152). -/
def runPlain (c : Command) (mine : List Byte → Bool) (f : List Byte → State → Answer) (s : State) : State :=
  match s.agent.state with
  | .executing record =>
    if recordCommand record = some c ∧ mine record = true then
      let a := f record s
      takeNext (finish record a.status a.result .idle a.state)
    else s
  | .idle | .waitingReplySpace | .tearing _ | .resetPending _ => s

/-- What a stream command leaves: the state and the record beside the answer, and whether it wrote the record (R73). -/
structure StreamAnswer where
  state : State
  ctx : Ctx
  wrote : Bool
  status : Status
  result : List Byte

/-- A stream command refused with nothing changed (R10). -/
def refuseStream (status : Status) (s : State) (x : Ctx) : StreamAnswer := ⟨s, x, false, status, []⟩

/-- A stream command that wrote its record and answers with an empty result. -/
def wroteStream (status : Status) (w : Work) : StreamAnswer := ⟨w.1, w.2, true, status, []⟩

/-- Executes the stream command of this row as one operation on the engaged record: the copy is written, the reply appended,
the mark released and handed on, and the next take made in that event (R73, R86, R151, R152). -/
def runStream (c : Command) (mine : List Byte → Bool) (f : List Byte → StreamId → State → Ctx → StreamAnswer)
    (s : State) : State :=
  match s.agent.state, s.engine.mgmt with
  | .executing record, .holds t i =>
    if recordCommand record = some c ∧ mine record = true then
      let a := f record t s s.engine.slots[i].copy
      takeNext <| release i a.wrote <| finish record a.status a.result .idle
        { setCopy i a.ctx a.state with engine.mgmt := .idle }
    else s
  | _, _ => s

/-- A row that executes every record of its command. -/
def anyRecord (_ : List Byte) : Bool := true

end Sys2Proof.Machine
end

