-- ==== Sys2Proof/Machine/Classify.lean ====
section
/-!
DEFINITION. Tag classification (R93–R98).
-/
namespace Sys2Proof.Machine

open Sys2Proof

/-- Resolution of a tag (Table 5-3). -/
inductive Resolution
  | stream (t : StreamId)
  | discard
  | managementUnit
  | managementBroadcast
  | noClaim
  deriving DecidableEq, Repr

/-- A tag of the management range, 0FF0h–0FFFh (R94). -/
def isManagementTag (tag : BitVec 12) : Bool := decide (0xFF0#12 ≤ tag)

/-- A data tag matches an entry: valid, and equal to the match value in every cared bit (R95). -/
def ClassEntry.matchesTag (e : ClassEntry) (tag : BitVec 12) : Bool :=
  e.valid && decide (tag &&& e.care = e.value &&& e.care)

/-- The resolution that a deciding entry gives (R97, R98, R99). -/
def ClassEntry.resolution (e : ClassEntry) (tag : BitVec 12) : Resolution :=
  match e.action with
  | .stream => .stream e.base
  | .spread => .stream (Fin.ofNat 256 (e.base.val + tag.toNat % 2 ^ e.width))
  | .discard => .discard

/-- The resolution of a tag: management tags by the unit address alone, data tags by the matching entry of lowest number
(R94, R96). -/
def resolve (c : Classifier) (tag : BitVec 12) : Resolution :=
  if isManagementTag tag then
    if tag = 0xFFF#12 then .managementBroadcast
    else if tag = 0xFF0#12 + c.unitAddr.setWidth 12 then .managementUnit
    else .noClaim
  else
    match c.table.toList.find? (fun e => e.matchesTag tag) with
    | some e => e.resolution tag
    | none => .noClaim

end Sys2Proof.Machine
end

