-- ==== Sys2Proof/Machine/CellBus.lean ====
section
/-!
DEFINITION. The events of the cell bus: the arrival of a cell (R107–R118) and the bus-reset sequence (R122, R123).
-/
namespace Sys2Proof.Machine

open Sys2Proof

/-- A line of the response lane: released to its pull-up, or driven low (Table 12-2). -/
inductive Line
  | released | low
  deriving DecidableEq, Repr

/-- RSP1 and RSP0 under a response, or under none (Table 12-2). -/
def rspLines (r : Option Response) : Line × Line :=
  match r with
  | none => (.released, .released)
  | some .accept => (.released, .low)
  | some .refuseFormat => (.low, .released)
  | some .refuseFull => (.low, .low)

/-- The levels of the pins RSP1 and RSP0 (R189). -/
def State.rspPins (s : State) : Line × Line := rspLines s.ingress.rsp

/-- The response lane in the window of this cell (R117, R189). -/
def respond (r : Option Response) (s : State) : State :=
  { s with ingress.rsp := r }

/-- A MARK cell's payload is one byte 1, 2 or 3 (R112). -/
def legalMark (payload : List Byte) : Bool :=
  match payload with
  | [b] => decide (1 ≤ b.toNat ∧ b.toNat ≤ 3)
  | _ => false

/-- The kind fits the claim (R112 test 3). -/
def kindFits (k : CellKind) (r : Resolution) : Bool :=
  match r with
  | .stream _ | .discard => k == .data || k == .mark
  | .managementUnit | .managementBroadcast => k == .mgmt
  | .noClaim => false

/-- The five tests of the format judgement (R112). -/
def wellFormedCell (c : Cell) (r : Resolution) : Bool :=
  decide (c.version = 1) && decide (c.payload.length ≤ 64) && kindFits c.kind r &&
  (c.kind != .mark || legalMark c.payload) && (c.kind != .mgmt || decide (4 ≤ c.payload.length))

/-- The response that a claim calls for: none on the broadcast tag (R113, R115, R116). -/
def Resolution.answer (r : Resolution) (code : Response) : Option Response :=
  match r with
  | .stream _ | .discard | .managementUnit => some code
  | .managementBroadcast | .noClaim => none

/-- A format fault (R113). -/
def formatFault (r : Resolution) (s : State) : State :=
  respond (r.answer .refuseFormat) (count .cellsRefusedFormat s)

/-- A cell refused for want of space: counted, answered REFUSE_FULL, and INGRESS_REFUSED requested (R114, R115). -/
def refuseFull (s : State) : State :=
  requestNotice .ingressRefused none (respond (some .refuseFull) (count .cellsRefusedFull s))

/-- A broadcast MGMT cell that finds the command queue full (R115). -/
def dropBroadcast (s : State) : State :=
  requestNotice .ingressRefused none (respond none (count .mgmtDropped s))

/-- The kind of a cell in the FIFO. -/
def CellKind.inFifo (k : CellKind) : StreamCellKind :=
  match k with
  | .mark => .mark
  | .data | .mgmt | .fill => .data

/-- A well-formed DATA or MARK cell resolved to a stream (R114, R116). -/
def arriveStream (c : Cell) (t : StreamId) (s : State) : State :=
  if s.ingress.fifo.length < Config.fifoDepth then
    respond (some .accept) (fifoEntry ⟨c.kind.inFifo, c.sync, c.seq, c.payload, t⟩ (count .cellsAccepted s))
  else refuseFull s

/-- A command record joins the tail of the command queue and its cell is answered; an IDLE agent takes the head in the same event, or
waits for reply space (R116, R124, R151). -/
def queueCommand (record : List Byte) (answer : Option Response) (s : State) : State :=
  takeNext (respond answer { s with agent.cmdq := s.agent.cmdq ++ [record] })

/-- A well-formed MGMT cell (R115, R116). -/
def arriveManagement (c : Cell) (broadcast : Bool) (s : State) : State :=
  if s.agent.cmdq.length < Config.commandDepth then
    queueCommand c.payload (if broadcast then none else some .accept) (count .cellsAccepted s)
  else if broadcast then dropBroadcast s
  else refuseFull s

/-- A claimed cell: format, then space, then acceptance (R112–R116). -/
def claimedCell (c : Cell) (r : Resolution) (s : State) : State :=
  if wellFormedCell c r then
    match r with
    | .stream t => arriveStream c t s
    | .discard => respond (some .accept) (count .cellsDiscardClass s)
    | .managementUnit => arriveManagement c false s
    | .managementBroadcast => arriveManagement c true s
    | .noClaim => s
  else formatFault r s

/-- The judgement of an arrival in READY: check, kind, claim, format, space (Figure 6-1). -/
def judgeArrival (c : Cell) (s : State) : State :=
  if c.checkOk then
    match c.kind with
    | .fill => s
    | .data | .mark | .mgmt =>
      match resolve s.classifier c.tag with
      | .noClaim => count .cellsUnclaimed s
      | .stream t => claimedCell c (.stream t) s
      | .discard => claimedCell c .discard s
      | .managementUnit => claimedCell c .managementUnit s
      | .managementBroadcast => claimedCell c .managementBroadcast s
  else count .checkErrors s

/-- One arrival: cells_seen advances in every port state; only READY judges the cell (R108, R109, R118). -/
def arrive (c : Cell) (s : State) : State :=
  let s := respond none (count .cellsSeen s)
  match s.ingress.port with
  | .ready => judgeArrival c s
  | .init | .busReset => s

/-- CELL_ARRIVAL (R107). Bytes that are not a whole cell are no arrival. -/
def execCellArrival (bytes : List Byte) (s : State) : StepResult :=
  live (fun s =>
    match parseCell bytes with
    | some c => arrive c s
    | none => s) s

/-- Steps 1 and 2 of a bus reset taken in READY: BUS_RESET, the FIFO emptied, the hold flag clear, HOLD judged (R120, R122). -/
def emptyForBusReset (s : State) : State :=
  judgeHold { s with ingress := {
    port := .busReset, fifo := [], holdFlag := false, hold := s.ingress.hold, rsp := s.ingress.rsp } }

/-- A bus-reset sequence: in READY the port enters BUS_RESET; in every port state the bus-reset sweep is asked for or joined,
link_resets advances and LINK_RESET is requested (R87, R122, R123). No response window follows it (R189). -/
def busReset (s : State) : State :=
  let s := respond none s
  let s :=
    match s.ingress.port with
    | .ready => emptyForBusReset s
    | .init | .busReset => s
  requestNotice .linkReset none (count .linkResets (requestSweep .bus s))

/-- BUS_RESET_SEQUENCE (R122). -/
def execBusResetSequence (s : State) : StepResult := live busReset s

end Sys2Proof.Machine
end

