-- ==== Sys2Proof/Machine/Assemble.lean ====
section
/-!
DEFINITION. The assembly of one cell on its engaged stream (R25–R50): gate, sequence judgement, SYNC step, placing or mark
action.
-/
namespace Sys2Proof.Machine

open Sys2Proof

/-- How the sequence number of a cell is judged (Table 2-1); `first` is judged in order. -/
inductive SeqJudgement
  | first | inOrder | duplicate | gap
  deriving DecidableEq, Repr

/-- Sequence judgement, the first case that applies (R27). Arithmetic is modulo 256. -/
def judgeSeq (x : Ctx) (seq : BitVec 8) : SeqJudgement :=
  if x.seqValid = false then .first
  else if seq = x.expected then .inOrder
  else if seq = x.expected - 1 then .duplicate
  else .gap

/-- Expected sequence and sequence valid after the judgement (Table 2-1). -/
def afterSeq (j : SeqJudgement) (seq : BitVec 8) (x : Ctx) : Ctx :=
  match j with
  | .first | .inOrder | .gap => { x with expected := seq + 1, seqValid := true }
  | .duplicate => { x with seqValid := true }

/-- Sets the spliced mark of a FILLING block (R3, R30). -/
def Ctx.markSpliced (x : Ctx) : Ctx :=
  match x.fill with
  | .filling h k _ => { x with fill := .filling h k true }
  | .empty | .hunting => x

/-- The effect of the gap policy: TOLERATE marks a FILLING block spliced, RESYNC breaks it and hunts (R29, R30, R31). -/
def applyGapPolicy (t : StreamId) (s : State) (x : Ctx) : Work :=
  match x.cfg.gap with
  | .tolerate => (s, x.markSpliced)
  | .resync => breakAndHunt t s x

/-- A cell judged a gap: gaps advances, SEQ_GAP is requested, the gap policy acts (R30, R31). -/
def gapEffect (t : StreamId) (s : State) (x : Ctx) : Work :=
  applyGapPolicy t (requestNotice .seqGap (some t) s) x.countGap

/-- A DATA cell whose length is no multiple of w (R29). A width of 0 is no configuration (R2). -/
def isMisfit (w : Nat) (c : StreamCell) : Bool :=
  c.kind == .data && decide (c.payload.length % w ≠ 0)

/-- A misfit: its samples are discarded and it is handled as a gap; one that is a gap by sequence too has counted and
requested already, and its gap policy has acted (R29). -/
def misfitEffect (t : StreamId) (alreadyGap : Bool) (n : Nat) (s : State) (x : Ctx) : Work :=
  if alreadyGap then (s, x.discardSamples n) else gapEffect t s (x.discardSamples n)

/-- The SYNC step: a FILLING block completes as SHORT, a hunt ends (R33). -/
def syncStep (t : StreamId) (sync : Bool) (s : State) (x : Ctx) : Work :=
  if sync then
    match x.fill with
    | .filling h k spliced => complete t h k true false spliced s x
    | .hunting => (s, { x with fill := .empty })
    | .empty => (s, x)
  else (s, x)

/-- The action of a MARK cell (R46). -/
inductive MarkAction
  | cut | release | cutAndRelease
  deriving DecidableEq, Repr

/-- The action that a MARK payload byte encodes; the ingress port has refused any other byte (R112). -/
def markActionOf (b : Byte) : Option MarkAction :=
  if b = 1 then some .cut else if b = 2 then some .release else if b = 3 then some .cutAndRelease else none

/-- Performs a mark action; the RELEASE part of CUT_AND_RELEASE is not performed when the cut faulted the stream (R44, R47,
R48). -/
def markEffect (t : StreamId) (a : MarkAction) (s : State) (x : Ctx) : Work :=
  match a with
  | .cut => cut t s x
  | .release => releaseHeld t s x
  | .cutAndRelease =>
    let r := cut t s x
    if r.2.state = .faulted then r else releaseHeld t r.1 r.2

/-- The stages after judgement of a cell judged first, in order or gap, unless the gap faulted the stream: misfit, SYNC step
and placing for DATA, the action for MARK (R29, R31, R33, R34, R44, R46). A stream that faulted performs no later stage, and
its samples are discarded. -/
def laterStages (t : StreamId) (c : StreamCell) (gap : Bool) (s : State) (x : Ctx) : Work :=
  let n := c.samples x.cfg.geom.w
  if x.state = .faulted then (s, x.discardSamples n)
  else
    match c.kind with
    | .data =>
      if isMisfit x.cfg.geom.w c then misfitEffect t gap n s x
      else takeSamples t (splitSamples x.cfg.geom.w n c.payload) (syncStep t c.sync s x)
    | .mark =>
      match markActionOf (c.payload.getD 0 0) with
      | some a => markEffect t a s x
      | none => (s, x)

/-- Sequence judgement and what follows, for a cell that passed the gate (R27–R31). -/
def judgedCell (t : StreamId) (c : StreamCell) (s : State) (x : Ctx) : Work :=
  let j := judgeSeq x c.seq
  let x' := afterSeq j c.seq x
  match j with
  | .first | .inOrder => laterStages t c false s x'
  | .duplicate => (s, x'.countDuplicate.discardSamples (c.samples x.cfg.geom.w))
  | .gap =>
    let r := gapEffect t s x'
    laterStages t c true r.1 r.2

/-- The assembly of one cell: cells advances in every case; in OPEN the cell is judged, in any other state it is discarded and
its samples counted (R25, R26). -/
def assembleCell (c : StreamCell) (s : State) (x : Ctx) : Work :=
  let x := x.countCell
  if x.state = .opened then judgedCell c.stream c s x
  else (s, x.discardSamples (c.samples x.cfg.geom.w))

/-- A configuration under which no completion and no broken block frees storage. -/
def StreamCfg.freesNothing (c : StreamCfg) (held : Nat) : StreamCfg :=
  { c with mode := .held, heldLimit := held + 1, broken := .emit }

/-- What is left of an assembly that a FULL reset overtook: its sample bytes go into the pages of the block it was filling,
and none of its requests is made (R172). It is followed on a copy of the state whose pool has no free storage and with a
record whose completions free none, so that no block is started; only the page bytes are kept. -/
def overtakenWrites (a : Assembly) (s : State) : Memory :=
  match a.stale with
  | none => s.pool.mem
  | some (h, d) =>
    let x := s.engine.slots[a.slot].copy
    (assembleCell a.cell (setDesc h d { s with pool.freeDesc := [], pool.freePages := [] })
      { x with cfg := x.cfg.freesNothing x.held.length }).1.pool.mem

end Sys2Proof.Machine
end

