-- ==== Sys2Proof/Machine/EngineSteps.lean ====
section
/-!
DEFINITION. The events of the context engine and of the block assembler (R17, R25, R76, R81, R85, R90).
-/
namespace Sys2Proof.Machine

open Sys2Proof

/-! ### The bus-reset sweep (R90, R91) -/

/-- The sweep step on the current copy of one record (R90). -/
def sweepCtx (t : StreamId) (s : State) (x : Ctx) : Work :=
  match x.state with
  | .opened | .paused => breakAndHunt t s { x with seqValid := false }
  | .closed | .draining | .faulted => (s, x)

/-- Whether the step of the sweep writes the record (R73, R90). -/
def sweepWrites (x : Ctx) : Bool :=
  match x.state with
  | .opened | .paused => true
  | .closed | .draining | .faulted => false

/-- One stream of the bus-reset sweep, on the engaged copy, whose mark the step holds, or on the store copy (R73, R90). -/
def sweepStream (t : StreamId) (s : State) : State :=
  match engagedSlot s.engine t with
  | some i =>
    let x := s.engine.slots[i]
    let r := sweepCtx t { s with engine.lru := touch i s.engine.lru } x.copy
    setSlot i { x with copy := r.2, state := if sweepWrites x.copy then .dirty else x.state } r.1
  | none =>
    let r := sweepCtx t s s.engine.store[t]
    setStore t r.2 r.1

/-- The sweep completes: RUNNING, the ingress port answered, the waiting users served (R91). -/
def busSweepDone (s : State) : State :=
  serveWaiting (answerPort { s with engine.mode := .running })

/-- One step of the bus-reset sweep; after stream 255 the sweep completes. A step that a FULL reset overtook changes nothing,
and the init sweep follows it (R87, R90, R91, R172). -/
def sweepStep (s : State) : State :=
  match s.engine.mode with
  | .busSweep n false =>
    let s := sweepStream n s
    if h : n.val + 1 < 256 then { s with engine.mode := .busSweep ⟨n.val + 1, h⟩ false } else busSweepDone s
  | .busSweep _ true => startInitSweep s
  | .running | .sweepWait _ | .initSweep => s

/-- BUS_SWEEP_STEP (R90). -/
def execBusSweepStep (s : State) : StepResult := live sweepStep s

/-! ### Dispatcher and fetch unit -/

/-- DISPATCH: the dispatcher judges the FIFO head (R81). -/
def execDispatch (s : State) : StepResult := live dispatchHead s

/-- The write-back completes: the store copy of the old stream is current, and the slot takes the new stream and is read
(R76 steps 2 and 3). -/
def writeBackDone (s : State) : State :=
  match s.engine.fetch with
  | none => s
  | some f =>
    let x := s.engine.slots[f.slot]
    match x.state, x.stream with
    | .evicting, some old =>
      setSlot f.slot { x with state := .fetching, stream := some f.stream } (setStore old x.copy s)
    | _, _ => s

/-- WRITE_BACK_COMPLETION (R76). -/
def execWriteBackCompletion (s : State) : StepResult := live writeBackDone s

/-- The slot of a completed fetch is handed to its requester: in RUNNING it takes the mark, and the head of the parked-cell
list goes to the assembler; in SWEEP_WAIT it keeps waiting (R76 step 4, R83, R87). -/
def handRequester (f : Fetch) (s : State) : State :=
  match s.engine.mode with
  | .running =>
    match f.party with
    | .management => setReq .management (.holds f.stream f.slot) (takeMark f.slot s)
    | .drain => setReq .drain (.holds f.stream f.slot) (takeMark f.slot s)
    | .dispatcher => handToParked f.slot s
  | .sweepWait _ | .initSweep | .busSweep _ _ => setReq f.party (.fetched f.stream) s

/-- The read completes: the slot is CLEAN with the store copy, the unit is IDLE; in RUNNING the slot is handed on and the next
waiting request starts, in SWEEP_WAIT the sweep may begin (R76 step 4, R79, R87). -/
def completeRead (f : Fetch) (s : State) : State :=
  leaveSweepWait <| startNext <| handRequester f <|
    setSlot f.slot { s.engine.slots[f.slot] with state := .clean, copy := s.engine.store[f.stream] }
      { s with engine.fetch := none, engine.readWaits := false }

/-- The completion of a read would hand a slot to a parked cell while another cell is being assembled, which R73 and R81 do not
admit: it waits for the end of that assembly (notes/assumptions/20.md). -/
def readMustWait (f : Fetch) (s : State) : Bool :=
  s.engine.mode == .running && f.party == .dispatcher && !s.assembler.isEmpty

/-- The read has come to its end: it completes, or waits for the assembler (R76 step 4, R81, R83). -/
def fetchDone (s : State) : State :=
  match s.engine.fetch with
  | none => s
  | some f =>
    match s.engine.slots[f.slot].state with
    | .fetching =>
      if readMustWait f s then { s with engine.readWaits := true } else completeRead f s
    | .vacant | .evicting | .clean | .dirty => s

/-- FETCH_COMPLETION (R76). -/
def execFetchCompletion (s : State) : StepResult := live fetchDone s

/-! ### Cell assembly and drain completion -/

/-- A read whose completion waited for the assembler completes (notes/assumptions/20.md). -/
def resumeRead (s : State) : State := if s.engine.readWaits then fetchDone s else s

/-- The cell in assembly is assembled whole on its slot, which is left DIRTY; the mark is handed on. Then the free assembler goes to
a read that waited for it, otherwise to the FIFO head whose slot was released meanwhile. An assembly that a FULL reset overtook only
writes its sample bytes (R25, R75, R172; notes/assumptions/8.md and 20.md). -/
def assemblyDone (s0 : State) : State :=
  match s0.assembler with
  | [] => s0
  | a :: rest =>
    let s := { s0 with assembler := rest }
    serveHead <| resumeRead <|
      if overtaken s then release a.slot false { s with pool.mem := overtakenWrites a s }
      else
        let r := assembleCell a.cell s s.engine.slots[a.slot].copy
        release a.slot true (setCopy a.slot r.2 r.1)

/-- CELL_ASSEMBLY (R25). -/
def execCellAssembly (s : State) : StepResult := live assemblyDone s

/-- The stream is DRAINING with outstanding count 0 and drain pending no (R17). -/
def drainDue (e : DrainEntry) (x : Ctx) : Bool :=
  x.state == .draining && e.count == 0 && !e.pending

/-- The drain completion on its engaged record: a DRAINING stream that has drained is CLOSED, with its notice; anything else
is left alone. Then the stream leaves the list, the mark is handed on, and the service takes the next head (R17, R75, R85,
R172). -/
def drainDone (s : State) : State :=
  match s.engine.drainReq with
  | .holds t i =>
    let x := s.engine.slots[i].copy
    let due := drainDue s.pool.drain[t] x && !overtaken s
    let s1 := if due then requestNotice .streamClosed (some t) (setCopy i { x with state := .closed } s) else s
    serveDrain (release i due { s1 with engine.drainReq := .idle, engine.drainList := s1.engine.drainList.erase t })
  | .idle | .asked _ | .lodged _ | .fetching _ | .fetched _ => s

/-- DRAIN_COMPLETION (R17, R85). -/
def execDrainCompletion (s : State) : StepResult := live drainDone s

end Sys2Proof.Machine
end

