-- ==== Sys2Proof/Machine/UnitReset.lean ====
section
/-!
DEFINITION. The unit resets: the command (R167), the effect of each level (R168–R172), the teardown of a STREAMS reset (R170).
-/
namespace Sys2Proof.Machine

open Sys2Proof

/-! ### The command (R167) -/

/-- UNIT_RESET: a valid level appends the DONE reply, writes the cache and leaves the agent in RESET_PENDING, which takes no command;
any other level is BAD_ARGUMENT, and the next take is made in that event (R151, R167, R168). -/
def unitReset (mine : List Byte → Bool) (s : State) : State :=
  match s.agent.state with
  | .executing record =>
    if recordCommand record = some .unitReset ∧ mine record = true then
      match resetLevelArg record with
      | some level => finish record .done [] (.resetPending level) s
      | none => takeNext (finish record .badArgument [] .idle s)
    else s
  | .idle | .waitingReplySpace | .tearing _ | .resetPending _ => s

/-- The row UNIT_RESET_STREAMS executes a record whose level is not FULL (notes/assumptions/12.md). -/
def execUnitResetStreams (s : State) : StepResult :=
  live (unitReset (fun r => resetLevelArg r != some .full)) s

/-- The row UNIT_RESET_FULL executes a record whose level is not STREAMS (notes/assumptions/12.md). -/
def execUnitResetFull (s : State) : StepResult :=
  live (unitReset (fun r => resetLevelArg r != some .streams)) s

/-! ### The effect of a FULL reset (R171, Table 8-8) -/

/-- An assembly in progress at a FULL reset keeps the descriptor it was filling, into whose pages its sample bytes still go
(R172; notes/assumptions/15.md). -/
def Assembly.overtake (s : State) (a : Assembly) : Assembly :=
  match s.engine.slots[a.slot].copy.fill with
  | .filling h _ _ => { a with stale := some (h, s.pool.desc[h]) }
  | .empty | .hunting => a

/-- A FULL reset takes effect, in one event: every block writes its reset values, the unit address, the credit count, the port
state and the page bytes are kept, the ingress port is in INIT, and the init sweep is asked for (R70, R87, R105, R125, R148,
R171, R172, R181). -/
def fullReset (s : State) : State :=
  requestSweep .init <| judgeHold { s with
    ingress := ⟨.init, [], false, true, s.ingress.rsp⟩
    classifier := .reset s.classifier.unitAddr
    assembler := s.assembler.map (fun a => a.overtake s)
    pool := .reset s.pool.mem
    egress := .reset
    agent := .reset
    notices := .reset }

/-! ### The effect of a STREAMS reset (R170) -/

/-- A STREAMS reset takes effect: the agent is EXECUTING and asks for stream 0 (R170). -/
def streamsReset (s : State) : State :=
  askEngage .management 0 { s with agent.state := .tearing 0 }

/-- The reset takes effect when the agent is in RESET_PENDING (R168). -/
def resetEffect (s : State) : State :=
  match s.agent.state with
  | .resetPending .full => fullReset s
  | .resetPending .streams => streamsReset s
  | .idle | .waitingReplySpace | .executing _ | .tearing _ => s

/-- A reply frame has completed. It is the reset's own when no reply waits behind it, since the agent appends none while it is
in RESET_PENDING (R168; notes/assumptions/14.md). -/
def resetAtReply (s : State) : State :=
  if s.egress.replies.isEmpty then resetEffect s else s

/-- The stall timer has run out while the reset's own reply waits in the reply queue (R168). -/
def resetAtExpiry (s : State) : State :=
  if s.egress.replies.isEmpty then s else resetEffect s

/-! ### The teardown (R170) -/

/-- The teardown operation on one record: a CLOSED stream is left alone (R170). -/
def tearDownUnlessClosed (t : StreamId) (s : State) (x : Ctx) : Work :=
  if x.state = .closed then (s, x) else tearDown t s x

/-- The operation of a STREAMS reset on the stream whose slot the agent holds: torn down, released, then the next stream is
asked for; after stream 255 the agent is IDLE, and the next take is made in that event (R86, R151, R170). -/
def teardownStep (s : State) : State :=
  match s.agent.state, s.engine.mgmt with
  | .tearing n, .holds t i =>
    let x := s.engine.slots[i].copy
    let w := tearDownUnlessClosed t s x
    let s := release i (decide (x.state ≠ .closed)) { setCopy i w.2 w.1 with engine.mgmt := .idle }
    if h : n.val + 1 < 256 then askEngage .management ⟨n.val + 1, h⟩ { s with agent.state := .tearing ⟨n.val + 1, h⟩ }
    else takeNext { s with agent.state := .idle }
  | _, _ => s

/-- STREAMS_TEARDOWN (R170). -/
def execStreamsTeardown (s : State) : StepResult := live teardownStep s

end Sys2Proof.Machine
end

