-- ==== Sys2Proof/Machine/FrameLink.lean ====
section
/-!
DEFINITION. The events of the frame link and of the return lane (R132–R134, R140, R144, R187).
-/
namespace Sys2Proof.Machine

open Sys2Proof

/-! ### Completion of a frame (R140) -/

/-- The item of a completed frame: a block is freed, the record of a reply or notice is discarded with its place (R140). -/
def discardItem (item : Item) (s : State) : State :=
  match item with
  | .block h _ _ => freeSending h s
  | .reply _ | .notice _ => s

/-- The agent is told that a reply completed (R140, R168). -/
def tellAgent (item : Item) (s : State) : State :=
  match item with
  | .reply _ => resetAtReply s
  | .block _ _ _ | .notice _ => s

/-- The freeing of a reply place is handed to the agent: one that waits for reply space takes the head of its command queue in the
same event (R127, R151). -/
def serveAgent (s : State) : State :=
  match s.agent.state with
  | .waitingReplySpace => takeNext { s with agent.state := .idle }
  | .idle | .executing _ | .tearing _ | .resetPending _ => s

/-- A frame completes: its item is discarded, frames_sent advances, nothing is in flight, a pending reset whose own reply it
was takes effect, the port is judged again, and the agent is handed the place (R140, R151, R168). -/
def frameDone (s : State) : State :=
  match s.link.inflight with
  | none => s
  | some item =>
    let s := discardItem item s
    serveAgent (judgePort (tellAgent item (count .framesSent { s with link.inflight := none, link.frame := [] })))

/-- FRAME_COMPLETION (R140). -/
def execFrameCompletion (s : State) : StepResult := live frameDone s

/-! ### Return lane (R132, R144, R187) -/

/-- The credit count after a grant of g, and credit_overflows when the sum exceeds 15 (R132). -/
def addCredit (g : Nat) (s : State) : State :=
  if Config.creditMax < s.link.credit + g then count .creditOverflows { s with link.credit := Config.creditMax }
  else { s with link.credit := s.link.credit + g }

/-- A grant ends STALLED (R133). -/
def endStall (s : State) : State :=
  match s.link.port with
  | .stalled => { s with link.port := .idle }
  | .idle | .sending | .waiting => s

/-- A credit grant of g; g = 0 changes nothing (R132, R133). -/
def grant (g : BitVec 4) (s : State) : State :=
  if g = 0 then s else judgePort (endStall (addCredit g.toNat s))

/-- CREDIT_GRANT (R132). -/
def execCreditGrant (g : BitVec 4) (s : State) : StepResult := live (grant g) s

/-- A returned notice takes its place back at the head and absorbs a younger record of its kind and stream (R180). Its next take
builds the frame anew from the record as it then stands (R137, R145): the abandoned frame again when the record is the same item
(R186), and a frame with the raised count when it gained repeats, which is no longer the same (R176, R180). That R186's "the same
item" is an item that has not changed is DEDUCED, unsafe (notes/assumptions/24.md). -/
def returnNotice (n : Notice) (queue : List Notice) : List Notice :=
  match queue.find? (fun m => m.isFor n.kind n.stream) with
  | some m => { n with repeats := saturate (n.repeats + m.repeats) } :: queue.erase m
  | none => n :: queue

/-- The in-flight item of an abandoned frame: an unmarked block returns to the head of its class queue as QUEUED, a marked one
is freed, a reply or notice takes its place back at the head of its queue (R143, R144, R180). -/
def abandonItem (item : Item) (s : State) : State :=
  match item with
  | .block h _ true => freeSending h s
  | .block h c false => setQueue c (h :: s.egress.queues[c]) (setDescState h .queued s)
  | .reply r => { s with egress.replies := r :: s.egress.replies }
  | .notice n => { s with notices.queue := returnNotice n s.notices.queue }

/-- The frame in flight, if there is one, is abandoned. -/
def abandon (s : State) : State :=
  match s.link.inflight with
  | none => s
  | some item =>
    let s := abandonItem item s
    { s with link.inflight := none, link.frame := [] }

/-- An egress link reset: the frame is abandoned, the credit count is 0, egress_link_resets advances, and the port is IDLE or
at once WAITING with a freshly loaded timer (R144). -/
def linkReset (s : State) : State :=
  let s := count .egressLinkResets (abandon s)
  judgePort { s with link.credit := 0, link.port := .idle, link.timer := none }

/-- EGRESS_LINK_RESET (R144); the spare bits of its byte are not read (R187). -/
def execEgressLinkReset (_spare : BitVec 4) (s : State) : StepResult := live linkReset s

/-- RETURN_LANE_OTHER: a byte of another type changes nothing and is not counted (R187). -/
def execReturnLaneOther (_byte : Byte) (s : State) : StepResult := live id s

/-! ### Stall (R134) -/

/-- The stall purge: each discardable class queue, in ascending class number (R134 step 2). -/
def stallPurge (s : State) : State :=
  purgeClass 3 (purgeClass 2 (purgeClass 1 (purgeClass 0 s)))

/-- The expiry, in the order of R134: STALLED with the timer stopped, the purge, the EGRESS_STALL notice, the report to the
agent (R134, R168). -/
def expire (s : State) : State :=
  resetAtExpiry (requestNotice .egressStall none (stallPurge { s with link.port := .stalled, link.timer := none }))

/-- The stall timer runs out, when the port is WAITING and the timer runs (R134). -/
def stallExpiry (s : State) : State :=
  match s.link.port, s.link.timer with
  | .waiting, some _ => expire s
  | _, _ => s

/-- STALL_EXPIRY (R134). -/
def execStallExpiry (s : State) : StepResult := live stallExpiry s

/-- One µs passes: a running stall timer counts down, and runs out at 0 (R134; notes/assumptions/5.md). -/
def passMicrosecond (s : State) : State :=
  match s.link.timer with
  | none => s
  | some n => if n ≤ 1 then stallExpiry s else { s with link.timer := some (n - 1) }

end Sys2Proof.Machine
end

