-- ==== Sys2Proof/Machine/PlainCommands.lean ====
section
/-!
DEFINITION. The commands that act on no stream (R101, R103, R158–R166).
-/
namespace Sys2Proof.Machine

open Sys2Proof

/-- IDENT: vendor code, part code, revision, unit address, capacities (R158). -/
def answerIdent (_ : List Byte) (s : State) : Answer := ⟨s, .done, identResult s.classifier.unitAddr⟩

/-- IDENT (R158). -/
def execIdent (s : State) : StepResult := live (runPlain .ident anyRecord answerIdent) s

/-- CLASS_WRITE: the whole entry is judged and replaced in one event (R101, R102). -/
def answerClassWrite (record : List Byte) (s : State) : Answer :=
  match parseEntry (recordArgs record) with
  | some (n, e) => ⟨{ s with classifier.table := s.classifier.table.set n e }, .done, []⟩
  | none => refuse .badArgument s

/-- CLASS_WRITE (R101). -/
def execClassWrite (s : State) : StepResult := live (runPlain .classWrite anyRecord answerClassWrite) s

/-- CLASS_READ: every field of the entry as written (R103). -/
def answerClassRead (record : List Byte) (s : State) : Answer :=
  match parseEntryNo (recordArgs record) with
  | some n => ⟨s, .done, s.classifier.table[n].toBytes n⟩
  | none => refuse .badArgument s

/-- CLASS_READ (R103). -/
def execClassRead (s : State) : StepResult := live (runPlain .classRead anyRecord answerClassRead) s

/-- POOL_QUERY: the pool counts and the class queue lengths (R62, R159). -/
def answerPoolQuery (_ : List Byte) (s : State) : Answer := ⟨s, .done, poolResult s.pool s.egress⟩

/-- POOL_QUERY (R159). -/
def execPoolQuery (s : State) : StepResult := live (runPlain .poolQuery anyRecord answerPoolQuery) s

/-- The hold flag after a LIMITS_WRITE: judged when either mark changes (R120). -/
def holdFlagAfterLimits (old new : Limits) (occupancy : Nat) (flag : Bool) : Bool :=
  if old.holdMark = new.holdMark ∧ old.releaseMark = new.releaseMark then flag else holdFlagAtMarks new occupancy flag

/-- An accepted LIMITS_WRITE replaces the record and hands the marks and the reserve to their readers (R63, R120, R121,
R162). The other limits act at their next read. -/
def applyLimits (l : Limits) (s : State) : State :=
  judgePoolLow { s with
    agent.limits := l
    ingress.holdFlag := holdFlagAfterLimits s.agent.limits l s.ingress.fifo.length s.ingress.holdFlag }

/-- LIMITS_WRITE: all or nothing (R161, R162). -/
def answerLimitsWrite (record : List Byte) (s : State) : Answer :=
  match parseLimits (recordArgs record) with
  | some l => ⟨applyLimits l s, .done, []⟩
  | none => refuse .badArgument s

/-- LIMITS_WRITE (R161). -/
def execLimitsWrite (s : State) : StepResult := live (runPlain .limitsWrite anyRecord answerLimitsWrite) s

/-- LIMITS_READ: the whole record (R163). -/
def answerLimitsRead (_ : List Byte) (s : State) : Answer := ⟨s, .done, s.agent.limits.toBytes⟩

/-- LIMITS_READ (R163). -/
def execLimitsRead (s : State) : StepResult := live (runPlain .limitsRead anyRecord answerLimitsRead) s

/-- COUNTERS_READ: the fifteen counts, written 0 in the same event with clear option yes; any other option than no and yes
is BAD_ARGUMENT (R165). The clear leaves the lost-since-last count and the value in a notice taken before it, where R182 bounds
the values sent since all counters read 0 by notices_lost; R165 is followed, which clears the bank alone (DEDUCED, unsafe;
notes/assumptions/26.md). -/
def answerCounters (record : List Byte) (s : State) : Answer :=
  match clearOption record with
  | some false => ⟨s, .done, s.agent.counters.toBytes⟩
  | some true => ⟨{ s with agent.counters := .zero }, .done, s.agent.counters.toBytes⟩
  | none => refuse .badArgument s

/-- The row COUNTERS_READ executes a record whose clear option is not yes (notes/assumptions/12.md). -/
def execCountersRead (s : State) : StepResult :=
  live (runPlain .countersRead (fun r => clearOption r != some true) answerCounters) s

/-- The row COUNTERS_READ_CLEAR executes a record whose clear option is not no (notes/assumptions/12.md). -/
def execCountersReadClear (s : State) : StepResult :=
  live (runPlain .countersRead (fun r => clearOption r != some false) answerCounters) s

/-- NOTICE_MASK_WRITE: the eight enables are written and the result is the mask before (R166). -/
def answerNoticeMask (record : List Byte) (s : State) : Answer :=
  ⟨{ s with notices.mask := (recordArgs record).getD 0 0 }, .done, [s.notices.mask]⟩

/-- NOTICE_MASK_WRITE (R166). -/
def execNoticeMaskWrite (s : State) : StepResult := live (runPlain .noticeMaskWrite anyRecord answerNoticeMask) s

end Sys2Proof.Machine
end

