-- ==== Sys2Proof/Machine/StreamCommands.lean ====
section
/-!
DEFINITION. The stream commands, each one operation on the engaged record (R10–R23).
-/
namespace Sys2Proof.Machine

open Sys2Proof

/-- The configuration that STREAM_OPEN and STREAM_RECONFIGURE carry after the stream byte. -/
def configArg (record : List Byte) : Option StreamCfg := parseCfg ((recordArgs record).drop 1)

/-- A session starts: configuration stored, OPEN, EMPTY, sequence valid no, next block number 0, counters 0; the expected
sequence stays (R3, R11). -/
def openedCtx (cfg : StreamCfg) (x : Ctx) : Ctx :=
  { x with
    cfg := cfg
    state := .opened
    fill := .empty
    seqValid := false
    nextBlock := 0
    counters := .zero }

/-- STREAM_OPEN: arguments, then state CLOSED (R10, R11). -/
def answerOpen (record : List Byte) (_ : StreamId) (s : State) (x : Ctx) : StreamAnswer :=
  match configArg record with
  | none => refuseStream .badArgument s x
  | some cfg => if x.state = .closed then wroteStream .done (s, openedCtx cfg x) else refuseStream .badState s x

/-- STREAM_OPEN (R11). -/
def execStreamOpen (s : State) : StepResult := live (runStream .streamOpen anyRecord answerOpen) s

/-- STREAM_PAUSE: OPEN becomes PAUSED, nothing else changes (R12). -/
def answerPause (_ : List Byte) (_ : StreamId) (s : State) (x : Ctx) : StreamAnswer :=
  if x.state = .opened then wroteStream .done (s, { x with state := .paused }) else refuseStream .badState s x

/-- STREAM_PAUSE (R12). -/
def execStreamPause (s : State) : StepResult := live (runStream .streamPause anyRecord answerPause) s

/-- STREAM_RESUME: PAUSED becomes OPEN, sequence valid is cleared, a FILLING block is marked spliced (R13). -/
def resumedCtx (x : Ctx) : Ctx :=
  { x with
    state := .opened
    seqValid := false
    fill :=
      match x.fill with
      | .filling h k _ => .filling h k true
      | .empty => .empty
      | .hunting => .hunting }

/-- STREAM_RESUME (R13). -/
def answerResume (_ : List Byte) (_ : StreamId) (s : State) (x : Ctx) : StreamAnswer :=
  if x.state = .paused then wroteStream .done (s, resumedCtx x) else refuseStream .badState s x

/-- STREAM_RESUME (R13). -/
def execStreamResume (s : State) : StepResult := live (runStream .streamResume anyRecord answerResume) s

/-- Whether the sub-state is FILLING. -/
def Fill.isFilling : Fill → Bool
  | .filling _ _ _ => true
  | .empty | .hunting => false

/-- STREAM_CUT: OPEN or PAUSED; the CUT action; it writes the record only when FILLING (R14, R73). -/
def answerCut (_ : List Byte) (t : StreamId) (s : State) (x : Ctx) : StreamAnswer :=
  if x.state = .opened ∨ x.state = .paused then
    let w := cut t s x
    ⟨w.1, w.2, x.fill.isFilling, .done, []⟩
  else refuseStream .badState s x

/-- STREAM_CUT (R14). -/
def execStreamCut (s : State) : StepResult := live (runStream .streamCut anyRecord answerCut) s

/-- Blocks that a release takes from the held list (R15). -/
def releasedCount (x : Ctx) : Nat :=
  match x.cfg.mode with
  | .held => x.held.length
  | .immediate => 0

/-- STREAM_RELEASE: OPEN, PAUSED or FAULTED; the RELEASE action; the result is the number of blocks taken (R15, R73). -/
def answerRelease (_ : List Byte) (t : StreamId) (s : State) (x : Ctx) : StreamAnswer :=
  if x.state = .opened ∨ x.state = .paused ∨ x.state = .faulted then
    let w := releaseHeld t s x
    ⟨w.1, w.2, decide (0 < releasedCount x), .done, [byteOf (releasedCount x)]⟩
  else refuseStream .badState s x

/-- STREAM_RELEASE (R15). -/
def execStreamRelease (s : State) : StepResult := live (runStream .streamRelease anyRecord answerRelease) s

/-- Steps 1 to 3 of a graceful close: the current block completes as SHORT, the sub-state becomes EMPTY and sequence valid is
cleared, the held list is handed on (R16). -/
def closeBlocks (t : StreamId) (s : State) (x : Ctx) : Work :=
  let w := cut t s x
  releaseHeld t w.1 { w.2 with fill := .empty, seqValid := false }

/-- Step 4 of a graceful close: CLOSED with DONE when nothing is outstanding, otherwise drain pending, DRAINING (R16, R68). -/
def drainOrClose (t : StreamId) (w : Work) : StreamAnswer :=
  if outstanding t w.1 = 0 then wroteStream .done (w.1, { w.2 with state := .closed })
  else wroteStream .draining (setDrainPending t true w.1, { w.2 with state := .draining })

/-- STREAM_CLOSE GRACEFUL: OPEN, PAUSED or FAULTED (R16). A form that is neither is BAD_ARGUMENT (R10). -/
def answerCloseGraceful (record : List Byte) (t : StreamId) (s : State) (x : Ctx) : StreamAnswer :=
  match closeForm record with
  | none => refuseStream .badArgument s x
  | some _ =>
    if x.state = .opened ∨ x.state = .paused ∨ x.state = .faulted then drainOrClose t (closeBlocks t s x)
    else refuseStream .badState s x

/-- The row STREAM_CLOSE_GRACEFUL executes a record whose form is not ABORT (notes/assumptions/12.md). -/
def execStreamCloseGraceful (s : State) : StepResult :=
  live (runStream .streamClose (fun r => closeForm r != some true) answerCloseGraceful) s

/-- STREAM_CLOSE ABORT: any state but CLOSED; the teardown (R18). A form that is neither is BAD_ARGUMENT (R10). -/
def answerCloseAbort (record : List Byte) (t : StreamId) (s : State) (x : Ctx) : StreamAnswer :=
  match closeForm record with
  | none => refuseStream .badArgument s x
  | some _ =>
    if x.state = .closed then refuseStream .badState s x else wroteStream .done (tearDown t s x)

/-- The row STREAM_CLOSE_ABORT executes a record whose form is not GRACEFUL (notes/assumptions/12.md). -/
def execStreamCloseAbort (s : State) : StepResult :=
  live (runStream .streamClose (fun r => closeForm r != some false) answerCloseAbort) s

/-- Checks 2 to 4 of a reconfiguration: PAUSED and not FILLING; a class change only with nothing outstanding; in HELD mode a
held limit not below the length of the held list (R21). -/
def mayReconfigure (cfg : StreamCfg) (t : StreamId) (s : State) (x : Ctx) : Bool :=
  x.state == .paused && !x.fill.isFilling &&
  (cfg.cls == x.cfg.cls || outstanding t s == 0) &&
  (cfg.mode == .immediate || decide (x.held.length ≤ cfg.heldLimit))

/-- An accepted reconfiguration stores the configuration; from HELD to IMMEDIATE it hands the held list on in the new class
(R22). -/
def reconfigure (cfg : StreamCfg) (t : StreamId) (s : State) (x : Ctx) : Work :=
  match x.cfg.mode, cfg.mode with
  | .held, .immediate => (handOnBlocks t cfg.cls x.held s, { x with cfg := cfg, held := [] })
  | .held, .held | .immediate, _ => (s, { x with cfg := cfg })

/-- STREAM_RECONFIGURE (R21, R22). -/
def answerReconfigure (record : List Byte) (t : StreamId) (s : State) (x : Ctx) : StreamAnswer :=
  match configArg record with
  | none => refuseStream .badArgument s x
  | some cfg =>
    if mayReconfigure cfg t s x then wroteStream .done (reconfigure cfg t s x) else refuseStream .badState s x

/-- STREAM_RECONFIGURE (R21). -/
def execStreamReconfigure (s : State) : StepResult := live (runStream .streamReconfigure anyRecord answerReconfigure) s

/-- STREAM_QUERY: taken in every state, changes nothing (R23). -/
def answerQuery (_ : List Byte) (t : StreamId) (s : State) (x : Ctx) : StreamAnswer :=
  ⟨s, x, false, .done, queryResult x (outstanding t s)⟩

/-- STREAM_QUERY (R23). -/
def execStreamQuery (s : State) : StepResult := live (runStream .streamQuery anyRecord answerQuery) s

end Sys2Proof.Machine
end

