-- ==== Sys2Proof/Machine/Dispatch.lean ====
section
/-!
DEFINITION. One arm per command: the meaning that it calls.
-/
namespace Sys2Proof.Machine

open Sys2Proof

/-- The effect of a command on everything but the queue. -/
def exec (i : Instr) (s : State) : Host.Outcome State Fault Refusal :=
  match i with
  | .resetNAssert lowNs => Sys2Proof.Machine.execResetNAssert lowNs s
  | .resetNRelease straps => Sys2Proof.Machine.execResetNRelease straps s
  | .initSweepCompletion => Sys2Proof.Machine.execInitSweepCompletion s
  | .cellArrival bytes => Sys2Proof.Machine.execCellArrival bytes s
  | .busResetSequence => Sys2Proof.Machine.execBusResetSequence s
  | .busSweepStep => Sys2Proof.Machine.execBusSweepStep s
  | .dispatch => Sys2Proof.Machine.execDispatch s
  | .writeBackCompletion => Sys2Proof.Machine.execWriteBackCompletion s
  | .fetchCompletion => Sys2Proof.Machine.execFetchCompletion s
  | .cellAssembly => Sys2Proof.Machine.execCellAssembly s
  | .drainCompletion => Sys2Proof.Machine.execDrainCompletion s
  | .commandTake => Sys2Proof.Machine.execCommandTake s
  | .ident => Sys2Proof.Machine.execIdent s
  | .classWrite => Sys2Proof.Machine.execClassWrite s
  | .classRead => Sys2Proof.Machine.execClassRead s
  | .streamOpen => Sys2Proof.Machine.execStreamOpen s
  | .streamCloseGraceful => Sys2Proof.Machine.execStreamCloseGraceful s
  | .streamCloseAbort => Sys2Proof.Machine.execStreamCloseAbort s
  | .streamPause => Sys2Proof.Machine.execStreamPause s
  | .streamResume => Sys2Proof.Machine.execStreamResume s
  | .streamCut => Sys2Proof.Machine.execStreamCut s
  | .streamRelease => Sys2Proof.Machine.execStreamRelease s
  | .streamReconfigure => Sys2Proof.Machine.execStreamReconfigure s
  | .streamQuery => Sys2Proof.Machine.execStreamQuery s
  | .poolQuery => Sys2Proof.Machine.execPoolQuery s
  | .limitsWrite => Sys2Proof.Machine.execLimitsWrite s
  | .limitsRead => Sys2Proof.Machine.execLimitsRead s
  | .countersRead => Sys2Proof.Machine.execCountersRead s
  | .countersReadClear => Sys2Proof.Machine.execCountersReadClear s
  | .noticeMaskWrite => Sys2Proof.Machine.execNoticeMaskWrite s
  | .unitResetStreams => Sys2Proof.Machine.execUnitResetStreams s
  | .unitResetFull => Sys2Proof.Machine.execUnitResetFull s
  | .streamsTeardown => Sys2Proof.Machine.execStreamsTeardown s
  | .frameCompletion => Sys2Proof.Machine.execFrameCompletion s
  | .creditGrant g => Sys2Proof.Machine.execCreditGrant g s
  | .egressLinkReset spare => Sys2Proof.Machine.execEgressLinkReset spare s
  | .returnLaneOther byte => Sys2Proof.Machine.execReturnLaneOther byte s
  | .stallExpiry => Sys2Proof.Machine.execStallExpiry s

end Sys2Proof.Machine
end

