-- ==== Sys2Proof/Machine/Step.lean ====
section
/-!
DEFINITION. One step: the command at the front of the queue runs on the rest of the state; with no command waiting one µs
passes (notes/assumptions/1.md, 5.md).
-/
namespace Sys2Proof.Machine

open Sys2Proof

/-- One step of the block. -/
def step (s : State) : Host.Outcome State Fault Refusal :=
  match s.pending with
  | [] => live passMicrosecond s
  | c :: rest => exec c { s with pending := rest }

/-- The state with the command that a word spells at the front of the queue; no word spells one (notes/assumptions/18.md). -/
def State.withFetchWord (s : State) (nbits w : Nat) : State :=
  match decodeTableWord nbits w with
  | some c => { s with pending := c :: s.pending }
  | none => s

end Sys2Proof.Machine
end

