-- ==== Sys2Proof/Safety.lean ====
section
/-!
DEFINITION. What the statements name: the invariants, which hold in every state that steps from reset can reach; the values at
power-on; what waits to be sent, whether or not a selection has begun to send it; what an event leaves alone.
-/
namespace Sys2Proof.Machine

open Sys2Proof

/-- The page memory is in canonical form. -/
def MemoryCanonical (s : State) : Prop := Memory.wf s.pool.mem = true

/-- The HOLD drive is what the port state, the hold flag, the pool-low condition and RESET_N call for (R121, R188). -/
def HoldAgrees (s : State) : Prop := s.ingress.hold = holdDue s

/-- The pool-low condition is asserted exactly while the free page count is below the pool reserve (R63). -/
def PoolLowAgrees (s : State) : Prop := s.pool.low = decide (s.pool.freePages.length < s.agent.limits.reserve)

/-- An ingress port state stands beside an engine mode: READY beside RUNNING, BUS_RESET beside a bus-reset sweep pending or
running, INIT beside an init sweep pending, asked for or running (R87, R88, R108, R123). -/
def portFits (p : IngressState) (m : EngineMode) : Bool :=
  match p, m with
  | .ready, .running => true
  | .busReset, .sweepWait .bus => true
  | .busReset, .busSweep _ false => true
  | .init, .sweepWait .init => true
  | .init, .initSweep => true
  | .init, .busSweep _ true => true
  | .ready, _ | .busReset, _ | .init, _ => false

/-- The ingress port and the context engine agree. -/
def PortEngineAgree (s : State) : Prop := portFits s.ingress.port s.engine.mode = true

/-- The frame link port states of Table 7-2 (R129, R133, R134): SENDING exactly with an item in flight; IDLE with nothing
waiting; WAITING with credit 0 and something waiting; STALLED with credit 0; the stall timer runs in WAITING only. -/
structure LinkAgrees (s : State) : Prop where
  sending : s.link.port = .sending ↔ s.link.inflight.isSome = true
  idle : s.link.port = .idle → hasWaiting s = false
  waiting : s.link.port = .waiting → s.link.credit = 0 ∧ hasWaiting s = true
  stalled : s.link.port = .stalled → s.link.credit = 0
  timer : s.link.timer.isSome = true → s.link.port = .waiting

/-- The frame lane carries bytes only while an item is in flight (R136, R188). -/
def FrameAgrees (s : State) : Prop := s.link.inflight = none → s.link.frame = []

/-- The agent executes a command record. -/
def AgentState.executesRecord : AgentState → Bool
  | .executing _ => true
  | .idle | .waitingReplySpace | .tearing _ | .resetPending _ => false

/-- The bounds that the manual sets on its counts and queues (R82, R119, R127, R132, R150, R177, R178); while a command is
being executed, the reply place found free at its take is still free (R151). -/
structure WithinBounds (s : State) : Prop where
  fifo : s.ingress.fifo.length ≤ Config.fifoDepth
  commands : s.agent.cmdq.length ≤ Config.commandDepth
  parked : s.engine.parked.length ≤ Config.parkedDepth
  notices : noticePlaces s ≤ Config.noticeDepth
  lost : s.notices.lost ≤ Config.noticeCountMax
  credit : s.link.credit ≤ Config.creditMax
  replies : replyOccupancy s ≤ Config.replyDepth
  reserved : s.agent.state.executesRecord = true → replyOccupancy s < Config.replyDepth

/-- The agent takes what it can take: in IDLE no record is queued, and it waits for reply space only beside a queued record and a full
reply queue (R151, Table 8-2). -/
structure AgentAgrees (s : State) : Prop where
  idle : s.agent.state = .idle → s.agent.cmdq = []
  waiting : s.agent.state = .waitingReplySpace → s.agent.cmdq ≠ [] ∧ Config.replyDepth ≤ replyOccupancy s

/-- The limits record is one that LIMITS_WRITE accepts (R160, R161). -/
def LimitsLegal (s : State) : Prop := s.agent.limits.valid = true

/-- Every record, in the store and in a slot, holds a configuration that STREAM_OPEN accepts (R2, the note to Table 1-5). -/
structure ConfigsLegal (s : State) : Prop where
  store : ∀ t : StreamId, (s.engine.store[t]).cfg.valid = true
  slots : ∀ i : SlotNo, (s.engine.slots[i]).copy.cfg.valid = true

/-- A classification entry that CLASS_WRITE accepts: checks 3 and 4 of R101, and the ranges of its width (check 2; the other fields are
in range by their types). -/
def EntryAccepted (e : ClassEntry) : Prop := e.legal = true ∧ e.width ≤ 4 ∧ (e.action = .spread → 1 ≤ e.width)

/-- Every classification entry is one that CLASS_WRITE accepts, so that no valid entry matches a tag of the management range
(R101, R102). -/
def TableLegal (s : State) : Prop := ∀ n : EntryNo, EntryAccepted s.classifier.table[n]

/-- Each of the eight slots has one rank in the last-use order (R72). -/
def RanksComplete (s : State) : Prop := s.engine.lru.Nodup ∧ ∀ i : SlotNo, i ∈ s.engine.lru

/-! ### The engine and the storage, each piece in one place -/

/-- A party holds the in-use mark of slot `i`: the cell being assembled, the management operation, or the drain completion
(R73). -/
def Holds (i : SlotNo) (s : State) : Prop :=
  (∃ a ∈ s.assembler, a.slot = i) ∨ (∃ t, s.engine.mgmt = .holds t i) ∨ (∃ t, s.engine.drainReq = .holds t i)

/-- The engine sweeps, and no operation or fetch is in progress (R87). -/
def Sweeping (s : State) : Prop := s.engine.mode = .initSweep ∨ ∃ n b, s.engine.mode = .busSweep n b

/-- A FULL reset has taken effect in every block but the context engine, whose init sweep has still to begin (R87, R171). -/
def ResetAwaitsSweep (s : State) : Prop := s.engine.mode = .sweepWait .init ∨ ∃ n, s.engine.mode = .busSweep n true

/-- The agent executes a stream command, or tears down the streams of a STREAMS reset (R86). -/
def AgentOnStream (s : State) : Prop :=
  (∃ record c, s.agent.state = .executing record ∧ recordCommand record = some c ∧ c.onStream = true) ∨
  ∃ n, s.agent.state = .tearing n

/-- The slots, the marks, the fetch unit and the requests of the context engine agree (R71 to R76, R81, R82, R86, R87; the field
`readWaits` is the model's, notes/assumptions/20.md, and that a slot may wait for the head is notes/assumptions/8.md). -/
structure EngineConsistent (s : State) : Prop where
  /-- One cell is assembled at a time. -/
  oneCell : s.assembler.length ≤ 1
  /-- A slot is in use exactly while an operation holds its mark. -/
  marks : ∀ i : SlotNo, s.engine.slots[i].inUse = true ↔ Holds i s
  /-- No two operations hold one slot. -/
  apart : (∀ a ∈ s.assembler, ∀ t, s.engine.mgmt ≠ .holds t a.slot ∧ s.engine.drainReq ≠ .holds t a.slot) ∧
    ∀ t u i, s.engine.mgmt = .holds t i → s.engine.drainReq ≠ .holds u i
  /-- An operation holds a slot that is engaged by its stream. -/
  engaged : (∀ a ∈ s.assembler, s.engine.slots[a.slot].engages a.cell.stream = true) ∧
    (∀ t i, s.engine.mgmt = .holds t i → s.engine.slots[i].engages t = true) ∧
    (∀ t i, s.engine.drainReq = .holds t i → s.engine.slots[i].engages t = true)
  /-- A VACANT slot carries no stream, any other carries one. -/
  vacant : ∀ i : SlotNo, s.engine.slots[i].state = .vacant ↔ s.engine.slots[i].stream = none
  /-- No stream is carried by two slots. -/
  distinct : ∀ (i j : SlotNo) (t : StreamId), s.engine.slots[i].stream = some t → s.engine.slots[j].stream = some t → i = j
  /-- A slot is EVICTING or FETCHING exactly while the fetch unit serves a fetch into it. -/
  busy : ∀ i : SlotNo, s.engine.slots[i].state = .evicting ∨ s.engine.slots[i].state = .fetching ↔
    ∃ f, s.engine.fetch = some f ∧ f.slot = i
  /-- A FETCHING slot carries the stream being fetched, and no other slot does. -/
  fetched : ∀ f, s.engine.fetch = some f →
    (s.engine.slots[f.slot].state = .fetching → s.engine.slots[f.slot].stream = some f.stream) ∧
    ∀ i : SlotNo, s.engine.slots[i].stream = some f.stream → i = f.slot ∧ s.engine.slots[i].state = .fetching
  /-- The party that a fetch is for waits for it; the dispatcher's parked cells are of its stream. -/
  requester : ∀ f, s.engine.fetch = some f →
    (f.party = .management → s.engine.mgmt = .fetching f.stream) ∧
    (f.party = .drain → s.engine.drainReq = .fetching f.stream) ∧
    (f.party = .dispatcher → ∀ c ∈ s.engine.parked, c.stream = f.stream)
  /-- The agent asks for a stream only for a stream command or a teardown. -/
  agent : s.engine.mgmt ≠ .idle → AgentOnStream s
  /-- The parked cells are of one stream. -/
  parked : ∀ c ∈ s.engine.parked, ∀ d ∈ s.engine.parked, c.stream = d.stream
  /-- Only a read for the dispatcher waits for the assembler, and only while a cell is being assembled. -/
  readWaits : s.engine.readWaits = true → s.assembler ≠ [] ∧
    ∃ f, s.engine.fetch = some f ∧ f.party = .dispatcher ∧ s.engine.slots[f.slot].state = .fetching
  /-- In RUNNING the FIFO head waits on a slot that its stream is engaged in, and that is in use or, released while a cell is
  assembled on another slot, waits for the head. -/
  headWaits : ∀ i, s.engine.dispWait = some i → s.engine.mode = .running →
    ∃ c rest, s.ingress.fifo = c :: rest ∧ s.engine.slots[i].engages c.stream = true ∧
      (s.engine.slots[i].inUse = true ∨ s.assembler ≠ [])
  /-- While the engine sweeps, nothing is in progress and the FIFO head waits on no slot. -/
  quiet : Sweeping s → (∀ i : SlotNo, s.engine.slots[i].inUse = false) ∧ s.engine.fetch = none ∧ s.engine.dispWait = none
  /-- A FULL reset left no management operation in progress. -/
  reset : ResetAwaitsSweep s → ∀ t i, s.engine.mgmt ≠ .holds t i

/-- The current copy of a record: the slot copy while the stream is engaged or its record is being written back, otherwise the
store copy (R71). -/
def liveCopy (t : StreamId) (s : State) : Ctx :=
  match slotNos.find? (fun i => s.engine.slots[i].stream == some t &&
      (s.engine.slots[i].state == .clean || s.engine.slots[i].state == .dirty || s.engine.slots[i].state == .evicting)) with
  | some i => s.engine.slots[i].copy
  | none => s.engine.store[t]

/-- The blocks that records own: a FILLING descriptor is the current block of its stream, a HELD one stands once in its
stream's held list (R55); a stream that is neither OPEN nor PAUSED has no current block (R7). -/
structure BlocksOwned (s : State) : Prop where
  current : ∀ t h k m, (liveCopy t s).fill = .filling h k m → s.pool.desc[h].state = .filling ∧ s.pool.desc[h].stream = t
  filling : ∀ h : Handle, s.pool.desc[h].state = .filling → ∃ k m, (liveCopy s.pool.desc[h].stream s).fill = .filling h k m
  member : ∀ t, ∀ h ∈ (liveCopy t s).held, s.pool.desc[h].state = .held ∧ s.pool.desc[h].stream = t
  held : ∀ h : Handle, s.pool.desc[h].state = .held → h ∈ (liveCopy s.pool.desc[h].stream s).held
  once : ∀ t, (liveCopy t s).held.Nodup
  stopped : ∀ t, (liveCopy t s).state ≠ .opened → (liveCopy t s).state ≠ .paused → (liveCopy t s).fill = .empty

/-- Every page and every descriptor stands in one place, and the drain registry counts the outstanding blocks (R51, R55, R57,
R65, R126). -/
structure StorageConserved (s : State) : Prop where
  /-- Each of the 512 pages is free or in one page list, once. -/
  pages : (s.pool.freePages ++ (List.finRange 128).flatMap (fun h => s.pool.desc[h].pages)).Perm (List.finRange 512)
  /-- A FREE descriptor has no page, any other ceil(w·R·C / 512). -/
  pageLists : ∀ h : Handle, s.pool.desc[h].pages.length =
    if s.pool.desc[h].state = .free then 0
    else (s.pool.desc[h].geom.w * (s.pool.desc[h].geom.rows * s.pool.desc[h].geom.cols) + 511) / 512
  free : s.pool.freeDesc.Nodup ∧ ∀ h : Handle, h ∈ s.pool.freeDesc ↔ s.pool.desc[h].state = .free
  queued : (s.egress.queues[0] ++ s.egress.queues[1] ++ s.egress.queues[2] ++ s.egress.queues[3]).Nodup ∧
    ∀ h : Handle, (∃ c : EgressClass, h ∈ s.egress.queues[c]) ↔ s.pool.desc[h].state = .queued
  sending : ∀ h : Handle, (∃ c m, s.link.inflight = some (.block h c m)) ↔ s.pool.desc[h].state = .sending
  /-- From a FULL reset to the end of its init sweep every descriptor is FREE (R70, R88); once the sweep has written the records, or
  with no reset due, the records own the blocks that they name. -/
  reset : ResetAwaitsSweep s ∨ s.engine.mode = .initSweep → ∀ h : Handle, s.pool.desc[h].state = .free
  owned : ¬ ResetAwaitsSweep s → BlocksOwned s
  outstanding : ∀ t : StreamId, s.pool.drain[t].count = (List.finRange 128).countP (fun h =>
    s.pool.desc[h].stream == t && (s.pool.desc[h].state == .queued || s.pool.desc[h].state == .sending))

/-! ### Values at power-on -/

/-- The record of Table 1-8 (R5). -/
structure RecordAtReset (x : Ctx) : Prop where
  geometry : x.cfg.geom.w = 2 ∧ x.cfg.geom.rows = 1 ∧ x.cfg.geom.cols = 256 ∧ x.cfg.geom.order = .rowFirst
  release : x.cfg.mode = .immediate ∧ x.cfg.cls = 0 ∧ x.cfg.heldLimit = 4
  policies : x.cfg.gap = .resync ∧ x.cfg.broken = .emit ∧ x.cfg.overflow = .dropOldest
  stream : x.state = .closed ∧ x.fill = .empty ∧ x.held = []
  sequence : x.expected = 0 ∧ x.seqValid = false ∧ x.nextBlock = 0
  counters : x.counters = ⟨0, 0, 0, 0, 0, 0⟩

/-- The values of Table 4-1 (R5, R72, R88): what the init sweep writes. -/
structure EngineAtReset (e : Engine) : Prop where
  store : ∀ t : StreamId, RecordAtReset e.store[t]
  slots : ∀ i : SlotNo, e.slots[i].state = .vacant ∧ e.slots[i].stream = none ∧ e.slots[i].inUse = false
  lru : e.lru = [0, 1, 2, 3, 4, 5, 6, 7]
  requests : e.fetch = none ∧ e.readWaits = false ∧ e.mgmt = .idle ∧ e.drainReq = .idle ∧ e.dispReq = none ∧ e.dispWait = none
  lists : e.parked = [] ∧ e.drainList = []
  mode : e.mode = .initSweep

/-- The values that the blocks of the part hold at the release of RESET_N, in the order of Table 1-1 (R5, R70, R72, R92, R108,
R148, R160, R164, R181, R188). -/
structure AtPowerOn (s : State) : Prop where
  ingress : s.ingress = ⟨.init, [], false, true, none⟩
  table : ∀ n : EntryNo, s.classifier.table[n] = ⟨false, 0, 0, .stream, 0, 0⟩
  engine : EngineAtReset s.engine
  assembler : s.assembler = []
  descriptors : ∀ h : Handle, s.pool.desc[h].state = .free
  freeLists : s.pool.freePages = List.finRange 512 ∧ s.pool.freeDesc = List.finRange 128 ∧ s.pool.low = false
  registry : ∀ t : StreamId, s.pool.drain[t] = ⟨0, false⟩
  egress : s.egress = ⟨#v[[], [], [], []], [], 0, 4⟩
  link : s.link = ⟨0, .idle, none, none, []⟩
  agent : s.agent = ⟨[], .idle, none, ⟨24, 16, 32, 2000, #v[4, 3, 2, 1], 0b1000⟩, ⟨0, 0, 0, 0, 0, 0, 0, 0, 0, 0, 0, 0, 0, 0, 0⟩⟩
  notices : s.notices = ⟨[], 0xFF, 0⟩
  awake : s.resetLow = false

/-! ### Cells on the bus -/

/-- The bytes of a cell (Table 11-1): header with its three spare fields, payload, and a cell check. -/
def cellBytes (version : BitVec 4) (kind : BitVec 2) (sync spare0 spare1 : Bool) (spare2 : BitVec 4) (tag : BitVec 12)
    (seq : Byte) (payload : List Byte) (check : BitVec 16) : List Byte :=
  [version ++ kind ++ BitVec.ofBool sync ++ BitVec.ofBool spare0, BitVec.ofBool spare1 ++ BitVec.ofNat 7 payload.length] ++
    bytes16 (spare2 ++ tag) ++ [seq] ++ payload ++ bytes16 check

/-- A cell with a correct check arrives at a running port in READY (R108, R110). -/
structure Arrives (bytes : List Byte) (c : Cell) (s : State) : Prop where
  awake : s.resetLow = false
  ready : s.ingress.port = .ready
  parsed : parseCell bytes = some c
  check : c.checkOk = true

/-- The five tests of the format judgement, as R112 lists them: one of them fails. -/
def FormatFaulty (c : Cell) (r : Resolution) : Prop :=
  c.version ≠ 1 ∨ 64 < c.payload.length ∨
  (c.kind = .mgmt ∧ ((∃ t, r = .stream t) ∨ r = .discard)) ∨
  ((c.kind = .data ∨ c.kind = .mark) ∧ (r = .managementUnit ∨ r = .managementBroadcast)) ∨
  (c.kind = .mark ∧ ¬ ∃ b : Byte, c.payload = [b] ∧ (b = 1 ∨ b = 2 ∨ b = 3)) ∨
  (c.kind = .mgmt ∧ c.payload.length < 4)

/-- Both counters of an arrival: cells_seen and one other (R118). -/
def countersOfArrival (s : State) (other : CounterName) : Counters := (s.agent.counters.inc .cellsSeen).inc other

/-- The cell that joins the ingress FIFO (R116). -/
def fifoCell (c : Cell) (t : StreamId) : StreamCell :=
  ⟨if c.kind = .mark then .mark else .data, c.sync, c.seq, c.payload, t⟩

/-- The hold flag after an entry (R120). -/
def flagAfterEntry (s : State) : Bool :=
  if s.agent.limits.holdMark ≤ s.ingress.fifo.length + 1 then true else s.ingress.holdFlag

/-! ### What waits to be sent -/

/-- The replies that have not left whole, oldest first: the reply in flight, then the reply queue (R127). -/
def owedReplies (s : State) : List Reply :=
  (match s.link.inflight with
    | some (.reply r) => [r]
    | some (.block _ _ _) | some (.notice _) | none => []) ++ s.egress.replies

/-- Kind, stream and repeat count of the notices that have not left whole, oldest first (R128). -/
def owedNotices (s : State) : List (NoticeKind × Option StreamId × Nat) :=
  ((match s.link.inflight with
    | some (.notice n) => [n]
    | some (.block _ _ _) | some (.reply _) | none => []) ++ s.notices.queue).map (fun n => (n.kind, n.stream, n.repeats))

/-- The blocks of a class that have not left whole, oldest first: the block in flight that was taken from the class queue, then
the queue (R126, R136). -/
def owedBlocks (c : EgressClass) (s : State) : List Handle :=
  (match s.link.inflight with
    | some (.block h d _) => if d = c then [h] else []
    | some (.reply _) | some (.notice _) | none => []) ++ s.egress.queues[c]

/-- No handle stands in two class queues or twice in one (R126). -/
def QueuesDisjoint (s : State) : Prop :=
  (s.egress.queues[0] ++ s.egress.queues[1] ++ s.egress.queues[2] ++ s.egress.queues[3]).Nodup

/-- No context record changes, neither in the store nor in a slot. -/
def RecordsKept (s t : State) : Prop :=
  t.engine.store = s.engine.store ∧ ∀ i : SlotNo, t.engine.slots[i].copy = s.engine.slots[i].copy

/-- The current copy of a record with no write-back in flight, as in a sweep: the slot copy while the stream is engaged, otherwise
the store copy (R71). -/
def currentCopy (t : StreamId) (s : State) : Ctx :=
  match engagedSlot s.engine t with
  | some i => s.engine.slots[i].copy
  | none => s.engine.store[t]

/-! ### Commands of the management agent -/

/-- The part runs, and the agent executes a record that names the command (R152). -/
structure Runs (c : Command) (record : List Byte) (s : State) : Prop where
  awake : s.resetLow = false
  executing : s.agent.state = .executing record
  names : recordCommand record = some c

/-- The end of the operation on slot `i` leaves the engine in its mode: in RUNNING, or in SWEEP_WAIT while another operation or
a fetch is in progress (R87). -/
def ModeStays (i : SlotNo) (s : State) : Prop :=
  s.engine.mode = .running ∨
  ((∃ k, s.engine.mode = .sweepWait k) ∧ (s.engine.fetch ≠ none ∨ ∃ j, j ≠ i ∧ s.engine.slots[j].inUse = true))

/-- The agent executes a stream command and holds the slot of the engaged record, in an engine that runs, or waits for a sweep
and for other operations too (R73, R86, R87). -/
structure RunsOn (c : Command) (record : List Byte) (t : StreamId) (i : SlotNo) (s : State) : Prop extends Runs c record s where
  mode : ModeStays i s
  holds : s.engine.mgmt = .holds t i

/-- The reply record of an execution (R154). -/
def executedReply (record : List Byte) (status : Status) (result : List Byte) : Reply :=
  ⟨recordId record, recordCode record, status, false, result⟩

/-- From `s` to `t` one execution has ended: its reply is the youngest one owed, and the transaction cache holds it unless the
transaction id is 0 (R152, R154, R155). -/
structure Answered (record : List Byte) (status : Status) (result : List Byte) (s t : State) : Prop where
  reply : owedReplies t = owedReplies s ++ [executedReply record status result]
  cache : t.agent.cache = if recordId record = 0 then s.agent.cache
    else some ⟨recordId record, recordCode record, executedReply record status result⟩

/-- The event that left `t` ended an execution in a state of which `ended` holds and in which the agent was IDLE, and then made the
take of R151, which is the one that COMMAND_TAKE makes there: with an empty command queue, none. -/
def TakeFollows (ended : State → Prop) (t : State) : Prop :=
  ∃ u, ended u ∧ u.agent.state = .idle ∧ exec .commandTake u = .next t

/-- A reply that joins the queue leaves the frame link port alone unless the port can begin to send or to wait: nothing in flight,
not STALLED, and not WAITING without credit (R129, R133). -/
def LinkKeptByReply (s t : State) : Prop :=
  s.link.inflight ≠ none ∨ s.link.port = .stalled ∨ (s.link.port = .waiting ∧ s.link.credit = 0) → t.link = s.link

/-- What the reply of an execution leaves alone: everything but the agent's state and cache, the reply queue, and the frame link
port with its in-flight item, which the reply may become. -/
structure KeptByReply (s t : State) : Prop where
  ingress : t.ingress = s.ingress
  classifier : t.classifier = s.classifier
  engine : t.engine = s.engine
  assembler : t.assembler = s.assembler
  pool : t.pool = s.pool
  queues : t.egress.queues = s.egress.queues
  roundRobin : t.egress.curClass = s.egress.curClass ∧ t.egress.budget = s.egress.budget
  notices : t.notices = s.notices
  link : LinkKeptByReply s t
  commands : t.agent.cmdq = s.agent.cmdq
  limits : t.agent.limits = s.agent.limits
  counters : t.agent.counters = s.agent.counters
  pin : t.resetLow = s.resetLow
  pending : t.pending = s.pending

/-- The mark of slot `i` is taken, and the slot is the most recently used (R73). -/
def markTaken (i : SlotNo) (s : State) : State :=
  { s with
    engine.slots := s.engine.slots.set i { s.engine.slots[i] with inUse := true }
    engine.lru := s.engine.lru.erase i ++ [i] }

/-- Slot `i` as the fetch for stream `t` leaves it that chose it as its victim: EVICTING if it was DIRTY, otherwise FETCHING with the new
stream (R76 steps 2 and 3). -/
def fetchInto (i : SlotNo) (t : StreamId) (s : State) : Slot :=
  if s.engine.slots[i].state = .dirty then { s.engine.slots[i] with state := .evicting }
  else { s.engine.slots[i] with state := .fetching, stream := some t }

/-- The management agent, in `v`, asks for the engagement of stream `t`, which leaves `w`: outside RUNNING it waits; an engaged slot is
taken if it is free and waited on if it is in use; a stream that is being fetched is waited for, any other has a fetch request lodged.
The fetch unit, where it is IDLE, then starts the next request (R74, R78, R79, R87). -/
structure AgentAsks (t : StreamId) (v w : State) : Prop where
  sweeping : v.engine.mode ≠ .running → w = { v with engine.mgmt := .asked t }
  free : ∀ i, v.engine.mode = .running → engagedSlot v.engine t = some i → v.engine.slots[i].inUse = false →
    w = startNext (markTaken i { v with engine.mgmt := .holds t i })
  inUse : ∀ i, v.engine.mode = .running → engagedSlot v.engine t = some i → v.engine.slots[i].inUse = true →
    w = startNext { v with engine.mgmt := .asked t }
  fetched : ∀ f, v.engine.mode = .running → engagedSlot v.engine t = none → v.engine.fetch = some f → f.stream = t →
    w = { v with engine.mgmt := .asked t }
  busy : ∀ f, v.engine.mode = .running → engagedSlot v.engine t = none → v.engine.fetch = some f → f.stream ≠ t →
    w = { v with engine.mgmt := .lodged t }
  idle : v.engine.mode = .running → engagedSlot v.engine t = none → v.engine.fetch = none →
    w = startNext { v with engine.mgmt := .lodged t }

/-- The waiters of a slot, as R75 lists them. -/
inductive Waiter
  | parkedCell (c : StreamCell)
  | management (t : StreamId)
  | drain (t : StreamId)
  | head (c : StreamCell)
  | nobody
  deriving DecidableEq, Repr

/-- The first waiter of slot `i` in the order of R75: the next parked cell of the slot's stream, the management operation that
asked for the stream, the drain completion that asked for it, the FIFO head held for the slot. Outside RUNNING nobody is
served (R87). -/
def waiterOf (i : SlotNo) (s : State) : Waiter :=
  match s.engine.mode, s.engine.slots[i].stream with
  | .running, some t =>
    match s.engine.parked.head?.filter (fun c => c.stream = t) with
    | some c => .parkedCell c
    | none =>
      if s.engine.mgmt = .asked t then .management t
      else if s.engine.drainReq = .asked t then .drain t
      else
        match s.ingress.fifo.head?.filter (fun c => c.stream = t ∧ s.engine.dispWait = some i) with
        | some c => .head c
        | none => .nobody
  | _, _ => .nobody

/-- From `s` to `t` the mark of slot `i`, given up by its operation, has gone to the first waiter in the same event, the slot then
being the most recently used; with no waiter it is clear (R73, R75). A cell takes it into a free assembler, as it always is for
a parked cell (R81, `EngineConsistent`); the FIFO head goes on waiting on the free slot while a cell is assembled on another slot or
a read waits to hand over parked cells (R81, R83; notes/assumptions/8.md and 20.md). -/
def MarkHandedOn (i : SlotNo) (s t : State) : Prop :=
  let taken := t.engine.slots[i].inUse = true ∧ t.engine.lru = s.engine.lru.erase i ++ [i]
  let cells := t.engine.parked = s.engine.parked ∧ t.assembler = s.assembler ∧ t.ingress = s.ingress
  let waits := t.engine.dispWait = s.engine.dispWait
  let requests := t.engine.mgmt = s.engine.mgmt ∧ t.engine.drainReq = s.engine.drainReq
  match waiterOf i s with
  | .parkedCell c => s.assembler = [] → taken ∧ requests ∧ waits ∧ t.engine.parked = s.engine.parked.tail ∧
      t.assembler = [⟨c, i, none⟩] ∧ t.ingress = s.ingress
  | .management u => taken ∧ cells ∧ waits ∧ t.engine.mgmt = .holds u i ∧ t.engine.drainReq = s.engine.drainReq
  | .drain u => taken ∧ cells ∧ waits ∧ t.engine.mgmt = s.engine.mgmt ∧ t.engine.drainReq = .holds u i
  | .head c =>
    if s.assembler = [] ∧ s.engine.readWaits = false then
      taken ∧ requests ∧ t.engine.dispWait = none ∧ t.engine.parked = s.engine.parked ∧ t.assembler = [⟨c, i, none⟩] ∧
      (let fifo := s.ingress.fifo.tail
       let flag := if fifo.length ≤ s.agent.limits.releaseMark then false else s.ingress.holdFlag
       t.ingress = { s.ingress with
         fifo := fifo
         holdFlag := flag
         hold := s.resetLow || s.ingress.port != .ready || flag || s.pool.low })
    else t.engine.slots[i].inUse = false ∧ t.engine.lru = s.engine.lru ∧ cells ∧ requests ∧ waits
  | .nobody => t.engine.slots[i].inUse = false ∧ t.engine.lru = s.engine.lru ∧ cells ∧ requests ∧ waits

/-- What the end of an operation on the record in slot `i` leaves alone, the reply of a command included: beside that slot, the
agent and the reply, only the mark of the slot, the waiter that takes it and the last-use order change. -/
structure KeptByRelease (i : SlotNo) (s t : State) : Prop where
  port : t.ingress.port = s.ingress.port ∧ t.ingress.rsp = s.ingress.rsp
  mark : MarkHandedOn i s t
  classifier : t.classifier = s.classifier
  store : t.engine.store = s.engine.store
  slots : ∀ j : SlotNo, j ≠ i → t.engine.slots[j] = s.engine.slots[j]
  slotStream : t.engine.slots[i].stream = s.engine.slots[i].stream
  fetch : t.engine.fetch = s.engine.fetch ∧ t.engine.readWaits = s.engine.readWaits ∧
    t.engine.dispReq = s.engine.dispReq ∧ t.engine.mode = s.engine.mode
  drainList : t.engine.drainList = s.engine.drainList
  pool : t.pool = s.pool
  queues : t.egress.queues = s.egress.queues
  roundRobin : t.egress.curClass = s.egress.curClass ∧ t.egress.budget = s.egress.budget
  notices : t.notices = s.notices
  link : LinkKeptByReply s t
  commands : t.agent.cmdq = s.agent.cmdq
  limits : t.agent.limits = s.agent.limits
  counters : t.agent.counters = s.agent.counters
  pin : t.resetLow = s.resetLow
  pending : t.pending = s.pending

/-- A stream command has ended, and no take has followed yet: from `s` to `t` it is answered, its record in slot `i` is `x`, the slot's mark is handed on, and
beside that the state is the one `u` that its effect left. -/
structure StreamAnswered (record : List Byte) (i : SlotNo) (status : Status) (result : List Byte) (x : Ctx) (s u t : State) :
    Prop extends Answered record status result s t, KeptByRelease i { u with engine.mgmt := .idle } t where
  released : t.engine.mgmt = .idle
  copy : t.engine.slots[i].copy = x

/-- The bus-reset sweep has begun at an engine `e`, which leaves `f`: the parked cells are discarded, the samples of the DATA cells
counted in the record of their stream, whose slot is DIRTY if any were; the dispatcher's request and wait are withdrawn; stream 0
is the first to be swept (R89, R90). -/
structure BusSweepBegun (e f : Engine) : Prop where
  mode : f.mode = .busSweep 0 false
  parked : f.parked = []
  withdrawn : f.dispReq = none ∧ f.dispWait = none
  counted : ∀ (c : StreamCell) (i : SlotNo), e.parked.head? = some c → engagedSlot e c.stream = some i →
    let x := e.slots[i]
    let n := (e.parked.map (fun d => if d.kind = .data then d.payload.length / x.copy.cfg.geom.w else 0)).sum
    f.slots[i] = { x with
      copy.counters.samplesDiscarded := x.copy.counters.samplesDiscarded + BitVec.ofNat 32 n
      state := if n = 0 then x.state else .dirty }
  slots : ∀ i : SlotNo, (∀ c, e.parked.head? = some c → engagedSlot e c.stream ≠ some i) → f.slots[i] = e.slots[i]
  kept : f.store = e.store ∧ f.lru = e.lru ∧ f.fetch = e.fetch ∧ f.readWaits = e.readWaits ∧ f.mgmt = e.mgmt ∧
    f.drainReq = e.drainReq ∧ f.drainList = e.drainList

/-- SWEEP_WAIT has ended in `s` and left `t`: the recorded sweep has begun (R87). The init sweep writes the engine's reset
values (R88). -/
def SweepBegun (k : SweepKind) (s t : State) : Prop :=
  match k with
  | .init => t = { s with engine := State.reset.engine, assembler := [] }
  | .bus => t = { s with engine := t.engine } ∧ BusSweepBegun s.engine t.engine

/-- The stream commands by row, with the states that take them (Table 1-11). -/
def takenIn : Instr → StreamState → Bool
  | .streamOpen, .closed | .streamPause, .opened | .streamResume, .paused | .streamReconfigure, .paused
  | .streamCut, .opened | .streamCut, .paused
  | .streamRelease, .opened | .streamRelease, .paused | .streamRelease, .faulted
  | .streamCloseGraceful, .opened | .streamCloseGraceful, .paused | .streamCloseGraceful, .faulted
  | .streamCloseAbort, .opened | .streamCloseAbort, .paused | .streamCloseAbort, .draining | .streamCloseAbort, .faulted
  | .streamQuery, _ => true
  | _, _ => false

/-- The command that a stream-command row executes, and the records whose arguments are legal for it (R10, R11, R21). -/
def streamRow (record : List Byte) : Instr → Option (Command × Prop)
  | .streamOpen => some (.streamOpen, (configArg record).isSome = true)
  | .streamPause => some (.streamPause, True)
  | .streamResume => some (.streamResume, True)
  | .streamCut => some (.streamCut, True)
  | .streamRelease => some (.streamRelease, True)
  | .streamReconfigure => some (.streamReconfigure, (configArg record).isSome = true)
  | .streamCloseGraceful => some (.streamClose, closeForm record = some false)
  | .streamCloseAbort => some (.streamClose, closeForm record = some true)
  | _ => none

/-- The row ends an operation of the agent that holds the mark of slot `i`. -/
def EndsAgentOperation (row : Instr) (i : SlotNo) (s : State) : Prop :=
  (∃ t, s.engine.mgmt = .holds t i) ∧
  ((row = .streamsTeardown ∧ ∃ n, s.agent.state = .tearing n) ∨
   (row = .streamQuery ∧ ∃ record, Runs .streamQuery record s) ∨
   ∃ record c legal, streamRow record row = some (c, legal) ∧ legal ∧ Runs c record s)

/-- The row ends an assembly or a drain completion that holds the mark of slot `i`. -/
def EndsCellOrDrain (row : Instr) (i : SlotNo) (s : State) : Prop :=
  (row = .cellAssembly ∧ ∃ a rest, s.assembler = a :: rest ∧ a.slot = i) ∨
  (row = .drainCompletion ∧ ∃ t, s.engine.drainReq = .holds t i)

/-- What a FULL reset leaves when it takes effect at `s`: the values of Table 8-8, with the unit address, the page bytes, the
credit count and the response lane kept, and the init sweep running, pending, or due after a step of the bus-reset sweep
(R70, R87, R105, R125, R148, R171, R173, R181). -/
structure FullResetTaken (s t : State) : Prop where
  ingress : t.ingress = ⟨.init, [], false, true, s.ingress.rsp⟩
  table : ∀ n : EntryNo, t.classifier.table[n] = ⟨false, 0, 0, .stream, 0, 0⟩
  unitAddr : t.classifier.unitAddr = s.classifier.unitAddr
  descriptors : ∀ h : Handle, t.pool.desc[h].state = .free
  freeLists : t.pool.freePages = List.finRange 512 ∧ t.pool.freeDesc = List.finRange 128 ∧ t.pool.low = false
  registry : ∀ u : StreamId, t.pool.drain[u] = ⟨0, false⟩
  pages : t.pool.mem = s.pool.mem
  egress : t.egress = ⟨#v[[], [], [], []], [], 0, 4⟩
  agent : t.agent = ⟨[], .idle, none, ⟨24, 16, 32, 2000, #v[4, 3, 2, 1], 0b1000⟩, ⟨0, 0, 0, 0, 0, 0, 0, 0, 0, 0, 0, 0, 0, 0, 0⟩⟩
  notices : t.notices = ⟨[], 0xFF, 0⟩
  sweep : t.engine.mode = .initSweep ∨ t.engine.mode = .sweepWait .init ∨ ∃ n, t.engine.mode = .busSweep n true
  link : t.link.credit = s.link.credit ∧ t.link.inflight = none ∧ t.link.timer = none
  pending : t.pending = s.pending

/-- What a FULL reset that takes effect at `s` does to the context engine and the block assembler, and leaves in `t`. In RUNNING with nothing
in progress the init sweep begins at once. Otherwise only the mode changes: the init sweep is pending, in place of a bus-reset sweep, or
due after a sweep step; and an assembly in progress keeps the descriptor it was filling, which its sample writes still find
(R87, R88, R171, R172; notes/assumptions/15.md for what is kept). -/
structure EngineAtFullReset (s t : State) : Prop where
  atOnce : s.engine.mode = .running → anyInUse s.engine = false → s.engine.fetch = none →
    EngineAtReset t.engine ∧ t.assembler = []
  waits : s.engine.mode ≠ .running ∨ anyInUse s.engine = true ∨ s.engine.fetch ≠ none →
    t.engine = { s.engine with
      mode := match s.engine.mode with
        | .running | .sweepWait _ => .sweepWait .init
        | .initSweep => .initSweep
        | .busSweep n _ => .busSweep n true } ∧
    t.assembler = s.assembler.map (fun a =>
      match s.engine.slots[a.slot].copy.fill with
      | .filling h _ _ => { a with stale := some (h, s.pool.desc[h]) }
      | .empty | .hunting => a)

/-- The agent waits for the effect of a reset that it has answered (R167). -/
def AgentState.isResetPending : AgentState → Bool
  | .resetPending _ => true
  | .idle | .waitingReplySpace | .executing _ | .tearing _ => false

end Sys2Proof.Machine
end

