-- ==== Sys2Proof/Certificates/Slice0/Obligations.lean ====
section
/-!
DEFINITION. The statements about the block, for the provers. Their witnesses stand in Sys2Proof/Tests/Slice0.lean.
-/
open Sys2Proof Sys2Proof.Machine

/-! ### A step, and every command -/

/-- A step takes the command at the front of the queue and runs it on the rest of the state. -/
def Obligations.StepRunsFrontCommand : Prop :=
  ∀ (s : State) (c : Instr) (rest : List Instr), s.pending = c :: rest → step s = exec c { s with pending := rest }

/-- Every command answers a next state, in every state; it leaves the waiting commands, and the unit address unless it is a
release of RESET_N (R94, R188). -/
def Obligations.EveryCommandAnswersNext : Prop :=
  ∀ (c : Instr) (s : State), ∃ t, exec c s = .next t ∧ t.pending = s.pending ∧
    ((∀ straps, c ≠ .resetNRelease straps) → t.classifier.unitAddr = s.classifier.unitAddr)

/-! ### RESET_N and the init sweep -/

/-- A low level of 2 µs or longer resets the part, a shorter one changes nothing; while RESET_N is low HOLD is driven, the
response lane is undriven, nothing is sent, and no event but the release does anything. Page bytes are kept (R52, R188; that no
event of any kind acts meanwhile, the part's own included, is the model's choice, notes/assumptions/11.md). -/
def Obligations.ResetPinHoldsThePart : Prop :=
  (∀ (ns : Nat) (s : State), ns < 2000 → exec (.resetNAssert ns) s = .next s) ∧
  (∀ (ns : Nat) (s : State), 2000 ≤ ns → ∃ t, exec (.resetNAssert ns) s = .next t ∧ t.resetLow = true ∧
    t.ingress.hold = true ∧ t.ingress.rsp = none ∧ t.link.inflight = none ∧ t.link.frame = [] ∧
    t.pool.mem = s.pool.mem ∧ t.pending = s.pending) ∧
  (∀ (c : Instr) (s : State), s.resetLow = true → (∀ ns, c ≠ .resetNAssert ns) → (∀ straps, c ≠ .resetNRelease straps) →
    exec c s = .next s)

/-- The release of RESET_N samples the straps and leaves the power-on values, page bytes kept; `State.reset` holds the same
values, with the straps that the model chose (notes/assumptions/3.md) and no page byte written. That a release without a low level
before it changes nothing is the model's choice (notes/assumptions/2.md). -/
def Obligations.ReleaseLeavesPowerOnValues : Prop :=
  (∀ (straps : BitVec 3) (s : State), s.resetLow = true → ∃ t, exec (.resetNRelease straps) s = .next t ∧ AtPowerOn t ∧
    t.classifier.unitAddr = straps ∧ t.pool.mem = s.pool.mem ∧ t.pending = s.pending) ∧
  (∀ (straps : BitVec 3) (s : State), s.resetLow = false → exec (.resetNRelease straps) s = .next s) ∧
  AtPowerOn State.reset ∧ State.reset.classifier.unitAddr = 0 ∧ State.reset.pool.mem = [] ∧ State.reset.pending = []

/-- At the completion of the init sweep the engine enters RUNNING and the ingress port leaves INIT for READY; HOLD is then driven
for the hold flag or for pool-low alone. Nothing else changes (R88, R121, R123). -/
def Obligations.InitSweepCompletionMakesReady : Prop :=
  ∀ s : State, s.resetLow = false → s.engine.mode = .initSweep →
    exec .initSweepCompletion s = .next { s with
      engine.mode := .running
      ingress.port := .ready
      ingress.hold := s.ingress.holdFlag || s.pool.low }

/-! ### The cell bus -/

/-- An arrival in INIT or BUS_RESET is counted in cells_seen and nothing else happens; so is a FILL cell with a correct check in
READY (R109). In READY a cell with a failed check counts in check_errors too, whatever its fields hold, and a cell with a correct
check that no claim takes counts in cells_unclaimed (R110, R111). None is answered, and nothing else changes. -/
def Obligations.ArrivalsThatAreOnlyCounted : Prop :=
  ∀ (bytes : List Byte) (c : Cell) (s : State), s.resetLow = false → parseCell bytes = some c →
    (s.ingress.port ≠ .ready ∨ (c.checkOk = true ∧ c.kind = .fill) →
      exec (.cellArrival bytes) s = .next { s with
        agent.counters := s.agent.counters.inc .cellsSeen
        ingress.rsp := none }) ∧
    (s.ingress.port = .ready → c.checkOk = false →
      exec (.cellArrival bytes) s = .next { s with
        agent.counters := countersOfArrival s .checkErrors
        ingress.rsp := none }) ∧
    (s.ingress.port = .ready → c.checkOk = true → c.kind ≠ .fill → resolve s.classifier c.tag = .noClaim →
      exec (.cellArrival bytes) s = .next { s with
        agent.counters := countersOfArrival s .cellsUnclaimed
        ingress.rsp := none })

/-- A claimed cell that fails one of the five tests of R112 is a format fault: cells_seen and cells_refused_format advance, the
answer is REFUSE_FORMAT, or none on the broadcast tag, and nothing is placed, requested or touched (R112, R113). -/
def Obligations.FormatFaultIsRefused : Prop :=
  ∀ (bytes : List Byte) (c : Cell) (s : State), Arrives bytes c s → c.kind ≠ .fill → resolve s.classifier c.tag ≠ .noClaim →
    FormatFaulty c (resolve s.classifier c.tag) →
    exec (.cellArrival bytes) s = .next { s with
      agent.counters := countersOfArrival s .cellsRefusedFormat
      ingress.rsp := if resolve s.classifier c.tag = .managementBroadcast then none else some .refuseFormat }

/-- A well-formed cell resolved to a stream joins the FIFO while fewer than 32 cells wait, with the hold flag judged, and is
refused REFUSE_FULL with an INGRESS_REFUSED request otherwise; one resolved to DISCARD is answered ACCEPT and dropped, whatever
the FIFO holds (R99, R114, R116, R120, R121). -/
def Obligations.StreamCellJoinsFifoOrIsRefused : Prop :=
  (∀ (bytes : List Byte) (c : Cell) (s : State) (t : StreamId), Arrives bytes c s → c.kind ≠ .fill →
    resolve s.classifier c.tag = .stream t → ¬ FormatFaulty c (.stream t) →
    (s.ingress.fifo.length < 32 → exec (.cellArrival bytes) s = .next { s with
      ingress := ⟨.ready, s.ingress.fifo ++ [fifoCell c t], flagAfterEntry s, flagAfterEntry s || s.pool.low, some .accept⟩
      agent.counters := countersOfArrival s .cellsAccepted }) ∧
    (32 ≤ s.ingress.fifo.length → exec (.cellArrival bytes) s = .next (requestNotice .ingressRefused none { s with
      ingress.rsp := some .refuseFull
      agent.counters := countersOfArrival s .cellsRefusedFull }))) ∧
  (∀ (bytes : List Byte) (c : Cell) (s : State), Arrives bytes c s → c.kind ≠ .fill →
    resolve s.classifier c.tag = .discard → ¬ FormatFaulty c .discard →
    exec (.cellArrival bytes) s = .next { s with
      ingress.rsp := some .accept
      agent.counters := countersOfArrival s .cellsDiscardClass })

/-- A well-formed MGMT cell joins the command queue while fewer than 4 records wait: answered ACCEPT on the unit's own tag, not
answered on the broadcast tag; the agent then makes in the same event the take that COMMAND_TAKE makes of that state. A full queue
refuses the first with REFUSE_FULL and drops the second into mgmt_dropped; either way INGRESS_REFUSED is requested (R115, R116,
R151). -/
def Obligations.ManagementCellJoinsQueueOrIsRefused : Prop :=
  ∀ (bytes : List Byte) (c : Cell) (s : State), Arrives bytes c s →
    (resolve s.classifier c.tag = .managementUnit → ¬ FormatFaulty c .managementUnit → c.kind ≠ .fill →
      (s.agent.cmdq.length < 4 → exec (.cellArrival bytes) s = exec .commandTake { s with
        agent.cmdq := s.agent.cmdq ++ [c.payload]
        agent.counters := countersOfArrival s .cellsAccepted
        ingress.rsp := some .accept }) ∧
      (4 ≤ s.agent.cmdq.length → exec (.cellArrival bytes) s = .next (requestNotice .ingressRefused none { s with
        agent.counters := countersOfArrival s .cellsRefusedFull
        ingress.rsp := some .refuseFull }))) ∧
    (resolve s.classifier c.tag = .managementBroadcast → ¬ FormatFaulty c .managementBroadcast → c.kind ≠ .fill →
      (s.agent.cmdq.length < 4 → exec (.cellArrival bytes) s = exec .commandTake { s with
        agent.cmdq := s.agent.cmdq ++ [c.payload]
        agent.counters := countersOfArrival s .cellsAccepted
        ingress.rsp := none }) ∧
      (4 ≤ s.agent.cmdq.length → exec (.cellArrival bytes) s = .next (requestNotice .ingressRefused none { s with
        agent.counters := countersOfArrival s .mgmtDropped
        ingress.rsp := none })))

/-- The pins RSP1 and RSP0 show Table 12-2 in the window of a cell: released and low for ACCEPT, low and released for
REFUSE_FORMAT, both low for REFUSE_FULL. Both are released where no response is owed: outside READY, on a failed check, a FILL
cell or a tag without a claim, on the broadcast tag, after a bus-reset sequence, and while RESET_N is low (R117, R188, R189). -/
def Obligations.ResponsePinsShowTheAnswer : Prop :=
  (∀ (bytes : List Byte) (c : Cell) (s : State), Arrives bytes c s → c.kind ≠ .fill →
    let r := resolve s.classifier c.tag
    let room := match r with
      | .stream _ => s.ingress.fifo.length < 32
      | .managementUnit => s.agent.cmdq.length < 4
      | .discard | .managementBroadcast | .noClaim => True
    ∃ t, exec (.cellArrival bytes) s = .next t ∧
      (r = .noClaim ∨ r = .managementBroadcast → t.rspPins = (.released, .released)) ∧
      (r ≠ .noClaim → r ≠ .managementBroadcast →
        (FormatFaulty c r → t.rspPins = (.low, .released)) ∧
        (¬ FormatFaulty c r → room → t.rspPins = (.released, .low)) ∧
        (¬ FormatFaulty c r → ¬ room → t.rspPins = (.low, .low)))) ∧
  (∀ (bytes : List Byte) (c : Cell) (s : State), s.resetLow = false → parseCell bytes = some c →
    s.ingress.port ≠ .ready ∨ c.checkOk = false ∨ c.kind = .fill →
    ∃ t, exec (.cellArrival bytes) s = .next t ∧ t.rspPins = (.released, .released)) ∧
  (∀ s : State, s.resetLow = false → ∃ t, exec .busResetSequence s = .next t ∧ t.rspPins = (.released, .released)) ∧
  (∀ (ns : Nat) (s : State), 2000 ≤ ns → ∃ t, exec (.resetNAssert ns) s = .next t ∧ t.rspPins = (.released, .released))

/-- A cell written by Table 11-1 is read back whole, whatever its spare bits hold: every field, the kind by its two bits (0 DATA,
1 MARK, 2 MGMT, 3 FILL), and whether its check equals the CRC-16 over header and payload, which over the ASCII bytes 123456789 is
29B1h (R184). -/
def Obligations.CellLayoutReadsBack : Prop :=
  (∀ (version : BitVec 4) (kind : BitVec 2) (sync spare0 spare1 : Bool) (spare2 : BitVec 4) (tag : BitVec 12) (seq : Byte)
      (payload : List Byte) (check : BitVec 16), payload.length < 128 →
    let bytes := cellBytes version kind sync spare0 spare1 spare2 tag seq payload check
    parseCell bytes = some ⟨version, cellKindOf kind, sync, tag, seq, payload,
      decide (crc16 (bytes.take (5 + payload.length)) = check)⟩ ∧
    (Instr.cellArrival bytes).wellFormed = true) ∧
  cellKindOf 0 = .data ∧ cellKindOf 1 = .mark ∧ cellKindOf 2 = .mgmt ∧ cellKindOf 3 = .fill ∧
  crc16 [0x31, 0x32, 0x33, 0x34, 0x35, 0x36, 0x37, 0x38, 0x39] = 0x29B1

/-- A bus-reset sequence taken in READY puts the port in BUS_RESET with HOLD driven, empties the FIFO, clears the hold flag, asks
for the bus-reset sweep, which begins at once where nothing is in progress, advances link_resets and requests LINK_RESET; taken in
INIT or BUS_RESET, beside an engine that has the sweep pending or running, it does the last two alone. The command queue, the pool
and the egress side are not touched but for that notice (R87, R89, R122, R123). -/
def Obligations.BusResetEmptiesFifoAndAsksSweep : Prop :=
  (∀ s : State, s.resetLow = false → s.ingress.port = .ready → s.engine.mode = .running →
    ∃ u, exec .busResetSequence s = .next (requestNotice .linkReset none u) ∧
      u.ingress = ⟨.busReset, [], false, true, none⟩ ∧
      u.engine.mode = (if anyInUse s.engine = false ∧ s.engine.fetch = none then .busSweep 0 false else .sweepWait .bus) ∧
      (anyInUse s.engine = false → s.engine.fetch = none → BusSweepBegun s.engine u.engine) ∧
      (anyInUse s.engine = true ∨ s.engine.fetch ≠ none → u.engine = { s.engine with mode := .sweepWait .bus }) ∧
      u.engine.store = s.engine.store ∧ u.classifier = s.classifier ∧ u.assembler = s.assembler ∧ u.pool = s.pool ∧
      u.egress = s.egress ∧ u.link = s.link ∧ u.notices = s.notices ∧
      u.agent = { s.agent with counters := s.agent.counters.inc .linkResets }) ∧
  (∀ s : State, s.resetLow = false → PortEngineAgree s → s.ingress.port ≠ .ready →
    exec .busResetSequence s = .next (requestNotice .linkReset none { s with
      ingress.rsp := none
      agent.counters := s.agent.counters.inc .linkResets }))

/-! ### Tag classification -/

/-- A tag of the management range is resolved by the unit address alone, whatever the table holds: 0FF0h + unit address is the
unit's, 0FFFh is the broadcast tag, and no other is claimed. A data tag is decided by the lowest-numbered entry that is valid and
agrees with it in every cared bit: STREAM gives the stream base, SPREAD the base plus the tag's low bits, DISCARD discards; with
no such entry there is no claim (R94 to R99). -/
def Obligations.TagsResolveByAddressOrLowestEntry : Prop :=
  ∀ (c : Classifier) (tag : BitVec 12),
    (0xFF0 ≤ tag.toNat → resolve c tag =
      if tag.toNat = 0xFF0 + c.unitAddr.toNat then .managementUnit
      else if tag.toNat = 0xFFF then .managementBroadcast
      else .noClaim) ∧
    (tag.toNat < 0xFF0 →
      let fits := fun n : EntryNo => c.table[n].valid = true ∧
        ∀ b < 12, c.table[n].care.getLsbD b = true → tag.getLsbD b = c.table[n].value.getLsbD b
      ((∀ n, ¬ fits n) → resolve c tag = .noClaim) ∧
      (∀ n, fits n → (∀ m < n, ¬ fits m) →
        (c.table[n].action = .stream → resolve c tag = .stream c.table[n].base) ∧
        (c.table[n].action = .discard → resolve c tag = .discard) ∧
        (c.table[n].action = .spread → c.table[n].legal = true →
          ∃ t : StreamId, resolve c tag = .stream t ∧ t.val = c.table[n].base.val + tag.toNat % 2 ^ c.table[n].width)))

/-- An entry block is refused exactly when one of the four checks of CLASS_WRITE fails: entry number, field ranges, spread reach,
and management reach, that is when some management tag agrees with the match value in every cared bit; any other gives its fields
byte by byte. A configuration block is refused exactly when a field is out of range or w·R·C is above 4096; any other gives its
fields, the policies by the five policy bits (R2, R10, R101, R102, R185). A block of bytes that is read as an entry, a
configuration or a limits record is written back by CLASS_READ, STREAM_QUERY and LIMITS_READ so that it is read as the same, every
field as written; a field of two or four bytes is written most significant byte first (R103, R163, R185). A command record holds
its code in byte 0, the transaction id in bytes 2 and 3 and the argument block from byte 4, the stream of a stream command first;
the seventeen codes of Table 11-2 name their commands, each with its argument length, and no other code names one; form, clear
option and level are 0 or 1, GRACEFUL and ABORT, no and yes, STREAMS and FULL (R149, R152, R185). -/
def Obligations.ArgumentBlocksJudgedAndReadBack : Prop :=
  (∀ b0 b1 b2 b3 b4 b5 b6 b7 : Byte,
    let value := 256 * b2.toNat + b3.toNat
    let care := 256 * b4.toNat + b5.toNat
    let action := b6.toNat / 16
    let width := b6.toNat % 16
    let reaches := ∃ tag : BitVec 12, 0xFF0 ≤ tag.toNat ∧
      ∀ b < 12, (BitVec.ofNat 12 care).getLsbD b = true → tag.getLsbD b = (BitVec.ofNat 12 value).getLsbD b
    (parseEntry [b0, b1, b2, b3, b4, b5, b6, b7] = none ↔
      64 ≤ b0.toNat ∨ 1 < b1.toNat ∨ 4095 < value ∨ 4095 < care ∨ 2 < action ∨ 4 < width ∨ (action = 1 ∧ width = 0) ∨
      (b1 = 1 ∧ action = 1 ∧ 255 < b7.toNat + 2 ^ width - 1) ∨ (b1 = 1 ∧ reaches)) ∧
    (∀ n e, parseEntry [b0, b1, b2, b3, b4, b5, b6, b7] = some (n, e) →
      n.val = b0.toNat ∧ (e.valid = true ↔ b1 = 1) ∧ e.value.toNat = value ∧ e.care.toNat = care ∧
      (e.action = .stream ↔ action = 0) ∧ (e.action = .spread ↔ action = 1) ∧ (e.action = .discard ↔ action = 2) ∧
      e.width = width ∧ e.base.val = b7.toNat)) ∧
  (∀ b0 b1 b2 b3 b4 b5 b6 : Byte,
    let columns := 256 * b2.toNat + b3.toNat
    parseCfg [b0, b1, b2, b3, b4, b5, b6] =
      if b0.toNat < 1 ∨ 4 < b0.toNat ∨ b1.toNat < 1 ∨ 64 < b1.toNat ∨ columns < 1 ∨ 1024 < columns ∨ 3 < b4.toNat ∨
          b5.toNat < 1 ∨ 16 < b5.toNat ∨ 4096 < b0.toNat * (b1.toNat * columns) then none
      else some {
        geom := ⟨b0.toNat, b1.toNat, columns, if b6.getLsbD 0 then .columnFirst else .rowFirst⟩
        mode := if b6.getLsbD 1 then .held else .immediate
        cls := Fin.ofNat 4 b4.toNat
        heldLimit := b5.toNat
        gap := if b6.getLsbD 2 then .tolerate else .resync
        broken := if b6.getLsbD 3 then .discard else .emit
        overflow := if b6.getLsbD 4 then .fault else .dropOldest }) ∧
  (∀ (a : List Byte) (n : EntryNo) (e : ClassEntry), parseEntry a = some (n, e) → parseEntry (e.toBytes n) = some (n, e)) ∧
  (∀ (a : List Byte) (c : StreamCfg), parseCfg a = some c → parseCfg c.toBytes = some c) ∧
  (∀ (a : List Byte) (l : Limits), parseLimits a = some l → parseLimits l.toBytes = some l) ∧
  (∀ a b c d : Byte, bytes16 (a ++ b) = [a, b] ∧ bytes32 (a ++ b ++ c ++ d) = [a, b, c, d]) ∧
  (∀ (code spare i1 i0 : Byte) (args : List Byte),
    let record := code :: spare :: i1 :: i0 :: args
    recordCode record = code ∧ recordId record = i1 ++ i0 ∧ recordArgs record = args ∧ recordCommand record = commandOf code ∧
    (∀ b rest, args = b :: rest → (recordStream record).val = b.toNat ∧ clearOption record = boolArg b ∧
      resetLevelArg record = if b = 0 then some .streams else if b = 1 then some .full else none) ∧
    (∀ b form rest, args = b :: form :: rest → closeForm record = boolArg form)) ∧
  (boolArg 0 = some false ∧ boolArg 1 = some true ∧ ∀ b : Byte, b ≠ 0 → b ≠ 1 → boolArg b = none) ∧
  (let names := fun (code : Byte) (c : Command) (length : Nat) (onStream : Bool) =>
    commandOf code = some c ∧ c.argLength = length ∧ c.onStream = onStream
   names 0x01 .ident 0 false ∧ names 0x02 .classWrite 8 false ∧ names 0x03 .classRead 1 false ∧
   names 0x04 .streamOpen 8 true ∧ names 0x05 .streamClose 2 true ∧ names 0x06 .streamPause 1 true ∧
   names 0x07 .streamResume 1 true ∧ names 0x08 .streamCut 1 true ∧ names 0x09 .streamRelease 1 true ∧
   names 0x0A .streamReconfigure 8 true ∧ names 0x0B .streamQuery 1 true ∧ names 0x0C .poolQuery 0 false ∧
   names 0x0D .limitsWrite 11 false ∧ names 0x0E .limitsRead 0 false ∧ names 0x0F .countersRead 1 false ∧
   names 0x10 .noticeMaskWrite 1 false ∧ names 0x11 .unitReset 1 false) ∧
  (∀ code : Byte, code = 0 ∨ 0x11 < code.toNat → commandOf code = none)

/-! ### The context engine -/

/-- One step of the bus-reset sweep acts on the current copy of one record alone. A CLOSED, DRAINING or FAULTED stream keeps it.
In an OPEN or PAUSED stream sequence valid is cleared and EMPTY or HUNTING becomes HUNTING; a block in FILLING is freed and
counted in blocks_dropped under DISCARD, and passes through the completion routine with BROKEN under EMIT, where HUNTING follows
unless the completion faulted the stream. An engaged slot is DIRTY where the step wrote its record, and the most recently used.
Then the next stream is due; after stream 255 the engine runs, the port is READY and the waiting users are served: a slot whose
fetch completed in SWEEP_WAIT goes to its requester, an engaged slot that is free to the party that asked for it, the agent before
the drain service; a party whose stream is not engaged lodges its request; then the fetch unit starts the next one. The order of
these steps is notes/assumptions/21.md (the model's: R91 names none). A step that a FULL reset overtook changes nothing, and the
init sweep begins: the engine has its reset values (R71, R73, R74, R87, R88, R90, R91). -/
def Obligations.SweepStepBreaksOneStream : Prop :=
  (∀ (s : State) (n : StreamId), s.resetLow = false → s.engine.mode = .busSweep n false →
    let x := currentCopy n s
    let y := { x with seqValid := false }
    ∃ v : State,
      (∀ h : n.val + 1 < 256,
        exec .busSweepStep s = .next { v with engine.mode := .busSweep ⟨n.val + 1, h⟩ false }) ∧
      (n = 255 → exec .busSweepStep s = .next (serveWaiting { v with
        engine.mode := .running
        ingress.port := .ready
        ingress.hold := v.ingress.holdFlag || v.pool.low })) ∧
      v.ingress.fifo = s.ingress.fifo ∧ v.engine.parked = s.engine.parked ∧ v.agent.cmdq = s.agent.cmdq ∧
      (engagedSlot s.engine n = none → v.engine.slots = s.engine.slots ∧ v.engine.lru = s.engine.lru) ∧
      (∀ i, engagedSlot s.engine n = some i →
        v.engine.slots[i].state = (if x.state = .opened ∨ x.state = .paused then .dirty else s.engine.slots[i].state) ∧
        v.engine.slots[i].stream = some n ∧ v.engine.slots[i].inUse = s.engine.slots[i].inUse ∧
        v.engine.lru = s.engine.lru.erase i ++ [i] ∧ v.engine.store = s.engine.store ∧
        (∀ j : SlotNo, j ≠ i → v.engine.slots[j] = s.engine.slots[j])) ∧
      (∀ u : StreamId, u ≠ n → currentCopy u v = currentCopy u s) ∧
      ((x.state = .closed ∨ x.state = .draining ∨ x.state = .faulted) →
        currentCopy n v = x ∧ v.pool = s.pool ∧ v.egress = s.egress) ∧
      ((x.state = .opened ∨ x.state = .paused) →
        ((x.fill = .empty ∨ x.fill = .hunting) →
          currentCopy n v = { y with fill := .hunting } ∧ v.pool = s.pool ∧ v.egress = s.egress) ∧
        (∀ h k spliced, x.fill = .filling h k spliced →
          (x.cfg.broken = .discard →
            currentCopy n v = { y.dropBlock with fill := .hunting } ∧ v.pool = (freeBlock h s).pool) ∧
          (x.cfg.broken = .emit →
            let r := complete n h k false true spliced s y
            currentCopy n v = (if r.2.state = .faulted then r.2 else { r.2 with fill := .hunting }) ∧
            v.pool = r.1.pool ∧ v.egress = r.1.egress ∧ v.link = r.1.link ∧ v.notices = r.1.notices)))) ∧
  (∀ v : State, v.engine.mode = .running → v.engine.fetch = none →
    let free := fun (t : StreamId) (i : SlotNo) => engagedSlot v.engine t = some i ∧ v.engine.slots[i].inUse = false
    let agentTakes := fun (t : StreamId) (i : SlotNo) => serveWaiting v = serveWaiting (markTaken i { v with engine.mgmt := .holds t i })
    let drainTakes := fun (t : StreamId) (i : SlotNo) =>
      serveWaiting v = serveWaiting (markTaken i { v with engine.drainReq := .holds t i })
    let fetched := (∃ t, v.engine.mgmt = .fetched t) ∨ ∃ t, v.engine.drainReq = .fetched t
    let agentDue := ∃ t i, v.engine.mgmt = .asked t ∧ free t i
    let drainDue := ∃ t i, v.engine.drainReq = .asked t ∧ free t i
    (∀ t i, v.engine.mgmt = .fetched t → free t i → agentTakes t i) ∧
    (∀ t i, (∀ u, v.engine.mgmt ≠ .fetched u) → v.engine.drainReq = .fetched t → free t i → drainTakes t i) ∧
    (¬ fetched →
      (∀ t i, v.engine.mgmt = .asked t → free t i → agentTakes t i) ∧
      (¬ agentDue → ∀ t i, v.engine.drainReq = .asked t → free t i → drainTakes t i) ∧
      (¬ agentDue → ¬ drainDue →
        (∀ t, v.engine.mgmt = .asked t → engagedSlot v.engine t = none →
          serveWaiting v = serveWaiting { v with engine.mgmt := .lodged t }) ∧
        (∀ t, v.engine.drainReq = .asked t → engagedSlot v.engine t = none →
          serveWaiting v = serveWaiting { v with engine.drainReq := .lodged t }) ∧
        ((∀ t, v.engine.mgmt = .asked t → engagedSlot v.engine t ≠ none) →
          (∀ t, v.engine.drainReq = .asked t → engagedSlot v.engine t ≠ none) → serveWaiting v = startNext v)))) ∧
  (∀ (s : State) (n : StreamId), s.resetLow = false → s.engine.mode = .busSweep n true →
    ∃ t, exec .busSweepStep s = .next t ∧ EngineAtReset t.engine ∧ t = { s with engine := t.engine, assembler := [] })

/-- In RUNNING the dispatcher sends a head cell whose stream is engaged in a free slot to the free assembler, which takes the
slot's mark; starts a fetch for a head whose stream is not engaged, and parks it; and parks a head of the stream that it is
fetching while fewer than 8 cells are parked. In each case the head leaves the FIFO. Otherwise the head stays: it waits on a slot
in use, whatever is in assembly; it has a request lodged for it while the unit serves others; or it waits, with a full list,
behind parked cells, behind another fetch of the dispatcher, or for the assembler. In any other engine mode nothing changes (R73,
R75, R81, R82, Table 4-4). That heads of engaged streams go on while the dispatcher's own fetch is in flight and parked cells
wait, and that none does once it has completed, is notes/assumptions/9.md; what becomes of a wait while the assembler or parked
cells keep the head from a free slot is notes/assumptions/8.md. -/
def Obligations.DispatchSendsFetchesOrParksHead : Prop :=
  (∀ (s : State) (c : StreamCell) (rest : List StreamCell), s.resetLow = false → s.engine.mode = .running →
    s.ingress.fifo = c :: rest →
    let passes := dispatcherFetch s.engine ≠ some c.stream ∧ (dispatcherFetch s.engine = none → s.engine.parked = [])
    let stays := exec .dispatch s = .next { s with engine.dispWait := none }
    (∀ i, dispatcherFetch s.engine ≠ some c.stream → (dispatcherFetch s.engine = none → s.engine.parked = []) →
      s.assembler = [] → engagedSlot s.engine c.stream = some i → s.engine.slots[i].inUse = false →
      ∃ t, exec .dispatch s = .next t ∧ t.ingress.fifo = rest ∧ t.assembler = [⟨c, i, none⟩] ∧
        t.engine.dispWait = none ∧ t.engine.slots[i] = { s.engine.slots[i] with inUse := true } ∧ t.engine.lru = touch i s.engine.lru ∧
        t.engine.parked = s.engine.parked ∧ t.engine.fetch = s.engine.fetch ∧ t.engine.store = s.engine.store ∧ t.pool = s.pool ∧
        t.agent = s.agent ∧ t.link = s.link) ∧
    (∀ i, s.engine.fetch = none → noRequestWaits s.engine = true → s.engine.parked = [] →
      engagedSlot s.engine c.stream = none → victim { s.engine with dispWait := none } = some i →
      ∃ t, exec .dispatch s = .next t ∧ t.ingress.fifo = rest ∧ t.engine.parked = [c] ∧
        t.engine.dispWait = none ∧ t.engine.fetch = some ⟨.dispatcher, c.stream, i⟩ ∧
        t.engine.slots[i] = (if s.engine.slots[i].state = .dirty then { s.engine.slots[i] with state := .evicting }
          else { s.engine.slots[i] with state := .fetching, stream := some c.stream }) ∧
        t.assembler = s.assembler ∧ t.engine.store = s.engine.store ∧ t.pool = s.pool ∧ t.agent = s.agent ∧ t.link = s.link) ∧
    (dispatcherFetch s.engine = some c.stream → s.engine.parked.length < 8 →
      ∃ t, exec .dispatch s = .next t ∧ t.ingress.fifo = rest ∧ t.engine.parked = s.engine.parked ++ [c] ∧
        t.engine.dispWait = none ∧ t.engine.fetch = s.engine.fetch ∧ t.engine.slots = s.engine.slots ∧ t.assembler = s.assembler ∧
        t.engine.store = s.engine.store ∧ t.pool = s.pool ∧ t.agent = s.agent ∧ t.link = s.link) ∧
    (∀ i, passes → engagedSlot s.engine c.stream = some i → s.engine.slots[i].inUse = true →
      exec .dispatch s = .next { s with engine.dispWait := some i }) ∧
    (∀ i, passes → engagedSlot s.engine c.stream = some i → s.engine.slots[i].inUse = false → s.assembler ≠ [] →
      (s.engine.dispWait = some i → exec .dispatch s = .next s) ∧ (s.engine.dispWait ≠ some i → stays)) ∧
    (dispatcherFetch s.engine = none → s.engine.parked = [] → engagedSlot s.engine c.stream = none →
      s.engine.fetch ≠ none ∨ noRequestWaits s.engine = false →
      (s.engine.dispReq = none →
        exec .dispatch s = .next { s with engine.dispWait := none, engine.dispReq := some c.stream }) ∧
      (s.engine.dispReq ≠ none → stays)) ∧
    (dispatcherFetch s.engine = some c.stream → 8 ≤ s.engine.parked.length → stays) ∧
    (∀ u, dispatcherFetch s.engine = some u → c.stream ≠ u → engagedSlot s.engine c.stream = none → stays) ∧
    (dispatcherFetch s.engine = none → s.engine.parked ≠ [] → exec .dispatch s = .next s)) ∧
  (∀ s : State, s.resetLow = false → s.engine.mode ≠ .running ∨ s.ingress.fifo = [] → exec .dispatch s = .next s)

/-- A write-back makes the store copy of the old stream the slot copy and gives the slot to the stream being fetched. A read makes
the slot CLEAN with the store copy; in RUNNING its requester takes the mark in the same event: the agent, the drain service, or
for the dispatcher the head of the parked-cell list, which goes to the free assembler. The idle unit then starts the next waiting
request in that event: the agent's, otherwise the drain service's, otherwise the dispatcher's by judging the head again. A request
whose stream has been engaged meanwhile needs no fetch: its party takes the slot, or waits on it in use, and the turn passes on. A
unit that serves a fetch, an engine that does not run and a unit without requests start none. In SWEEP_WAIT the requester keeps
waiting, and where nothing else is in progress the sweep begins (R74, R76, R79, R80, R81, R83, R87, R89). A read for the
dispatcher that ends while a cell is being assembled waits for the assembler: that is notes/assumptions/20.md, the model's
reading. -/
def Obligations.FetchWritesBackReadsAndHandsOver : Prop :=
  (∀ (s : State) (f : Fetch) (old : StreamId), s.resetLow = false → s.engine.fetch = some f →
    s.engine.slots[f.slot].state = .evicting → s.engine.slots[f.slot].stream = some old →
    exec .writeBackCompletion s = .next { s with
      engine.store := s.engine.store.set old s.engine.slots[f.slot].copy
      engine.slots := s.engine.slots.set f.slot
        { s.engine.slots[f.slot] with state := .fetching, stream := some f.stream } }) ∧
  (∀ (s : State) (f : Fetch), s.resetLow = false → s.engine.fetch = some f → s.engine.slots[f.slot].state = .fetching →
    s.engine.slots[f.slot].stream = some f.stream → s.engine.mode = .running →
    (f.party = .dispatcher → s.engine.parked ≠ [] ∧ s.assembler = []) →
    (s.engine.dispReq = none → ∃ t, exec .fetchCompletion s = .next t ∧
      t.engine.slots[f.slot] = ⟨.clean, some f.stream, s.engine.store[f.stream], true⟩ ∧ t.engine.store = s.engine.store ∧
      t.pool = s.pool ∧ t.link = s.link ∧ t.agent = s.agent ∧
      (f.party = .management → t.engine.mgmt = .holds f.stream f.slot ∧ t.assembler = s.assembler ∧
        t.engine.parked = s.engine.parked) ∧
      (f.party = .drain → t.engine.drainReq = .holds f.stream f.slot ∧ t.assembler = s.assembler ∧
        t.engine.parked = s.engine.parked) ∧
      (∀ c rest, f.party = .dispatcher → s.engine.parked = c :: rest →
        t.engine.parked = rest ∧ t.assembler = [⟨c, f.slot, none⟩])) ∧
    (∃ v, exec .fetchCompletion s = .next (startNext v) ∧
      let done := markTaken f.slot { s with
        engine.fetch := none
        engine.readWaits := false
        engine.slots := s.engine.slots.set f.slot
          { s.engine.slots[f.slot] with state := .clean, copy := s.engine.store[f.stream] } }
      (f.party = .management → v = { done with engine.mgmt := .holds f.stream f.slot }) ∧
      (f.party = .drain → v = { done with engine.drainReq := .holds f.stream f.slot }) ∧
      (∀ c rest, f.party = .dispatcher → s.engine.parked = c :: rest →
        v = { done with engine.parked := rest, assembler := [⟨c, f.slot, none⟩] })) ∧
    (∀ u, s.engine.dispReq = some u → (∀ r, s.engine.mgmt ≠ .lodged r) → (∀ r, s.engine.drainReq ≠ .lodged r) →
      ∃ v, exec .fetchCompletion { s with engine.dispReq := none } = .next v ∧ exec .fetchCompletion s = exec .dispatch v)) ∧
  (∀ (s : State) (f : Fetch), s.resetLow = false → s.engine.fetch = some f → s.engine.slots[f.slot].state = .fetching →
    s.engine.mode = .running → f.party = .dispatcher → s.assembler ≠ [] →
    exec .fetchCompletion s = .next { s with engine.readWaits := true }) ∧
  (∀ v : State, v.resetLow = false →
    (v.engine.mode ≠ .running ∨ v.engine.fetch ≠ none → startNext v = v) ∧
    (v.engine.mode = .running → v.engine.fetch = none →
      (∀ t, v.engine.mgmt = .lodged t →
        (∀ i, engagedSlot v.engine t = none → victim v.engine = some i → startNext v = { v with
          engine.mgmt := .fetching t
          engine.fetch := some ⟨.management, t, i⟩
          engine.slots := v.engine.slots.set i (fetchInto i t v) }) ∧
        (∀ i, engagedSlot v.engine t = some i → v.engine.slots[i].inUse = false →
          startNext v = startNext (markTaken i { v with engine.mgmt := .holds t i })) ∧
        (∀ i, engagedSlot v.engine t = some i → v.engine.slots[i].inUse = true →
          startNext v = startNext { v with engine.mgmt := .asked t })) ∧
      ((∀ u, v.engine.mgmt ≠ .lodged u) →
        (∀ t, v.engine.drainReq = .lodged t →
          (∀ i, engagedSlot v.engine t = none → victim v.engine = some i → startNext v = { v with
            engine.drainReq := .fetching t
            engine.fetch := some ⟨.drain, t, i⟩
            engine.slots := v.engine.slots.set i (fetchInto i t v) }) ∧
          (∀ i, engagedSlot v.engine t = some i → v.engine.slots[i].inUse = false →
            startNext v = startNext (markTaken i { v with engine.drainReq := .holds t i })) ∧
          (∀ i, engagedSlot v.engine t = some i → v.engine.slots[i].inUse = true →
            startNext v = startNext { v with engine.drainReq := .asked t })) ∧
        ((∀ u, v.engine.drainReq ≠ .lodged u) →
          (∀ u, v.engine.dispReq = some u → exec .dispatch { v with engine.dispReq := none } = .next (startNext v)) ∧
          (v.engine.dispReq = none → startNext v = v))))) ∧
  (∀ (s : State) (f : Fetch) (k : SweepKind), s.resetLow = false → s.engine.fetch = some f →
    s.engine.slots[f.slot].state = .fetching → s.engine.mode = .sweepWait k → s.engine.slots[f.slot].inUse = false →
    let v := { s with
      engine.fetch := none
      engine.readWaits := false
      engine.slots := s.engine.slots.set f.slot { s.engine.slots[f.slot] with state := .clean, copy := s.engine.store[f.stream] }
      engine.mgmt := if f.party = .management then .fetched f.stream else s.engine.mgmt
      engine.drainReq := if f.party = .drain then .fetched f.stream else s.engine.drainReq }
    (anyInUse s.engine = true → exec .fetchCompletion s = .next v) ∧
    (anyInUse s.engine = false → ∃ t, exec .fetchCompletion s = .next t ∧ SweepBegun k v t))

/-- The victim of a fetch is the least recently used VACANT slot, otherwise the least recently used slot in CLEAN or DIRTY that is
not in use and on which the FIFO head does not wait; wherever such a slot exists there is a victim (R77, by which no victim has a
waiter; that a slot may wait for the head while it is not in use is notes/assumptions/8.md, the model's reading). -/
def Obligations.VictimIsLeastRecentlyUsed : Prop :=
  ∀ e : Engine, e.lru.Nodup → (∀ i : SlotNo, i ∈ e.lru) →
    let vacant := fun i : SlotNo => e.slots[i].state = .vacant
    let idle := fun i : SlotNo => e.slots[i].inUse = false ∧ (e.slots[i].state = .clean ∨ e.slots[i].state = .dirty) ∧
      e.dispWait ≠ some i
    let older := fun i j : SlotNo => e.lru.idxOf i < e.lru.idxOf j
    (∀ i, victim e = some i →
      (vacant i ∧ ∀ j, older j i → ¬ vacant j) ∨ (idle i ∧ (∀ j, ¬ vacant j) ∧ ∀ j, older j i → ¬ idle j)) ∧
    ((∃ i, vacant i ∨ idle i) → ∃ i, victim e = some i)

/-- The release of a slot's mark in RUNNING hands it, in the same event, to the first waiter in the order of R75: the next parked
cell of the slot's stream, the management operation, the drain completion, the FIFO head; with none the slot is not in use. A head
that the busy assembler cannot take yet goes on waiting (notes/assumptions/8.md). The slot is left DIRTY if the operation wrote
the record, otherwise as it was. In SWEEP_WAIT the mark goes to nobody, and with the last mark the recorded sweep begins, the
parked cells discarded and their samples counted by the bus-reset sweep (R73, R75, R87, R88, R89). So each operation ends: what
the last operation in progress leaves in SWEEP_WAIT is what it leaves beside a fetch in flight, with the sweep then begun. -/
def Obligations.ReleaseHandsMarkOnOrBeginsSweep : Prop :=
  (∀ (i : SlotNo) (wrote : Bool) (s : State),
    let t := release i wrote s
    let left : SlotState := if wrote then .dirty else s.engine.slots[i].state
    (ModeStays i s → KeptByRelease i s t ∧ t.engine.slots[i].state = left ∧ t.engine.slots[i].copy = s.engine.slots[i].copy ∧
      t = { s with engine := t.engine, ingress := t.ingress, assembler := t.assembler }) ∧
    (∀ k, s.engine.mode = .sweepWait k → s.engine.fetch = none → (∀ j : SlotNo, j ≠ i → s.engine.slots[j].inUse = false) →
      SweepBegun k { s with
        engine.slots := s.engine.slots.set i { s.engine.slots[i] with inUse := false, state := left } } t)) ∧
  (∀ (row : Instr) (i : SlotNo) (k : SweepKind) (f : Fetch) (s : State), s.resetLow = false → s.engine.mode = .sweepWait k →
    s.engine.fetch = none → s.engine.readWaits = false → (∀ j : SlotNo, j ≠ i → s.engine.slots[j].inUse = false) →
    EndsCellOrDrain row i s ∨ (k = .bus ∧ EndsAgentOperation row i s) →
    ∃ v t, exec row { s with engine.fetch := some f } = .next v ∧ exec row s = .next t ∧
      SweepBegun k { v with engine.fetch := none } t)

/-- The drain completion closes a DRAINING stream whose outstanding count is 0 with drain pending no, leaves its slot DIRTY, and
requests STREAM_CLOSED naming it; in any other case it writes nothing of the record or the slot and requests nothing. Either way
the stream leaves the list, the slot's mark is given up and handed on, and the service turns to the next head of the list: it
takes an engaged slot that is free, waits on one in use, or has the record fetched; it rests on an empty list, and waits outside
RUNNING (R17, R73, R74, R75, R85, R87). A drain completion that a FULL reset overtook closes nothing (R172; that it still gives up
its mark is notes/assumptions/15.md). -/
def Obligations.DrainCompletionClosesDrainedStream : Prop :=
  (∀ (s : State) (t : StreamId) (i : SlotNo), s.resetLow = false → s.engine.drainReq = .holds t i → ModeStays i s →
    let x := s.engine.slots[i].copy
    let drained := x.state = .draining ∧ s.pool.drain[t] = ⟨0, false⟩ ∧ s.engine.mode ≠ .sweepWait .init
    ∃ v, exec .drainCompletion s = .next (serveDrain v) ∧ v.engine.drainReq = .idle ∧
      v.engine.drainList = s.engine.drainList.erase t ∧ v.engine.store = s.engine.store ∧ v.classifier = s.classifier ∧
      (LinkAgrees s → v.pool = s.pool ∧ v.egress = s.egress) ∧
      v.agent.state = s.agent.state ∧ v.agent.cmdq = s.agent.cmdq ∧
      v.engine.slots[i].stream = s.engine.slots[i].stream ∧
      (∀ j : SlotNo, j ≠ i → v.engine.slots[j] = s.engine.slots[j]) ∧
      MarkHandedOn i { s with engine.drainReq := .idle } v ∧
      (let w := if drained then requestNotice .streamClosed (some t) s else s
       v.notices = w.notices ∧ v.link = w.link ∧ v.agent = w.agent ∧ v.pool = w.pool ∧ v.egress = w.egress) ∧
      (drained → v.engine.slots[i].copy = { x with state := .closed } ∧ v.engine.slots[i].state = .dirty) ∧
      (¬ drained → v.engine.slots[i].copy = x ∧ v.engine.slots[i].state = s.engine.slots[i].state)) ∧
  (∀ v : State, v.engine.drainReq = .idle →
    (v.engine.drainList = [] → serveDrain v = v) ∧
    (∀ d rest, v.engine.drainList = d :: rest → v.engine.mode ≠ .running → serveDrain v = { v with engine.drainReq := .asked d }) ∧
    (∀ d rest, v.engine.drainList = d :: rest → v.engine.mode = .running → noRequestWaits v.engine = true →
      (∀ j, engagedSlot v.engine d = some j → v.engine.slots[j].inUse = false → serveDrain v = { v with
        engine.drainReq := .holds d j
        engine.slots := v.engine.slots.set j { v.engine.slots[j] with inUse := true }
        engine.lru := v.engine.lru.erase j ++ [j] }) ∧
      (∀ j, engagedSlot v.engine d = some j → v.engine.slots[j].inUse = true → serveDrain v = { v with engine.drainReq := .asked d }) ∧
      (∀ j, engagedSlot v.engine d = none → v.engine.fetch = none → victim v.engine = some j → serveDrain v = { v with
        engine.drainReq := .fetching d
        engine.fetch := some ⟨.drain, d, j⟩
        engine.slots := v.engine.slots.set j (if v.engine.slots[j].state = .dirty then { v.engine.slots[j] with state := .evicting }
          else { v.engine.slots[j] with state := .fetching, stream := some d }) }) ∧
      (∀ f, engagedSlot v.engine d = none → v.engine.fetch = some f → serveDrain v = { v with
        engine.drainReq := if f.stream = d then .asked d else .lodged d })))

/-! ### Block assembly -/

/-- The assembly of a cell ends with its slot DIRTY and the cells counter advanced by one, whatever the cell and the stream; it
leaves the store and the copies in other slots, and what it does to the record, the pool, the egress side, the notices and the
agent is the assembly of the cell on the slot copy. A cell that finds its stream in any state but OPEN is discarded: beside that
count only its samples are counted, and nothing else of the record, the pool, the egress side or the notices changes. The slot's
mark is handed on (R25, R26, R73, R75, R81, R87). Then a read that waited for the assembler completes (notes/assumptions/20.md),
and a FIFO head whose slot was released during the assembly takes it, if the assembler is still free (notes/assumptions/8.md). An
assembly that a FULL reset overtook gives up its slot and writes page bytes alone, those of its samples that belong to the block
it was filling (R172; that it writes no others is notes/assumptions/15.md; that the page memory is in canonical form is an
invariant of the model). -/
def Obligations.AssemblyCountsCellAndGateDiscards : Prop :=
  (∀ (s : State) (a : Assembly) (rest : List Assembly), s.resetLow = false → ModeStays a.slot s →
    s.engine.mode ≠ .sweepWait .init → s.assembler = a :: rest →
    let x := s.engine.slots[a.slot].copy
    let r := assembleCell a.cell { s with assembler := rest } x
    ∃ t v, exec .cellAssembly s = .next t ∧
      (s.engine.readWaits = false → t = serveHead v) ∧
      (s.engine.readWaits = true → ∃ w, exec .fetchCompletion v = .next w ∧ t = serveHead w) ∧
      v.engine.slots[a.slot].state = .dirty ∧
      v.engine.slots[a.slot].copy = r.2 ∧ v.pool = r.1.pool ∧ v.egress = r.1.egress ∧ v.link = r.1.link ∧
      v.notices = r.1.notices ∧ v.agent = r.1.agent ∧ v.engine.fetch = r.1.engine.fetch ∧
      v.engine.readWaits = s.engine.readWaits ∧ MarkHandedOn a.slot r.1 v ∧
      v.engine.slots[a.slot].copy.counters.cells = x.counters.cells + 1 ∧ v.engine.store = s.engine.store ∧
      (∀ j : SlotNo, j ≠ a.slot → v.engine.slots[j].copy = s.engine.slots[j].copy) ∧
      (x.state ≠ .opened →
        v.engine.slots[a.slot].copy = { x with
          counters.cells := x.counters.cells + 1
          counters.samplesDiscarded := x.counters.samplesDiscarded +
            BitVec.ofNat 32 (if a.cell.kind = .data then a.cell.payload.length / x.cfg.geom.w else 0) } ∧
        v.pool = s.pool ∧ v.egress = s.egress ∧ v.link = s.link ∧ v.notices = s.notices ∧ v.agent = s.agent)) ∧
  (∀ v : State,
    (∀ c rest i, v.engine.mode = .running → v.engine.dispWait = some i → v.engine.slots[i].inUse = false →
      v.engine.slots[i].stream = some c.stream → v.ingress.fifo = c :: rest → v.assembler = [] → v.engine.readWaits = false →
      let flag := if rest.length ≤ v.agent.limits.releaseMark then false else v.ingress.holdFlag
      serveHead v = markTaken i { v with
        assembler := [⟨c, i, none⟩]
        engine.dispWait := none
        ingress := { v.ingress with
          fifo := rest
          holdFlag := flag
          hold := v.resetLow || v.ingress.port != .ready || flag || v.pool.low } }) ∧
    (v.engine.mode ≠ .running ∨ v.assembler ≠ [] ∨ v.engine.dispWait = none ∨
      (∃ i, v.engine.dispWait = some i ∧ v.engine.slots[i].inUse = true) → serveHead v = v)) ∧
  (∀ (s : State) (a : Assembly) (rest : List Assembly), MemoryCanonical s → s.resetLow = false → ModeStays a.slot s →
    s.engine.mode = .sweepWait .init → s.assembler = a :: rest →
    let x := s.engine.slots[a.slot].copy
    ∃ m v, v = { s with
        assembler := rest
        pool.mem := m
        engine.slots := s.engine.slots.set a.slot { s.engine.slots[a.slot] with inUse := false } } ∧
      (s.engine.readWaits = false → exec .cellAssembly s = .next v) ∧
      (s.engine.readWaits = true → exec .cellAssembly s = exec .fetchCompletion v) ∧
      (a.stale = none → m = s.pool.mem) ∧
      (∀ h d k spliced, a.stale = some (h, d) → x.fill = .filling h k spliced →
        (∀ addr : Nat, (∀ b, pageAddress d.pages b ≠ some addr) → Memory.read m addr = Memory.read s.pool.mem addr) ∧
        (let w := x.cfg.geom.w
         let n := a.cell.payload.length / w
         x.state = .opened → judgeSeq x a.cell.seq = .first ∨ judgeSeq x a.cell.seq = .inOrder → a.cell.kind = .data →
         a.cell.sync = false → a.cell.payload.length % w = 0 → k + n ≤ d.geom.rows * d.geom.cols →
         m = (List.range n).foldl (fun m j =>
          writeBlockBytes d.pages m (d.geom.byteAt (d.geom.rowOf (k + j)) (d.geom.colOf (k + j))) ((a.cell.payload.drop (w * j)).take w))
          s.pool.mem)))

/-- The sequence number of a cell on an OPEN stream is judged by the first case of Table 2-1 that applies, modulo 256: first, in
order, duplicate, gap. First, in order and gap leave the number after the cell's as the expected one; a duplicate leaves the
expected sequence, is counted, has its samples discarded, and does nothing else (R27, R28). -/
def Obligations.SequenceJudgedAndDuplicateDiscarded : Prop :=
  (∀ (x : Ctx) (seq : BitVec 8),
    (x.seqValid = false → judgeSeq x seq = .first) ∧
    (x.seqValid = true → seq = x.expected → judgeSeq x seq = .inOrder) ∧
    (x.seqValid = true → seq = x.expected - 1 → judgeSeq x seq = .duplicate) ∧
    (x.seqValid = true → seq ≠ x.expected → seq ≠ x.expected - 1 → judgeSeq x seq = .gap) ∧
    (∀ j, j ≠ .duplicate → afterSeq j seq x = { x with expected := seq + 1, seqValid := true }) ∧
    (x.seqValid = true → afterSeq .duplicate seq x = x)) ∧
  (∀ (c : StreamCell) (s : State) (x : Ctx), x.state = .opened → judgeSeq x c.seq = .duplicate →
    assembleCell c s x = (s, { x with
      counters.cells := x.counters.cells + 1
      counters.duplicates := x.counters.duplicates + 1
      counters.samplesDiscarded := x.counters.samplesDiscarded +
        BitVec.ofNat 32 (if c.kind = .data then c.payload.length / x.cfg.geom.w else 0) }))

/-- The stages of a cell that is no duplicate, on an OPEN stream: after the judgement, and after the gap of a cell judged a gap, a
DATA cell makes its SYNC step and its samples are taken one at a time, sample 0 first, and a MARK cell performs its action, that
of its payload byte: 1 CUT, 2 RELEASE, 3 CUT_AND_RELEASE, no other byte naming one. A misfit has its samples discarded and is
handled as a gap, once. A gap that faults the stream ends the cell, its samples discarded (R25, R27, R29, R31, R33, R34, R44,
R46). -/
def Obligations.CellStagesFollowJudgement : Prop :=
  ∀ (c : StreamCell) (s : State) (x : Ctx), x.state = .opened →
    let w := x.cfg.geom.w
    let n := if c.kind = .data then c.payload.length / w else 0
    let y := { x with expected := c.seq + 1, seqValid := true, counters.cells := x.counters.cells + 1 }
    let discarded := fun z : Ctx =>
      { z with counters.samplesDiscarded := z.counters.samplesDiscarded + BitVec.ofNat 32 n }
    let placing := fun r : Work => takeSamples c.stream (splitSamples w n c.payload) (syncStep c.stream c.sync r.1 r.2)
    (judgeSeq x c.seq = .first ∨ judgeSeq x c.seq = .inOrder →
      (c.kind = .data → c.payload.length % w = 0 → assembleCell c s x = placing (s, y)) ∧
      (c.kind = .data → c.payload.length % w ≠ 0 → assembleCell c s x = gapEffect c.stream s (discarded y)) ∧
      (∀ a, c.kind = .mark → markActionOf (c.payload.getD 0 0) = some a → assembleCell c s x = markEffect c.stream a s y)) ∧
    (judgeSeq x c.seq = .gap →
      let r := gapEffect c.stream s y
      (r.2.state = .faulted → assembleCell c s x = (r.1, discarded r.2)) ∧
      (r.2.state ≠ .faulted → c.kind = .data → c.payload.length % w = 0 → assembleCell c s x = placing r) ∧
      (r.2.state ≠ .faulted → c.kind = .data → c.payload.length % w ≠ 0 → assembleCell c s x = (r.1, discarded r.2)) ∧
      (∀ a, r.2.state ≠ .faulted → c.kind = .mark → markActionOf (c.payload.getD 0 0) = some a →
        assembleCell c s x = markEffect c.stream a r.1 r.2)) ∧
    markActionOf 1 = some .cut ∧ markActionOf 2 = some .release ∧ markActionOf 3 = some .cutAndRelease ∧
    (∀ b : Byte, b ≠ 1 → b ≠ 2 → b ≠ 3 → markActionOf b = none)

/-- A gap advances gaps by one and requests SEQ_GAP naming the stream. Then under TOLERATE a FILLING block is marked spliced;
under RESYNC an EMPTY or HUNTING sub-state becomes HUNTING, and a FILLING block is freed and counted in blocks_dropped under
DISCARD or completed with BROKEN and its fill index under EMIT, HUNTING following unless the completion faulted the stream (R30,
R31, R32). -/
def Obligations.GapMarksOrBreaksBlock : Prop :=
  ∀ (t : StreamId) (s : State) (x : Ctx),
    let y := { x with counters.gaps := x.counters.gaps + 1 }
    let u := requestNotice .seqGap (some t) s
    (x.cfg.gap = .tolerate →
      (∀ h k spliced, x.fill = .filling h k spliced → gapEffect t s x = (u, { y with fill := .filling h k true })) ∧
      ((x.fill = .empty ∨ x.fill = .hunting) → gapEffect t s x = (u, y))) ∧
    (x.cfg.gap = .resync →
      ((x.fill = .empty ∨ x.fill = .hunting) → gapEffect t s x = (u, { y with fill := .hunting })) ∧
      (∀ h k spliced, x.fill = .filling h k spliced →
        (x.cfg.broken = .discard → gapEffect t s x = (freeBlock h u, { y.dropBlock with fill := .hunting })) ∧
        (x.cfg.broken = .emit →
          let r := complete t h k false true spliced u y
          gapEffect t s x = (r.1, if r.2.state = .faulted then r.2 else { r.2 with fill := .hunting }))))

/-- Fill order places the samples of a block at distinct rows and columns inside it, so that the samples' bytes neither overlap
nor leave the w·R·C bytes, and the fill index that the frame link port computes for a position is the one that was placed there.
Bytes written at a place of a block are read back from it, across page ends too, and every byte of the block outside them, and
every byte of the page memory outside the written ones, reads as before (R36, R40, R52, R138). -/
def Obligations.SamplesLieApartAndReadBack : Prop :=
  (∀ g : Geometry, 1 ≤ g.w → 1 ≤ g.rows → 1 ≤ g.cols →
    (∀ k < g.rows * g.cols, g.rowOf k < g.rows ∧ g.colOf k < g.cols ∧ g.indexAt (g.rowOf k) (g.colOf k) = k ∧
      g.byteAt (g.rowOf k) (g.colOf k) + g.w ≤ g.w * (g.rows * g.cols)) ∧
    (∀ j < g.rows * g.cols, ∀ k < g.rows * g.cols, j ≠ k →
      g.byteAt (g.rowOf j) (g.colOf j) + g.w ≤ g.byteAt (g.rowOf k) (g.colOf k) ∨
      g.byteAt (g.rowOf k) (g.colOf k) + g.w ≤ g.byteAt (g.rowOf j) (g.colOf j))) ∧
  (∀ (pages : List Page) (m : Memory) (b : Nat) (bytes : List Byte), pages.Nodup → m.wf = true →
    b + bytes.length ≤ 512 * pages.length →
    readBlockBytes pages (writeBlockBytes pages m b bytes) b bytes.length = bytes ∧
    (∀ c n, c + n ≤ 512 * pages.length → (c + n ≤ b ∨ b + bytes.length ≤ c) →
      readBlockBytes pages (writeBlockBytes pages m b bytes) c n = readBlockBytes pages m c n) ∧
    (∀ addr : Nat, (∀ c, b ≤ c → c < b + bytes.length → pageAddress pages c ≠ some addr) →
      (writeBlockBytes pages m b bytes).read addr = m.read addr))

/-- A sample is handled by the sub-state that it finds. In FILLING it is written at the row and column of fill index k, and k
advances; the sample that makes it R·C completes the block without SHORT or BROKEN. In EMPTY a block is started with the next
block number, which advances, and the sample finds FILLING with fill index 0 there. In HUNTING, and once the stream has left OPEN,
it is discarded (R34, R35, R36, R37). A block start that finds no descriptor, or fewer pages than ceil(w·R·C / 512), takes nothing
and stores nothing: alloc_failures advances, NO_BUFFER is requested, the stream hunts, and this sample and every later one of the
cell are discarded; the next block number stays (R39). -/
def Obligations.SampleHandledBySubState : Prop :=
  (∀ (t : StreamId) (sample : List Byte) (s : State) (x : Ctx),
    (∀ (h : Handle) (k : Nat) (spliced : Bool), x.state = .opened → x.fill = .filling h k spliced →
      let d := s.pool.desc[h]
      let u := { s with
        pool.mem := writeBlockBytes d.pages s.pool.mem (d.geom.byteAt (d.geom.rowOf k) (d.geom.colOf k)) sample }
      (k + 1 < d.geom.rows * d.geom.cols →
        takeSample t sample (s, x) = (u, { x with fill := .filling h (k + 1) spliced })) ∧
      (k + 1 = d.geom.rows * d.geom.cols → takeSample t sample (s, x) = complete t h (k + 1) false false spliced u x)) ∧
    (∀ (h : Handle) (u : State), x.state = .opened → x.fill = .empty → allocate t x.nextBlock x.cfg.geom s = some (h, u) →
      takeSample t sample (s, x) = takeSample t sample (u, { x with
        nextBlock := x.nextBlock + 1
        fill := .filling h 0 false })) ∧
    (x.state ≠ .opened ∨ x.fill = .hunting →
      takeSample t sample (s, x) = (s, { x with counters.samplesDiscarded := x.counters.samplesDiscarded + 1 }))) ∧
  (∀ (t : StreamId) (sample : List Byte) (later : List (List Byte)) (s : State) (x : Ctx), x.state = .opened → x.fill = .empty →
    (s.pool.freeDesc = [] ∨
      s.pool.freePages.length < (x.cfg.geom.w * (x.cfg.geom.rows * x.cfg.geom.cols) + 511) / 512) →
    takeSamples t (sample :: later) (s, x) =
      (requestNotice .noBuffer (some t) { s with agent.counters := s.agent.counters.inc .allocFailures },
        { x with
          fill := .hunting
          counters.samplesDiscarded := x.counters.samplesDiscarded + BitVec.ofNat 32 (later.length + 1) }))

/-- The completion routine writes the sample count and the flags into the descriptor, advances blocks_completed and sets EMPTY. In
IMMEDIATE mode the block then makes its queue entry. In HELD mode it joins the tail of a held list below its limit; on a full list
DROP_OLDEST frees the oldest block, counts it in blocks_dropped and requests HELD_OVERFLOW, and FAULT frees the new block, counts
it, sets FAULTED and requests STREAM_FAULT (R40, R41, R42, R43, R44). -/
def Obligations.CompletionRoutineBranches : Prop :=
  ∀ (t : StreamId) (h : Handle) (n : Nat) (short broken spliced : Bool) (s : State) (x : Ctx),
    let u := setDesc h { s.pool.desc[h] with count := n, flags := ⟨short, broken, spliced⟩ } s
    let y := { x with fill := .empty, counters.blocksCompleted := x.counters.blocksCompleted + 1 }
    let r := complete t h n short broken spliced s x
    (x.cfg.mode = .immediate → r = (queueEntry t x.cfg.cls h u, y)) ∧
    (x.cfg.mode = .held → x.held.length < x.cfg.heldLimit →
      r = (setDescState h .held u, { y with held := x.held ++ [h] })) ∧
    (∀ oldest rest, x.cfg.mode = .held → x.cfg.heldLimit ≤ x.held.length → x.cfg.overflow = .dropOldest →
      x.held = oldest :: rest →
      r = (requestNotice .heldOverflow (some t) (setDescState h .held (freeBlock oldest u)),
        { y.dropBlock with held := rest ++ [h] })) ∧
    (x.cfg.mode = .held → x.cfg.heldLimit ≤ x.held.length → x.cfg.overflow = .fault →
      r = (requestNotice .streamFault (some t) (freeBlock h u), { y.dropBlock with state := .faulted }))

/-- The CUT action completes a FILLING block as SHORT with its fill index and leaves EMPTY and HUNTING alone. The SYNC step does
the same to a FILLING block, ends a hunt, and does nothing in EMPTY or without SYNC. The RELEASE action hands the whole held list
on, oldest first, in HELD mode and does nothing in IMMEDIATE mode. CUT_AND_RELEASE cuts, then releases unless the cut faulted the
stream (R14, R33, R47, R48). -/
def Obligations.CutSyncAndReleaseActions : Prop :=
  ∀ (t : StreamId) (s : State) (x : Ctx),
    (∀ h k spliced, x.fill = .filling h k spliced →
      cut t s x = complete t h k true false spliced s x ∧ syncStep t true s x = complete t h k true false spliced s x) ∧
    ((x.fill = .empty ∨ x.fill = .hunting) → cut t s x = (s, x) ∧ syncStep t true s x = (s, { x with fill := .empty })) ∧
    syncStep t false s x = (s, x) ∧
    (x.cfg.mode = .held → releaseHeld t s x = (x.held.foldl (fun u h => queueEntry t x.cfg.cls h u) s, { x with held := [] })) ∧
    (x.cfg.mode = .immediate → releaseHeld t s x = (s, x)) ∧
    markEffect t .cut s x = cut t s x ∧ markEffect t .release s x = releaseHeld t s x ∧
    markEffect t .cutAndRelease s x = (let r := cut t s x
      if r.2.state = .faulted then r else releaseHeld t r.1 r.2)

/-! ### The buffer pool -/

/-- An allocation succeeds exactly when a descriptor and the ceil(w·R·C / 512) pages of the block are free. It takes them from the
heads of the free lists, in their order, writes the descriptor FILLING with stream, block number, geometry and those pages, and
recomputes pool-low and HOLD; it changes no page byte and no other descriptor, and not the registry (R35, R51, R58, R59, R63). -/
def Obligations.AllocationTakesHeadsOfFreeLists : Prop :=
  ∀ (t : StreamId) (blockNo : BitVec 16) (g : Geometry) (s : State),
    let pages := (g.w * (g.rows * g.cols) + 511) / 512
    (allocate t blockNo g s = none ↔ s.pool.freeDesc = [] ∨ s.pool.freePages.length < pages) ∧
    (∀ h u, allocate t blockNo g s = some (h, u) →
      s.pool.freeDesc = h :: u.pool.freeDesc ∧ s.pool.freePages = u.pool.desc[h].pages ++ u.pool.freePages ∧
      u.pool.desc[h].pages.length = pages ∧ u.pool.desc[h].state = .filling ∧ u.pool.desc[h].stream = t ∧
      u.pool.desc[h].blockNo = blockNo ∧ u.pool.desc[h].geom = g ∧ u.pool.desc[h].flags = ⟨false, false, false⟩ ∧
      (∀ j : Handle, j ≠ h → u.pool.desc[j] = s.pool.desc[j]) ∧ u.pool.mem = s.pool.mem ∧ u.pool.drain = s.pool.drain ∧
      u.pool.low = decide (u.pool.freePages.length < s.agent.limits.reserve) ∧
      u.ingress = { s.ingress with hold := s.resetLow || s.ingress.port != .ready || s.ingress.holdFlag || u.pool.low } ∧
      u.engine = s.engine ∧ u.egress = s.egress ∧ u.link = s.link ∧ u.agent = s.agent ∧ u.notices = s.notices)

/-- A freeing returns the block's pages in page-list order, then its descriptor, to the tails of the free lists, and recomputes
pool-low and HOLD. A FILLING or HELD block leaves the registry alone. A QUEUED block also leaves its class queue and lowers its
stream's outstanding count by one; a fall to 0 with drain pending clears the flag and the stream stands in the drain-completion
list (R60, R63, R67, R85). -/
def Obligations.FreeingReturnsStorageAndLowersCount : Prop :=
  (∀ (h : Handle) (s : State),
    let u := freeBlock h s
    u.pool.freePages = s.pool.freePages ++ s.pool.desc[h].pages ∧ u.pool.freeDesc = s.pool.freeDesc ++ [h] ∧
    u.pool.desc[h].state = .free ∧ (∀ j : Handle, j ≠ h → u.pool.desc[j] = s.pool.desc[j]) ∧ u.pool.mem = s.pool.mem ∧
    u.pool.drain = s.pool.drain ∧ u.pool.low = decide (u.pool.freePages.length < s.agent.limits.reserve) ∧
    u.ingress = { s.ingress with hold := s.resetLow || s.ingress.port != .ready || s.ingress.holdFlag || u.pool.low } ∧
    u.engine = s.engine ∧ u.egress = s.egress ∧ u.link = s.link ∧ u.agent = s.agent) ∧
  (∀ (h : Handle) (s : State), QueuesDisjoint s →
    let t := s.pool.desc[h].stream
    let e := s.pool.drain[t]
    let u := freeQueued h s
    u.pool.freePages = s.pool.freePages ++ s.pool.desc[h].pages ∧ u.pool.freeDesc = s.pool.freeDesc ++ [h] ∧
    u.pool.desc = s.pool.desc.set h .free ∧ u.pool.mem = s.pool.mem ∧
    (∀ c : EgressClass, u.egress.queues[c] = s.egress.queues[c].filter (fun j => j ≠ h)) ∧
    (∀ r : StreamId, r ≠ t → u.pool.drain[r] = s.pool.drain[r]) ∧
    (e.count - 1 = 0 → e.pending = true → u.pool.drain[t] = ⟨0, false⟩ ∧ t ∈ u.engine.drainList) ∧
    (¬ (e.count - 1 = 0 ∧ e.pending = true) → u.pool.drain[t] = ⟨e.count - 1, e.pending⟩ ∧ u.engine = s.engine))

/-- A queue entry that meets a STALLED port in a discardable class frees the block and counts it in stall_discards. Any other
makes it the youngest block of its class, and of its stream's outstanding count, by one; other classes, the counters, the free
lists, the replies and the notices stay, whether or not a selection follows (R9, R41, R66, R126, R129). -/
def Obligations.QueueEntryJoinsTailOrIsDiscarded : Prop :=
  ∀ (t : StreamId) (c : EgressClass) (h : Handle) (s : State),
    (s.link.port = .stalled → s.agent.limits.discardable.getLsbD c.val = true →
      queueEntry t c h s = count .stallDiscards (freeBlock h s)) ∧
    (s.link.port ≠ .stalled ∨ s.agent.limits.discardable.getLsbD c.val = false →
      let u := queueEntry t c h s
      owedBlocks c u = owedBlocks c s ++ [h] ∧ (∀ d : EgressClass, d ≠ c → owedBlocks d u = owedBlocks d s) ∧
      (u.pool.desc[h] = { s.pool.desc[h] with state := .queued } ∨ u.pool.desc[h] = { s.pool.desc[h] with state := .sending }) ∧
      u.pool.drain[t] = { s.pool.drain[t] with count := s.pool.drain[t].count + 1 } ∧
      (∀ r : StreamId, r ≠ t → u.pool.drain[r] = s.pool.drain[r]) ∧
      u.pool.freePages = s.pool.freePages ∧ u.pool.freeDesc = s.pool.freeDesc ∧ u.pool.mem = s.pool.mem ∧
      u.agent = s.agent ∧ u.engine = s.engine ∧ u.ingress = s.ingress ∧
      owedReplies u = owedReplies s ∧ owedNotices u = owedNotices s)

/-! ### The egress scheduler and the frame link port -/

/-- With nothing in flight, credit, and a port not STALLED, the oldest reply is taken, otherwise the oldest notice, which takes
the unit's lost-since-last count at its first take, otherwise the head of the class that the round-robin chose: one credit is
spent and the port enters SENDING. Without credit a waiting item puts the port in WAITING with the stall limit loaded, and with
nothing waiting the port is IDLE. A frame in flight and a STALLED port leave everything (R128, R129, R133, R134, R137, R179). The
round-robin goes on with the current class while it has blocks and budget; otherwise it takes the next non-empty class, the
current one last, and loads its weight less the one taken; with every class empty it takes none (R130). -/
def Obligations.SelectionTakesReplyNoticeThenBlock : Prop :=
  (∀ s : State, s.link.inflight = none → s.link.port ≠ .stalled →
    let sending := fun (item : Item) (p : Pool) =>
      (⟨s.link.credit - 1, .sending, none, some item, frameOf s.classifier.unitAddr p item⟩ : Link)
    (∀ r rest, 1 ≤ s.link.credit → s.egress.replies = r :: rest →
      judgePort s = { s with egress.replies := rest, link := sending (.reply r) s.pool }) ∧
    (∀ n rest, 1 ≤ s.link.credit → s.egress.replies = [] → s.notices.queue = n :: rest → n.lost = none →
      judgePort s = { s with
        notices := ⟨rest, s.notices.mask, 0⟩
        link := sending (.notice { n with lost := some s.notices.lost }) s.pool }) ∧
    (∀ n rest, 1 ≤ s.link.credit → s.egress.replies = [] → s.notices.queue = n :: rest → n.lost ≠ none →
      judgePort s = { s with notices.queue := rest, link := sending (.notice n) s.pool }) ∧
    (∀ c budget h rest, 1 ≤ s.link.credit → s.egress.replies = [] → s.notices.queue = [] →
      chooseClass s.egress s.agent.limits = some (c, budget) → s.egress.queues[c] = h :: rest →
      let p := { s.pool with desc := s.pool.desc.set h { s.pool.desc[h] with state := .sending } }
      judgePort s = { s with
        egress := ⟨s.egress.queues.set c rest, [], c, budget⟩
        pool := p
        link := sending (.block h c false) p }) ∧
    (hasWaiting s = true → s.link.credit = 0 → s.link.port ≠ .waiting →
      judgePort s = { s with
        link.port := .waiting
        link.timer := if s.agent.limits.stallLimit = 0 then none else some s.agent.limits.stallLimit.toNat }) ∧
    (hasWaiting s = true → s.link.credit = 0 → s.link.port = .waiting → judgePort s = s) ∧
    (hasWaiting s = false → judgePort s = { s with link.port := .idle, link.timer := none })) ∧
  (∀ s : State, s.link.inflight ≠ none ∨ s.link.port = .stalled → judgePort s = s) ∧
  (∀ (e : Egress) (l : Limits),
    (e.queues[e.curClass] ≠ [] → 0 < e.budget → chooseClass e l = some (e.curClass, e.budget - 1)) ∧
    (e.queues[e.curClass] = [] ∨ e.budget = 0 →
      ∀ (k : Nat) (c : EgressClass), 1 ≤ k → k ≤ 4 → c.val = (e.curClass.val + k) % 4 → e.queues[c] ≠ [] →
        (∀ (j : Nat) (d : EgressClass), 1 ≤ j → j < k → d.val = (e.curClass.val + j) % 4 → e.queues[d] = []) →
        chooseClass e l = some (c, l.weights[c] - 1)) ∧
    ((∀ c : EgressClass, e.queues[c] = []) → chooseClass e l = none))

/-- A grant of 0 changes nothing. A grant of g raises the credit count by g up to 15, an excess counting once in credit_overflows.
During a frame that is all; with nothing waiting the port is then IDLE with its timer stopped; with an item waiting, a WAITING or
STALLED port included, a selection spends one credit and the port is SENDING (R132, R133). -/
def Obligations.CreditGrantRaisesCreditAndSelects : Prop :=
  ∀ (g : BitVec 4) (s : State), s.resetLow = false →
    let credit := if 15 < s.link.credit + g.toNat then 15 else s.link.credit + g.toNat
    let counters := if 15 < s.link.credit + g.toNat then s.agent.counters.inc .creditOverflows else s.agent.counters
    (g = 0 → exec (.creditGrant g) s = .next s) ∧
    (g ≠ 0 → s.link.inflight ≠ none → s.link.port ≠ .stalled →
      exec (.creditGrant g) s = .next { s with link.credit := credit, agent.counters := counters }) ∧
    (g ≠ 0 → s.link.inflight = none → hasWaiting s = false →
      exec (.creditGrant g) s = .next { s with
        link.credit := credit
        link.port := .idle
        link.timer := none
        agent.counters := counters }) ∧
    (g ≠ 0 → s.link.inflight = none → hasWaiting s = true →
      ∃ t, exec (.creditGrant g) s = .next t ∧ t.link.credit = credit - 1 ∧ t.link.port = .sending ∧ t.link.timer = none ∧
        t.link.inflight ≠ none ∧ t.agent = { s.agent with counters := counters } ∧ owedReplies t = owedReplies s ∧
        owedNotices t = owedNotices s ∧ (∀ c : EgressClass, owedBlocks c t = owedBlocks c s) ∧ t.pool.drain = s.pool.drain ∧
        t.pool.freePages = s.pool.freePages ∧ t.pool.mem = s.pool.mem ∧ t.engine = s.engine ∧ t.ingress = s.ingress)

/-- The completion of a frame advances frames_sent and ends the item in flight: a block is freed, pages then descriptor, and its
stream's outstanding count falls by one, with the drain check; a reply or notice gives its place free. What waited still waits or
is in flight; a reset that waits for its reply goes on waiting at the completion of a block or notice (R60, R67, R140; the
completion of a reply meanwhile is stated apart). An agent that waits for reply space is IDLE after it and makes in the same event
the take that COMMAND_TAKE makes of that state: with a reply place free it takes the head of its queue, without one it waits again
(R127, R151). That nothing changes with no frame in flight is the model's choice (notes/assumptions/2.md). -/
def Obligations.FrameCompletionEndsItem : Prop :=
  ∀ s : State, s.resetLow = false →
    (s.link.inflight = none → exec .frameCompletion s = .next s) ∧
    (∀ item, s.link.inflight = some item → s.agent.state ≠ .waitingReplySpace →
      (s.agent.state.isResetPending = false ∨ ∀ r, item ≠ .reply r) →
      ∃ t, exec .frameCompletion s = .next t ∧ t.agent.counters = s.agent.counters.inc .framesSent ∧
        t.agent.state = s.agent.state ∧
        t.agent.cmdq = s.agent.cmdq ∧ t.agent.limits = s.agent.limits ∧ t.agent.cache = s.agent.cache ∧
        t.classifier = s.classifier ∧ t.ingress.port = s.ingress.port ∧ RecordsKept s t ∧
        owedReplies t = s.egress.replies ∧ owedNotices t = s.notices.queue.map (fun n => (n.kind, n.stream, n.repeats)) ∧
        (∀ c : EgressClass, owedBlocks c t = s.egress.queues[c]) ∧ t.pool.mem = s.pool.mem ∧
        ((∃ r, item = .reply r) ∨ (∃ n, item = .notice n) → t.pool.freePages = s.pool.freePages ∧
          t.pool.freeDesc = s.pool.freeDesc ∧ t.pool.drain = s.pool.drain ∧ t.engine = s.engine ∧ t.ingress = s.ingress) ∧
        (∀ h c m, item = .block h c m → (∀ d : EgressClass, h ∉ s.egress.queues[d]) →
          let e := s.pool.drain[s.pool.desc[h].stream]
          t.pool.desc[h].state = .free ∧ t.pool.freePages = s.pool.freePages ++ s.pool.desc[h].pages ∧
          t.pool.freeDesc = s.pool.freeDesc ++ [h] ∧
          t.pool.drain = s.pool.drain.set s.pool.desc[h].stream
            (if e.count - 1 = 0 ∧ e.pending = true then ⟨0, false⟩ else ⟨e.count - 1, e.pending⟩) ∧
          (e.count - 1 = 0 → e.pending = true → s.pool.desc[h].stream ∈ t.engine.drainList))) ∧
    (∀ item, s.link.inflight = some item → s.agent.state = .waitingReplySpace →
      ∃ v, exec .frameCompletion { s with agent.state := .idle } = .next v ∧ exec .frameCompletion s = exec .commandTake v)

/-- An egress link reset abandons the frame in flight: an unmarked block returns to the head of its class queue as QUEUED, a
marked one is freed, its stream's outstanding count falling by one with the drain check, a reply or notice takes its place back at
the head, the notice absorbing a younger record of its kind and stream. The credit count is 0, egress_link_resets advances, and
the port is WAITING with a freshly loaded timer if an item waits, otherwise IDLE (R60, R67, R143, R144, R180; the frame of a
returned notice that gained repeats is notes/assumptions/24.md). -/
def Obligations.EgressLinkResetAbandonsFrame : Prop :=
  ∀ (spare : BitVec 4) (s : State), s.resetLow = false →
    ∃ t, exec (.egressLinkReset spare) s = .next t ∧ t.agent = { s.agent with counters := s.agent.counters.inc .egressLinkResets } ∧
      t.classifier = s.classifier ∧ t.ingress.port = s.ingress.port ∧ RecordsKept s t ∧
      t.link.credit = 0 ∧ t.link.inflight = none ∧ t.link.port = (if hasWaiting t then .waiting else .idle) ∧
      t.link.timer = (if hasWaiting t ∧ s.agent.limits.stallLimit ≠ 0 then some s.agent.limits.stallLimit.toNat else none) ∧
      t.pool.mem = s.pool.mem ∧ t.egress.curClass = s.egress.curClass ∧ t.egress.budget = s.egress.budget ∧
      (s.link.inflight = none → t.pool = s.pool ∧ t.egress = s.egress ∧ t.notices = s.notices) ∧
      (∀ h c, s.link.inflight = some (.block h c false) →
        t.egress = { s.egress with queues := s.egress.queues.set c (h :: s.egress.queues[c]) } ∧
        t.pool = { s.pool with desc := s.pool.desc.set h { s.pool.desc[h] with state := .queued } } ∧ t.notices = s.notices) ∧
      (∀ h c, s.link.inflight = some (.block h c true) →
        t.egress = s.egress ∧ t.pool.desc = s.pool.desc.set h .free ∧
        t.pool.freePages = s.pool.freePages ++ s.pool.desc[h].pages ∧ t.pool.freeDesc = s.pool.freeDesc ++ [h] ∧
        t.notices = s.notices ∧
        (let e := s.pool.drain[s.pool.desc[h].stream]
         t.pool.drain = s.pool.drain.set s.pool.desc[h].stream
           (if e.count - 1 = 0 ∧ e.pending = true then ⟨0, false⟩ else ⟨e.count - 1, e.pending⟩) ∧
         (e.count - 1 = 0 → e.pending = true → s.pool.desc[h].stream ∈ t.engine.drainList))) ∧
      (∀ r, s.link.inflight = some (.reply r) →
        t.egress = { s.egress with replies := r :: s.egress.replies } ∧ t.pool = s.pool ∧ t.notices = s.notices) ∧
      (∀ n, s.link.inflight = some (.notice n) → t.egress = s.egress ∧ t.pool = s.pool ∧
        ((∀ m ∈ s.notices.queue, ¬ (m.kind = n.kind ∧ m.stream = n.stream)) →
          t.notices = { s.notices with queue := n :: s.notices.queue }) ∧
        (∀ before m after, s.notices.queue = before ++ m :: after → m.kind = n.kind → m.stream = n.stream →
          (∀ k ∈ before, ¬ (k.kind = n.kind ∧ k.stream = n.stream)) →
          t.notices = { s.notices with queue := { n with repeats := min 255 (n.repeats + m.repeats) } :: (before ++ after) }))

/-- When the stall timer runs out in WAITING, whatever it counts, the port enters STALLED with the timer stopped, every
discardable class queue is emptied, and EGRESS_STALL is requested; replies, notices and the other queues are kept. Each purged
block is counted in stall_discards, its pages and then its descriptor return to the free lists, and its stream's outstanding count
falls by one, with the drain check; a STREAMS reset that waits takes effect if a reply waits (R60, R67, R134, R135, R168; of a
waiting FULL reset apart). With no command waiting a step is one µs: a running timer counts down and runs out at its last (that
time passes so, and that the row runs out a timer at any count, is notes/assumptions/5.md). That nothing changes without a running
timer in WAITING is notes/assumptions/2.md. -/
def Obligations.StallExpiryPurgesDiscardableClasses : Prop :=
  (∀ s : State, s.resetLow = false →
    (∀ n, s.link.port = .waiting → s.link.timer = some n → s.agent.state ≠ .resetPending .full → QueuesDisjoint s →
      let ofClass := fun c : EgressClass => if s.agent.limits.discardable.getLsbD c.val = true then s.egress.queues[c] else []
      let purged := ofClass 0 ++ ofClass 1 ++ ofClass 2 ++ ofClass 3
      ∃ t, exec .stallExpiry s = .next t ∧ t.link = { s.link with port := .stalled, timer := none } ∧
        (∀ c : EgressClass, t.egress.queues[c] =
          if s.agent.limits.discardable.getLsbD c.val = true then [] else s.egress.queues[c]) ∧
        t.egress.replies = s.egress.replies ∧ t.egress.curClass = s.egress.curClass ∧ t.egress.budget = s.egress.budget ∧
        t.pool.freePages = s.pool.freePages ++ purged.flatMap (fun h => s.pool.desc[h].pages) ∧
        t.pool.freeDesc = s.pool.freeDesc ++ purged ∧ t.pool.mem = s.pool.mem ∧
        (∀ h : Handle, t.pool.desc[h].state = if h ∈ purged then .free else s.pool.desc[h].state) ∧
        (∀ u : StreamId,
          let gone := purged.countP (fun h => s.pool.desc[h].stream == u)
          let e := s.pool.drain[u]
          (gone = 0 → t.pool.drain[u] = e) ∧
          (gone ≠ 0 → e.count - gone = 0 → e.pending = true → t.pool.drain[u] = ⟨0, false⟩ ∧ u ∈ t.engine.drainList) ∧
          (gone ≠ 0 → ¬ (e.count - gone = 0 ∧ e.pending = true) → t.pool.drain[u] = ⟨e.count - gone, e.pending⟩)) ∧
        t.agent.counters.stallDiscards = s.agent.counters.stallDiscards + BitVec.ofNat 32 purged.length ∧
        (s.agent.state.isResetPending = false → t.agent.state = s.agent.state) ∧
        (s.agent.state = .resetPending .streams → t.agent.state = if s.egress.replies = [] then s.agent.state else .tearing 0) ∧
        t.agent.cmdq = s.agent.cmdq ∧ t.classifier = s.classifier ∧
        t.ingress.port = s.ingress.port ∧ RecordsKept s t ∧
        t.notices = (requestNotice .egressStall none { s with link.port := .stalled }).notices) ∧
    (s.link.port ≠ .waiting ∨ s.link.timer = none → exec .stallExpiry s = .next s)) ∧
  (∀ s : State, s.pending = [] → s.resetLow = false →
    (s.link.timer = none → step s = .next s) ∧
    (∀ n, s.link.timer = some n → 1 < n → step s = .next { s with link.timer := some (n - 1) }) ∧
    (∀ n, s.link.timer = some n → n ≤ 1 → s.link.port = .waiting → step s = exec .stallExpiry s ∧
      ∃ t, step s = .next t ∧ t.link.port = .stalled ∧ t.link.timer = none ∧ t.link.credit = s.link.credit))

/-- Every byte of the return lane is one indication, by its bits 7–4: 1 a credit grant of its low four bits, 2 an egress link
reset with four spare bits, any other type neither, which changes nothing and counts nothing; the byte of each indication is read
back as that indication (R187). -/
def Obligations.ReturnLaneBytesReadBack : Prop :=
  (∀ i : Instr, i.wellFormed = true → ∀ b : Byte, returnLaneByte i = some b → decodeReturnLane b = i) ∧
  (∀ b : Byte, returnLaneByte (decodeReturnLane b) = some b ∧ (decodeReturnLane b).wellFormed = true) ∧
  (∀ g : BitVec 4, decodeReturnLane (0x10#8 + g.setWidth 8) = .creditGrant g ∧
    decodeReturnLane (0x20#8 + g.setWidth 8) = .egressLinkReset g) ∧
  (∀ b : Byte, b.toNat / 16 ≠ 1 → b.toNat / 16 ≠ 2 → decodeReturnLane b = .returnLaneOther b) ∧
  (∀ (b : Byte) (s : State), exec (.returnLaneOther b) s = .next s)

/-- A block frame is 18 bytes and w·R·C more: kind and unit address, body length, the descriptor's stream, block number, flags,
geometry and sample count, then every position in row-major order, the page bytes of a position whose fill index is below the
sample count and w zero bytes for any other, then the CRC-32 of all before it, which over the ASCII bytes 123456789 is FC891918h
(R138, R186). A reply frame and a notice frame carry their record, field by field, with the codes of status and kind (R139, R179,
R186). That the flag bits which Table 11-3 does not name are sent as 0 is notes/assumptions/25.md. -/
def Obligations.FramesCarryBlockReplyAndNotice : Prop :=
  (∀ (unitAddr : BitVec 3) (p : Pool) (h : Handle) (c : EgressClass) (m : Bool),
    let d := p.desc[h]
    let frame := frameOf unitAddr p (.block h c m)
    let body := 10 + d.geom.w * (d.geom.rows * d.geom.cols)
    frame.length = 8 + body ∧
    frame.take 14 = [1, unitAddr.setWidth 8] ++ bytes16 (BitVec.ofNat 16 body) ++ [byteOf d.stream.val] ++ bytes16 d.blockNo ++
      [byteOf ((if d.flags.short then 1 else 0) + (if d.flags.broken then 2 else 0) + (if d.flags.spliced then 4 else 0)),
       byteOf ((if d.geom.order = .columnFirst then 16 else 0) + d.geom.w), byteOf d.geom.rows] ++
      bytes16 (BitVec.ofNat 16 d.geom.cols) ++ bytes16 (BitVec.ofNat 16 d.count) ∧
    (∀ row < d.geom.rows, ∀ col < d.geom.cols,
      ((frame.drop (14 + d.geom.w * (row * d.geom.cols + col))).take d.geom.w) =
        if d.geom.indexAt row col < d.count then readBlockBytes d.pages p.mem (d.geom.byteAt row col) d.geom.w
        else List.replicate d.geom.w 0) ∧
    frame = frame.take (4 + body) ++ bytes32 (crc32 (frame.take (4 + body)))) ∧
  (∀ (unitAddr : BitVec 3) (p : Pool) (r : Reply),
    let status : Byte := match r.status with
      | .done => 0 | .draining => 1 | .badCommand => 2 | .badArgument => 3 | .badState => 4
    let covered := [2, unitAddr.setWidth 8] ++ bytes16 (BitVec.ofNat 16 (6 + r.result.length)) ++ bytes16 r.id ++
      [r.code, status, if r.replayed then 1 else 0, byteOf r.result.length] ++ r.result
    frameOf unitAddr p (.reply r) = covered ++ bytes32 (crc32 covered)) ∧
  (∀ (unitAddr : BitVec 3) (p : Pool) (n : Notice) (lost : Nat), n.lost = some lost →
    let kind : Byte := match n.kind with
      | .seqGap => 1 | .noBuffer => 2 | .heldOverflow => 3 | .streamFault => 4 | .streamClosed => 5 | .egressStall => 6
      | .ingressRefused => 7 | .linkReset => 8
    let stream : List Byte := match n.stream with
      | some u => [1, byteOf u.val]
      | none => [0, 0]
    let covered := [3, unitAddr.setWidth 8, 0, 5, kind] ++ stream ++ [byteOf n.repeats, byteOf lost]
    frameOf unitAddr p (.notice n) = covered ++ bytes32 (crc32 covered)) ∧
  crc32 [0x31, 0x32, 0x33, 0x34, 0x35, 0x36, 0x37, 0x38, 0x39] = 0xFC891918

/-! ### The management agent -/

/-- An IDLE agent with a free reply place takes the head of the command queue. A replay appends the cached reply with REPLAYED
set; a wrong code or length appends its failing reply; a command that acts on no stream is left executing; a stream command takes
its engaged slot, or has its fetch started, where both are free; it waits on a slot in use, for its stream's own fetch, with a
request lodged behind another fetch, and outside RUNNING. A take that ends at once leaves the agent IDLE with the reply appended,
and in the same event the take is made of that state. With no reply place free the agent waits for one. In any other state, and
with an empty queue, nothing is taken (R74, R79, R87, R151, R152, R153, R156; that a command is taken in one event and executed in
another, and that the take has a row of its own, is notes/assumptions/1.md). -/
def Obligations.CommandTakeReplaysRefusesOrBegins : Prop :=
  ∀ s : State, s.resetLow = false →
    (∀ record rest, s.agent.state = .idle → s.agent.cmdq = record :: rest → replyOccupancy s < 4 →
      let replays := fun e : CacheEntry => s.agent.cache = some e ∧ recordId record ≠ 0 ∧ recordId record = e.id ∧
        recordCode record = e.code
      let fails := fun status : Status => ∃ t more, exec .commandTake s = .next t ∧
        owedReplies t = owedReplies s ++ executedReply record status [] :: more ∧ t.pool = s.pool ∧ t.notices = s.notices ∧
        ∃ u, Answered record status [] s u ∧ u.agent.state = .idle ∧ KeptByReply { s with agent.cmdq := rest } u ∧
          exec .commandTake s = exec .commandTake u
      (∀ e, replays e → ∃ t more, exec .commandTake s = .next t ∧
        owedReplies t = owedReplies s ++ { e.reply with replayed := true } :: more ∧ t.pool = s.pool ∧ t.notices = s.notices ∧
        (rest = [] → more = [] ∧ t.agent.state = .idle ∧ t.agent.cache = s.agent.cache ∧ t.engine = s.engine) ∧
        ∃ u, owedReplies u = owedReplies s ++ [{ e.reply with replayed := true }] ∧ u.agent.cache = s.agent.cache ∧
          u.agent.state = .idle ∧ KeptByReply { s with agent.cmdq := rest } u ∧ exec .commandTake s = exec .commandTake u) ∧
      ((∀ e, ¬ replays e) →
        (recordCommand record = none → fails .badCommand) ∧
        (∀ c, recordCommand record = some c → (recordArgs record).length ≠ c.argLength → fails .badArgument) ∧
        (∀ c, recordCommand record = some c → (recordArgs record).length = c.argLength → c.onStream = false →
          exec .commandTake s = .next { s with agent.cmdq := rest, agent.state := .executing record }) ∧
        (∀ c, recordCommand record = some c → (recordArgs record).length = c.argLength → c.onStream = true →
          ∃ t, exec .commandTake s = .next t ∧
            AgentAsks (recordStream record) { s with agent.cmdq := rest, agent.state := .executing record } t) ∧
        (∀ c i, recordCommand record = some c → (recordArgs record).length = c.argLength → c.onStream = true →
          s.engine.mode = .running → engagedSlot s.engine (recordStream record) = some i → s.engine.slots[i].inUse = false →
          ∃ t, exec .commandTake s = .next t ∧ t.agent = { s.agent with cmdq := rest, state := .executing record } ∧
            t.engine.mgmt = .holds (recordStream record) i ∧
            t.engine.slots[i] = { s.engine.slots[i] with inUse := true } ∧ t.pool = s.pool ∧ t.link = s.link) ∧
        (∀ c i, recordCommand record = some c → (recordArgs record).length = c.argLength → c.onStream = true →
          s.engine.mode = .running → engagedSlot s.engine (recordStream record) = none → s.engine.fetch = none →
          victim s.engine = some i →
          ∃ t, exec .commandTake s = .next t ∧ t.agent = { s.agent with cmdq := rest, state := .executing record } ∧
            t.engine.mgmt = .fetching (recordStream record) ∧
            t.engine.fetch = some ⟨.management, recordStream record, i⟩ ∧ t.pool = s.pool ∧ t.link = s.link))) ∧
    (s.agent.state = .idle → s.agent.cmdq ≠ [] → 4 ≤ replyOccupancy s →
      exec .commandTake s = .next { s with agent.state := .waitingReplySpace }) ∧
    (s.agent.state ≠ .idle ∨ s.agent.cmdq = [] → exec .commandTake s = .next s)

/-- The reading commands answer DONE with their results and leave everything but the reply, the cache and an IDLE agent, which
makes the next take in the same event (R151, R152): IDENT the part's codes, unit address and capacities, CLASS_READ the entry,
POOL_QUERY the counts and queue lengths, LIMITS_READ the limits, COUNTERS_READ without clear the fifteen counters in the order of
Table 8-7, four bytes each. An entry number above 63 or a clear option that is neither value is BAD_ARGUMENT (R103, R158, R159,
R163, R165, R185; that either COUNTERS_READ row answers such an option is notes/assumptions/12.md). -/
def Obligations.ReadingCommandsReportAndKeepState : Prop :=
  ∀ (s : State) (record : List Byte),
    let reports := fun (row : Instr) (status : Status) (result : List Byte) =>
      ∃ t, exec row s = .next t ∧ TakeFollows (fun u => Answered record status result s u ∧ KeptByReply s u) t
    (Runs .ident record s → reports .ident .done
      [0x4D, 0x4C, 0x48, 0x16, 1, s.classifier.unitAddr.setWidth 8, 1, 0, 64, 2, 0, 128]) ∧
    (∀ n : Byte, Runs .classRead record s → recordArgs record = [n] →
      (∀ h : n.toNat < 64,
        let e := s.classifier.table[n.toNat]
        let action := match e.action with
          | .stream => 0 | .spread => 1 | .discard => 2
        reports .classRead .done ([n, if e.valid then 1 else 0] ++ bytes16 (e.value.setWidth 16) ++
          bytes16 (e.care.setWidth 16) ++ [byteOf (16 * action + e.width), byteOf e.base.val])) ∧
      (64 ≤ n.toNat → reports .classRead .badArgument [])) ∧
    (Runs .poolQuery record s → reports .poolQuery .done
      (bytes16 (BitVec.ofNat 16 s.pool.freePages.length) ++
        [byteOf s.pool.freeDesc.length, byteOf (s.pool.countIn .filling), byteOf (s.pool.countIn .held),
         byteOf (s.pool.countIn .queued), byteOf (s.pool.countIn .sending), byteOf s.egress.queues[0].length,
         byteOf s.egress.queues[1].length, byteOf s.egress.queues[2].length, byteOf s.egress.queues[3].length,
         if s.pool.low then 1 else 0])) ∧
    (Runs .limitsRead record s →
      let l := s.agent.limits
      reports .limitsRead .done ([byteOf l.holdMark, byteOf l.releaseMark] ++ bytes16 (BitVec.ofNat 16 l.reserve) ++
        bytes16 l.stallLimit ++ [byteOf l.weights[0], byteOf l.weights[1], byteOf l.weights[2], byteOf l.weights[3],
          l.discardable.setWidth 8])) ∧
    (Runs .countersRead record s → recordArgs record = [0] →
      let c := s.agent.counters
      let result := bytes32 c.cellsSeen ++ bytes32 c.checkErrors ++ bytes32 c.cellsUnclaimed ++ bytes32 c.cellsRefusedFull ++
        bytes32 c.cellsRefusedFormat ++ bytes32 c.cellsAccepted ++ bytes32 c.cellsDiscardClass ++ bytes32 c.mgmtDropped ++
        bytes32 c.allocFailures ++ bytes32 c.framesSent ++ bytes32 c.stallDiscards ++ bytes32 c.creditOverflows ++
        bytes32 c.noticesLost ++ bytes32 c.linkResets ++ bytes32 c.egressLinkResets
      reports .countersRead .done result ∧ result.length = 60) ∧
    (∀ v : Byte, Runs .countersRead record s → recordArgs record = [v] → v ≠ 0 → v ≠ 1 →
      reports .countersRead .badArgument [] ∧ reports .countersReadClear .badArgument [])

/-- CLASS_WRITE replaces one entry whole, or is BAD_ARGUMENT and changes none; COUNTERS_READ with clear reports the fifteen
counters and writes them 0 in the same event; NOTICE_MASK_WRITE writes the eight enables and reports the ones before. Beside that,
the reply and the cache, nothing changes before the next take of the same event (R101, R151, R152, R165, R166). -/
def Obligations.WritingCommandsReplaceTheirTarget : Prop :=
  ∀ (s : State) (record : List Byte),
    (Runs .classWrite record s →
      (∀ n e, parseEntry (recordArgs record) = some (n, e) → ∃ t, exec .classWrite s = .next t ∧
        TakeFollows (fun u => Answered record .done [] s u ∧
          KeptByReply { s with classifier.table := s.classifier.table.set n e } u) t) ∧
      (parseEntry (recordArgs record) = none → ∃ t, exec .classWrite s = .next t ∧
        TakeFollows (fun u => Answered record .badArgument [] s u ∧ KeptByReply s u) t)) ∧
    (Runs .countersRead record s → recordArgs record = [1] →
      let c := s.agent.counters
      ∃ t, exec .countersReadClear s = .next t ∧ TakeFollows (fun u =>
        Answered record .done ([c.cellsSeen, c.checkErrors, c.cellsUnclaimed, c.cellsRefusedFull, c.cellsRefusedFormat,
          c.cellsAccepted, c.cellsDiscardClass, c.mgmtDropped, c.allocFailures, c.framesSent, c.stallDiscards, c.creditOverflows,
          c.noticesLost, c.linkResets, c.egressLinkResets].flatMap bytes32) s u ∧
        KeptByReply { s with agent.counters := ⟨0, 0, 0, 0, 0, 0, 0, 0, 0, 0, 0, 0, 0, 0, 0⟩ } u) t) ∧
    (∀ m : Byte, Runs .noticeMaskWrite record s → recordArgs record = [m] → ∃ t, exec .noticeMaskWrite s = .next t ∧
      TakeFollows (fun u => Answered record .done [s.notices.mask] s u ∧ KeptByReply { s with notices.mask := m } u) t)

/-- LIMITS_WRITE is all or nothing. Limits inside their ranges replace the whole record; a change of a mark judges the hold flag,
the pool-low condition is recomputed against the new reserve, and HOLD is judged again. A hold mark outside 2 to 32, a release
mark not below it, a reserve above 256 or a weight outside 1 to 8 is BAD_ARGUMENT and changes nothing. The next take follows in
the same event (R63, R120, R121, R151, R161, R162). -/
def Obligations.LimitsWriteIsAllOrNothing : Prop :=
  (∀ b0 b1 b2 b3 b4 b5 b6 b7 b8 b9 b10 : Byte,
    parseLimits [b0, b1, b2, b3, b4, b5, b6, b7, b8, b9, b10] =
      if b0.toNat < 2 ∨ 32 < b0.toNat ∨ b0.toNat ≤ b1.toNat ∨ 256 < 256 * b2.toNat + b3.toNat ∨
          (∃ b ∈ [b6, b7, b8, b9], b.toNat < 1 ∨ 8 < b.toNat) then none
      else some ⟨b0.toNat, b1.toNat, 256 * b2.toNat + b3.toNat, b4 ++ b5, #v[b6.toNat, b7.toNat, b8.toNat, b9.toNat],
        BitVec.ofNat 4 b10.toNat⟩) ∧
  (∀ (s : State) (record : List Byte), Runs .limitsWrite record s →
    (∀ l, parseLimits (recordArgs record) = some l →
      let n := s.ingress.fifo.length
      let flag := if s.agent.limits.holdMark = l.holdMark ∧ s.agent.limits.releaseMark = l.releaseMark then s.ingress.holdFlag
        else if l.holdMark ≤ n then true else if n ≤ l.releaseMark then false else s.ingress.holdFlag
      let low := decide (s.pool.freePages.length < l.reserve)
      ∃ t, exec .limitsWrite s = .next t ∧ TakeFollows (fun u => Answered record .done [] s u ∧
        KeptByReply { s with
          agent.limits := l
          pool.low := low
          ingress.holdFlag := flag
          ingress.hold := s.ingress.port != .ready || flag || low } u) t) ∧
    (parseLimits (recordArgs record) = none → ∃ t, exec .limitsWrite s = .next t ∧
      TakeFollows (fun u => Answered record .badArgument [] s u ∧ KeptByReply s u) t))

/-- A stream command with legal arguments that its stream's state does not take is answered BAD_STATE, and one with illegal
arguments BAD_ARGUMENT whatever the state; either way the record, its slot's CLEAN or DIRTY, the drain registry and every queue
stay (R6, R10; that either close row answers a form that is neither is notes/assumptions/12.md). -/
def Obligations.RefusedStreamCommandsChangeNothing : Prop :=
  ∀ (s : State) (record : List Byte) (t : StreamId) (i : SlotNo) (row : Instr) (c : Command) (legal : Prop),
    streamRow record row = some (c, legal) → RunsOn c record t i s →
    let x := s.engine.slots[i].copy
    let refused := fun status : Status => ∃ t, exec row s = .next t ∧ TakeFollows (fun u =>
      StreamAnswered record i status [] x s s u ∧ u.engine.slots[i].state = s.engine.slots[i].state) t
    (legal → takenIn row x.state = false → refused .badState) ∧
    (c ≠ .streamClose → ¬ legal → refused .badArgument) ∧
    (c = .streamClose → closeForm record = none → refused .badArgument)

/-- STREAM_OPEN on a CLOSED stream stores the configuration and starts a session: OPEN, EMPTY, sequence valid no, next block
number 0, the six counters 0. STREAM_PAUSE on an OPEN stream changes the state alone. STREAM_RESUME on a PAUSED stream sets OPEN,
clears sequence valid and marks a FILLING block spliced. STREAM_QUERY in any state changes nothing and reports the record and the
outstanding count in 41 bytes: state, sub-state, configuration, fill index, expected sequence, sequence valid, next block number,
held count, outstanding count and the six counters in the order of Table 1-7 (R3, R11, R12, R13, R23, R185). -/
def Obligations.OpenPauseResumeAndQueryAct : Prop :=
  ∀ (s : State) (record : List Byte) (t : StreamId) (i : SlotNo),
    let x := s.engine.slots[i].copy
    let writes := fun (row : Instr) (y : Ctx) => ∃ v, exec row s = .next v ∧ TakeFollows (fun u =>
      StreamAnswered record i .done [] y s s u ∧ u.engine.slots[i].state = .dirty) v
    (∀ cfg, RunsOn .streamOpen record t i s → x.state = .closed → parseCfg ((recordArgs record).drop 1) = some cfg →
      writes .streamOpen ⟨cfg, .opened, .empty, x.expected, false, 0, x.held, ⟨0, 0, 0, 0, 0, 0⟩⟩) ∧
    (RunsOn .streamPause record t i s → x.state = .opened → writes .streamPause { x with state := .paused }) ∧
    (RunsOn .streamResume record t i s → x.state = .paused →
      (∀ h k spliced, x.fill = .filling h k spliced →
        writes .streamResume { x with state := .opened, seqValid := false, fill := .filling h k true }) ∧
      ((x.fill = .empty ∨ x.fill = .hunting) → writes .streamResume { x with state := .opened, seqValid := false })) ∧
    (RunsOn .streamQuery record t i s →
      let g := x.cfg.geom
      let state : Byte := match x.state with
        | .closed => 0 | .opened => 1 | .paused => 2 | .draining => 3 | .faulted => 4
      let sub : Byte × Nat := match x.fill with
        | .empty => (0, 0) | .filling _ k _ => (1, k) | .hunting => (2, 0)
      let policies := (if g.order = .columnFirst then 1 else 0) + (if x.cfg.mode = .held then 2 else 0) +
        (if x.cfg.gap = .tolerate then 4 else 0) + (if x.cfg.broken = .discard then 8 else 0) +
        (if x.cfg.overflow = .fault then 16 else 0)
      let result := [state, sub.1, byteOf g.w, byteOf g.rows] ++ bytes16 (BitVec.ofNat 16 g.cols) ++
        [byteOf x.cfg.cls.val, byteOf x.cfg.heldLimit, byteOf policies] ++ bytes16 (BitVec.ofNat 16 sub.2) ++
        [x.expected, if x.seqValid then 1 else 0] ++ bytes16 x.nextBlock ++
        [byteOf x.held.length, byteOf s.pool.drain[t].count] ++ bytes32 x.counters.cells ++ bytes32 x.counters.duplicates ++
        bytes32 x.counters.gaps ++ bytes32 x.counters.blocksCompleted ++ bytes32 x.counters.blocksDropped ++
        bytes32 x.counters.samplesDiscarded
      result.length = 41 ∧
      ∃ v, exec .streamQuery s = .next v ∧ TakeFollows (fun u =>
        StreamAnswered record i .done result x s s u ∧ u.engine.slots[i].state = s.engine.slots[i].state) v)

/-- STREAM_CUT on an OPEN or PAUSED stream performs the CUT action; STREAM_RELEASE on an OPEN, PAUSED or FAULTED stream performs
the RELEASE action and reports the number of blocks that it took from the held list. Both answer DONE, whatever the action met; a
slot whose record is written is DIRTY, any other keeps its state (R14, R15, R73; notes/assumptions/22.md). -/
def Obligations.CutAndReleaseCommandsAct : Prop :=
  ∀ (s : State) (record : List Byte) (t : StreamId) (i : SlotNo),
    let x := s.engine.slots[i].copy
    (RunsOn .streamCut record t i s → x.state = .opened ∨ x.state = .paused →
      ∃ v, exec .streamCut s = .next v ∧ TakeFollows (fun u =>
        StreamAnswered record i .done [] (cut t s x).2 s (cut t s x).1 u ∧
        u.engine.slots[i].state = (if x.fill = .empty ∨ x.fill = .hunting then s.engine.slots[i].state else .dirty)) v) ∧
    (RunsOn .streamRelease record t i s → x.state = .opened ∨ x.state = .paused ∨ x.state = .faulted →
      let n := if x.cfg.mode = .held then x.held.length else 0
      ∃ v, exec .streamRelease s = .next v ∧ TakeFollows (fun u =>
        StreamAnswered record i .done [byteOf n] (releaseHeld t s x).2 s (releaseHeld t s x).1 u ∧
        u.engine.slots[i].state = (if n = 0 then s.engine.slots[i].state else .dirty)) v)

/-- STREAM_CLOSE GRACEFUL on an OPEN, PAUSED or FAULTED stream cuts the current block, sets EMPTY with sequence valid cleared, and
hands the held list on. With outstanding count 0 after that it sets CLOSED and answers DONE; with a count above 0 it sets drain
pending and DRAINING and answers DRAINING (R16, R68). -/
def Obligations.GracefulCloseDrainsOrCloses : Prop :=
  ∀ (s : State) (record : List Byte) (t : StreamId) (i : SlotNo), RunsOn .streamClose record t i s →
    closeForm record = some false →
    let x := s.engine.slots[i].copy
    x.state = .opened ∨ x.state = .paused ∨ x.state = .faulted →
    let afterCut := cut t s x
    let w := releaseHeld t afterCut.1 { afterCut.2 with fill := .empty, seqValid := false }
    let e := w.1.pool.drain[t]
    (e.count = 0 → ∃ v, exec .streamCloseGraceful s = .next v ∧ TakeFollows (fun u =>
      StreamAnswered record i .done [] { w.2 with state := .closed } s w.1 u ∧ u.engine.slots[i].state = .dirty) v) ∧
    (0 < e.count → ∃ v, exec .streamCloseGraceful s = .next v ∧ TakeFollows (fun u =>
      StreamAnswered record i .draining [] { w.2 with state := .draining } s (setDrain t ⟨e.count, true⟩ w.1) u ∧
      u.engine.slots[i].state = .dirty) v)

/-- The teardown of a stream frees its current block, its held list oldest first, and its queued blocks head to tail, in that
order, each counted in blocks_dropped, its pages and its descriptor going to the free lists; drain pending is cleared first, so
that no drain completion is raised; a block of the stream in flight is marked and left to finish; the record is CLOSED and EMPTY,
its held list empty, sequence valid no, all else kept (R18, R61, R141, R143). The premises hold wherever a descriptor stands in
one place (R55). -/
def Obligations.TeardownFreesBlocksInOrder : Prop :=
  ∀ (t : StreamId) (s : State) (x : Ctx), QueuesDisjoint s → LinkAgrees s →
    (∀ h ∈ ownedBlocks x, ∀ c : EgressClass, h ∉ s.egress.queues[c]) →
    (∀ h c m, s.link.inflight = some (.block h c m) → h ∉ ownedBlocks x ∧ ∀ d : EgressClass, h ∉ s.egress.queues[d]) →
    let w := tearDown t s x
    let queued := (s.egress.queues[0] ++ s.egress.queues[1] ++ s.egress.queues[2] ++ s.egress.queues[3]).filter
      (fun h => s.pool.desc[h].stream == t)
    w.2 = { x with
      state := .closed
      fill := .empty
      seqValid := false
      held := []
      counters.blocksDropped := x.counters.blocksDropped + BitVec.ofNat 32 ((ownedBlocks x).length + queued.length) } ∧
    w.1.pool.freeDesc = s.pool.freeDesc ++ ownedBlocks x ++ queued ∧
    ((ownedBlocks x).Nodup →
      w.1.pool.freePages = s.pool.freePages ++ (ownedBlocks x ++ queued).flatMap (fun h => s.pool.desc[h].pages)) ∧
    w.1.pool.drain = s.pool.drain.set t ⟨s.pool.drain[t].count - queued.length, false⟩ ∧
    (∀ c : EgressClass, w.1.egress.queues[c] = s.egress.queues[c].filter (fun h => s.pool.desc[h].stream != t)) ∧
    w.1.pool.mem = s.pool.mem ∧ w.1.engine = s.engine ∧ w.1.notices = s.notices ∧ w.1.agent = s.agent ∧
    w.1.egress.replies = s.egress.replies ∧ w.1.egress.curClass = s.egress.curClass ∧ w.1.egress.budget = s.egress.budget ∧
    (∀ h c m, s.link.inflight = some (.block h c m) →
      w.1.link = (if s.pool.desc[h].stream = t then { s.link with inflight := some (.block h c true) } else s.link) ∧
      w.1.pool.desc[h] = s.pool.desc[h])

/-- STREAM_CLOSE ABORT on a stream in any state but CLOSED performs the teardown and answers DONE. One operation of a STREAMS
reset performs it on a stream that is not CLOSED and leaves a CLOSED one alone; then the mark is handed on and the next stream is
asked for, and after stream 255 the agent is IDLE and makes the next take in the same event, as it does after the command. Both
hold in RUNNING and in SWEEP_WAIT beside another operation (R18, R74, R75, R86, R87, R151, R170). -/
def Obligations.AbortAndStreamsResetTearDown : Prop :=
  (∀ (s : State) (record : List Byte) (t : StreamId) (i : SlotNo), RunsOn .streamClose record t i s →
    closeForm record = some true → s.engine.slots[i].copy.state ≠ .closed →
    let w := tearDown t s s.engine.slots[i].copy
    ∃ v, exec .streamCloseAbort s = .next v ∧ TakeFollows (fun u =>
      StreamAnswered record i .done [] w.2 s w.1 u ∧ u.engine.slots[i].state = .dirty) v) ∧
  (∀ (s : State) (n t : StreamId) (i : SlotNo), s.resetLow = false → s.agent.state = .tearing n → s.engine.mgmt = .holds t i →
    ModeStays i s →
    let x := s.engine.slots[i].copy
    let w := tearDown t s x
    ∃ u t', exec .streamsTeardown s = .next t' ∧
      (x.state = .closed → u.engine.slots[i].copy = x ∧ u.pool = s.pool ∧ u.egress = s.egress ∧ u.link = s.link ∧
        u.notices = s.notices) ∧
      (x.state ≠ .closed → u.engine.slots[i].copy = w.2 ∧ u.pool = w.1.pool ∧ u.egress = w.1.egress ∧ u.link = w.1.link ∧
        u.notices = w.1.notices) ∧
      u.engine.store = s.engine.store ∧ u.agent.counters = s.agent.counters ∧
      u.agent.cache = s.agent.cache ∧ u.agent.limits = s.agent.limits ∧ u.classifier = s.classifier ∧
      (∀ h : n.val + 1 < 256, t' = u ∧ u.agent.state = .tearing ⟨n.val + 1, h⟩ ∧
        ∃ v, AgentAsks ⟨n.val + 1, h⟩ v u ∧ v.agent.state = .tearing ⟨n.val + 1, h⟩ ∧ v.engine.mgmt = .idle ∧
          KeptByRelease i { (if x.state = .closed then s else w.1) with engine.mgmt := .idle } v) ∧
      (n = 255 → u.engine.mgmt = .idle ∧ u.agent.cmdq = s.agent.cmdq ∧ u.agent.state = .idle ∧ exec .commandTake u = .next t'))

/-- STREAM_RECONFIGURE is taken on a PAUSED stream in EMPTY or HUNTING, with a changed class only where the outstanding count is
0, and in HELD mode only with a held limit not below the held list; it stores the configuration, keeping the rest of the record,
and from HELD to IMMEDIATE hands the held list on in the new class. Any other reconfiguration with legal arguments is BAD_STATE
and changes nothing (R21, R22). -/
def Obligations.ReconfigureChecksThenStores : Prop :=
  ∀ (s : State) (record : List Byte) (t : StreamId) (i : SlotNo) (cfg : StreamCfg), RunsOn .streamReconfigure record t i s →
    parseCfg ((recordArgs record).drop 1) = some cfg →
    let x := s.engine.slots[i].copy
    let allowed := x.state = .paused ∧ (x.fill = .empty ∨ x.fill = .hunting) ∧
      (cfg.cls ≠ x.cfg.cls → s.pool.drain[t].count = 0) ∧ (cfg.mode = .held → x.held.length ≤ cfg.heldLimit)
    (allowed → x.cfg.mode = .held → cfg.mode = .immediate → ∃ v, exec .streamReconfigure s = .next v ∧ TakeFollows (fun u =>
      StreamAnswered record i .done [] { x with cfg := cfg, held := [] } s
        (x.held.foldl (fun v h => queueEntry t cfg.cls h v) s) u ∧ u.engine.slots[i].state = .dirty) v) ∧
    (allowed → ¬ (x.cfg.mode = .held ∧ cfg.mode = .immediate) → ∃ v, exec .streamReconfigure s = .next v ∧ TakeFollows (fun u =>
      StreamAnswered record i .done [] { x with cfg := cfg } s s u ∧ u.engine.slots[i].state = .dirty) v) ∧
    (¬ allowed → ∃ v, exec .streamReconfigure s = .next v ∧ TakeFollows (fun u =>
      StreamAnswered record i .badState [] x s s u ∧ u.engine.slots[i].state = s.engine.slots[i].state) v)

/-- UNIT_RESET with level STREAMS or FULL answers DONE, writes the cache and puts the agent in RESET_PENDING, and nothing else
changes; any other level is BAD_ARGUMENT and leaves the agent IDLE, the next take following in the same event (R151, R167; that
either row answers it is notes/assumptions/12.md). -/
def Obligations.UnitResetAnswersAndPends : Prop :=
  ∀ (s : State) (record : List Byte), Runs .unitReset record s →
    (recordArgs record = [0] → ∃ t, exec .unitResetStreams s = .next t ∧ Answered record .done [] s t ∧
      t.agent.state = .resetPending .streams ∧ KeptByReply s t) ∧
    (recordArgs record = [1] → ∃ t, exec .unitResetFull s = .next t ∧ Answered record .done [] s t ∧
      t.agent.state = .resetPending .full ∧ KeptByReply s t) ∧
    (∀ v : Byte, recordArgs record = [v] → v ≠ 0 → v ≠ 1 → ∀ row, row = .unitResetStreams ∨ row = .unitResetFull →
      ∃ t, exec row s = .next t ∧ TakeFollows (fun u => Answered record .badArgument [] s u ∧ KeptByReply s u) t)

/-- A pending reset takes effect at the completion of its own reply, the last one queued (notes/assumptions/14.md), or at a stall
expiry while a reply waits; the completion of an earlier reply leaves it pending. FULL writes the reset values of Table 8-8 in
that event, the port left IDLE after a completion and STALLED after an expiry; with nothing in progress the context engine has its
reset values too, otherwise its init sweep is pending or due and an assembly in progress keeps the descriptor that it was filling
(notes/assumptions/15.md). STREAMS leaves the agent tearing down from stream 0, for which it asks (R74, R87, R88, R168, R170,
R171, R172, R173). -/
def Obligations.PendingResetTakesEffect : Prop :=
  (∀ (s : State) (r : Reply), s.resetLow = false → s.link.inflight = some (.reply r) → s.link.port = .sending →
    s.link.timer = none → s.egress.replies = [] →
    (s.agent.state = .resetPending .full →
      ∃ t, exec .frameCompletion s = .next t ∧ FullResetTaken s t ∧ EngineAtFullReset s t ∧ t.link.port = .idle) ∧
    (s.agent.state = .resetPending .streams → ∃ t, exec .frameCompletion s = .next t ∧ t.agent.state = .tearing 0 ∧
      t.agent.counters = s.agent.counters.inc .framesSent ∧
      ∃ w, t = judgePort w ∧ AgentAsks 0 { s with
        link.inflight := none
        link.frame := []
        agent.counters := s.agent.counters.inc .framesSent
        agent.state := .tearing 0 } w)) ∧
  (∀ (s : State) (r : Reply) (level : ResetLevel), s.resetLow = false → s.link.inflight = some (.reply r) →
    s.egress.replies ≠ [] → s.agent.state = .resetPending level →
    ∃ t, exec .frameCompletion s = .next t ∧ t.agent.state = .resetPending level) ∧
  (∀ (s : State) (n : Nat), s.resetLow = false → s.link.inflight = none → s.link.port = .waiting → s.link.timer = some n →
    s.egress.replies ≠ [] →
    ∃ v, exec .stallExpiry { s with agent.state := .idle } = .next v ∧
      (s.agent.state = .resetPending .full →
        ∃ t, exec .stallExpiry s = .next t ∧ FullResetTaken s t ∧ EngineAtFullReset v t ∧ t.link.port = .stalled) ∧
      (s.agent.state = .resetPending .streams → ∃ t, exec .stallExpiry s = .next t ∧ t.agent.state = .tearing 0 ∧
        t.link.port = .stalled ∧ t.egress.replies = s.egress.replies ∧ AgentAsks 0 { v with agent.state := .tearing 0 } t))

/-! ### Notices -/

/-- A notice request is judged by the first case that applies. Masked, it is dropped. Matching a queued record by kind and stream,
it raises that record's repeat count, which stays at 255. With fewer than 16 places taken it joins the tail with repeat count 1,
and a selection may follow. Otherwise it is lost: lost-since-last rises, staying at 255, and notices_lost advances (R174, R176,
R177, R178). -/
def Obligations.NoticeRequestJudgedByFourCases : Prop :=
  ∀ (k : NoticeKind) (st : Option StreamId) (s : State),
    let enabled := s.notices.mask.getLsbD (k.code - 1)
    let fits := fun n : Notice => n.kind = k ∧ n.stream = st
    (enabled = false → requestNotice k st s = s) ∧
    (∀ before n after, enabled = true → s.notices.queue = before ++ n :: after → fits n → (∀ m ∈ before, ¬ fits m) →
      requestNotice k st s = { s with
        notices.queue := before ++ { n with repeats := min 255 (n.repeats + 1) } :: after }) ∧
    (enabled = true → (∀ m ∈ s.notices.queue, ¬ fits m) → noticePlaces s < 16 →
      requestNotice k st s = judgePort { s with notices.queue := s.notices.queue ++ [⟨k, st, 1, none⟩] }) ∧
    (enabled = true → (∀ m ∈ s.notices.queue, ¬ fits m) → 16 ≤ noticePlaces s →
      requestNotice k st s = { s with
        notices.lost := min 255 (s.notices.lost + 1)
        agent.counters := s.agent.counters.inc .noticesLost })

/-! ### Invariants -/

/-- Every step keeps HOLD driven exactly while RESET_N is low, the port is not READY, the hold flag is set or pool-low is
asserted; and pool-low asserted exactly while fewer pages are free than the reserve (R63, R64, R121, R188). -/
def Obligations.StepKeepsHoldAndPoolLow : Prop :=
  (let due := fun s : State => s.resetLow || s.ingress.port != .ready || s.ingress.holdFlag || s.pool.low
   ∀ s t : State, s.ingress.hold = due s → step s = .next t → t.ingress.hold = due t) ∧
  (∀ s t : State, s.pool.low = decide (s.pool.freePages.length < s.agent.limits.reserve) → step s = .next t →
    t.pool.low = decide (t.pool.freePages.length < t.agent.limits.reserve))

/-- Every step keeps the ingress port READY beside an engine in RUNNING, in BUS_RESET beside a bus-reset sweep and in INIT beside
an init sweep, pending or running (R87, R88, R108, R123). -/
def Obligations.StepKeepsPortBesideEngine : Prop :=
  ∀ s t : State, PortEngineAgree s → step s = .next t → PortEngineAgree t

/-- Every step keeps the frame link port in the state that Table 7-2 gives it: SENDING with an item in flight, IDLE with nothing
waiting, WAITING with credit 0 and something waiting, STALLED with credit 0, the stall timer in WAITING alone; and the frame lane
silent with nothing in flight (R129, R133, R134, R136). -/
def Obligations.StepKeepsLinkStates : Prop :=
  (∀ s t : State, LinkAgrees s → step s = .next t → LinkAgrees t) ∧
  (∀ s t : State, FrameAgrees s → step s = .next t → FrameAgrees t)

/-- Every step keeps the bounds: 32 cells in the FIFO, 4 commands, 8 parked cells, 16 notices, 255 lost, 15 credits, 4 replies,
and the reply place of the command being executed (R82, R119, R127, R132, R150, R151, R177, R178); and it leaves no take undone:
an IDLE agent has no record queued, and one that waits for reply space has a record queued and 4 replies owed (R151, Table
8-2). -/
def Obligations.StepKeepsBounds : Prop :=
  (∀ s t : State, WithinBounds s → step s = .next t → WithinBounds t) ∧
  (∀ s t : State, AgentAgrees s → step s = .next t → AgentAgrees t)

/-- Every step keeps the limits, the configurations of all records and the classification table such as their commands accept, the
ranges of an entry's width included, one rank for each slot in the last-use order (R2, R72, R101, R102, R161), and the page memory
in its canonical form (R51, R52; the form is the model's). -/
def Obligations.StepKeepsStoredSettingsLegal : Prop :=
  (∀ s t : State, LimitsLegal s → step s = .next t → LimitsLegal t) ∧
  (∀ s t : State, ConfigsLegal s → step s = .next t → ConfigsLegal t) ∧
  (∀ s t : State, TableLegal s → step s = .next t → TableLegal t) ∧
  (∀ s t : State, RanksComplete s → step s = .next t → RanksComplete t) ∧
  (∀ s t : State, MemoryCanonical s → step s = .next t → MemoryCanonical t)

/-- Every step keeps the context engine consistent: at most one cell is assembled and at most three slots are in use, each by one
operation that holds a slot engaged by its stream; no stream is carried by two slots; the fetch unit, its requester, the parked
cells and the waiting FIFO head agree with the slots; and while the engine sweeps nothing is in progress (R71, R73, R74, R75, R76,
R81, R82, R86, R87). That the slot on which the head waits may be not in use while a cell is assembled on another
(`EngineConsistent.headWaits`) is notes/assumptions/8.md, and that a read for the dispatcher waits for the assembler
(`EngineConsistent.readWaits`) is notes/assumptions/20.md: both are the model's. -/
def Obligations.StepKeepsEngineConsistent : Prop :=
  (∀ s t : State, EngineConsistent s → step s = .next t → EngineConsistent t) ∧
  (∀ s : State, EngineConsistent s → (slotNos.filter (fun i => s.engine.slots[i].inUse)).length ≤ 3)

/-- Every step keeps each page and each descriptor in exactly one place: each of the 512 pages free or in one page list, each
descriptor in the place that its state names, current block, held list, class queue, in-flight item or free list; and each
outstanding count equal to the number of QUEUED and SENDING blocks of its stream (R51, R55, R57, R65, R126). The premises are
invariants that every step keeps too. -/
def Obligations.StepKeepsStorageConserved : Prop :=
  ∀ s t : State, EngineConsistent s → LinkAgrees s → StorageConserved s → step s = .next t → StorageConserved t

/-- Every invariant holds right after reset. -/
def Obligations.InvariantsHoldAtReset : Prop :=
  MemoryCanonical State.reset ∧ HoldAgrees State.reset ∧ PoolLowAgrees State.reset ∧ PortEngineAgree State.reset ∧
  LinkAgrees State.reset ∧ FrameAgrees State.reset ∧ WithinBounds State.reset ∧ AgentAgrees State.reset ∧ LimitsLegal State.reset ∧
  ConfigsLegal State.reset ∧ TableLegal State.reset ∧ RanksComplete State.reset ∧ EngineConsistent State.reset ∧
  StorageConserved State.reset
end

