-- ==== Sys2Proof/Laws/State.lean ====
section
/-!
SUPPORT. What each update of one piece of state leaves and writes: true by rfl, for simp.
-/
namespace Sys2Proof.Machine

open Sys2Proof

@[simp] theorem setSlot_frame (i : SlotNo) (x : Slot) (s : State) :
    (setSlot i x s).ingress = s.ingress ∧ (setSlot i x s).classifier = s.classifier ∧
    (setSlot i x s).assembler = s.assembler ∧ (setSlot i x s).pool = s.pool ∧
    (setSlot i x s).egress = s.egress ∧ (setSlot i x s).link = s.link ∧
    (setSlot i x s).agent = s.agent ∧ (setSlot i x s).notices = s.notices ∧
    (setSlot i x s).resetLow = s.resetLow ∧ (setSlot i x s).pending = s.pending ∧
    (setSlot i x s).engine.store = s.engine.store ∧ (setSlot i x s).engine.lru = s.engine.lru ∧
    (setSlot i x s).engine.fetch = s.engine.fetch ∧ (setSlot i x s).engine.readWaits = s.engine.readWaits ∧
    (setSlot i x s).engine.mgmt = s.engine.mgmt ∧
    (setSlot i x s).engine.drainReq = s.engine.drainReq ∧ (setSlot i x s).engine.dispReq = s.engine.dispReq ∧
    (setSlot i x s).engine.dispWait = s.engine.dispWait ∧ (setSlot i x s).engine.parked = s.engine.parked ∧
    (setSlot i x s).engine.drainList = s.engine.drainList ∧ (setSlot i x s).engine.mode = s.engine.mode ∧
    (setSlot i x s).engine.slots = s.engine.slots.set i x :=
  ⟨rfl, rfl, rfl, rfl, rfl, rfl, rfl, rfl, rfl, rfl, rfl, rfl, rfl, rfl, rfl, rfl, rfl, rfl, rfl, rfl, rfl, rfl⟩

@[simp] theorem setCopy_frame (i : SlotNo) (x : Ctx) (s : State) :
    (setCopy i x s).ingress = s.ingress ∧ (setCopy i x s).classifier = s.classifier ∧
    (setCopy i x s).assembler = s.assembler ∧ (setCopy i x s).pool = s.pool ∧
    (setCopy i x s).egress = s.egress ∧ (setCopy i x s).link = s.link ∧
    (setCopy i x s).agent = s.agent ∧ (setCopy i x s).notices = s.notices ∧
    (setCopy i x s).resetLow = s.resetLow ∧ (setCopy i x s).pending = s.pending ∧
    (setCopy i x s).engine.store = s.engine.store ∧ (setCopy i x s).engine.lru = s.engine.lru ∧
    (setCopy i x s).engine.fetch = s.engine.fetch ∧ (setCopy i x s).engine.readWaits = s.engine.readWaits ∧
    (setCopy i x s).engine.mgmt = s.engine.mgmt ∧
    (setCopy i x s).engine.drainReq = s.engine.drainReq ∧ (setCopy i x s).engine.dispReq = s.engine.dispReq ∧
    (setCopy i x s).engine.dispWait = s.engine.dispWait ∧ (setCopy i x s).engine.parked = s.engine.parked ∧
    (setCopy i x s).engine.drainList = s.engine.drainList ∧ (setCopy i x s).engine.mode = s.engine.mode :=
  ⟨rfl, rfl, rfl, rfl, rfl, rfl, rfl, rfl, rfl, rfl, rfl, rfl, rfl, rfl, rfl, rfl, rfl, rfl, rfl, rfl, rfl⟩

@[simp] theorem setStore_frame (t : StreamId) (x : Ctx) (s : State) :
    (setStore t x s).ingress = s.ingress ∧ (setStore t x s).classifier = s.classifier ∧
    (setStore t x s).assembler = s.assembler ∧ (setStore t x s).pool = s.pool ∧
    (setStore t x s).egress = s.egress ∧ (setStore t x s).link = s.link ∧
    (setStore t x s).agent = s.agent ∧ (setStore t x s).notices = s.notices ∧
    (setStore t x s).resetLow = s.resetLow ∧ (setStore t x s).pending = s.pending ∧
    (setStore t x s).engine.slots = s.engine.slots ∧ (setStore t x s).engine.lru = s.engine.lru ∧
    (setStore t x s).engine.fetch = s.engine.fetch ∧ (setStore t x s).engine.readWaits = s.engine.readWaits ∧
    (setStore t x s).engine.mgmt = s.engine.mgmt ∧
    (setStore t x s).engine.drainReq = s.engine.drainReq ∧ (setStore t x s).engine.dispReq = s.engine.dispReq ∧
    (setStore t x s).engine.dispWait = s.engine.dispWait ∧ (setStore t x s).engine.parked = s.engine.parked ∧
    (setStore t x s).engine.drainList = s.engine.drainList ∧ (setStore t x s).engine.mode = s.engine.mode ∧
    (setStore t x s).engine.store = s.engine.store.set t x :=
  ⟨rfl, rfl, rfl, rfl, rfl, rfl, rfl, rfl, rfl, rfl, rfl, rfl, rfl, rfl, rfl, rfl, rfl, rfl, rfl, rfl, rfl, rfl⟩

@[simp] theorem setDesc_frame (h : Handle) (d : Desc) (s : State) :
    (setDesc h d s).ingress = s.ingress ∧ (setDesc h d s).classifier = s.classifier ∧
    (setDesc h d s).engine = s.engine ∧ (setDesc h d s).assembler = s.assembler ∧
    (setDesc h d s).egress = s.egress ∧ (setDesc h d s).link = s.link ∧
    (setDesc h d s).agent = s.agent ∧ (setDesc h d s).notices = s.notices ∧
    (setDesc h d s).resetLow = s.resetLow ∧ (setDesc h d s).pending = s.pending ∧
    (setDesc h d s).pool.mem = s.pool.mem ∧ (setDesc h d s).pool.freePages = s.pool.freePages ∧
    (setDesc h d s).pool.freeDesc = s.pool.freeDesc ∧ (setDesc h d s).pool.drain = s.pool.drain ∧
    (setDesc h d s).pool.low = s.pool.low ∧ (setDesc h d s).pool.desc = s.pool.desc.set h d :=
  ⟨rfl, rfl, rfl, rfl, rfl, rfl, rfl, rfl, rfl, rfl, rfl, rfl, rfl, rfl, rfl, rfl⟩

@[simp] theorem setDescState_frame (h : Handle) (st : DescState) (s : State) :
    (setDescState h st s).ingress = s.ingress ∧ (setDescState h st s).classifier = s.classifier ∧
    (setDescState h st s).engine = s.engine ∧ (setDescState h st s).assembler = s.assembler ∧
    (setDescState h st s).egress = s.egress ∧ (setDescState h st s).link = s.link ∧
    (setDescState h st s).agent = s.agent ∧ (setDescState h st s).notices = s.notices ∧
    (setDescState h st s).resetLow = s.resetLow ∧ (setDescState h st s).pending = s.pending ∧
    (setDescState h st s).pool.mem = s.pool.mem ∧ (setDescState h st s).pool.freePages = s.pool.freePages ∧
    (setDescState h st s).pool.freeDesc = s.pool.freeDesc ∧ (setDescState h st s).pool.drain = s.pool.drain ∧
    (setDescState h st s).pool.low = s.pool.low ∧ (setDescState h st s).pool.desc = s.pool.desc.set h { s.pool.desc[h] with state := st } :=
  ⟨rfl, rfl, rfl, rfl, rfl, rfl, rfl, rfl, rfl, rfl, rfl, rfl, rfl, rfl, rfl, rfl⟩

@[simp] theorem setQueue_frame (c : EgressClass) (q : List Handle) (s : State) :
    (setQueue c q s).ingress = s.ingress ∧ (setQueue c q s).classifier = s.classifier ∧
    (setQueue c q s).engine = s.engine ∧ (setQueue c q s).assembler = s.assembler ∧
    (setQueue c q s).pool = s.pool ∧ (setQueue c q s).link = s.link ∧
    (setQueue c q s).agent = s.agent ∧ (setQueue c q s).notices = s.notices ∧
    (setQueue c q s).resetLow = s.resetLow ∧ (setQueue c q s).pending = s.pending ∧
    (setQueue c q s).egress.replies = s.egress.replies ∧ (setQueue c q s).egress.curClass = s.egress.curClass ∧
    (setQueue c q s).egress.budget = s.egress.budget ∧ (setQueue c q s).egress.queues = s.egress.queues.set c q :=
  ⟨rfl, rfl, rfl, rfl, rfl, rfl, rfl, rfl, rfl, rfl, rfl, rfl, rfl, rfl⟩

@[simp] theorem setDrain_frame (t : StreamId) (e : DrainEntry) (s : State) :
    (setDrain t e s).ingress = s.ingress ∧ (setDrain t e s).classifier = s.classifier ∧
    (setDrain t e s).engine = s.engine ∧ (setDrain t e s).assembler = s.assembler ∧
    (setDrain t e s).egress = s.egress ∧ (setDrain t e s).link = s.link ∧
    (setDrain t e s).agent = s.agent ∧ (setDrain t e s).notices = s.notices ∧
    (setDrain t e s).resetLow = s.resetLow ∧ (setDrain t e s).pending = s.pending ∧
    (setDrain t e s).pool.mem = s.pool.mem ∧ (setDrain t e s).pool.desc = s.pool.desc ∧
    (setDrain t e s).pool.freePages = s.pool.freePages ∧ (setDrain t e s).pool.freeDesc = s.pool.freeDesc ∧
    (setDrain t e s).pool.low = s.pool.low ∧ (setDrain t e s).pool.drain = s.pool.drain.set t e :=
  ⟨rfl, rfl, rfl, rfl, rfl, rfl, rfl, rfl, rfl, rfl, rfl, rfl, rfl, rfl, rfl, rfl⟩

@[simp] theorem count_frame (c : CounterName) (s : State) :
    (count c s).ingress = s.ingress ∧ (count c s).classifier = s.classifier ∧
    (count c s).engine = s.engine ∧ (count c s).assembler = s.assembler ∧
    (count c s).pool = s.pool ∧ (count c s).egress = s.egress ∧
    (count c s).link = s.link ∧ (count c s).notices = s.notices ∧
    (count c s).resetLow = s.resetLow ∧ (count c s).pending = s.pending ∧
    (count c s).agent.cmdq = s.agent.cmdq ∧ (count c s).agent.state = s.agent.state ∧
    (count c s).agent.cache = s.agent.cache ∧ (count c s).agent.limits = s.agent.limits ∧
    (count c s).agent.counters = s.agent.counters.inc c :=
  ⟨rfl, rfl, rfl, rfl, rfl, rfl, rfl, rfl, rfl, rfl, rfl, rfl, rfl, rfl, rfl⟩

@[simp] theorem judgeHold_frame  (s : State) :
    (judgeHold s).classifier = s.classifier ∧ (judgeHold s).engine = s.engine ∧
    (judgeHold s).assembler = s.assembler ∧ (judgeHold s).pool = s.pool ∧
    (judgeHold s).egress = s.egress ∧ (judgeHold s).link = s.link ∧
    (judgeHold s).agent = s.agent ∧ (judgeHold s).notices = s.notices ∧
    (judgeHold s).resetLow = s.resetLow ∧ (judgeHold s).pending = s.pending ∧
    (judgeHold s).ingress.port = s.ingress.port ∧ (judgeHold s).ingress.fifo = s.ingress.fifo ∧
    (judgeHold s).ingress.holdFlag = s.ingress.holdFlag ∧ (judgeHold s).ingress.rsp = s.ingress.rsp ∧
    (judgeHold s).ingress.hold = holdDue s :=
  ⟨rfl, rfl, rfl, rfl, rfl, rfl, rfl, rfl, rfl, rfl, rfl, rfl, rfl, rfl, rfl⟩

@[simp] theorem judgePoolLow_frame  (s : State) :
    (judgePoolLow s).classifier = s.classifier ∧ (judgePoolLow s).engine = s.engine ∧
    (judgePoolLow s).assembler = s.assembler ∧ (judgePoolLow s).egress = s.egress ∧
    (judgePoolLow s).link = s.link ∧ (judgePoolLow s).agent = s.agent ∧
    (judgePoolLow s).notices = s.notices ∧ (judgePoolLow s).resetLow = s.resetLow ∧
    (judgePoolLow s).pending = s.pending ∧ (judgePoolLow s).ingress.port = s.ingress.port ∧
    (judgePoolLow s).ingress.fifo = s.ingress.fifo ∧ (judgePoolLow s).ingress.holdFlag = s.ingress.holdFlag ∧
    (judgePoolLow s).ingress.rsp = s.ingress.rsp ∧ (judgePoolLow s).pool.mem = s.pool.mem ∧
    (judgePoolLow s).pool.desc = s.pool.desc ∧ (judgePoolLow s).pool.freePages = s.pool.freePages ∧
    (judgePoolLow s).pool.freeDesc = s.pool.freeDesc ∧ (judgePoolLow s).pool.drain = s.pool.drain ∧
    (judgePoolLow s).pool.low = decide (s.pool.freePages.length < s.agent.limits.reserve) :=
  ⟨rfl, rfl, rfl, rfl, rfl, rfl, rfl, rfl, rfl, rfl, rfl, rfl, rfl, rfl, rfl, rfl, rfl, rfl, rfl⟩

@[simp] theorem respond_frame (r : Option Response) (s : State) :
    (respond r s).classifier = s.classifier ∧ (respond r s).engine = s.engine ∧
    (respond r s).assembler = s.assembler ∧ (respond r s).pool = s.pool ∧
    (respond r s).egress = s.egress ∧ (respond r s).link = s.link ∧
    (respond r s).agent = s.agent ∧ (respond r s).notices = s.notices ∧
    (respond r s).resetLow = s.resetLow ∧ (respond r s).pending = s.pending ∧
    (respond r s).ingress.port = s.ingress.port ∧ (respond r s).ingress.fifo = s.ingress.fifo ∧
    (respond r s).ingress.holdFlag = s.ingress.holdFlag ∧ (respond r s).ingress.hold = s.ingress.hold ∧
    (respond r s).ingress.rsp = r :=
  ⟨rfl, rfl, rfl, rfl, rfl, rfl, rfl, rfl, rfl, rfl, rfl, rfl, rfl, rfl, rfl⟩

@[simp] theorem freeBlock_frame (h : Handle) (s : State) :
    (freeBlock h s).classifier = s.classifier ∧ (freeBlock h s).engine = s.engine ∧
    (freeBlock h s).assembler = s.assembler ∧ (freeBlock h s).egress = s.egress ∧
    (freeBlock h s).link = s.link ∧ (freeBlock h s).agent = s.agent ∧
    (freeBlock h s).notices = s.notices ∧ (freeBlock h s).resetLow = s.resetLow ∧
    (freeBlock h s).pending = s.pending ∧ (freeBlock h s).ingress.port = s.ingress.port ∧
    (freeBlock h s).ingress.fifo = s.ingress.fifo ∧ (freeBlock h s).ingress.holdFlag = s.ingress.holdFlag ∧
    (freeBlock h s).ingress.rsp = s.ingress.rsp ∧ (freeBlock h s).pool.mem = s.pool.mem ∧
    (freeBlock h s).pool.drain = s.pool.drain ∧ (freeBlock h s).pool.desc = s.pool.desc.set h .free ∧
    (freeBlock h s).pool.freePages = s.pool.freePages ++ s.pool.desc[h].pages ∧ (freeBlock h s).pool.freeDesc = s.pool.freeDesc ++ [h] :=
  ⟨rfl, rfl, rfl, rfl, rfl, rfl, rfl, rfl, rfl, rfl, rfl, rfl, rfl, rfl, rfl, rfl, rfl, rfl⟩

end Sys2Proof.Machine
end

