-- ==== Sys2Proof/Laws/Keeps.lean ====
section
/-!
SUPPORT. What every operation keeps of the invariants of Sys2Proof/Safety.lean.
-/
namespace Sys2Proof.Machine

open Sys2Proof

/-- What is left of `LinkAgrees` inside an event, until the port is judged again. -/
structure LinkWeak (s : State) : Prop where
  sending : s.link.inflight.isSome = true → s.link.port = .sending
  waiting : s.link.port = .waiting → s.link.credit = 0
  stalled : s.link.port = .stalled → s.link.credit = 0
  timer : s.link.timer.isSome = true → s.link.port = .waiting

/-- From `s` to `t` every invariant is kept but the agreement of port and engine and the states of the frame link port, of
which the weak form is kept. -/
structure KeepsCore (s t : State) : Prop where
  queue : t.pending = s.pending
  unit : t.classifier.unitAddr = s.classifier.unitAddr
  memory : MemoryCanonical s → MemoryCanonical t
  hold : HoldAgrees s → HoldAgrees t
  low : PoolLowAgrees s → PoolLowAgrees t
  frame : FrameAgrees s → FrameAgrees t
  bounds : WithinBounds s → WithinBounds t
  limits : LimitsLegal s → LimitsLegal t
  table : TableLegal s → TableLegal t
  configs : ConfigsLegal s → ConfigsLegal t
  ranks : RanksComplete s → RanksComplete t
  weak : LinkWeak s → LinkWeak t

/-- From `s` to `t` every invariant is kept. -/
structure KeepsAgree (s t : State) : Prop extends KeepsCore s t where
  fits : PortEngineAgree s → PortEngineAgree t
  link : LinkAgrees s → LinkAgrees t

/-- From `s` to `t` every invariant is kept, and the ingress port state and the engine mode stay. -/
structure Keeps (s t : State) : Prop extends KeepsCore s t where
  modes : t.ingress.port = s.ingress.port ∧ t.engine.mode = s.engine.mode
  link : LinkAgrees s → LinkAgrees t

theorem Keeps.fits {s t : State} (h : Keeps s t) (p : PortEngineAgree s) : PortEngineAgree t := by
  rw [PortEngineAgree, h.modes.1, h.modes.2]
  exact p

theorem Keeps.agree {s t : State} (h : Keeps s t) : KeepsAgree s t :=
  { toKeepsCore := h.toKeepsCore, fits := h.fits, link := h.link }

theorem KeepsCore.trans {s t u : State} (h : KeepsCore s t) (k : KeepsCore t u) : KeepsCore s u where
  queue := k.queue.trans h.queue
  unit := k.unit.trans h.unit
  memory := k.memory ∘ h.memory
  hold := k.hold ∘ h.hold
  low := k.low ∘ h.low
  frame := k.frame ∘ h.frame
  bounds := k.bounds ∘ h.bounds
  limits := k.limits ∘ h.limits
  table := k.table ∘ h.table
  configs := k.configs ∘ h.configs
  ranks := k.ranks ∘ h.ranks
  weak := k.weak ∘ h.weak

theorem Keeps.refl (s : State) : Keeps s s :=
  { queue := rfl, unit := rfl, memory := id, hold := id, low := id, frame := id, bounds := id, limits := id, table := id,
    configs := id, ranks := id, weak := id, modes := ⟨rfl, rfl⟩, link := id }

theorem Keeps.trans {s t u : State} (h : Keeps s t) (k : Keeps t u) : Keeps s u :=
  { toKeepsCore := h.toKeepsCore.trans k.toKeepsCore
    modes := ⟨k.modes.1.trans h.modes.1, k.modes.2.trans h.modes.2⟩
    link := k.link ∘ h.link }

theorem KeepsAgree.trans {s t u : State} (h : KeepsAgree s t) (k : KeepsAgree t u) : KeepsAgree s u :=
  { toKeepsCore := h.toKeepsCore.trans k.toKeepsCore, fits := k.fits ∘ h.fits, link := k.link ∘ h.link }

/-- The link invariants depend on the link, on what waits, and on nothing else. -/
theorem LinkAgrees.congr {s t : State} (hl : t.link = s.link) (hw : hasWaiting t = hasWaiting s) (h : LinkAgrees s) :
    LinkAgrees t := by
  obtain ⟨a, b, c, d, e⟩ := h
  constructor <;> simp only [hl, hw] <;> assumption

theorem LinkWeak.congr {s t : State} (hl : t.link = s.link) (h : LinkWeak s) : LinkWeak t := by
  obtain ⟨a, b, c, d⟩ := h
  constructor <;> simp only [hl] <;> assumption

theorem LinkAgrees.toWeak {s : State} (h : LinkAgrees s) : LinkWeak s :=
  ⟨h.sending.mpr, fun w => (h.waiting w).1, h.stalled, h.timer⟩

/-! ### Changes of one part -/

/-- A change of the context engine and of the assembler that keeps the mode. -/
theorem Keeps.ofEngine {s : State} (e : Engine) (a : List Assembly) (hm : e.mode = s.engine.mode)
    (hp : s.engine.parked.length ≤ Config.parkedDepth → e.parked.length ≤ Config.parkedDepth)
    (hc : ConfigsLegal s →
      (∀ t : StreamId, (e.store[t]).cfg.valid = true) ∧ ∀ i : SlotNo, (e.slots[i]).copy.cfg.valid = true)
    (hr : RanksComplete s → e.lru.Nodup ∧ ∀ i : SlotNo, i ∈ e.lru) :
    Keeps s { s with engine := e, assembler := a } where
  queue := rfl
  unit := rfl
  memory := id
  hold := id
  low := id
  frame := id
  bounds h := ⟨h.fifo, h.commands, hp h.parked, h.notices, h.lost, h.credit, h.replies, h.reserved⟩
  limits := id
  table := id
  configs h := ⟨(hc h).1, (hc h).2⟩
  ranks := hr
  weak h := ⟨h.sending, h.waiting, h.stalled, h.timer⟩
  modes := ⟨rfl, hm⟩
  link h := ⟨h.sending, h.idle, h.waiting, h.stalled, h.timer⟩

/-- A change of descriptors, drain registry and page bytes that keeps the free lists and the pool-low condition. -/
theorem Keeps.ofPool {s : State} (m : Memory) (d : Vector Desc 128) (r : Vector DrainEntry 256)
    (hm : MemoryCanonical s → m.wf = true) :
    Keeps s { s with pool.mem := m, pool.desc := d, pool.drain := r } where
  queue := rfl
  unit := rfl
  memory := hm
  hold := id
  low := id
  frame := id
  bounds h := ⟨h.fifo, h.commands, h.parked, h.notices, h.lost, h.credit, h.replies, h.reserved⟩
  limits := id
  table := id
  configs h := ⟨h.store, h.slots⟩
  ranks := id
  weak h := ⟨h.sending, h.waiting, h.stalled, h.timer⟩
  modes := ⟨rfl, rfl⟩
  link h := ⟨h.sending, h.idle, h.waiting, h.stalled, h.timer⟩

/-- A change of the free lists, with the pool-low condition judged again. -/
theorem judgePoolLow_keeps (s : State) (p : List Page) (d : List Handle) :
    Keeps s (judgePoolLow { s with pool.freePages := p, pool.freeDesc := d }) where
  queue := rfl
  unit := rfl
  memory := id
  hold _ := rfl
  low _ := rfl
  frame := id
  bounds h := ⟨h.fifo, h.commands, h.parked, h.notices, h.lost, h.credit, h.replies, h.reserved⟩
  limits := id
  table := id
  configs h := ⟨h.store, h.slots⟩
  ranks := id
  weak h := ⟨h.sending, h.waiting, h.stalled, h.timer⟩
  modes := ⟨rfl, rfl⟩
  link h := ⟨h.sending, h.idle, h.waiting, h.stalled, h.timer⟩

theorem count_keeps (c : CounterName) (s : State) : Keeps s (count c s) where
  queue := rfl
  unit := rfl
  memory := id
  hold := id
  low := id
  frame := id
  bounds h := ⟨h.fifo, h.commands, h.parked, h.notices, h.lost, h.credit, h.replies, h.reserved⟩
  limits := id
  table := id
  configs h := ⟨h.store, h.slots⟩
  ranks := id
  weak h := ⟨h.sending, h.waiting, h.stalled, h.timer⟩
  modes := ⟨rfl, rfl⟩
  link h := ⟨h.sending, h.idle, h.waiting, h.stalled, h.timer⟩

theorem respond_keeps (r : Option Response) (s : State) : Keeps s (respond r s) where
  queue := rfl
  unit := rfl
  memory := id
  hold := id
  low := id
  frame := id
  bounds h := ⟨h.fifo, h.commands, h.parked, h.notices, h.lost, h.credit, h.replies, h.reserved⟩
  limits := id
  table := id
  configs h := ⟨h.store, h.slots⟩
  ranks := id
  weak h := ⟨h.sending, h.waiting, h.stalled, h.timer⟩
  modes := ⟨rfl, rfl⟩
  link h := ⟨h.sending, h.idle, h.waiting, h.stalled, h.timer⟩

/-- A change of the ingress FIFO and its hold flag, with HOLD judged again. -/
theorem Keeps.ofFifo {s : State} (q : List StreamCell) (f : Bool)
    (hq : WithinBounds s → q.length ≤ Config.fifoDepth) :
    Keeps s (judgeHold { s with ingress.fifo := q, ingress.holdFlag := f }) where
  queue := rfl
  unit := rfl
  memory := id
  hold _ := rfl
  low := id
  frame := id
  bounds h := ⟨hq h, h.commands, h.parked, h.notices, h.lost, h.credit, h.replies, h.reserved⟩
  limits := id
  table := id
  configs h := ⟨h.store, h.slots⟩
  ranks := id
  weak h := ⟨h.sending, h.waiting, h.stalled, h.timer⟩
  modes := ⟨rfl, rfl⟩
  link h := ⟨h.sending, h.idle, h.waiting, h.stalled, h.timer⟩

theorem fifoRemoval_keeps (s : State) : Keeps s (fifoRemoval s) :=
  Keeps.ofFifo _ _ fun h => by
    have := h.fifo
    simp only [List.length_tail]
    omega

theorem fifoEntry_keeps (c : StreamCell) (s : State) (h : s.ingress.fifo.length < Config.fifoDepth) :
    Keeps s (fifoEntry c s) :=
  Keeps.ofFifo _ _ fun _ => by simp only [List.length_append, List.length_singleton]; omega

/-- A change of the agent's state and cache, and of the commands that wait, that starts no execution. -/
theorem Keeps.ofAgent {s : State} (st : AgentState) (q : List (List Byte)) (c : Option CacheEntry)
    (hq : s.agent.cmdq.length ≤ Config.commandDepth → q.length ≤ Config.commandDepth)
    (hs : st.executesRecord = true → WithinBounds s → replyOccupancy s < Config.replyDepth) :
    Keeps s { s with agent.state := st, agent.cmdq := q, agent.cache := c } where
  queue := rfl
  unit := rfl
  memory := id
  hold := id
  low := id
  frame := id
  bounds h := ⟨h.fifo, hq h.commands, h.parked, h.notices, h.lost, h.credit, h.replies, fun e => hs e h⟩
  limits := id
  table := id
  configs h := ⟨h.store, h.slots⟩
  ranks := id
  weak h := ⟨h.sending, h.waiting, h.stalled, h.timer⟩
  modes := ⟨rfl, rfl⟩
  link h := ⟨h.sending, h.idle, h.waiting, h.stalled, h.timer⟩

/-! ### Slots, records, descriptors -/

/-- A slot is written whose copy holds a legal configuration. -/
theorem setSlot_keeps (i : SlotNo) (x : Slot) (s : State) (hx : ConfigsLegal s → x.copy.cfg.valid = true) :
    Keeps s (setSlot i x s) :=
  Keeps.ofEngine { s.engine with slots := s.engine.slots.set i x } s.assembler rfl id
    (fun h => ⟨h.store, fun j => by
      by_cases hij : i = j
      · subst hij; simpa using hx h
      · have : i.val ≠ j.val := fun e => hij (Fin.ext e)
        simpa [Fin.getElem_fin, Vector.getElem_set_ne _ _ this] using h.slots j⟩)
    id

/-- A slot is written whose copy stays. -/
theorem setSlot_keeps_of_copy (i : SlotNo) (x : Slot) (s : State) (hx : x.copy = s.engine.slots[i].copy) :
    Keeps s (setSlot i x s) :=
  setSlot_keeps i x s fun h => by rw [hx]; exact h.slots i

/-- A copy is written whose configuration is legal. -/
theorem setCopy_keeps (i : SlotNo) (x : Ctx) (s : State) (hx : ConfigsLegal s → x.cfg.valid = true) :
    Keeps s (setCopy i x s) :=
  setSlot_keeps i _ s hx

theorem setStore_keeps (t : StreamId) (x : Ctx) (s : State) (hx : ConfigsLegal s → x.cfg.valid = true) :
    Keeps s (setStore t x s) :=
  Keeps.ofEngine { s.engine with store := s.engine.store.set t x } s.assembler rfl id
    (fun h => ⟨fun j => by
      by_cases hij : t = j
      · subst hij; simpa using hx h
      · have : t.val ≠ j.val := fun e => hij (Fin.ext e)
        simpa [Fin.getElem_fin, Vector.getElem_set_ne _ _ this] using h.store j, h.slots⟩)
    id

/-- A slot is written last, whose copy holds a configuration that was legal at the start. -/
theorem Keeps.thenSlot {s u : State} (k : Keeps s u) (i : SlotNo) (x : Slot) (hx : ConfigsLegal s → x.copy.cfg.valid = true) :
    Keeps s (setSlot i x u) where
  queue := k.queue
  unit := k.unit
  memory := k.memory
  hold := k.hold
  low := k.low
  frame := k.frame
  limits := k.limits
  table := k.table
  ranks := k.ranks
  modes := k.modes
  bounds b := ⟨(k.bounds b).fifo, (k.bounds b).commands, (k.bounds b).parked, (k.bounds b).notices, (k.bounds b).lost,
    (k.bounds b).credit, (k.bounds b).replies, (k.bounds b).reserved⟩
  configs c := (setSlot_keeps i x u fun _ => hx c).configs (k.configs c)
  weak w := ⟨(k.weak w).sending, (k.weak w).waiting, (k.weak w).stalled, (k.weak w).timer⟩
  link l := ⟨(k.link l).sending, (k.link l).idle, (k.link l).waiting, (k.link l).stalled, (k.link l).timer⟩

/-- The same for a record of the store that is written last. -/
theorem Keeps.thenStore {s u : State} (k : Keeps s u) (t : StreamId) (x : Ctx) (hx : ConfigsLegal s → x.cfg.valid = true) :
    Keeps s (setStore t x u) where
  queue := k.queue
  unit := k.unit
  memory := k.memory
  hold := k.hold
  low := k.low
  frame := k.frame
  limits := k.limits
  table := k.table
  ranks := k.ranks
  modes := k.modes
  bounds b := ⟨(k.bounds b).fifo, (k.bounds b).commands, (k.bounds b).parked, (k.bounds b).notices, (k.bounds b).lost,
    (k.bounds b).credit, (k.bounds b).replies, (k.bounds b).reserved⟩
  configs c := (setStore_keeps t x u fun _ => hx c).configs (k.configs c)
  weak w := ⟨(k.weak w).sending, (k.weak w).waiting, (k.weak w).stalled, (k.weak w).timer⟩
  link l := ⟨(k.link l).sending, (k.link l).idle, (k.link l).waiting, (k.link l).stalled, (k.link l).timer⟩

theorem setDesc_keeps (h : Handle) (d : Desc) (s : State) : Keeps s (setDesc h d s) :=
  Keeps.ofPool s.pool.mem (s.pool.desc.set h d) s.pool.drain id

theorem setDescState_keeps (h : Handle) (st : DescState) (s : State) : Keeps s (setDescState h st s) :=
  setDesc_keeps h _ s

theorem setDrain_keeps (t : StreamId) (e : DrainEntry) (s : State) : Keeps s (setDrain t e s) :=
  Keeps.ofPool s.pool.mem s.pool.desc (s.pool.drain.set t e) id

end Sys2Proof.Machine
end

