-- ==== Sys2Proof/Laws/Egress.lean ====
section
/-!
SUPPORT. The selection, the judgement of the frame link port, notice requests and replies: what each can do (R129–R137,
R154, R174).
-/
namespace Sys2Proof.Machine

open Sys2Proof

/-! ### The round-robin -/

/-- The search order of the round-robin covers every class. -/
theorem mem_searchOrder : ∀ c d : EgressClass, d ∈ [classAfter c 1, classAfter c 2, classAfter c 3, c] := by decide

/-- The round-robin chooses a class that holds a block. -/
theorem chooseClass_nonempty {e : Egress} {l : Limits} {c : EgressClass} {b : Nat}
    (h : chooseClass e l = some (c, b)) : e.queues[c] ≠ [] := by
  unfold chooseClass at h
  split at h
  · next hc =>
    simp only [Option.some.injEq, Prod.mk.injEq] at h
    obtain ⟨rfl, -⟩ := h
    simp only [Bool.and_eq_true] at hc
    intro hn
    simp [hn] at hc
  · rw [Option.map_eq_some_iff] at h
    obtain ⟨d, hd, he⟩ := h
    simp only [Prod.mk.injEq] at he
    obtain ⟨rfl, -⟩ := he
    have := List.find?_some hd
    intro hn
    simp [hn] at this

/-- Some class queue holds a block exactly when one of the four does. -/
theorem hasBlocks_iff (e : Egress) : hasBlocks e = true ↔ ∃ c : EgressClass, e.queues[c] ≠ [] := by
  constructor
  · intro h
    unfold hasBlocks at h
    rw [List.any_eq_true] at h
    obtain ⟨q, hq, hne⟩ := h
    rw [Vector.mem_toList_iff, Vector.mem_iff_getElem] at hq
    obtain ⟨i, hi, rfl⟩ := hq
    refine ⟨⟨i, hi⟩, ?_⟩
    intro hn
    rw [Fin.getElem_fin] at hn
    simp [hn] at hne
  · rintro ⟨c, hc⟩
    unfold hasBlocks
    rw [List.any_eq_true]
    refine ⟨e.queues[c], ?_, ?_⟩
    · rw [Vector.mem_toList_iff, Fin.getElem_fin]
      exact Vector.getElem_mem _
    · cases hq : e.queues[c] with
      | nil => exact absurd hq hc
      | cons _ _ => rfl

/-- While some class queue holds a block, the round-robin finds one (R130). -/
theorem chooseClass_finds {e : Egress} (l : Limits) (h : hasBlocks e = true) :
    ∃ c b x xs, chooseClass e l = some (c, b) ∧ e.queues[c] = x :: xs := by
  have key : ∃ p, chooseClass e l = some p := by
    unfold chooseClass
    split
    · exact ⟨_, rfl⟩
    · obtain ⟨c, hc⟩ := (hasBlocks_iff e).mp h
      cases hf : [classAfter e.curClass 1, classAfter e.curClass 2, classAfter e.curClass 3, e.curClass].find?
          (fun c => !e.queues[c].isEmpty) with
      | some d => exact ⟨_, rfl⟩
      | none =>
        rw [List.find?_eq_none] at hf
        have := hf c (mem_searchOrder e.curClass c)
        cases hq : e.queues[c] with
        | nil => exact absurd hq hc
        | cons _ _ => simp [hq] at this
  obtain ⟨⟨c, b⟩, hp⟩ := key
  cases hq : e.queues[c] with
  | nil => exact absurd hq (chooseClass_nonempty hp)
  | cons x xs => exact ⟨c, b, x, xs, hp, hq⟩

/-! ### The take for sending -/

/-- What a take for sending leaves, and what it can change: the link, the egress queues, the notices, and the descriptor that
becomes SENDING. -/
theorem takeForSending_frame (s : State) :
    (takeForSending s).ingress = s.ingress ∧ (takeForSending s).classifier = s.classifier ∧
    (takeForSending s).engine = s.engine ∧ (takeForSending s).assembler = s.assembler ∧
    (takeForSending s).agent = s.agent ∧ (takeForSending s).resetLow = s.resetLow ∧
    (takeForSending s).pending = s.pending ∧ (takeForSending s).pool.mem = s.pool.mem ∧
    (takeForSending s).pool.freePages = s.pool.freePages ∧ (takeForSending s).pool.freeDesc = s.pool.freeDesc ∧
    (takeForSending s).pool.drain = s.pool.drain ∧ (takeForSending s).pool.low = s.pool.low ∧
    (takeForSending s).notices.mask = s.notices.mask ∧ (takeForSending s).notices.lost ≤ s.notices.lost := by
  unfold takeForSending
  split
  · simp [startFrame]
  · split
    · unfold takeNotice
      split <;> simp [startFrame]
    · unfold takeBlock
      split
      · simp
      · split <;> simp [startFrame]

/-- When something waits, a take leaves one item in flight, SENDING with one credit less and the timer stopped, and it is the
oldest reply, otherwise the oldest notice, otherwise a block (R129, R137). -/
theorem takeForSending_link {s : State} (h : hasWaiting s = true) :
    ∃ item, (takeForSending s).link.inflight = some item ∧ (takeForSending s).link.port = .sending ∧
      (takeForSending s).link.credit = s.link.credit - 1 ∧ (takeForSending s).link.timer = none := by
  unfold takeForSending
  split
  · exact ⟨_, rfl, rfl, rfl, rfl⟩
  · next hr =>
    split
    · unfold takeNotice
      split <;> exact ⟨_, rfl, rfl, rfl, rfl⟩
    · next hn =>
      have hb : hasBlocks s.egress = true := by simpa [hasWaiting, hr, hn] using h
      obtain ⟨c, b, x, xs, hc, hq⟩ := chooseClass_finds s.agent.limits hb
      unfold takeBlock
      simp only [hc, hq]
      exact ⟨_, rfl, rfl, rfl, rfl⟩

/-- A take with nothing in flight moves a record from its queue into flight: the places taken stay. -/
theorem takeForSending_places {s : State} (h : s.link.inflight = none) :
    noticePlaces (takeForSending s) = noticePlaces s ∧ replyOccupancy (takeForSending s) = replyOccupancy s := by
  unfold takeForSending
  split
  · next hr => simp [startFrame, noticePlaces, replyOccupancy, h, hr]
  · next hr =>
    split
    · next hn =>
      unfold takeNotice
      split <;> simp [startFrame, noticePlaces, replyOccupancy, h, hr, hn]
    · next hn =>
      unfold takeBlock
      split
      · simp
      · split
        · simp
        · simp [startFrame, noticePlaces, replyOccupancy, h, hr, hn]

theorem takeForSending_credit (s : State) : (takeForSending s).link.credit ≤ s.link.credit := by
  unfold takeForSending
  split
  · simp [startFrame]
  · split
    · unfold takeNotice
      split <;> simp [startFrame]
    · unfold takeBlock
      split
      · simp
      · split <;> simp [startFrame]

/-- With nothing in flight before it, a take either leaves the link as it was or puts an item in flight. -/
theorem takeForSending_frameAgrees {s : State} (h : FrameAgrees s) : FrameAgrees (takeForSending s) := by
  unfold takeForSending
  split
  · intro hn; simp [startFrame] at hn
  · split
    · unfold takeNotice
      split <;> (intro hn; simp [startFrame] at hn)
    · unfold takeBlock
      split
      · exact h
      · split
        · exact h
        · intro hn; simp [startFrame] at hn

/-! ### The judgement of the port -/

theorem judgePort_frame (s : State) :
    (judgePort s).ingress = s.ingress ∧ (judgePort s).classifier = s.classifier ∧
    (judgePort s).engine = s.engine ∧ (judgePort s).assembler = s.assembler ∧
    (judgePort s).agent = s.agent ∧ (judgePort s).resetLow = s.resetLow ∧
    (judgePort s).pending = s.pending ∧ (judgePort s).pool.mem = s.pool.mem ∧
    (judgePort s).pool.freePages = s.pool.freePages ∧ (judgePort s).pool.freeDesc = s.pool.freeDesc ∧
    (judgePort s).pool.drain = s.pool.drain ∧ (judgePort s).pool.low = s.pool.low ∧
    (judgePort s).notices.mask = s.notices.mask ∧ (judgePort s).notices.lost ≤ s.notices.lost := by
  unfold judgePort
  split
  · simp
  · split
    · simp
    all_goals
      split
      · split
        · exact takeForSending_frame s
        · first
          | split <;> simp
          | simp
      · simp

/-- With an item in flight the judgement of the port changes nothing. -/
theorem judgePort_of_inflight {s : State} (h : s.link.inflight.isSome = true) : judgePort s = s := by
  unfold judgePort
  split
  · rfl
  · next hn => simp [hn] at h

/-- While STALLED the judgement of the port changes nothing. -/
theorem judgePort_of_stalled {s : State} (h : s.link.port = .stalled) : judgePort s = s := by
  unfold judgePort
  split
  · rfl
  · simp [h]

/-- The judgement of the port leaves it in the state that Table 7-2 gives (R129, R133, R134). -/
theorem judgePort_agrees {s : State} (h : LinkWeak s) : LinkAgrees (judgePort s) := by
  obtain ⟨hs, hw, hst, ht⟩ := h
  have ofTake : hasWaiting s = true → LinkAgrees (takeForSending s) := fun hx => by
    obtain ⟨item, h1, h2, -, h4⟩ := takeForSending_link hx
    constructor <;> simp [h1, h2, h4]
  unfold judgePort
  split
  · next i hi =>
    have hp := hs (by simp [hi])
    constructor <;> simp_all
  · next hi =>
    split
    · next hp => constructor <;> simp_all
    all_goals
      next hp =>
      split
      · next hx =>
        split
        · exact ofTake hx
        · next hc =>
          have hc0 : s.link.credit = 0 := by omega
          first
          | split <;> constructor <;> simp_all [hasWaiting]
          | constructor <;> simp_all
      · next hx => constructor <;> simp_all [hasWaiting]

theorem judgePort_places (s : State) :
    noticePlaces (judgePort s) = noticePlaces s ∧ replyOccupancy (judgePort s) = replyOccupancy s := by
  unfold judgePort
  split
  · exact ⟨rfl, rfl⟩
  · next hi =>
    split
    · exact ⟨rfl, rfl⟩
    all_goals
      split
      · split
        · exact takeForSending_places hi
        · first
          | split <;> exact ⟨rfl, rfl⟩
          | exact ⟨rfl, rfl⟩
      · exact ⟨rfl, rfl⟩

theorem judgePort_credit (s : State) : (judgePort s).link.credit ≤ s.link.credit := by
  unfold judgePort
  split
  · exact Nat.le_refl _
  · split
    · exact Nat.le_refl _
    all_goals
      split
      · split
        · exact takeForSending_credit s
        · first
          | split <;> exact Nat.le_refl _
          | exact Nat.le_refl _
      · exact Nat.le_refl _

theorem judgePort_frameAgrees {s : State} (h : FrameAgrees s) : FrameAgrees (judgePort s) := by
  unfold judgePort
  split
  · exact h
  · split
    · exact h
    all_goals
      split
      · split
        · exact takeForSending_frameAgrees h
        · first
          | split <;> exact h
          | exact h
      · exact h

/-- The judgement of the port keeps every invariant, from a state whose link holds the weak form alone. -/
theorem judgePort_core (s : State) : KeepsCore s (judgePort s) := by
  obtain ⟨f1, f2, f3, f4, f5, f6, f7, f8, f9, -, -, f12, -, f14⟩ := judgePort_frame s
  obtain ⟨p1, p2⟩ := judgePort_places s
  exact {
    queue := f7
    unit := by rw [f2]
    memory := fun h => by simpa [MemoryCanonical, f8] using h
    hold := fun h => by simpa [HoldAgrees, holdDue, f1, f6, f12] using h
    low := fun h => by simpa [PoolLowAgrees, f9, f12, f5] using h
    frame := judgePort_frameAgrees
    bounds := fun h => ⟨by rw [f1]; exact h.fifo, by rw [f5]; exact h.commands, by rw [f3]; exact h.parked,
      by rw [p1]; exact h.notices, Nat.le_trans f14 h.lost, Nat.le_trans (judgePort_credit s) h.credit,
      by rw [p2]; exact h.replies, by rw [p2, f5]; exact h.reserved⟩
    limits := fun h => by simpa [LimitsLegal, f5] using h
    table := fun h => by simpa [TableLegal, f2] using h
    configs := fun h => ⟨by rw [f3]; exact h.store, by rw [f3]; exact h.slots⟩
    ranks := fun h => by simpa [RanksComplete, f3] using h
    weak := fun h => (judgePort_agrees h).toWeak }

theorem judgePort_modes (s : State) :
    (judgePort s).ingress.port = s.ingress.port ∧ (judgePort s).engine.mode = s.engine.mode := by
  obtain ⟨f1, -, f3, -⟩ := judgePort_frame s
  exact ⟨by rw [f1], by rw [f3]⟩

theorem judgePort_keeps (s : State) : Keeps s (judgePort s) :=
  { toKeepsCore := judgePort_core s, modes := judgePort_modes s, link := fun h => judgePort_agrees h.toWeak }

/-- After a change of queues, replies and notices that respects their bounds, the port judged again keeps every invariant. -/
theorem Keeps.ofWaiting {s : State} (e : Egress) (n : NoticeUnit)
    (hn : WithinBounds s →
      noticePlaces { s with egress := e, notices := n } ≤ Config.noticeDepth ∧ n.lost ≤ Config.noticeCountMax)
    (hr : WithinBounds s → replyOccupancy { s with egress := e, notices := n } ≤ Config.replyDepth ∧
      (s.agent.state.executesRecord = true → replyOccupancy { s with egress := e, notices := n } < Config.replyDepth)) :
    Keeps s (judgePort { s with egress := e, notices := n }) := by
  have core : KeepsCore s { s with egress := e, notices := n } := {
    queue := rfl, unit := rfl, memory := id, hold := id, low := id, frame := id, limits := id, table := id, ranks := id
    configs := fun h => ⟨h.store, h.slots⟩
    bounds := fun h => ⟨h.fifo, h.commands, h.parked, (hn h).1, (hn h).2, h.credit, (hr h).1, (hr h).2⟩
    weak := fun h => ⟨h.sending, h.waiting, h.stalled, h.timer⟩ }
  exact { toKeepsCore := core.trans (judgePort_core _)
          modes := judgePort_modes _
          link := fun h => judgePort_agrees (core.weak h.toWeak) }

/-! ### Notices -/

/-- Coalescing raises one repeat count: the queue keeps its length. -/
theorem coalesce_length {k : NoticeKind} {t : Option StreamId} {q r : List Notice} (h : coalesce k t q = some r) :
    r.length = q.length := by
  induction q generalizing r with
  | nil => cases h
  | cons n ns ih =>
    unfold coalesce at h
    split at h
    · cases h; rfl
    · rw [Option.map_eq_some_iff] at h
      obtain ⟨r', hr, rfl⟩ := h
      simp [ih hr]

/-- A notice request keeps every invariant (R174–R178). -/
theorem requestNotice_keeps (k : NoticeKind) (t : Option StreamId) (s : State) : Keeps s (requestNotice k t s) := by
  unfold requestNotice
  split
  · split
    · next q hq =>
      have hl := coalesce_length hq
      have hw : hasWaiting { s with notices.queue := q } = hasWaiting s := by
        have : q.isEmpty = s.notices.queue.isEmpty := by
          cases q <;> cases hc : s.notices.queue <;> simp_all
        simp [hasWaiting, this]
      exact {
        queue := rfl, unit := rfl, memory := id, hold := id, low := id, frame := id, limits := id, table := id, ranks := id
        configs := fun h => ⟨h.store, h.slots⟩
        bounds := fun h => ⟨h.fifo, h.commands, h.parked, by
          have := h.notices
          simpa [noticePlaces, hl] using this, h.lost, h.credit, h.replies, h.reserved⟩
        weak := fun h => ⟨h.sending, h.waiting, h.stalled, h.timer⟩
        modes := ⟨rfl, rfl⟩
        link := LinkAgrees.congr (s := s) rfl hw }
    · split
      · next hp =>
        refine Keeps.ofWaiting s.egress { s.notices with queue := s.notices.queue ++ [⟨k, t, 1, none⟩] } (fun h => ⟨?_, h.lost⟩)
          (fun h => ⟨h.replies, h.reserved⟩)
        simp only [noticePlaces, List.length_append, List.length_singleton] at hp ⊢
        omega
      · refine Keeps.trans ?_ (count_keeps .noticesLost _)
        exact {
          queue := rfl, unit := rfl, memory := id, hold := id, low := id, frame := id, limits := id, table := id, ranks := id
          configs := fun h => ⟨h.store, h.slots⟩
          bounds := fun h => ⟨h.fifo, h.commands, h.parked, h.notices, Nat.min_le_left _ _, h.credit,
            h.replies, h.reserved⟩
          weak := fun h => ⟨h.sending, h.waiting, h.stalled, h.timer⟩
          modes := ⟨rfl, rfl⟩
          link := fun h => ⟨h.sending, h.idle, h.waiting, h.stalled, h.timer⟩ }
  · exact Keeps.refl s

/-- A notice request leaves everything but the notices, the counters, and what a selection may take (R174). -/
theorem requestNotice_frame (k : NoticeKind) (t : Option StreamId) (s : State) :
    (requestNotice k t s).ingress = s.ingress ∧ (requestNotice k t s).classifier = s.classifier ∧
    (requestNotice k t s).engine = s.engine ∧ (requestNotice k t s).assembler = s.assembler ∧
    (requestNotice k t s).agent.state = s.agent.state ∧ (requestNotice k t s).agent.cmdq = s.agent.cmdq ∧
    (requestNotice k t s).agent.cache = s.agent.cache ∧ (requestNotice k t s).agent.limits = s.agent.limits ∧
    (requestNotice k t s).resetLow = s.resetLow ∧ (requestNotice k t s).pending = s.pending ∧
    (requestNotice k t s).pool.mem = s.pool.mem ∧ (requestNotice k t s).pool.freePages = s.pool.freePages ∧
    (requestNotice k t s).pool.freeDesc = s.pool.freeDesc ∧ (requestNotice k t s).pool.drain = s.pool.drain ∧
    (requestNotice k t s).pool.low = s.pool.low ∧ (requestNotice k t s).notices.mask = s.notices.mask := by
  unfold requestNotice
  split
  · split
    · simp
    · split
      · obtain ⟨a, b, c, d, e, f, g, h, i, j, k, l, m, -⟩ :=
          judgePort_frame { s with notices.queue := s.notices.queue ++ [⟨k, t, 1, none⟩] }
        simp [a, b, c, d, e, f, g, h, i, j, k, l, m]
      · simp
  · simp

/-! ### Replies -/

/-- A reply is appended last, with a place free, in the event in which the agent's state and cache are written and no
execution goes on (R152, R154). -/
theorem Keeps.thenReply {s u : State} (k : Keeps s u) (r : Reply) (st : AgentState) (c : Option CacheEntry)
    (h : WithinBounds s → replyOccupancy u < Config.replyDepth) (hs : st.executesRecord = false) :
    Keeps s (appendReply r { u with agent.state := st, agent.cache := c }) := by
  have core : KeepsCore s { u with agent.state := st, agent.cache := c, egress.replies := u.egress.replies ++ [r] } := {
    queue := k.queue, unit := k.unit, memory := k.memory, hold := k.hold, low := k.low, frame := k.frame
    limits := k.limits, table := k.table, ranks := k.ranks
    configs := fun h => ⟨(k.configs h).store, (k.configs h).slots⟩
    bounds := fun b => ⟨(k.bounds b).fifo, (k.bounds b).commands, (k.bounds b).parked, (k.bounds b).notices,
      (k.bounds b).lost, (k.bounds b).credit, by
        have := h b
        simp only [replyOccupancy, List.length_append, List.length_singleton] at this ⊢
        omega, fun e => by rw [hs] at e; cases e⟩
    weak := fun w => ⟨(k.weak w).sending, (k.weak w).waiting, (k.weak w).stalled, (k.weak w).timer⟩ }
  exact { toKeepsCore := core.trans (judgePort_core _)
          modes := ⟨(judgePort_modes _).1.trans k.modes.1, (judgePort_modes _).2.trans k.modes.2⟩
          link := fun l => judgePort_agrees (core.weak l.toWeak) }

end Sys2Proof.Machine
end

