-- ==== Sys2Proof/Laws/Engagement.lean ====
section
/-!
SUPPORT. The operations of the context engine keep the invariants (R71–R91).
-/
namespace Sys2Proof.Machine

open Sys2Proof

/-- Moving a slot to the most recently used rank keeps one rank for each slot (R73). -/
theorem touch_complete {i : SlotNo} {l : List SlotNo} (h : l.Nodup ∧ ∀ j : SlotNo, j ∈ l) :
    (touch i l).Nodup ∧ ∀ j : SlotNo, j ∈ touch i l := by
  obtain ⟨hn, hm⟩ := h
  unfold touch
  constructor
  · rw [List.nodup_append]
    refine ⟨hn.erase i, by simp, ?_⟩
    intro a ha b hb
    rw [List.mem_singleton] at hb
    subst hb
    exact fun e => (hn.mem_erase_iff.mp ha).1 e
  · intro j
    by_cases hj : j = i
    · simp [hj]
    · rw [List.mem_append]
      exact Or.inl (hn.mem_erase_iff.mpr ⟨hj, hm j⟩)

/-- Requests, waits, fetch and drain list change freely. -/
theorem Keeps.ofRequests {s : State} (f : Option Fetch) (m d : EngReq) (r : Option StreamId) (w : Option SlotNo)
    (l : List StreamId) :
    Keeps s { s with engine.fetch := f, engine.mgmt := m, engine.drainReq := d, engine.dispReq := r,
                     engine.dispWait := w, engine.drainList := l } :=
  Keeps.ofEngine { s.engine with fetch := f, mgmt := m, drainReq := d, dispReq := r, dispWait := w, drainList := l }
    s.assembler rfl id (fun h => ⟨h.store, h.slots⟩) id

/-- Cells move between the parked-cell list and the assembler within the bound of the list. -/
theorem Keeps.ofCells {s : State} (p : List StreamCell) (a : List Assembly)
    (hp : s.engine.parked.length ≤ Config.parkedDepth → p.length ≤ Config.parkedDepth) :
    Keeps s { s with engine.parked := p, assembler := a } :=
  Keeps.ofEngine { s.engine with parked := p } a rfl hp (fun h => ⟨h.store, h.slots⟩) id

theorem touch_keeps (i : SlotNo) (s : State) : Keeps s { s with engine.lru := touch i s.engine.lru } :=
  Keeps.ofEngine { s.engine with lru := touch i s.engine.lru } s.assembler rfl id (fun h => ⟨h.store, h.slots⟩)
    touch_complete

theorem setReq_keeps (p : Party) (r : EngReq) (s : State) : Keeps s (setReq p r s) := by
  cases p
  · exact Keeps.ofRequests s.engine.fetch r s.engine.drainReq s.engine.dispReq s.engine.dispWait s.engine.drainList
  · exact Keeps.ofRequests s.engine.fetch s.engine.mgmt r s.engine.dispReq s.engine.dispWait s.engine.drainList
  · exact Keeps.refl s

theorem takeMark_keeps (i : SlotNo) (s : State) : Keeps s (takeMark i s) :=
  (touch_keeps i s).trans (setSlot_keeps_of_copy i _ _ rfl)

theorem beginFetch_keeps (p : Party) (t : StreamId) (i : SlotNo) (s : State) : Keeps s (beginFetch p t i s) := by
  refine (Keeps.ofRequests (some ⟨p, t, i⟩) s.engine.mgmt s.engine.drainReq s.engine.dispReq s.engine.dispWait
    s.engine.drainList).trans (setSlot_keeps_of_copy i _ _ ?_)
  simp only
  split <;> rfl

theorem judgeTake_keeps (p : Party) (s : State) : Keeps s (judgeTake p s) := by
  unfold judgeTake
  split
  · split
    · split
      · exact Keeps.refl s
      · exact (takeMark_keeps _ s).trans (setReq_keeps p _ _)
    · exact Keeps.refl s
  all_goals exact Keeps.refl s

theorem judgeLodge_keeps (p : Party) (s : State) : Keeps s (judgeLodge p s) := by
  unfold judgeLodge
  split
  · split
    · exact Keeps.refl s
    · exact setReq_keeps p _ s
  all_goals exact Keeps.refl s

theorem startRequest_keeps (p : Party) (s : State) : Keeps s (startRequest p s) := by
  unfold startRequest
  split
  · split
    · exact (setReq_keeps p _ s).trans (judgeTake_keeps p _)
    · split
      · exact (beginFetch_keeps p _ _ s).trans (setReq_keeps p _ _)
      · exact Keeps.refl s
  · exact Keeps.refl s

theorem parkHead_keeps (c : StreamCell) (s : State) (h : s.engine.parked.length < Config.parkedDepth) :
    Keeps s (parkHead c s) :=
  (Keeps.ofCells (s.engine.parked ++ [c]) s.assembler fun _ => by
    simp only [List.length_append, List.length_singleton]; omega).trans (fifoRemoval_keeps _)

theorem dispWait_keeps (w : Option SlotNo) (s : State) : Keeps s { s with engine.dispWait := w } :=
  Keeps.ofRequests s.engine.fetch s.engine.mgmt s.engine.drainReq s.engine.dispReq w s.engine.drainList

theorem dropWait_keeps (s : State) : Keeps s (dropWait s) := dispWait_keeps none s

/-- The FIFO head goes to the assembler on a slot. -/
theorem takeHead_keeps (c : StreamCell) (i : SlotNo) (s : State) : Keeps s (takeHead c i s) :=
  (((dropWait_keeps s).trans (Keeps.ofCells s.engine.parked [⟨c, i, none⟩] id)).trans (fifoRemoval_keeps _)).trans
    (takeMark_keeps i _)

theorem dispReq_keeps (r : Option StreamId) (s : State) : Keeps s { s with engine.dispReq := r } :=
  Keeps.ofRequests s.engine.fetch s.engine.mgmt s.engine.drainReq r s.engine.dispWait s.engine.drainList

theorem sendHead_keeps (c : StreamCell) (i : SlotNo) (s : State) : Keeps s (sendHead c i s) := by
  unfold sendHead
  split
  · exact dispWait_keeps _ s
  · split
    · exact takeHead_keeps c i s
    · split
      · exact Keeps.refl s
      · exact dropWait_keeps s

theorem dispatchHead_keeps (s : State) : Keeps s (dispatchHead s) := by
  unfold dispatchHead
  split
  · split
    · split
      · split
        · next h => exact (dropWait_keeps s).trans (parkHead_keeps _ _ h)
        · exact dropWait_keeps s
      · split
        · exact sendHead_keeps _ _ _
        · exact dropWait_keeps s
    · split
      · next hp =>
        split
        · exact sendHead_keeps _ _ _
        · refine (dropWait_keeps s).trans ?_
          simp only
          split
          · split
            · refine (beginFetch_keeps .dispatcher _ _ _).trans (parkHead_keeps _ _ ?_)
              have : s.engine.parked = [] := by simpa using hp
              simp [beginFetch, dropWait, this, Config.parkedDepth]
            · exact Keeps.refl _
          · split
            · exact dispReq_keeps _ _
            · exact Keeps.refl _
      · exact Keeps.refl _
  · exact Keeps.refl _

theorem startDispatcher_keeps (s : State) : Keeps s (startDispatcher s) := by
  unfold startDispatcher
  split
  · exact (dispReq_keeps none s).trans (dispatchHead_keeps _)
  · exact Keeps.refl s

theorem startNext_keeps (s : State) : Keeps s (startNext s) := by
  unfold startNext
  split
  · exact ((startRequest_keeps .management s).trans (startRequest_keeps .drain _)).trans (startDispatcher_keeps _)
  all_goals exact Keeps.refl s

theorem askEngage_keeps (p : Party) (t : StreamId) (s : State) : Keeps s (askEngage p t s) := by
  refine (setReq_keeps p (.asked t) s).trans ?_
  unfold askEngage
  simp only
  split
  · exact ((judgeTake_keeps p _).trans (judgeLodge_keeps p _)).trans (startNext_keeps _)
  all_goals exact Keeps.refl _

theorem serveDrain_keeps (s : State) : Keeps s (serveDrain s) := by
  unfold serveDrain
  split
  · exact askEngage_keeps _ _ _
  · exact Keeps.refl s

theorem drainList_keeps (l : List StreamId) (s : State) : Keeps s { s with engine.drainList := l } :=
  Keeps.ofRequests s.engine.fetch s.engine.mgmt s.engine.drainReq s.engine.dispReq s.engine.dispWait l

theorem raiseDrain_keeps (t : StreamId) (s : State) : Keeps s (raiseDrain t s) := by
  unfold raiseDrain
  split
  · exact Keeps.refl s
  · exact (drainList_keeps _ s).trans (serveDrain_keeps _)

/-! ### Hand-on -/

theorem handTo_keeps {p : Party} {i : SlotNo} {t : StreamId} {s u : State} (h : handTo p i t s = some u) : Keeps s u := by
  unfold handTo at h
  split at h
  · split at h
    · cases h
      exact (takeMark_keeps i s).trans (setReq_keeps p _ _)
    · cases h
  all_goals cases h

theorem handToParked_keeps (i : SlotNo) (s : State) : Keeps s (handToParked i s) := by
  unfold handToParked
  split
  · exact Keeps.refl s
  · next c rest hp =>
    split
    · refine (Keeps.ofCells rest [⟨c, i, none⟩] fun h => ?_).trans (takeMark_keeps i _)
      simp only [hp, List.length_cons] at h
      omega
    · exact Keeps.refl s

theorem handToHead_keeps (i : SlotNo) (t : StreamId) (s : State) : Keeps s (handToHead i t s) := by
  unfold handToHead
  split
  · split
    · exact takeHead_keeps _ i s
    · exact Keeps.refl s
  · exact Keeps.refl s

/-- With no wait on a slot, or with the awaited slot in use, the free assembler serves nobody. -/
theorem serveHead_rests (s : State) (h : ∀ i, s.engine.dispWait = some i → s.engine.slots[i].inUse = true) :
    serveHead s = s := by
  unfold serveHead
  split
  · next i _ hi =>
    split
    · rw [if_pos (h i hi)]
    · rfl
  · rfl

theorem serveHead_keeps (s : State) : Keeps s (serveHead s) := by
  unfold serveHead
  split
  · split
    · split
      · exact Keeps.refl s
      · exact handToHead_keeps _ _ s
    · exact Keeps.refl s
  · exact Keeps.refl s

theorem handOn_keeps (i : SlotNo) (s : State) : Keeps s (handOn i s) := by
  unfold handOn
  split
  · exact Keeps.refl s
  · split
    · exact handToParked_keeps i s
    · split
      · next h => exact handTo_keeps h
      · split
        · next h => exact handTo_keeps h
        · exact handToHead_keeps i _ s

/-! ### Sweeps -/

/-- A change of the engine mode that the port state fits. -/
theorem mode_keeps (m : EngineMode) (s : State) (h : PortEngineAgree s → portFits s.ingress.port m = true) :
    KeepsAgree s { s with engine.mode := m } where
  queue := rfl
  unit := rfl
  memory := id
  hold := id
  low := id
  frame := id
  bounds h := ⟨h.fifo, h.commands, h.parked, h.notices, h.lost, h.credit, h.replies, h.reserved⟩
  limits := id
  table := id
  configs h := ⟨h.store, h.slots⟩
  ranks := id
  weak h := ⟨h.sending, h.waiting, h.stalled, h.timer⟩
  fits := h
  link h := ⟨h.sending, h.idle, h.waiting, h.stalled, h.timer⟩

/-- Every record and every slot holds the reset configuration once the init sweep has begun (R88). -/
theorem Engine.reset_legal :
    (∀ t : StreamId, ((Engine.reset).store[t]).cfg.valid = true) ∧
      ∀ i : SlotNo, ((Engine.reset).slots[i]).copy.cfg.valid = true := by
  constructor <;> intro i <;> simp [Engine.reset, Slot.vacant] <;> decide

/-- Each slot has one rank in the last-use order of the init sweep (R88). -/
theorem Engine.reset_ranks : (Engine.reset).lru.Nodup ∧ ∀ i : SlotNo, i ∈ (Engine.reset).lru := by decide

/-- The init sweep begins where the port is in INIT. -/
theorem startInitSweep_keeps (s : State) (h : PortEngineAgree s → s.ingress.port = .init) :
    KeepsAgree s (startInitSweep s) := by
  refine (mode_keeps .initSweep s (fun hp => by rw [h hp]; rfl)).trans ?_
  exact (Keeps.ofEngine (s := { s with engine.mode := .initSweep }) Engine.reset [] rfl (fun _ => by decide)
    (fun _ => Engine.reset_legal) (fun _ => Engine.reset_ranks)).agree

theorem discardParked_keeps (s : State) : Keeps s (discardParked s) := by
  unfold discardParked
  split
  · exact Keeps.refl s
  · split
    · exact Keeps.ofCells [] s.assembler (fun _ => by decide)
    · next i _ =>
      refine (Keeps.ofCells [] s.assembler (fun _ => by decide)).trans (setSlot_keeps _ _ _ fun h => ?_)
      exact h.slots i

/-- The bus-reset sweep begins where the port is in BUS_RESET. -/
theorem startBusSweep_keeps (s : State) (h : PortEngineAgree s → s.ingress.port = .busReset) :
    KeepsAgree s (startBusSweep s) := by
  have k := ((discardParked_keeps s).trans (dispReq_keeps none _)).trans (dispWait_keeps none _)
  refine k.agree.trans (mode_keeps (.busSweep 0 false) _ fun hp => ?_)
  rw [PortEngineAgree, k.modes.1, k.modes.2] at hp
  rw [k.modes.1, h hp]
  rfl

theorem leaveSweepWait_keeps (s : State) : KeepsAgree s (leaveSweepWait s) := by
  unfold leaveSweepWait
  split
  · next k hk =>
    split
    · split
      · refine startInitSweep_keeps s fun h => ?_
        rw [PortEngineAgree, hk] at h
        cases hp : s.ingress.port <;> simp_all [portFits]
      · refine startBusSweep_keeps s fun h => ?_
        rw [PortEngineAgree, hk] at h
        cases hp : s.ingress.port <;> simp_all [portFits]
    · exact (Keeps.refl s).agree
  all_goals exact (Keeps.refl s).agree

/-- What a release does with the mark it gave up. -/
theorem afterRelease_keeps (i : SlotNo) (u : State) :
    KeepsAgree u (match u.engine.mode with
      | .running => handOn i u
      | .sweepWait _ => leaveSweepWait u
      | .initSweep | .busSweep _ _ => u) := by
  split
  · exact (handOn_keeps i u).agree
  · exact leaveSweepWait_keeps u
  all_goals exact (Keeps.refl u).agree

theorem release_keeps (i : SlotNo) (wrote : Bool) (s : State) : KeepsAgree s (release i wrote s) :=
  (setSlot_keeps_of_copy i { s.engine.slots[i] with
    inUse := false, state := if wrote then .dirty else s.engine.slots[i].state } s rfl).agree.trans (afterRelease_keeps i _)

theorem handFetched_keeps (p : Party) (s : State) : Keeps s (handFetched p s) := by
  unfold handFetched
  split
  · exact (setReq_keeps p _ s).trans (judgeTake_keeps p _)
  all_goals exact Keeps.refl s

theorem serveWaiting_keeps (s : State) : Keeps s (serveWaiting s) :=
  (handFetched_keeps .management s).trans <| (handFetched_keeps .drain _).trans <| (judgeTake_keeps .management _).trans <|
    (judgeTake_keeps .drain _).trans <| (judgeLodge_keeps .management _).trans <| (judgeLodge_keeps .drain _).trans <|
      startNext_keeps _

/-- A sweep request keeps the link in its states, and everything but the agreement of port and engine, which it makes. -/
theorem requestSweep_core (k : SweepKind) (s : State) : KeepsCore s (requestSweep k s) ∧
    (LinkAgrees s → LinkAgrees (requestSweep k s)) := by
  have modeCore : ∀ m : EngineMode, KeepsCore s { s with engine.mode := m } ∧
      (LinkAgrees s → LinkAgrees { s with engine.mode := m }) := fun m =>
    ⟨{ queue := rfl, unit := rfl, memory := id, hold := id, low := id, frame := id, limits := id, table := id, ranks := id
       bounds := fun h => ⟨h.fifo, h.commands, h.parked, h.notices, h.lost, h.credit, h.replies, h.reserved⟩
       configs := fun h => ⟨h.store, h.slots⟩
       weak := fun h => ⟨h.sending, h.waiting, h.stalled, h.timer⟩ },
     fun h => ⟨h.sending, h.idle, h.waiting, h.stalled, h.timer⟩⟩
  unfold requestSweep
  split
  · exact ⟨(modeCore _).1.trans (leaveSweepWait_keeps _).toKeepsCore, (leaveSweepWait_keeps _).link ∘ (modeCore _).2⟩
  · exact modeCore _
  · exact modeCore _
  all_goals exact ⟨(Keeps.refl s).toKeepsCore, id⟩

end Sys2Proof.Machine
end

