-- ==== Sys2Proof/Laws/Memory.lean ====
section
/-!
SUPPORT. The page memory: every write keeps the canonical form, and a read after a write.
-/
namespace Sys2Proof.Machine

open Sys2Proof

/-- A canonical memory above an address is canonical above any lower one. -/
theorem Memory.wfFrom_weaken {m : Memory} {b : Nat} {lo : Option Nat} (h : Memory.wfFrom (some b) m = true)
    (hlo : ∀ a, lo = some a → a < b) : Memory.wfFrom lo m = true := by
  cases m with
  | nil => cases lo <;> rfl
  | cons p m =>
    obtain ⟨a, v⟩ := p
    simp only [Memory.wfFrom, Bool.and_eq_true, decide_eq_true_eq] at h ⊢
    refine ⟨⟨?_, h.1.2⟩, h.2⟩
    cases lo with
    | none => rfl
    | some c =>
      have := hlo c rfl
      simp only [decide_eq_true_eq]
      omega

theorem Memory.wfFrom_put {lo : Option Nat} {addr : Nat} {v : Byte} {m : Memory} (hlo : ∀ a, lo = some a → a < addr)
    (hm : Memory.wfFrom (some addr) m = true) : Memory.wfFrom lo (Memory.put addr v m) = true := by
  unfold Memory.put
  split
  · exact Memory.wfFrom_weaken hm hlo
  · next hv =>
    simp only [Memory.wfFrom, Bool.and_eq_true, decide_eq_true_eq]
    refine ⟨⟨?_, hv⟩, hm⟩
    cases lo with
    | none => rfl
    | some c => simpa using hlo c rfl

theorem Memory.wfFrom_write {m : Memory} {lo : Option Nat} {addr : Nat} (v : Byte) (hlo : ∀ a, lo = some a → a < addr)
    (hm : Memory.wfFrom lo m = true) : Memory.wfFrom lo (m.write addr v) = true := by
  induction m generalizing lo with
  | nil => exact Memory.wfFrom_put hlo (by rfl)
  | cons p m ih =>
    obtain ⟨a, b⟩ := p
    have hcopy := hm
    simp only [Memory.wfFrom, Bool.and_eq_true, decide_eq_true_eq] at hm
    obtain ⟨⟨h1, h2⟩, h3⟩ := hm
    unfold Memory.write
    split
    · next he => subst he; exact Memory.wfFrom_put hlo h3
    · split
      · next hlt =>
        refine Memory.wfFrom_put hlo ?_
        simp only [Memory.wfFrom, Bool.and_eq_true, decide_eq_true_eq]
        exact ⟨⟨hlt, h2⟩, h3⟩
      · next hne hlt =>
        simp only [Memory.wfFrom, Bool.and_eq_true, decide_eq_true_eq]
        refine ⟨⟨h1, h2⟩, ih (fun c hc => ?_) h3⟩
        cases hc
        omega

/-- A write keeps the canonical form. -/
theorem Memory.wf_write {m : Memory} (addr : Nat) (v : Byte) (h : m.wf = true) : (m.write addr v).wf = true :=
  Memory.wfFrom_write v (fun _ hc => by cases hc) h

/-- Writing the bytes of a sample keeps the canonical form. -/
theorem wf_writeBlockBytes (pages : List Page) (bytes : List Byte) :
    ∀ (m : Memory) (b : Nat), m.wf = true → (writeBlockBytes pages m b bytes).wf = true := by
  induction bytes with
  | nil => exact fun _ _ h => h
  | cons v vs ih =>
    intro m b h
    unfold writeBlockBytes
    split
    · exact ih _ _ (Memory.wf_write _ v h)
    · exact ih _ _ h

/-- An address below every entry reads as an unwritten byte. -/
theorem Memory.read_below {m : Memory} {lo : Option Nat} {addr : Nat} (h : Memory.wfFrom lo m = true)
    (hlo : ∃ b, lo = some b ∧ addr ≤ b) : m.read addr = Config.unwrittenByte := by
  cases m with
  | nil => rfl
  | cons p m =>
    obtain ⟨a, v⟩ := p
    obtain ⟨b, rfl, hb⟩ := hlo
    simp only [Memory.wfFrom, Bool.and_eq_true, decide_eq_true_eq] at h
    have h1 := h.1.1
    unfold Memory.read
    rw [if_neg (by omega), if_pos (by omega)]

theorem Memory.read_put {lo : Nat} {v : Byte} {m : Memory} (hm : Memory.wfFrom (some lo) m = true) (a : Nat) :
    (Memory.put lo v m).read a = if a = lo then v else m.read a := by
  unfold Memory.put
  split
  · next hv =>
    split
    · next he => subst he; rw [hv]; exact Memory.read_below hm ⟨_, rfl, Nat.le_refl _⟩
    · rfl
  · rw [Memory.read]
    by_cases he : lo = a
    · rw [if_pos he, if_pos he.symm]
    · rw [if_neg he, if_neg (show ¬a = lo from fun e => he e.symm)]
      by_cases hlt : a < lo
      · rw [if_pos hlt]; exact (Memory.read_below hm ⟨lo, rfl, by omega⟩).symm
      · rw [if_neg hlt]

/-- A read after a write: the written byte at its address, what was there anywhere else. -/
theorem Memory.read_write {m : Memory} {lo : Option Nat} (addr : Nat) (v : Byte) (h : Memory.wfFrom lo m = true) (a : Nat) :
    (m.write addr v).read a = if a = addr then v else m.read a := by
  induction m generalizing lo with
  | nil => exact Memory.read_put (by rfl) a
  | cons p m ih =>
    obtain ⟨b, w⟩ := p
    simp only [Memory.wfFrom, Bool.and_eq_true, decide_eq_true_eq] at h
    obtain ⟨⟨-, h2⟩, h3⟩ := h
    unfold Memory.write
    split
    · next he =>
      subst he
      rw [Memory.read_put h3]
      split
      · rfl
      · next hne =>
        conv => rhs; rw [Memory.read]
        rw [if_neg (fun e => hne e.symm)]
        split
        · next hlt => exact Memory.read_below h3 ⟨b, rfl, by omega⟩
        · rfl
    · split
      · next hlt =>
        refine Memory.read_put ?_ a
        simp only [Memory.wfFrom, Bool.and_eq_true, decide_eq_true_eq]
        exact ⟨⟨hlt, h2⟩, h3⟩
      · next hne hnlt =>
        rw [Memory.read]
        conv => rhs; rw [Memory.read]
        split
        · next he => rw [if_neg (by omega)]
        · split
          · rw [if_neg (by omega)]
          · exact ih h3

end Sys2Proof.Machine
end

