-- ==== Sys2Proof/Laws/Blocks.lean ====
section
/-!
SUPPORT. The operations on blocks and on one record keep the invariants, and leave the record's configuration (R9, R25–R66).
-/
namespace Sys2Proof.Machine

open Sys2Proof

/-! ### Pool and class queues -/

theorem riseOutstanding_keeps (t : StreamId) (s : State) : Keeps s (riseOutstanding t s) := setDrain_keeps t _ s

theorem setDrainPending_keeps (t : StreamId) (b : Bool) (s : State) : Keeps s (setDrainPending t b s) :=
  setDrain_keeps t _ s

theorem fallOutstanding_keeps (t : StreamId) (s : State) : Keeps s (fallOutstanding t s) := by
  unfold fallOutstanding
  simp only
  split
  · exact (setDrain_keeps t _ s).trans (raiseDrain_keeps t _)
  · exact setDrain_keeps t _ s

/-- An allocation that succeeds keeps every invariant (R58). -/
theorem allocate_keeps {t : StreamId} {n : BitVec 16} {g : Geometry} {s u : State} {h : Handle}
    (e : allocate t n g s = some (h, u)) : Keeps s u := by
  unfold allocate at e
  split at e
  · cases e
  · split at e
    · simp only [Option.some.injEq, Prod.mk.injEq] at e
      obtain ⟨rfl, rfl⟩ := e
      exact (setDesc_keeps _ _ s).trans (judgePoolLow_keeps _ _ _)
    · cases e

theorem freeBlock_keeps (h : Handle) (s : State) : Keeps s (freeBlock h s) :=
  (setDesc_keeps h .free s).trans (judgePoolLow_keeps _ _ _)

theorem freeAll_keeps (hs : List Handle) (s : State) : Keeps s (freeAll hs s) := by
  induction hs generalizing s with
  | nil => exact Keeps.refl s
  | cons h hs ih => exact (freeBlock_keeps h s).trans (ih _)

/-- A queue entry keeps every invariant (R9, R41). -/
theorem queueEntry_keeps (t : StreamId) (c : EgressClass) (h : Handle) (s : State) : Keeps s (queueEntry t c h s) := by
  unfold queueEntry
  split
  · exact (freeBlock_keeps h s).trans (count_keeps _ _)
  · exact ((setDescState_keeps h .queued s).trans (riseOutstanding_keeps t _)).trans
      (Keeps.ofWaiting { s.egress with queues := s.egress.queues.set c (s.egress.queues[c] ++ [h]) } s.notices
        (fun b => ⟨b.notices, b.lost⟩) (fun b => ⟨b.replies, b.reserved⟩))

theorem handOnBlocks_keeps (t : StreamId) (c : EgressClass) (hs : List Handle) (s : State) :
    Keeps s (handOnBlocks t c hs s) := by
  induction hs generalizing s with
  | nil => exact Keeps.refl s
  | cons h hs ih => exact (queueEntry_keeps t c h s).trans (ih _)

/-- A change of the class queues alone: the port is to be judged again. -/
theorem setQueues_core (q : Vector (List Handle) 4) (s : State) : KeepsCore s { s with egress.queues := q } where
  queue := rfl
  unit := rfl
  memory := id
  hold := id
  low := id
  frame := id
  bounds h := ⟨h.fifo, h.commands, h.parked, h.notices, h.lost, h.credit, h.replies, h.reserved⟩
  limits := id
  table := id
  configs h := ⟨h.store, h.slots⟩
  ranks := id
  weak h := ⟨h.sending, h.waiting, h.stalled, h.timer⟩

/-- A freeing from a class queue keeps every invariant but the port states, which are to be judged again (R60). -/
theorem freeQueued_core (h : Handle) (s : State) :
    KeepsCore s (freeQueued h s) ∧ ((freeQueued h s).ingress.port = s.ingress.port ∧ (freeQueued h s).engine.mode = s.engine.mode) := by
  have k := (freeBlock_keeps h { s with egress.queues := withoutHandle h s.egress.queues }).trans
    (fallOutstanding_keeps s.pool.desc[h].stream _)
  exact ⟨(setQueues_core _ s).trans k.toKeepsCore, k.modes⟩

theorem freeAllQueued_core (hs : List Handle) (s : State) :
    KeepsCore s (freeAllQueued hs s) ∧ ((freeAllQueued hs s).ingress.port = s.ingress.port ∧ (freeAllQueued hs s).engine.mode = s.engine.mode) := by
  induction hs generalizing s with
  | nil => exact ⟨(Keeps.refl s).toKeepsCore, rfl, rfl⟩
  | cons h hs ih =>
    exact ⟨(freeQueued_core h s).1.trans (ih _).1, (ih _).2.1.trans (freeQueued_core h s).2.1,
      (ih _).2.2.trans (freeQueued_core h s).2.2⟩

/-- Freeing the SENDING block leaves nothing in flight; the port is to be judged again (R60). -/
theorem freeSending_core (h : Handle) (s : State) :
    KeepsCore s (freeSending h s) ∧ ((freeSending h s).ingress.port = s.ingress.port ∧ (freeSending h s).engine.mode = s.engine.mode) := by
  have c : KeepsCore s { s with link.inflight := none, link.frame := [] } := {
    queue := rfl, unit := rfl, memory := id, hold := id, low := id, frame := fun _ _ => rfl, limits := id, table := id
    ranks := id
    bounds := fun b => ⟨b.fifo, b.commands, b.parked, by have := b.notices; simp only [noticePlaces] at this ⊢; omega,
      b.lost, b.credit, by have := b.replies; simp only [replyOccupancy] at this ⊢; omega,
      fun e => by have := b.reserved e; simp only [replyOccupancy] at this ⊢; omega⟩
    configs := fun h => ⟨h.store, h.slots⟩
    weak := fun w => ⟨fun e => (nomatch e), w.waiting, w.stalled, w.timer⟩ }
  have k := (freeBlock_keeps h { s with link.inflight := none, link.frame := [] }).trans
    (fallOutstanding_keeps s.pool.desc[h].stream _)
  exact ⟨c.trans k.toKeepsCore, k.modes⟩

/-- Marking the in-flight block keeps every invariant (R143). -/
theorem markAbort_keeps (t : StreamId) (s : State) : Keeps s (markAbort t s) := by
  unfold markAbort
  split
  · next h c a hi =>
    split
    · exact {
        queue := rfl, unit := rfl, memory := id, hold := id, low := id, limits := id, table := id, ranks := id
        frame := fun _ e => nomatch e
        bounds := fun b => ⟨b.fifo, b.commands, b.parked,
          by have := b.notices; simp only [noticePlaces, hi] at this ⊢; exact this, b.lost, b.credit,
          by have := b.replies; simp only [replyOccupancy, hi] at this ⊢; exact this,
          fun e => by have := b.reserved e; simp only [replyOccupancy, hi] at this ⊢; exact this⟩
        configs := fun h => ⟨h.store, h.slots⟩
        weak := fun w => ⟨fun _ => w.sending (by rw [hi]; rfl), w.waiting, w.stalled, w.timer⟩
        modes := ⟨rfl, rfl⟩
        link := fun l => ⟨by simpa [hi] using l.sending, l.idle, l.waiting, l.stalled, l.timer⟩ }
    · exact Keeps.refl s
  all_goals exact Keeps.refl s

/-! ### One record -/

/-- An operation on a record keeps every invariant and the record's configuration. -/
def KeepsWork (s : State) (x : Ctx) (w : Work) : Prop := Keeps s w.1 ∧ w.2.cfg = x.cfg

theorem KeepsWork.trans {s : State} {x : Ctx} {w v : Work} (h : KeepsWork s x w) (k : KeepsWork w.1 w.2 v) :
    KeepsWork s x v :=
  ⟨h.1.trans k.1, k.2.trans h.2⟩

theorem placeCompleted_keeps (t : StreamId) (h : Handle) (s : State) (x : Ctx) :
    KeepsWork s x (placeCompleted t h s x) := by
  unfold placeCompleted
  split
  · exact ⟨queueEntry_keeps _ _ _ _, rfl⟩
  · split
    · exact ⟨setDescState_keeps _ _ _, rfl⟩
    · split
      · unfold overflowDropOldest
        split
        · exact ⟨setDescState_keeps _ _ _, rfl⟩
        · exact ⟨((freeBlock_keeps _ s).trans (setDescState_keeps _ _ _)).trans (requestNotice_keeps _ _ _), rfl⟩
      · exact ⟨(freeBlock_keeps _ s).trans (requestNotice_keeps _ _ _), rfl⟩

theorem complete_keeps (t : StreamId) (h : Handle) (n : Nat) (short broken spliced : Bool) (s : State) (x : Ctx) :
    KeepsWork s x (complete t h n short broken spliced s x) := by
  obtain ⟨k, c⟩ := placeCompleted_keeps t h
    (setDesc h { s.pool.desc[h] with count := n, flags := ⟨short, broken, spliced⟩ } s)
    { x.completeBlock with fill := .empty }
  exact ⟨(setDesc_keeps h _ s).trans k, c⟩

theorem cut_keeps (t : StreamId) (s : State) (x : Ctx) : KeepsWork s x (cut t s x) := by
  unfold cut
  split
  · exact complete_keeps _ _ _ _ _ _ _ _
  all_goals exact ⟨Keeps.refl s, rfl⟩

theorem breakAndHunt_keeps (t : StreamId) (s : State) (x : Ctx) : KeepsWork s x (breakAndHunt t s x) := by
  unfold breakAndHunt
  split
  · split
    · simp only
      split
      · exact complete_keeps _ _ _ _ _ _ _ _
      · exact ⟨(complete_keeps _ _ _ _ _ _ _ _).1, (complete_keeps _ _ _ _ _ _ _ _).2⟩
    · exact ⟨freeBlock_keeps _ s, rfl⟩
  all_goals exact ⟨Keeps.refl s, rfl⟩

theorem releaseHeld_keeps (t : StreamId) (s : State) (x : Ctx) : KeepsWork s x (releaseHeld t s x) := by
  unfold releaseHeld
  split
  · exact ⟨handOnBlocks_keeps _ _ _ s, rfl⟩
  · exact ⟨Keeps.refl s, rfl⟩

theorem placeSample_keeps (t : StreamId) (h : Handle) (k : Nat) (spliced : Bool) (sample : List Byte) (s : State)
    (x : Ctx) : KeepsWork s x (placeSample t h k spliced sample s x) := by
  have hw := Keeps.ofPool (s := s) (writeBlockBytes s.pool.desc[h].pages s.pool.mem
    (s.pool.desc[h].geom.byteAt (s.pool.desc[h].geom.rowOf k) (s.pool.desc[h].geom.colOf k)) sample) s.pool.desc
    s.pool.drain (wf_writeBlockBytes _ _ _ _)
  unfold placeSample
  simp only
  split
  · obtain ⟨a, b⟩ := complete_keeps t h (k + 1) false false spliced _ x
    exact ⟨hw.trans a, b⟩
  · exact ⟨hw, rfl⟩

theorem startBlock_keeps (t : StreamId) (sample : List Byte) (s : State) (x : Ctx) :
    KeepsWork s x (startBlock t sample s x) := by
  unfold startBlock
  split
  · next h u e =>
    obtain ⟨a, b⟩ := placeSample_keeps t h 0 false sample u { x with nextBlock := x.nextBlock + 1 }
    exact ⟨(allocate_keeps e).trans a, b⟩
  · exact ⟨(count_keeps _ s).trans (requestNotice_keeps _ _ _), rfl⟩

theorem takeSample_keeps (t : StreamId) (sample : List Byte) (w : Work) : KeepsWork w.1 w.2 (takeSample t sample w) := by
  unfold takeSample
  split
  · split
    · exact startBlock_keeps _ _ _ _
    · exact placeSample_keeps _ _ _ _ _ _ _
    · exact ⟨Keeps.refl _, rfl⟩
  · exact ⟨Keeps.refl _, rfl⟩

theorem takeSamples_keeps (t : StreamId) (l : List (List Byte)) (w : Work) :
    KeepsWork w.1 w.2 (takeSamples t l w) := by
  induction l generalizing w with
  | nil => exact ⟨Keeps.refl _, rfl⟩
  | cons a l ih => exact (takeSample_keeps t a w).trans (ih _)

/-- The teardown of a stream keeps every invariant, the port judged again (R18, R133, R141). -/
theorem tearDown_keeps (t : StreamId) (s : State) (x : Ctx) : KeepsWork s x (tearDown t s x) := by
  refine ⟨?_, rfl⟩
  unfold tearDown
  simp only
  have h1 := (setDrainPending_keeps t false s).trans (freeAll_keeps (ownedBlocks x) _)
  have h2 := fun q => freeAllQueued_core q (freeAll (ownedBlocks x) (setDrainPending t false s))
  have h3 := fun q => markAbort_keeps t (freeAllQueued q (freeAll (ownedBlocks x) (setDrainPending t false s)))
  have core := fun q => (h1.toKeepsCore.trans (h2 q).1).trans (h3 q).toKeepsCore
  exact {
    toKeepsCore := (core _).trans (judgePort_core _)
    modes := ⟨(judgePort_modes _).1.trans ((h3 _).modes.1.trans ((h2 _).2.1.trans h1.modes.1)),
      (judgePort_modes _).2.trans ((h3 _).modes.2.trans ((h2 _).2.2.trans h1.modes.2))⟩
    link := fun l => judgePort_agrees ((core _).weak l.toWeak) }

/-! ### Assembly -/

theorem gapEffect_keeps (t : StreamId) (s : State) (x : Ctx) : KeepsWork s x (gapEffect t s x) := by
  unfold gapEffect applyGapPolicy
  split
  · refine ⟨requestNotice_keeps _ _ s, ?_⟩
    show (Ctx.markSpliced x.countGap).cfg = x.cfg
    unfold Ctx.markSpliced
    split <;> rfl
  · obtain ⟨a, b⟩ := breakAndHunt_keeps t (requestNotice .seqGap (some t) s) x.countGap
    exact ⟨(requestNotice_keeps _ _ s).trans a, b⟩

theorem misfitEffect_keeps (t : StreamId) (g : Bool) (n : Nat) (s : State) (x : Ctx) :
    KeepsWork s x (misfitEffect t g n s x) := by
  unfold misfitEffect
  split
  · exact ⟨Keeps.refl s, rfl⟩
  · exact gapEffect_keeps t s (x.discardSamples n)

theorem syncStep_keeps (t : StreamId) (b : Bool) (s : State) (x : Ctx) : KeepsWork s x (syncStep t b s x) := by
  unfold syncStep
  split
  · split
    · exact complete_keeps _ _ _ _ _ _ _ _
    all_goals exact ⟨Keeps.refl s, rfl⟩
  · exact ⟨Keeps.refl s, rfl⟩

theorem markEffect_keeps (t : StreamId) (a : MarkAction) (s : State) (x : Ctx) : KeepsWork s x (markEffect t a s x) := by
  unfold markEffect
  split
  · exact cut_keeps _ _ _
  · exact releaseHeld_keeps _ _ _
  · simp only
    split
    · exact cut_keeps _ _ _
    · exact (cut_keeps t s x).trans (releaseHeld_keeps _ _ _)

theorem laterStages_keeps (t : StreamId) (c : StreamCell) (gap : Bool) (s : State) (x : Ctx) :
    KeepsWork s x (laterStages t c gap s x) := by
  unfold laterStages
  simp only
  split
  · exact ⟨Keeps.refl s, rfl⟩
  · split
    · split
      · exact misfitEffect_keeps _ _ _ _ _
      · exact (syncStep_keeps _ _ s x).trans (takeSamples_keeps _ _ _)
    · split
      · exact markEffect_keeps _ _ _ _
      · exact ⟨Keeps.refl s, rfl⟩

theorem afterSeq_cfg (j : SeqJudgement) (q : BitVec 8) (x : Ctx) : (afterSeq j q x).cfg = x.cfg := by
  unfold afterSeq
  split <;> rfl

theorem judgedCell_keeps (t : StreamId) (c : StreamCell) (s : State) (x : Ctx) : KeepsWork s x (judgedCell t c s x) := by
  have seq : ∀ w, KeepsWork s (afterSeq (judgeSeq x c.seq) c.seq x) w → KeepsWork s x w :=
    fun w h => ⟨h.1, h.2.trans (afterSeq_cfg _ _ _)⟩
  unfold judgedCell
  simp only
  split
  · exact seq _ (laterStages_keeps _ _ _ _ _)
  · exact seq _ (laterStages_keeps _ _ _ _ _)
  · exact ⟨Keeps.refl s, afterSeq_cfg _ _ _⟩
  · exact seq _ ((gapEffect_keeps _ _ _).trans (laterStages_keeps _ _ _ _ _))

/-- The assembly of a cell keeps every invariant and the record's configuration (R25, R49). -/
theorem assembleCell_keeps (c : StreamCell) (s : State) (x : Ctx) : KeepsWork s x (assembleCell c s x) := by
  unfold assembleCell
  simp only
  split
  · exact judgedCell_keeps c.stream c s x.countCell
  · exact ⟨Keeps.refl s, rfl⟩

end Sys2Proof.Machine
end

