-- ==== Sys2Proof/Laws/Events.lean ====
section
/-!
SUPPORT. The events of the part keep the invariants, and leave the queue of commands as it was.
-/
namespace Sys2Proof.Machine

open Sys2Proof

/-! ### Reset pin and cell bus -/

/-- Both pins of the response lane are released exactly when no answer is owed (Table 12-2). -/
theorem rspPins_released_iff (s : State) : s.rspPins = (.released, .released) ↔ s.ingress.rsp = none := by
  unfold State.rspPins
  cases s.ingress.rsp with
  | none => simp [rspLines]
  | some r => cases r <;> simp [rspLines]

/-- A memory in canonical form, everything else at its power-on values. -/
theorem powerOn_invariants (straps : BitVec 3) (m : Memory) (q : List Instr) (low : Bool) (hm : m.wf = true) :
    let s := { State.powerOn straps m q with resetLow := low }
    MemoryCanonical s ∧ HoldAgrees s ∧ PoolLowAgrees s ∧ PortEngineAgree s ∧ LinkAgrees s ∧ FrameAgrees s ∧
      WithinBounds s ∧ LimitsLegal s ∧ TableLegal s ∧ ConfigsLegal s ∧ RanksComplete s := by
  intro s
  have hold : HoldAgrees s := by cases low <;> rfl
  have poolLow : PoolLowAgrees s := by
    simp [s, PoolLowAgrees, State.powerOn, Pool.reset, Agent.reset, Limits.reset]
  have waits : hasWaiting s = false := by rfl
  have link : LinkAgrees s := by
    constructor <;> simp [s, State.powerOn, Link.reset, hasWaiting, NoticeUnit.reset, Egress.reset, hasBlocks]
  have bounds : WithinBounds s := by
    constructor <;> simp [s, State.powerOn, Ingress.reset, Agent.reset, Engine.reset, NoticeUnit.reset, Link.reset,
      Egress.reset, noticePlaces, replyOccupancy, AgentState.executesRecord, Config.replyDepth]
  have legal : LimitsLegal s := by
    have : Limits.reset.valid = true := by decide
    exact this
  have table : TableLegal s := by
    intro n
    have : EntryAccepted ClassEntry.reset := by unfold EntryAccepted; decide
    simpa [s, State.powerOn, Classifier.reset] using this
  exact ⟨hm, hold, poolLow, rfl, link, fun _ => rfl, bounds, legal, table,
    ⟨Engine.reset_legal.1, Engine.reset_legal.2⟩, Engine.reset_ranks⟩

/-- The context engine answers the ingress port and runs again. -/
theorem answerPort_keeps (s : State) : KeepsAgree s (answerPort { s with engine.mode := .running }) where
  queue := rfl
  unit := rfl
  memory := id
  hold _ := rfl
  low := id
  frame := id
  bounds h := ⟨h.fifo, h.commands, h.parked, h.notices, h.lost, h.credit, h.replies, h.reserved⟩
  limits := id
  table := id
  configs h := ⟨h.store, h.slots⟩
  ranks := id
  weak h := ⟨h.sending, h.waiting, h.stalled, h.timer⟩
  fits _ := rfl
  link h := ⟨h.sending, h.idle, h.waiting, h.stalled, h.timer⟩

theorem initSweepDone_keeps (s : State) : KeepsAgree s (initSweepDone s) := by
  unfold initSweepDone
  split
  · exact answerPort_keeps s
  all_goals exact (Keeps.refl s).agree

theorem refuseFull_keeps (s : State) : Keeps s (refuseFull s) :=
  ((count_keeps _ s).trans (respond_keeps _ _)).trans (requestNotice_keeps _ _ _)

theorem arriveStream_keeps (c : Cell) (t : StreamId) (s : State) : Keeps s (arriveStream c t s) := by
  unfold arriveStream
  split
  · next h => exact ((count_keeps .cellsAccepted s).trans (fifoEntry_keeps _ _ h)).trans (respond_keeps _ _)
  · exact refuseFull_keeps s

/-! ### The take -/

/-- An execution that ends where a reply place is free keeps every invariant (R127, R152). -/
theorem Keeps.thenFinish {s u : State} (k : Keeps s u) (record : List Byte) (status : Status) (result : List Byte)
    (next : AgentState) (h : WithinBounds s → replyOccupancy u < Config.replyDepth) (hn : next.executesRecord = false) :
    Keeps s (finish record status result next u) :=
  k.thenReply _ next _ h hn

/-- A take keeps every invariant where a reply place is free (R127, R151). -/
theorem takeOne_keeps (record : List Byte) (rest : List (List Byte)) (s : State)
    (hr : s.agent.cmdq = record :: rest) (ho : replyOccupancy s < Config.replyDepth)
    (hi : s.agent.state = .idle) : Keeps s (takeOne record rest s) := by
  have hq : s.agent.cmdq.length ≤ Config.commandDepth → rest.length ≤ Config.commandDepth := by
    intro h
    rw [hr, List.length_cons] at h
    omega
  have k := Keeps.ofAgent (s := s) s.agent.state rest s.agent.cache hq (fun _ _ => ho)
  refine k.trans ?_
  unfold takeOne
  simp only
  split
  · exact (Keeps.refl { s with agent.cmdq := rest }).thenReply _ s.agent.state s.agent.cache (fun _ => ho) (by rw [hi]; rfl)
  · unfold beginExecution
    split
    · exact (Keeps.refl _).thenFinish _ _ _ _ (fun _ => ho) rfl
    · have k2 := Keeps.ofAgent (s := { s with agent.cmdq := rest }) (.executing record) rest s.agent.cache id
        (fun _ _ => ho)
      simp only
      split
      · split
        · exact k2.trans (askEngage_keeps _ _ _)
        · exact k2
      · exact k2

theorem takeCommands_keeps (n : Nat) (s : State) : Keeps s (takeCommands n s) := by
  induction n generalizing s with
  | zero => exact Keeps.refl s
  | succ n ih =>
    unfold takeCommands
    split
    · next hi hr =>
      split
      · next ho => exact (takeOne_keeps _ _ s hr ho hi).trans (ih _)
      · exact Keeps.ofAgent _ _ _ id (fun h => by cases h)
    · exact Keeps.refl s

theorem takeNext_keeps (s : State) : Keeps s (takeNext s) := takeCommands_keeps _ s

/-- With an empty command queue nothing is taken (R151). -/
theorem takeNext_empty (s : State) (h : s.agent.cmdq = []) : takeNext s = s := by
  rw [takeNext, h]
  rfl

/-- An agent in any state but IDLE takes nothing (Table 8-2). -/
theorem takeNext_busy (s : State) (h : s.agent.state ≠ .idle) : takeNext s = s := by
  unfold takeNext
  cases s.agent.cmdq.length with
  | zero => rfl
  | succ n =>
    unfold takeCommands
    split
    · next hi _ => exact absurd hi h
    · rfl

/-- An IDLE agent with a record queued and no reply place free waits for one (R151). -/
theorem takeNext_full (s : State) (hi : s.agent.state = .idle) (hq : s.agent.cmdq ≠ [])
    (ho : Config.replyDepth ≤ replyOccupancy s) : takeNext s = { s with agent.state := .waitingReplySpace } := by
  obtain ⟨record, rest, hc⟩ := List.exists_cons_of_ne_nil hq
  have : ¬ replyOccupancy s < Config.replyDepth := by omega
  simp [takeNext, takeCommands, hc, hi, this]

/-! ### The command queue and the cell bus -/

theorem queueCommand_keeps (record : List Byte) (answer : Option Response) (s : State)
    (h : s.agent.cmdq.length < Config.commandDepth) : Keeps s (queueCommand record answer s) :=
  ((Keeps.ofAgent s.agent.state (s.agent.cmdq ++ [record]) s.agent.cache
    (fun _ => by simp only [List.length_append, List.length_singleton]; omega) (fun e b => b.reserved e)).trans
    (respond_keeps answer _)).trans (takeNext_keeps _)

theorem arriveManagement_keeps (c : Cell) (b : Bool) (s : State) : Keeps s (arriveManagement c b s) := by
  unfold arriveManagement
  split
  · next h => exact (count_keeps .cellsAccepted s).trans (queueCommand_keeps _ _ _ h)
  · split
    · exact ((count_keeps _ s).trans (respond_keeps _ _)).trans (requestNotice_keeps _ _ _)
    · exact refuseFull_keeps s

theorem claimedCell_keeps (c : Cell) (r : Resolution) (s : State) : Keeps s (claimedCell c r s) := by
  unfold claimedCell
  split
  · split
    · exact arriveStream_keeps _ _ _
    · exact (count_keeps _ s).trans (respond_keeps _ _)
    · exact arriveManagement_keeps _ _ _
    · exact arriveManagement_keeps _ _ _
    · exact Keeps.refl s
  · exact (count_keeps _ s).trans (respond_keeps _ _)

theorem arrive_keeps (c : Cell) (s : State) : Keeps s (arrive c s) := by
  refine ((count_keeps .cellsSeen s).trans (respond_keeps none _)).trans ?_
  unfold arrive judgeArrival
  simp only
  split
  · split
    · split
      · exact Keeps.refl _
      all_goals
        split
        · exact count_keeps _ _
        all_goals exact claimedCell_keeps _ _ _
    · exact count_keeps _ _
  all_goals exact Keeps.refl _

/-- The sweep request of a bus reset, with the port in the state that the sequence puts it in. -/
theorem busReset_keeps (s : State) : KeepsAgree s (busReset s) := by
  refine (respond_keeps none s).agree.trans ?_
  unfold busReset
  simp only
  generalize respond none s = u
  refine KeepsAgree.trans ?_ ((count_keeps .linkResets _).trans (requestNotice_keeps _ _ _)).agree
  split
  · next hp =>
    have ec : KeepsCore u (emptyForBusReset u) := {
      queue := rfl, unit := rfl, memory := id, hold := fun _ => rfl, low := id, frame := id, limits := id, table := id
      ranks := id
      bounds := fun h => ⟨Nat.zero_le _, h.commands, h.parked, h.notices, h.lost, h.credit, h.replies, h.reserved⟩
      configs := fun h => ⟨h.store, h.slots⟩
      weak := fun h => ⟨h.sending, h.waiting, h.stalled, h.timer⟩ }
    obtain ⟨k, l⟩ := requestSweep_core .bus (emptyForBusReset u)
    refine { toKeepsCore := ec.trans k, fits := fun p => ?_,
             link := fun h => l ⟨h.sending, h.idle, h.waiting, h.stalled, h.timer⟩ }
    have hm : u.engine.mode = .running := by
      rw [PortEngineAgree, hp] at p
      cases hm : u.engine.mode <;> simp_all [portFits]
    have : requestSweep .bus (emptyForBusReset u) =
        leaveSweepWait { emptyForBusReset u with engine.mode := .sweepWait .bus } := by
      unfold requestSweep
      have : (emptyForBusReset u).engine.mode = .running := hm
      rw [this]
    rw [this]
    exact (leaveSweepWait_keeps _).fits rfl
  all_goals
    next hp =>
    obtain ⟨k, l⟩ := requestSweep_core .bus u
    refine { toKeepsCore := k, fits := fun p => ?_, link := l }
    have : requestSweep .bus u = u := by
      rw [PortEngineAgree, hp] at p
      unfold requestSweep
      cases hm : u.engine.mode with
      | running => simp [hm, portFits] at p
      | sweepWait k => cases k <;> rfl
      | initSweep => rfl
      | busSweep n b => rfl
    rw [this]
    exact p

/-! ### Context engine and assembler -/

theorem sweepCtx_keeps (t : StreamId) (s : State) (x : Ctx) : KeepsWork s x (sweepCtx t s x) := by
  unfold sweepCtx
  split
  · exact breakAndHunt_keeps t s { x with seqValid := false }
  · exact breakAndHunt_keeps t s { x with seqValid := false }
  all_goals exact ⟨Keeps.refl s, rfl⟩

theorem sweepStream_keeps (t : StreamId) (s : State) : Keeps s (sweepStream t s) := by
  unfold sweepStream
  split
  · next i _ =>
    obtain ⟨k, c⟩ := sweepCtx_keeps t { s with engine.lru := touch i s.engine.lru } s.engine.slots[i].copy
    exact ((touch_keeps i s).trans k).thenSlot i _ fun h => by rw [c]; exact h.slots i
  · obtain ⟨k, c⟩ := sweepCtx_keeps t s s.engine.store[t]
    exact k.thenStore t _ fun h => by rw [c]; exact h.store t

theorem busSweepDone_keeps (s : State) : KeepsAgree s (busSweepDone s) :=
  (answerPort_keeps s).trans (serveWaiting_keeps _).agree

/-- A step of the bus-reset sweep keeps every invariant (R90, R91). -/
theorem sweepStep_keeps (s : State) : KeepsAgree s (sweepStep s) := by
  unfold sweepStep
  split
  · next n hm =>
    have k := sweepStream_keeps n s
    simp only
    split
    · refine k.agree.trans (mode_keeps _ _ fun hp => ?_)
      rw [PortEngineAgree, k.modes.1, k.modes.2, hm] at hp
      rw [k.modes.1]
      cases hq : s.ingress.port <;> simp_all [portFits]
    · exact k.agree.trans (busSweepDone_keeps _)
  · next n hm =>
    refine startInitSweep_keeps s fun hp => ?_
    rw [PortEngineAgree, hm] at hp
    cases hq : s.ingress.port <;> simp_all [portFits]
  all_goals exact (Keeps.refl s).agree

theorem writeBackDone_keeps (s : State) : Keeps s (writeBackDone s) := by
  unfold writeBackDone
  split
  · exact Keeps.refl s
  · next f _ =>
    simp only
    split
    · next old _ _ =>
      have k := setStore_keeps old s.engine.slots[f.slot].copy s fun h => h.slots f.slot
      exact k.thenSlot f.slot _ fun h => h.slots f.slot
    · exact Keeps.refl s

theorem handRequester_keeps (f : Fetch) (s : State) : Keeps s (handRequester f s) := by
  unfold handRequester
  split
  · split
    · exact (takeMark_keeps _ s).trans (setReq_keeps .management _ _)
    · exact (takeMark_keeps _ s).trans (setReq_keeps .drain _ _)
    · exact handToParked_keeps _ _
  all_goals exact setReq_keeps _ _ s

theorem readWaits_keeps (b : Bool) (s : State) : Keeps s { s with engine.readWaits := b } :=
  Keeps.ofEngine { s.engine with readWaits := b } s.assembler rfl id (fun h => ⟨h.store, h.slots⟩) id

theorem completeRead_keeps (f : Fetch) (s : State) : KeepsAgree s (completeRead f s) := by
  have k0 := (Keeps.ofRequests (s := s) none s.engine.mgmt s.engine.drainReq s.engine.dispReq s.engine.dispWait
    s.engine.drainList).trans (readWaits_keeps false _)
  have k1 := k0.thenSlot f.slot { s.engine.slots[f.slot] with state := .clean, copy := s.engine.store[f.stream] }
    fun h => h.store f.stream
  exact ((k1.trans (handRequester_keeps f _)).trans (startNext_keeps _)).agree.trans (leaveSweepWait_keeps _)

/-- The completion of a fetch keeps every invariant (R76, R79, R87). -/
theorem fetchDone_keeps (s : State) : KeepsAgree s (fetchDone s) := by
  unfold fetchDone
  split
  · exact (Keeps.refl s).agree
  · next f _ =>
    split
    · split
      · exact (readWaits_keeps true s).agree
      · exact completeRead_keeps f s
    all_goals exact (Keeps.refl s).agree

theorem resumeRead_keeps (s : State) : KeepsAgree s (resumeRead s) := by
  unfold resumeRead
  split
  · exact fetchDone_keeps s
  · exact (Keeps.refl s).agree

/-- The end of a cell's assembly keeps every invariant, overtaken by a FULL reset or not (R25, R172). -/
theorem assemblyDone_keeps (s : State) : KeepsAgree s (assemblyDone s) := by
  unfold assemblyDone
  split
  · exact (Keeps.refl s).agree
  · next a rest _ =>
    have k0 := Keeps.ofCells (s := s) s.engine.parked rest id
    simp only
    refine KeepsAgree.trans ?_ ((resumeRead_keeps _).trans (serveHead_keeps _).agree)
    split
    · have wf : MemoryCanonical s → (overtakenWrites a { s with assembler := rest }).wf = true := by
        intro h
        unfold overtakenWrites
        split
        · exact h
        · exact (assembleCell_keeps _ _ _).1.memory h
      have k1 := Keeps.ofPool (s := { s with assembler := rest }) _ s.pool.desc s.pool.drain wf
      exact (k0.trans k1).agree.trans (release_keeps _ _ _)
    · obtain ⟨k, c⟩ := assembleCell_keeps a.cell { s with assembler := rest } s.engine.slots[a.slot].copy
      exact ((k0.trans k).thenSlot a.slot _ fun h => (congrArg StreamCfg.valid c).trans (h.slots a.slot)).agree.trans (release_keeps _ _ _)

/-- The end of a drain completion: the service is free, the stream leaves the list, the slot is released (R85). -/
theorem drainEnd_keeps (t : StreamId) (i : SlotNo) (due : Bool) (u : State) :
    KeepsAgree u (serveDrain (release i due
      { u with engine.drainReq := .idle, engine.drainList := u.engine.drainList.erase t })) := by
  have k := Keeps.ofRequests (s := u) u.engine.fetch u.engine.mgmt .idle u.engine.dispReq u.engine.dispWait
    (u.engine.drainList.erase t)
  exact (k.agree.trans (release_keeps i due _)).trans (serveDrain_keeps _).agree

theorem drainDone_keeps (s : State) : KeepsAgree s (drainDone s) := by
  unfold drainDone
  split
  · next t i _ =>
    have k1 : Keeps s (if drainDue s.pool.drain[t] s.engine.slots[i].copy && !overtaken s then
        requestNotice .streamClosed (some t) (setCopy i { s.engine.slots[i].copy with state := .closed } s) else s) := by
      split
      · exact (setCopy_keeps i { s.engine.slots[i].copy with state := .closed } s fun h => h.slots i).trans
          (requestNotice_keeps _ _ _)
      · exact Keeps.refl s
    exact k1.agree.trans (drainEnd_keeps t i _ _)
  all_goals exact (Keeps.refl s).agree

/-! ### Management agent -/

/-- While a record is executed a reply place is free (R151). -/
theorem WithinBounds.placeFree {s : State} (b : WithinBounds s) {record : List Byte}
    (h : s.agent.state = .executing record) : replyOccupancy s < Config.replyDepth :=
  b.reserved (by rw [h]; rfl)

/-- A command that acts on no stream keeps every invariant when its effect does and leaves the reply places as they were. -/
theorem runPlain_keeps (c : Command) (mine : List Byte → Bool) (f : List Byte → State → Answer) (s : State)
    (hf : ∀ r, Keeps s (f r s).state ∧ replyOccupancy (f r s).state = replyOccupancy s) :
    Keeps s (runPlain c mine f s) := by
  unfold runPlain
  split
  · next record he =>
    split
    · exact ((hf record).1.thenFinish _ _ _ _ (fun b => by rw [(hf record).2]; exact b.placeFree he) rfl).trans
        (takeNext_keeps _)
    · exact Keeps.refl s
  all_goals exact Keeps.refl s

/-- A stream command keeps every invariant when its effect does, writes a legal configuration and leaves the reply places as
they were. -/
theorem runStream_keeps (c : Command) (mine : List Byte → Bool) (f : List Byte → StreamId → State → Ctx → StreamAnswer)
    (s : State) (hf : ∀ r t x, Keeps s (f r t s x).state ∧ (x.cfg.valid = true → (f r t s x).ctx.cfg.valid = true) ∧
      replyOccupancy (f r t s x).state = replyOccupancy s) :
    KeepsAgree s (runStream c mine f s) := by
  unfold runStream
  split
  · next record t i he hm =>
    split
    · obtain ⟨k, hv, ho⟩ := hf record t s.engine.slots[i].copy
      have k1 := k.thenSlot i { (f record t s s.engine.slots[i].copy).state.engine.slots[i] with
        copy := (f record t s s.engine.slots[i].copy).ctx } fun h => hv (h.slots i)
      have k2 := k1.trans (setReq_keeps .management .idle _)
      have k3 := k2.thenFinish record (f record t s s.engine.slots[i].copy).status
        (f record t s s.engine.slots[i].copy).result .idle (fun b => by
          have := b.placeFree he
          rw [← ho] at this
          exact this) rfl
      exact (k3.agree.trans (release_keeps i _ _)).trans (takeNext_keeps _).agree
    · exact (Keeps.refl s).agree
  · exact (Keeps.refl s).agree

end Sys2Proof.Machine
end

