-- ==== Sys2Proof/Laws/Commands.lean ====
section
/-!
SUPPORT. The commands of the management agent keep the invariants, each with what it answers.
-/
namespace Sys2Proof.Machine

open Sys2Proof

/-! ### Commands that act on no stream -/

/-- A change of the classification table, of the counters and of the notice mask that keeps every entry legal. -/
theorem Keeps.ofSettings {s : State} (t : Vector ClassEntry 64) (c : Counters) (m : Byte)
    (ht : TableLegal s → ∀ n : EntryNo, EntryAccepted t[n]) :
    Keeps s { s with classifier.table := t, agent.counters := c, notices.mask := m } where
  queue := rfl
  unit := rfl
  memory := id
  hold := id
  low := id
  frame := id
  bounds h := ⟨h.fifo, h.commands, h.parked, h.notices, h.lost, h.credit, h.replies, h.reserved⟩
  limits := id
  table := ht
  configs h := ⟨h.store, h.slots⟩
  ranks := id
  weak h := ⟨h.sending, h.waiting, h.stalled, h.timer⟩
  modes := ⟨rfl, rfl⟩
  link h := ⟨h.sending, h.idle, h.waiting, h.stalled, h.timer⟩

/-- A block of bytes is read as an entry only when the entry passes the checks of R101. -/
theorem parseEntry_accepted {a : List Byte} {n : EntryNo} {e : ClassEntry} (h : parseEntry a = some (n, e)) :
    EntryAccepted e := by
  unfold parseEntry at h
  split at h
  · split at h
    · obtain ⟨hc, he⟩ := Option.ite_none_right_eq_some.mp h
      cases he
      simp only [Bool.and_eq_true, decide_eq_true_eq, Bool.or_eq_true, bne_iff_ne] at hc
      exact ⟨hc.2, hc.1.1.2, fun h => hc.1.2.resolve_left (absurd h)⟩
    · cases h
  · cases h

/-- A block of bytes is read as limits only when they are valid (R161). -/
theorem parseLimits_valid {a : List Byte} {l : Limits} (h : parseLimits a = some l) : l.valid = true := by
  unfold parseLimits at h
  split at h
  · obtain ⟨hc, hl⟩ := Option.ite_none_right_eq_some.mp h
    cases hl
    exact hc
  · cases h

/-- A block of bytes is read as a configuration only when it is valid (R2, R10). -/
theorem parseCfg_valid {a : List Byte} {c : StreamCfg} (h : parseCfg a = some c) : c.valid = true := by
  unfold parseCfg at h
  split at h
  · obtain ⟨hc, he⟩ := Option.ite_none_right_eq_some.mp h
    simp only [Bool.and_eq_true] at hc
    rw [← Option.some.inj he]
    exact hc.2
  · cases h

theorem answerClassWrite_keeps (r : List Byte) (s : State) : Keeps s (answerClassWrite r s).state ∧
    replyOccupancy (answerClassWrite r s).state = replyOccupancy s := by
  unfold answerClassWrite
  split
  · next n e he =>
    refine ⟨Keeps.ofSettings _ s.agent.counters s.notices.mask fun h m => ?_, rfl⟩
    by_cases hm : n = m
    · subst hm; simpa using parseEntry_accepted he
    · have : n.val ≠ m.val := fun e => hm (Fin.ext e)
      simpa [Fin.getElem_fin, Vector.getElem_set_ne _ _ this] using h m
  · exact ⟨Keeps.refl s, rfl⟩

theorem answerClassRead_state (r : List Byte) (s : State) : (answerClassRead r s).state = s := by
  unfold answerClassRead
  split <;> rfl

/-- Limits that are valid keep every invariant when their readers judge again (R63, R120, R121, R162). -/
theorem applyLimits_keeps (l : Limits) (hl : l.valid = true) (s : State) : Keeps s (applyLimits l s) where
  queue := rfl
  unit := rfl
  memory := id
  hold _ := rfl
  low _ := rfl
  frame := id
  bounds h := ⟨h.fifo, h.commands, h.parked, h.notices, h.lost, h.credit, h.replies, h.reserved⟩
  limits _ := hl
  table := id
  configs h := ⟨h.store, h.slots⟩
  ranks := id
  weak h := ⟨h.sending, h.waiting, h.stalled, h.timer⟩
  modes := ⟨rfl, rfl⟩
  link h := ⟨h.sending, h.idle, h.waiting, h.stalled, h.timer⟩

theorem answerLimitsWrite_keeps (r : List Byte) (s : State) : Keeps s (answerLimitsWrite r s).state ∧
    replyOccupancy (answerLimitsWrite r s).state = replyOccupancy s := by
  unfold answerLimitsWrite
  split
  · next l hl => exact ⟨applyLimits_keeps l (parseLimits_valid hl) s, rfl⟩
  · exact ⟨Keeps.refl s, rfl⟩

theorem answerCounters_keeps (r : List Byte) (s : State) : Keeps s (answerCounters r s).state ∧
    replyOccupancy (answerCounters r s).state = replyOccupancy s := by
  unfold answerCounters
  split
  · exact ⟨Keeps.refl s, rfl⟩
  · exact ⟨Keeps.ofSettings s.classifier.table .zero s.notices.mask id, rfl⟩
  · exact ⟨Keeps.refl s, rfl⟩

theorem answerNoticeMask_keeps (r : List Byte) (s : State) : Keeps s (answerNoticeMask r s).state ∧
    replyOccupancy (answerNoticeMask r s).state = replyOccupancy s :=
  ⟨Keeps.ofSettings s.classifier.table s.agent.counters _ id, rfl⟩

/-! ### Reply places in the operations on blocks -/

/-- An operation leaves the reply places as they were. -/
def KeepsReplies (s t : State) : Prop := replyOccupancy t = replyOccupancy s

theorem requestNotice_replies (k : NoticeKind) (t : Option StreamId) (s : State) : KeepsReplies s (requestNotice k t s) := by
  unfold requestNotice KeepsReplies
  split
  · split
    · rfl
    · split
      · exact (judgePort_places _).2
      · rfl
  · rfl

theorem queueEntry_replies (t : StreamId) (c : EgressClass) (h : Handle) (s : State) : KeepsReplies s (queueEntry t c h s) := by
  unfold queueEntry KeepsReplies
  split
  · rfl
  · exact (judgePort_places _).2

theorem handOnBlocks_replies (t : StreamId) (c : EgressClass) (hs : List Handle) (s : State) :
    KeepsReplies s (handOnBlocks t c hs s) := by
  induction hs generalizing s with
  | nil => rfl
  | cons h hs ih => exact (ih _).trans (queueEntry_replies t c h s)

theorem complete_replies (t : StreamId) (h : Handle) (n : Nat) (short broken spliced : Bool) (s : State) (x : Ctx) :
    KeepsReplies s (complete t h n short broken spliced s x).1 := by
  unfold complete placeCompleted
  split
  · exact queueEntry_replies _ _ _ _
  · split
    · rfl
    · split
      · unfold overflowDropOldest
        split
        · rfl
        · exact requestNotice_replies _ _ _
      · exact requestNotice_replies _ _ _

theorem cut_replies (t : StreamId) (s : State) (x : Ctx) : KeepsReplies s (cut t s x).1 := by
  unfold cut
  split
  · exact complete_replies _ _ _ _ _ _ _ _
  all_goals rfl

theorem releaseHeld_replies (t : StreamId) (s : State) (x : Ctx) : KeepsReplies s (releaseHeld t s x).1 := by
  unfold releaseHeld
  split
  · exact handOnBlocks_replies _ _ _ _
  · rfl

/-- What an operation leaves of the link and of the reply queue, and so of the reply places. -/
def KeepsLink (s t : State) : Prop := t.link = s.link ∧ t.egress.replies = s.egress.replies

theorem KeepsLink.replies {s t : State} (h : KeepsLink s t) : KeepsReplies s t := by
  simp [KeepsReplies, replyOccupancy, h.1, h.2]

theorem KeepsLink.trans {s t u : State} (h : KeepsLink s t) (k : KeepsLink t u) : KeepsLink s u :=
  ⟨k.1.trans h.1, k.2.trans h.2⟩

theorem setReq_link (p : Party) (r : EngReq) (s : State) : KeepsLink s (setReq p r s) := by
  cases p <;> exact ⟨rfl, rfl⟩

theorem judgeTake_link (p : Party) (s : State) : KeepsLink s (judgeTake p s) := by
  unfold judgeTake
  split
  · split
    · split
      · exact ⟨rfl, rfl⟩
      · exact setReq_link p _ _
    · exact ⟨rfl, rfl⟩
  all_goals exact ⟨rfl, rfl⟩

theorem judgeLodge_link (p : Party) (s : State) : KeepsLink s (judgeLodge p s) := by
  unfold judgeLodge
  split
  · split
    · exact ⟨rfl, rfl⟩
    · exact setReq_link p _ s
  all_goals exact ⟨rfl, rfl⟩

theorem startRequest_link (p : Party) (s : State) : KeepsLink s (startRequest p s) := by
  unfold startRequest
  split
  · split
    · exact (setReq_link p _ s).trans (judgeTake_link p _)
    · split
      · exact (show KeepsLink s (beginFetch p _ _ s) from ⟨rfl, rfl⟩).trans (setReq_link p _ _)
      · exact ⟨rfl, rfl⟩
  · exact ⟨rfl, rfl⟩

theorem sendHead_link (c : StreamCell) (i : SlotNo) (s : State) : KeepsLink s (sendHead c i s) := by
  unfold sendHead
  split
  · exact ⟨rfl, rfl⟩
  · split
    · exact ⟨rfl, rfl⟩
    · split <;> exact ⟨rfl, rfl⟩

theorem dispatchHead_link (s : State) : KeepsLink s (dispatchHead s) := by
  unfold dispatchHead
  split
  · split
    · split
      · split <;> exact ⟨rfl, rfl⟩
      · split
        · exact sendHead_link _ _ _
        · exact ⟨rfl, rfl⟩
    · split
      · split
        · exact sendHead_link _ _ _
        · simp only
          split
          · split <;> exact ⟨rfl, rfl⟩
          · split <;> exact ⟨rfl, rfl⟩
      · exact ⟨rfl, rfl⟩
  · exact ⟨rfl, rfl⟩

theorem startNext_link (s : State) : KeepsLink s (startNext s) := by
  unfold startNext
  split
  · refine ((startRequest_link .management s).trans (startRequest_link .drain _)).trans ?_
    unfold startDispatcher
    split
    · exact (show KeepsLink _ _ from ⟨rfl, rfl⟩).trans (dispatchHead_link _)
    · exact ⟨rfl, rfl⟩
  all_goals exact ⟨rfl, rfl⟩

theorem askEngage_link (p : Party) (t : StreamId) (s : State) : KeepsLink s (askEngage p t s) := by
  unfold askEngage
  simp only
  split
  · exact (((setReq_link p _ s).trans (judgeTake_link p _)).trans (judgeLodge_link p _)).trans (startNext_link _)
  all_goals exact setReq_link p _ s

/-! ### Stream commands -/

/-- What the effect of a stream command has to show: the invariants, a legal configuration, the reply places. -/
def StreamAnswer.sound (s : State) (x : Ctx) (a : StreamAnswer) : Prop :=
  Keeps s a.state ∧ (x.cfg.valid = true → a.ctx.cfg.valid = true) ∧ replyOccupancy a.state = replyOccupancy s

theorem refuseStream_sound (st : Status) (s : State) (x : Ctx) : (refuseStream st s x).sound s x :=
  ⟨Keeps.refl s, id, rfl⟩

/-- An effect on a record that keeps its configuration. -/
theorem wroteStream_sound {s : State} {x : Ctx} {w : Work} (st : Status) (k : KeepsWork s x w) (r : KeepsReplies s w.1) :
    (wroteStream st w).sound s x :=
  ⟨k.1, fun h => (congrArg StreamCfg.valid k.2).trans h, r⟩

theorem answerOpen_sound (r : List Byte) (t : StreamId) (s : State) (x : Ctx) : (answerOpen r t s x).sound s x := by
  unfold answerOpen
  split
  · exact refuseStream_sound _ s x
  · next cfg hc =>
    split
    · exact ⟨Keeps.refl s, fun _ => parseCfg_valid hc, rfl⟩
    · exact refuseStream_sound _ s x

theorem answerPause_sound (r : List Byte) (t : StreamId) (s : State) (x : Ctx) : (answerPause r t s x).sound s x := by
  unfold answerPause
  split
  · exact ⟨Keeps.refl s, id, rfl⟩
  · exact refuseStream_sound _ s x

theorem answerResume_sound (r : List Byte) (t : StreamId) (s : State) (x : Ctx) : (answerResume r t s x).sound s x := by
  unfold answerResume
  split
  · exact ⟨Keeps.refl s, id, rfl⟩
  · exact refuseStream_sound _ s x

theorem answerCut_sound (r : List Byte) (t : StreamId) (s : State) (x : Ctx) : (answerCut r t s x).sound s x := by
  unfold answerCut
  split
  · exact ⟨(cut_keeps t s x).1, fun h => (congrArg StreamCfg.valid (cut_keeps t s x).2).trans h, cut_replies t s x⟩
  · exact refuseStream_sound _ s x

theorem answerRelease_sound (r : List Byte) (t : StreamId) (s : State) (x : Ctx) : (answerRelease r t s x).sound s x := by
  unfold answerRelease
  split
  · exact ⟨(releaseHeld_keeps t s x).1, fun h => (congrArg StreamCfg.valid (releaseHeld_keeps t s x).2).trans h,
      releaseHeld_replies t s x⟩
  · exact refuseStream_sound _ s x

theorem closeBlocks_keeps (t : StreamId) (s : State) (x : Ctx) :
    KeepsWork s x (closeBlocks t s x) ∧ KeepsReplies s (closeBlocks t s x).1 := by
  have k := cut_keeps t s x
  have k2 := releaseHeld_keeps t (cut t s x).1 { (cut t s x).2 with fill := .empty, seqValid := false }
  exact ⟨⟨k.1.trans k2.1, k2.2.trans k.2⟩, (releaseHeld_replies t _ _).trans (cut_replies t s x)⟩

theorem drainOrClose_sound (t : StreamId) {s : State} {x : Ctx} {w : Work} (k : KeepsWork s x w) (r : KeepsReplies s w.1) :
    (drainOrClose t w).sound s x := by
  unfold drainOrClose
  split
  · exact wroteStream_sound _ ⟨k.1, k.2⟩ r
  · exact wroteStream_sound _ ⟨k.1.trans (setDrainPending_keeps t true _), k.2⟩ r

theorem answerCloseGraceful_sound (r : List Byte) (t : StreamId) (s : State) (x : Ctx) :
    (answerCloseGraceful r t s x).sound s x := by
  unfold answerCloseGraceful
  split
  · exact refuseStream_sound _ s x
  · split
    · exact drainOrClose_sound t (closeBlocks_keeps t s x).1 (closeBlocks_keeps t s x).2
    · exact refuseStream_sound _ s x

theorem raiseDrain_link (t : StreamId) (s : State) : KeepsLink s (raiseDrain t s) := by
  unfold raiseDrain
  split
  · exact ⟨rfl, rfl⟩
  · unfold serveDrain
    split
    · exact askEngage_link _ _ _
    · exact ⟨rfl, rfl⟩

/-- Freeing queued blocks leaves the link and the replies (R60). -/
theorem freeAllQueued_link (hs : List Handle) (s : State) : KeepsLink s (freeAllQueued hs s) := by
  induction hs generalizing s with
  | nil => exact ⟨rfl, rfl⟩
  | cons h hs ih =>
    refine KeepsLink.trans ?_ (ih _)
    unfold freeQueued fallOutstanding
    simp only
    split
    · exact raiseDrain_link _ _
    · exact ⟨rfl, rfl⟩

theorem freeAll_link (hs : List Handle) (s : State) : KeepsLink s (freeAll hs s) := by
  induction hs generalizing s with
  | nil => exact ⟨rfl, rfl⟩
  | cons h hs ih => exact (show KeepsLink s (freeBlock h s) from ⟨rfl, rfl⟩).trans (ih _)

theorem markAbort_replies (t : StreamId) (s : State) : KeepsReplies s (markAbort t s) := by
  unfold markAbort KeepsReplies
  split
  · next hi =>
    split
    · simp [replyOccupancy, hi]
    · rfl
  all_goals rfl

theorem tearDown_replies (t : StreamId) (s : State) (x : Ctx) : KeepsReplies s (tearDown t s x).1 := by
  unfold tearDown
  simp only
  have h1 := (show KeepsLink s (setDrainPending t false s) from ⟨rfl, rfl⟩).trans (freeAll_link (ownedBlocks x) _)
  have h2 := fun q => h1.trans (freeAllQueued_link q _)
  exact ((judgePort_places _).2.trans (markAbort_replies t _)).trans (h2 _).replies

theorem answerCloseAbort_sound (r : List Byte) (t : StreamId) (s : State) (x : Ctx) :
    (answerCloseAbort r t s x).sound s x := by
  unfold answerCloseAbort
  split
  · exact refuseStream_sound _ s x
  · split
    · exact refuseStream_sound _ s x
    · exact wroteStream_sound _ (tearDown_keeps t s x) (tearDown_replies t s x)

theorem answerReconfigure_sound (r : List Byte) (t : StreamId) (s : State) (x : Ctx) :
    (answerReconfigure r t s x).sound s x := by
  unfold answerReconfigure
  split
  · exact refuseStream_sound _ s x
  · next cfg hc =>
    split
    · unfold reconfigure
      split
      · exact ⟨handOnBlocks_keeps _ _ _ _, fun _ => parseCfg_valid hc, handOnBlocks_replies _ _ _ _⟩
      all_goals exact ⟨Keeps.refl s, fun _ => parseCfg_valid hc, rfl⟩
    · exact refuseStream_sound _ s x

theorem answerQuery_sound (r : List Byte) (t : StreamId) (s : State) (x : Ctx) : (answerQuery r t s x).sound s x :=
  ⟨Keeps.refl s, id, rfl⟩

/-! ### Unit resets -/

/-- The execution of UNIT_RESET keeps every invariant (R167). -/
theorem unitReset_keeps (mine : List Byte → Bool) (s : State) : Keeps s (unitReset mine s) := by
  unfold unitReset
  split
  · next record he =>
    split
    · split
      · exact (Keeps.refl s).thenFinish record _ _ _ (fun b => b.placeFree he) rfl
      · exact ((Keeps.refl s).thenFinish record _ _ _ (fun b => b.placeFree he) rfl).trans (takeNext_keeps _)
    · exact Keeps.refl s
  all_goals exact Keeps.refl s

/-- A STREAMS reset takes effect: the agent tears down, and asks for stream 0 (R170). -/
theorem streamsReset_keeps (s : State) : Keeps s (streamsReset s) :=
  (Keeps.ofAgent (.tearing 0) s.agent.cmdq s.agent.cache id (fun h => by cases h)).trans (askEngage_keeps _ _ _)

/-- One stream of the teardown keeps every invariant (R170). -/
theorem teardownStep_keeps (s : State) : KeepsAgree s (teardownStep s) := by
  unfold teardownStep
  split
  · next n t i _ _ =>
    have k1 : KeepsWork s s.engine.slots[i].copy (tearDownUnlessClosed t s s.engine.slots[i].copy) := by
      unfold tearDownUnlessClosed
      split
      · exact ⟨Keeps.refl s, rfl⟩
      · exact tearDown_keeps _ _ _
    simp only
    have k2 := k1.1.thenSlot i
      { (tearDownUnlessClosed t s s.engine.slots[i].copy).1.engine.slots[i] with
        copy := (tearDownUnlessClosed t s s.engine.slots[i].copy).2 }
      fun h => (congrArg StreamCfg.valid k1.2).trans (h.slots i)
    have k3 := (k2.trans (setReq_keeps .management .idle _)).agree.trans
      (release_keeps i (decide (s.engine.slots[i].copy.state ≠ .closed)) _)
    split
    · exact k3.trans ((Keeps.ofAgent _ _ _ id (fun h => by cases h)).trans (askEngage_keeps _ _ _)).agree
    · exact k3.trans ((Keeps.ofAgent _ _ _ id (fun h => by cases h)).trans (takeNext_keeps _)).agree
  · exact (Keeps.refl s).agree

end Sys2Proof.Machine
end

