-- ==== Sys2Proof/Laws/Link.lean ====
section
/-!
SUPPORT. The events of the frame link, the stall timer and the FULL reset keep the invariants.
-/
namespace Sys2Proof.Machine

open Sys2Proof

/-- Every invariant but those of the frame link port, of which the weak form is kept. -/
structure KeepsBut (s t : State) : Prop extends KeepsCore s t where
  fits : PortEngineAgree s → PortEngineAgree t

theorem KeepsBut.trans {s t u : State} (h : KeepsBut s t) (k : KeepsBut t u) : KeepsBut s u :=
  { toKeepsCore := h.toKeepsCore.trans k.toKeepsCore, fits := k.fits ∘ h.fits }

theorem Keeps.but {s t : State} (h : Keeps s t) : KeepsBut s t := { toKeepsCore := h.toKeepsCore, fits := h.fits }

theorem KeepsBut.ofModes {s t : State} (h : KeepsCore s t)
    (m : t.ingress.port = s.ingress.port ∧ t.engine.mode = s.engine.mode) : KeepsBut s t :=
  { toKeepsCore := h, fits := fun p => by rw [PortEngineAgree, m.1, m.2]; exact p }

/-- The port judged again after an event makes the link agree. -/
theorem KeepsBut.thenJudge {s t : State} (h : KeepsBut s t) : KeepsAgree s (judgePort t) :=
  { toKeepsCore := (h.trans (judgePort_keeps t).but).toKeepsCore
    fits := (judgePort_keeps t).fits ∘ h.fits
    link := fun l => judgePort_agrees (h.weak l.toWeak) }

/-! ### The FULL reset (R171) -/

/-- A FULL reset keeps every invariant, whatever was in progress (R70, R105, R125, R148, R171, R181). -/
theorem fullReset_keeps (s : State) : KeepsBut s (fullReset s) := by
  have core : KeepsCore s (judgeHold { s with
      ingress := ⟨.init, [], false, true, s.ingress.rsp⟩
      classifier := .reset s.classifier.unitAddr
      assembler := s.assembler.map (fun a => a.overtake s)
      pool := .reset s.pool.mem
      egress := .reset
      agent := .reset
      notices := .reset }) := {
    queue := rfl, unit := rfl, memory := id, hold := fun _ => rfl, frame := id, ranks := id
    low := fun _ => by simp [PoolLowAgrees, judgeHold, Pool.reset, Agent.reset, Limits.reset]
    bounds := fun b => by
      refine ⟨by simp [judgeHold], by simp [judgeHold, Agent.reset], b.parked, ?_, by simp [judgeHold, NoticeUnit.reset],
        b.credit, ?_, fun e => by cases e⟩
      · simp only [noticePlaces, judgeHold, NoticeUnit.reset, Config.noticeDepth]
        split <;> simp
      · simp only [replyOccupancy, judgeHold, Egress.reset, Config.replyDepth]
        split <;> simp
    limits := fun _ => by
      have : Limits.reset.valid = true := by decide
      exact this
    table := fun _ n => by
      have : EntryAccepted ClassEntry.reset := by unfold EntryAccepted; decide
      simpa [judgeHold, Classifier.reset] using this
    configs := fun h => ⟨h.store, h.slots⟩
    weak := fun h => ⟨h.sending, h.waiting, h.stalled, h.timer⟩ }
  refine { toKeepsCore := core.trans (requestSweep_core .init _).1, fits := fun _ => ?_ }
  unfold fullReset requestSweep
  split
  · exact (leaveSweepWait_keeps _).fits rfl
  · rfl
  · rfl
  · next k hm hk =>
    cases k with
    | init => exact (congrArg (portFits .init) hm).trans rfl
    | bus => exact absurd hm (fun _ => hk rfl rfl)
  · next hm => exact (congrArg (portFits .init) hm).trans rfl
  · next h => cases h

theorem resetEffect_keeps (s : State) : KeepsBut s (resetEffect s) := by
  unfold resetEffect
  split
  · exact fullReset_keeps s
  · exact (streamsReset_keeps s).but
  all_goals exact (Keeps.refl s).but

/-! ### Completion of a frame (R140) -/

/-- Nothing is in flight any more; the port is to be judged again. -/
theorem endFlight_keeps (s : State) : KeepsBut s { s with link.inflight := none, link.frame := [] } where
  queue := rfl
  unit := rfl
  memory := id
  hold := id
  low := id
  frame _ _ := rfl
  bounds b := ⟨b.fifo, b.commands, b.parked, by have := b.notices; simp only [noticePlaces] at this ⊢; omega,
    b.lost, b.credit, by have := b.replies; simp only [replyOccupancy] at this ⊢; omega,
    fun e => by have := b.reserved e; simp only [replyOccupancy] at this ⊢; omega⟩
  limits := id
  table := id
  configs h := ⟨h.store, h.slots⟩
  ranks := id
  weak w := ⟨fun e => (nomatch e), w.waiting, w.stalled, w.timer⟩
  fits := id

theorem discardItem_keeps (item : Item) (s : State) : KeepsBut s (discardItem item s) := by
  unfold discardItem
  split
  · exact .ofModes (freeSending_core _ s).1 (freeSending_core _ s).2
  all_goals exact (Keeps.refl s).but

theorem tellAgent_keeps (item : Item) (s : State) : KeepsBut s (tellAgent item s) := by
  unfold tellAgent resetAtReply
  split
  · split
    · exact resetEffect_keeps s
    · exact (Keeps.refl s).but
  all_goals exact (Keeps.refl s).but

/-- The agent that is handed a reply place keeps every invariant (R151). -/
theorem serveAgent_keeps (s : State) : Keeps s (serveAgent s) := by
  unfold serveAgent
  split
  · exact (Keeps.ofAgent _ _ _ id (fun h => by cases h)).trans (takeNext_keeps _)
  all_goals exact Keeps.refl s

/-- The completion of a frame keeps every invariant (R140). -/
theorem frameDone_keeps (s : State) : KeepsAgree s (frameDone s) := by
  unfold frameDone
  split
  · exact (Keeps.refl s).agree
  · next item _ =>
    have k := (((discardItem_keeps item s).trans (endFlight_keeps _)).trans (count_keeps .framesSent _).but).trans
      (tellAgent_keeps item _)
    exact k.thenJudge.trans (serveAgent_keeps _).agree

/-! ### Return lane (R132, R144) -/

/-- With credit, the port judged again agrees whether it was waiting or not. -/
theorem judgePort_agrees_of_credit {s : State} (hs : s.link.inflight.isSome = true → s.link.port = .sending)
    (ht : s.link.timer.isSome = true → s.link.port = .waiting) (hp : s.link.port ≠ .stalled) (hc : 0 < s.link.credit) :
    LinkAgrees (judgePort s) := by
  have ofTake : hasWaiting s = true → LinkAgrees (takeForSending s) := fun hx => by
    obtain ⟨item, h1, h2, -, h4⟩ := takeForSending_link hx
    constructor <;> simp [h1, h2, h4]
  unfold judgePort
  split
  · next i hi =>
    have hp := hs (by simp [hi])
    constructor <;> simp_all
  · split
    · next h => exact absurd h hp
    all_goals
      split
      · next hx =>
        exact ofTake hx
      · next hx => constructor <;> simp_all [hasWaiting]

/-- A credit grant keeps every invariant (R132, R133). -/
theorem grant_keeps (g : BitVec 4) (s : State) : KeepsAgree s (grant g s) := by
  unfold grant
  split
  · exact (Keeps.refl s).agree
  · next hg =>
    have pos : 0 < g.toNat := Nat.pos_of_ne_zero fun h => hg (BitVec.eq_of_toNat_eq h)
    have credit : 0 < (endStall (addCredit g.toNat s)).link.credit ∧
        (endStall (addCredit g.toNat s)).link.credit ≤ Config.creditMax := by
      unfold endStall addCredit
      split <;> split <;> simp only [count_frame, Config.creditMax] at * <;> omega
    have port : (endStall (addCredit g.toNat s)).link.port ≠ .stalled ∧
        (s.link.port ≠ .stalled → (endStall (addCredit g.toNat s)).link.port = s.link.port) := by
      have ha : (addCredit g.toNat s).link.port = s.link.port := by unfold addCredit; split <;> rfl
      rw [← ha]
      generalize addCredit g.toNat s = v
      unfold endStall
      split <;> simp_all
    have same : (endStall (addCredit g.toNat s)).link.inflight = s.link.inflight ∧
        (endStall (addCredit g.toNat s)).link.timer = s.link.timer ∧
        (endStall (addCredit g.toNat s)).link.frame = s.link.frame := by
      unfold endStall addCredit
      split <;> split <;> simp
    have rest : (endStall (addCredit g.toNat s)).ingress = s.ingress ∧
        (endStall (addCredit g.toNat s)).classifier = s.classifier ∧
        (endStall (addCredit g.toNat s)).engine = s.engine ∧ (endStall (addCredit g.toNat s)).pool = s.pool ∧
        (endStall (addCredit g.toNat s)).egress = s.egress ∧ (endStall (addCredit g.toNat s)).notices = s.notices ∧
        (endStall (addCredit g.toNat s)).resetLow = s.resetLow ∧ (endStall (addCredit g.toNat s)).pending = s.pending ∧
        (endStall (addCredit g.toNat s)).agent.cmdq = s.agent.cmdq ∧
        (endStall (addCredit g.toNat s)).agent.state = s.agent.state ∧
        (endStall (addCredit g.toNat s)).agent.limits = s.agent.limits := by
      unfold endStall addCredit
      split <;> split <;> simp
    generalize endStall (addCredit g.toNat s) = u at *
    obtain ⟨r1, r2, r3, r4, r5, r6, r7, r8, r9, r10, r11⟩ := rest
    have p := judgePort_core u
    have sending : LinkWeak s → u.link.inflight.isSome = true → u.link.port = .sending := fun w hi => by
      rw [same.1] at hi
      have := w.sending hi
      rw [port.2 (by simp [this]), this]
    have timer : LinkWeak s → u.link.timer.isSome = true → u.link.port = .waiting := fun w hi => by
      rw [same.2.1] at hi
      have := w.timer hi
      rw [port.2 (by simp [this]), this]
    have link : LinkWeak s → LinkAgrees (judgePort u) := fun w =>
      judgePort_agrees_of_credit (sending w) (timer w) port.1 credit.1
    exact {
      queue := p.queue.trans r8
      unit := p.unit.trans (by rw [r2])
      memory := fun h => p.memory (by simpa [MemoryCanonical, r4] using h)
      hold := fun h => p.hold (by simpa [HoldAgrees, holdDue, r1, r4, r7] using h)
      low := fun h => p.low (by simpa [PoolLowAgrees, r4, r11] using h)
      frame := fun h => p.frame (by simpa [FrameAgrees, same] using h)
      limits := fun h => p.limits (by simpa [LimitsLegal, r11] using h)
      table := fun h => p.table (by simpa [TableLegal, r2] using h)
      configs := fun h => p.configs ⟨by rw [r3]; exact h.store, by rw [r3]; exact h.slots⟩
      ranks := fun h => p.ranks (by simpa [RanksComplete, r3] using h)
      bounds := fun h => p.bounds ⟨by rw [r1]; exact h.fifo, by rw [r9]; exact h.commands, by rw [r3]; exact h.parked,
        by have := h.notices; simpa [noticePlaces, r6, same] using this, by rw [r6]; exact h.lost, credit.2,
        by have := h.replies; simpa [replyOccupancy, r5, same] using this,
        by have := h.reserved; simpa [replyOccupancy, r5, r10, same] using this⟩
      weak := fun w => (link w).toWeak
      fits := fun h => by
        rw [PortEngineAgree, (judgePort_modes u).1, (judgePort_modes u).2, r1, r3]
        exact h
      link := fun l => link l.toWeak }

theorem returnNotice_length (n : Notice) (q : List Notice) : (returnNotice n q).length ≤ q.length + 1 := by
  unfold returnNotice
  split
  · simp only [List.length_cons]
    have := List.length_erase_le (a := by assumption) (l := q)
    omega
  · simp

/-- A returned notice stands at the head, changed in its repeat count at most, and unchanged if no record of its kind and stream
waits (R180). -/
theorem returnNotice_head (n : Notice) (q : List Notice) : ∃ k rest, returnNotice n q = { n with repeats := k } :: rest ∧
    ((∀ m ∈ q, m.isFor n.kind n.stream = false) → k = n.repeats ∧ rest = q) := by
  unfold returnNotice
  split
  · next m found =>
    have fits : m.isFor n.kind n.stream = true := by simpa using List.find?_some found
    exact ⟨_, _, rfl, fun unmatched => by simp [unmatched m (List.mem_of_find?_eq_some found)] at fits⟩
  · exact ⟨n.repeats, q, rfl, fun _ => ⟨rfl, rfl⟩⟩

/-- The repeat count of a notice shows in byte 3 of its body alone (R186). -/
theorem Notice.body_repeats (n : Notice) (k : Nat) :
    Notice.body { n with repeats := k } = n.body.set 3 (byteOf k) := rfl

/-- The frame of an item that an abandon gives back, built anew, is the abandoned one: of a block, a reply, and a notice as it was
taken (R137, R145, R186). -/
theorem frameOf_abandonItem (u : BitVec 3) (s : State) (item : Item) (kept : ∀ h c, item ≠ .block h c true) :
    frameOf u (abandonItem item s).pool item = frameOf u s.pool item := by
  match item with
  | .block h c true => exact absurd rfl (kept h c)
  | .block h c false =>
    have back : (abandonItem (.block h c false) s).pool.desc[h] = { s.pool.desc[h] with state := .queued } :=
      Vector.getElem_set_self _
    show frameBytes 1 u (blockBody s.pool.mem (abandonItem (.block h c false) s).pool.desc[h]) = _
    rw [back]
    rfl
  | .reply _ | .notice _ => rfl

/-- An abandoned frame leaves nothing in flight, and its item where R144 and R180 put it. -/
theorem abandon_keeps (s : State) : KeepsBut s (abandon s) := by
  unfold abandon
  split
  · exact (Keeps.refl s).but
  · next item hi =>
    cases item with
    | block h c aborted =>
      cases aborted with
      | true => exact (KeepsBut.ofModes (freeSending_core h s).1 (freeSending_core h s).2).trans (endFlight_keeps _)
      | false =>
        have k : KeepsBut s (setQueue c (h :: s.egress.queues[c]) (setDescState h .queued s)) :=
          ((setDescState_keeps h .queued s).but).trans (.ofModes (setQueues_core _ _) ⟨rfl, rfl⟩)
        exact k.trans (endFlight_keeps _)
    | reply r =>
      exact {
        queue := rfl, unit := rfl, memory := id, hold := id, low := id, frame := fun _ _ => rfl, limits := id
        table := id, ranks := id, fits := id
        bounds := fun b => ⟨b.fifo, b.commands, b.parked,
          by have := b.notices; simp only [noticePlaces, hi, abandonItem] at this ⊢; exact this, b.lost, b.credit,
          by have := b.replies; simp only [replyOccupancy, hi, abandonItem, List.length_cons] at this ⊢; omega,
          fun e => by
            have := b.reserved e; simp only [replyOccupancy, hi, abandonItem, List.length_cons] at this ⊢; omega⟩
        configs := fun h => ⟨h.store, h.slots⟩
        weak := fun w => ⟨fun e => (nomatch e), w.waiting, w.stalled, w.timer⟩ }
    | notice n =>
      exact {
        queue := rfl, unit := rfl, memory := id, hold := id, low := id, frame := fun _ _ => rfl, limits := id
        table := id, ranks := id, fits := id
        bounds := fun b => ⟨b.fifo, b.commands, b.parked,
          by
            have := b.notices
            have hl := returnNotice_length n s.notices.queue
            simp only [noticePlaces, hi, abandonItem] at this ⊢
            omega, b.lost, b.credit,
          by have := b.replies; simp only [replyOccupancy, hi, abandonItem] at this ⊢; exact this,
          fun e => by have := b.reserved e; simp only [replyOccupancy, hi, abandonItem] at this ⊢; exact this⟩
        configs := fun h => ⟨h.store, h.slots⟩
        weak := fun w => ⟨fun e => (nomatch e), w.waiting, w.stalled, w.timer⟩ }

theorem abandon_inflight (s : State) : (abandon s).link.inflight = none := by
  unfold abandon
  split
  · assumption
  · rfl

/-- An egress link reset keeps every invariant (R144). -/
theorem linkReset_keeps (s : State) : KeepsAgree s (linkReset s) := by
  have k := (abandon_keeps s).trans (count_keeps .egressLinkResets _).but
  have hi : (count .egressLinkResets (abandon s)).link.inflight = none := abandon_inflight s
  unfold linkReset
  generalize count .egressLinkResets (abandon s) = u at *
  have c : KeepsBut u { u with link.credit := 0, link.port := .idle, link.timer := none } := {
    queue := rfl, unit := rfl, memory := id, hold := id, low := id, frame := id, limits := id, table := id, ranks := id
    fits := id
    bounds := fun b => ⟨b.fifo, b.commands, b.parked, b.notices, b.lost, Nat.zero_le _, b.replies, b.reserved⟩
    configs := fun h => ⟨h.store, h.slots⟩
    weak := fun _ => ⟨fun e => by simp [hi] at e, fun e => (nomatch e), fun e => (nomatch e), fun e => (nomatch e)⟩ }
  exact (k.trans c).thenJudge

/-! ### Stall (R134) -/

theorem purgeStalled_keeps (hs : List Handle) (s : State) :
    KeepsBut s (purgeStalled hs s) ∧ KeepsLink s (purgeStalled hs s) := by
  induction hs generalizing s with
  | nil => exact ⟨(Keeps.refl s).but, rfl, rfl⟩
  | cons h hs ih =>
    have k := (KeepsBut.ofModes (freeQueued_core h s).1 (freeQueued_core h s).2).trans
      (count_keeps .stallDiscards _).but
    have l : KeepsLink s (count .stallDiscards (freeQueued h s)) := freeAllQueued_link [h] s
    exact ⟨k.trans (ih _).1, l.trans (ih _).2⟩

theorem purgeClass_keeps (c : EgressClass) (s : State) :
    KeepsBut s (purgeClass c s) ∧ KeepsLink s (purgeClass c s) := by
  unfold purgeClass
  split
  · exact purgeStalled_keeps _ s
  · exact ⟨(Keeps.refl s).but, rfl, rfl⟩

theorem stallPurge_keeps (s : State) : KeepsBut s (stallPurge s) ∧ KeepsLink s (stallPurge s) := by
  have h0 := purgeClass_keeps 0 s
  have h1 := purgeClass_keeps 1 (purgeClass 0 s)
  have h2 := purgeClass_keeps 2 (purgeClass 1 (purgeClass 0 s))
  have h3 := purgeClass_keeps 3 (purgeClass 2 (purgeClass 1 (purgeClass 0 s)))
  exact ⟨((h0.1.trans h1.1).trans h2.1).trans h3.1, ((h0.2.trans h1.2).trans h2.2).trans h3.2⟩

/-- While STALLED a notice request leaves the link. -/
theorem requestNotice_link {s : State} (k : NoticeKind) (t : Option StreamId) (h : s.link.port = .stalled) :
    (requestNotice k t s).link = s.link := by
  unfold requestNotice
  split
  · split
    · rfl
    · split
      · rw [judgePort_of_stalled (by exact h)]
      · rfl
  · rfl

theorem handOn_link (i : SlotNo) (s : State) : (handOn i s).link = s.link := by
  have hand : ∀ (p : Party) (t : StreamId) (u : State), handTo p i t s = some u → u.link = s.link := by
    intro p t u h
    unfold handTo at h
    split at h
    · split at h
      · cases h; exact (setReq_link p _ _).1
      · cases h
    all_goals cases h
  unfold handOn
  split
  · rfl
  · split
    · unfold handToParked
      split
      · rfl
      · split <;> rfl
    · split
      · next h => exact hand _ _ _ h
      · split
        · next h => exact hand _ _ _ h
        · unfold handToHead
          split
          · split <;> rfl
          · rfl

theorem leaveSweepWait_link (s : State) : (leaveSweepWait s).link = s.link := by
  have parked : (discardParked s).link = s.link := by
    unfold discardParked
    split
    · rfl
    · split <;> rfl
  unfold leaveSweepWait
  split
  · split
    · split
      · rfl
      · exact parked
    · rfl
  all_goals rfl

theorem fullReset_link (s : State) : (fullReset s).link = s.link := by
  unfold fullReset requestSweep
  split
  · exact leaveSweepWait_link _
  all_goals rfl

theorem resetEffect_link (s : State) : (resetEffect s).link = s.link := by
  unfold resetEffect
  split
  · exact fullReset_link s
  · exact (askEngage_link _ _ _).1
  all_goals rfl

/-- The expiry, taken in WAITING, keeps every invariant (R134, R168). -/
theorem expire_keeps {s : State} (hp : s.link.port = .waiting) : KeepsAgree s (expire s) := by
  have stall : KeepsBut s { s with link.port := .stalled, link.timer := none } := {
    queue := rfl, unit := rfl, memory := id, hold := id, low := id, frame := id, limits := id, table := id, ranks := id
    fits := id
    bounds := fun b => ⟨b.fifo, b.commands, b.parked, b.notices, b.lost, b.credit, b.replies, b.reserved⟩
    configs := fun h => ⟨h.store, h.slots⟩
    weak := fun w => ⟨fun e => by have := w.sending e; simp [hp] at this, fun e => (nomatch e), fun _ => w.waiting hp,
      fun e => (nomatch e)⟩ }
  obtain ⟨pk, pl⟩ := stallPurge_keeps { s with link.port := .stalled, link.timer := none }
  have nk := requestNotice_keeps .egressStall none (stallPurge { s with link.port := .stalled, link.timer := none })
  have nl := requestNotice_link .egressStall none (s := stallPurge { s with link.port := .stalled, link.timer := none })
    (by rw [pl.1])
  have k : KeepsBut s (expire s) := by
    refine ((stall.trans pk).trans nk.but).trans ?_
    unfold expire resetAtExpiry
    split
    · exact (Keeps.refl _).but
    · exact resetEffect_keeps _
  have l : (expire s).link = { s.link with port := .stalled, timer := none } := by
    unfold expire resetAtExpiry
    split
    · exact nl.trans pl.1
    · exact (resetEffect_link _).trans (nl.trans pl.1)
  exact {
    toKeepsCore := k.toKeepsCore
    fits := k.fits
    link := fun a => by
      have hi : s.link.inflight = none := by
        cases h : s.link.inflight with
        | none => rfl
        | some x => have := a.sending.mpr (by simp [h]); simp [hp] at this
      constructor <;> simp [l, hi, (a.waiting hp).1] }

theorem stallExpiry_keeps (s : State) : KeepsAgree s (stallExpiry s) := by
  unfold stallExpiry
  split
  · next hp _ => exact expire_keeps hp
  · exact (Keeps.refl s).agree

/-- One µs keeps every invariant (R134). -/
theorem passMicrosecond_keeps (s : State) : KeepsAgree s (passMicrosecond s) := by
  unfold passMicrosecond
  split
  · exact (Keeps.refl s).agree
  · next n ht =>
    split
    · exact stallExpiry_keeps s
    · exact {
        queue := rfl, unit := rfl, memory := id, hold := id, low := id, frame := id, limits := id, table := id, ranks := id
        bounds := fun b => ⟨b.fifo, b.commands, b.parked, b.notices, b.lost, b.credit, b.replies, b.reserved⟩
        configs := fun h => ⟨h.store, h.slots⟩
        weak := fun w => ⟨w.sending, w.waiting, w.stalled, fun _ => w.timer (by simp [ht])⟩
        fits := id
        link := fun l => ⟨l.sending, l.idle, l.waiting, l.stalled, fun _ => l.timer (by simp [ht])⟩ }

end Sys2Proof.Machine
end

