-- ==== Sys2Proof/Laws/PerInstr.lean ====
section
/-!
SUPPORT. What holds of every command as syntax, one lemma per constructor.
-/
namespace Sys2Proof.Laws

open Sys2Proof

/-- A well-formed command that the return lane carries is read back from its byte (R187). -/
def ReturnLane.Statement (i : Instr) : Prop :=
  i.wellFormed = true → ∀ b : Byte, returnLaneByte i = some b → decodeReturnLane b = i

/-- A command that no byte of the return lane carries. -/
theorem ReturnLane.of_none {i : Instr} (h : returnLaneByte i = none) : ReturnLane.Statement i := fun _ b hb => by
  rw [h] at hb
  cases hb

theorem ReturnLane.resetNAssert (n : Nat) : ReturnLane.Statement (.resetNAssert n) := ReturnLane.of_none rfl

theorem ReturnLane.resetNRelease (s : BitVec 3) : ReturnLane.Statement (.resetNRelease s) := ReturnLane.of_none rfl

theorem ReturnLane.initSweepCompletion : ReturnLane.Statement .initSweepCompletion := ReturnLane.of_none rfl

theorem ReturnLane.cellArrival (b : List Byte) : ReturnLane.Statement (.cellArrival b) := ReturnLane.of_none rfl

theorem ReturnLane.busResetSequence : ReturnLane.Statement .busResetSequence := ReturnLane.of_none rfl

theorem ReturnLane.busSweepStep : ReturnLane.Statement .busSweepStep := ReturnLane.of_none rfl

theorem ReturnLane.dispatch : ReturnLane.Statement .dispatch := ReturnLane.of_none rfl

theorem ReturnLane.writeBackCompletion : ReturnLane.Statement .writeBackCompletion := ReturnLane.of_none rfl

theorem ReturnLane.fetchCompletion : ReturnLane.Statement .fetchCompletion := ReturnLane.of_none rfl

theorem ReturnLane.cellAssembly : ReturnLane.Statement .cellAssembly := ReturnLane.of_none rfl

theorem ReturnLane.drainCompletion : ReturnLane.Statement .drainCompletion := ReturnLane.of_none rfl

theorem ReturnLane.commandTake : ReturnLane.Statement .commandTake := ReturnLane.of_none rfl

theorem ReturnLane.ident : ReturnLane.Statement .ident := ReturnLane.of_none rfl

theorem ReturnLane.classWrite : ReturnLane.Statement .classWrite := ReturnLane.of_none rfl

theorem ReturnLane.classRead : ReturnLane.Statement .classRead := ReturnLane.of_none rfl

theorem ReturnLane.streamOpen : ReturnLane.Statement .streamOpen := ReturnLane.of_none rfl

theorem ReturnLane.streamCloseGraceful : ReturnLane.Statement .streamCloseGraceful := ReturnLane.of_none rfl

theorem ReturnLane.streamCloseAbort : ReturnLane.Statement .streamCloseAbort := ReturnLane.of_none rfl

theorem ReturnLane.streamPause : ReturnLane.Statement .streamPause := ReturnLane.of_none rfl

theorem ReturnLane.streamResume : ReturnLane.Statement .streamResume := ReturnLane.of_none rfl

theorem ReturnLane.streamCut : ReturnLane.Statement .streamCut := ReturnLane.of_none rfl

theorem ReturnLane.streamRelease : ReturnLane.Statement .streamRelease := ReturnLane.of_none rfl

theorem ReturnLane.streamReconfigure : ReturnLane.Statement .streamReconfigure := ReturnLane.of_none rfl

theorem ReturnLane.streamQuery : ReturnLane.Statement .streamQuery := ReturnLane.of_none rfl

theorem ReturnLane.poolQuery : ReturnLane.Statement .poolQuery := ReturnLane.of_none rfl

theorem ReturnLane.limitsWrite : ReturnLane.Statement .limitsWrite := ReturnLane.of_none rfl

theorem ReturnLane.limitsRead : ReturnLane.Statement .limitsRead := ReturnLane.of_none rfl

theorem ReturnLane.countersRead : ReturnLane.Statement .countersRead := ReturnLane.of_none rfl

theorem ReturnLane.countersReadClear : ReturnLane.Statement .countersReadClear := ReturnLane.of_none rfl

theorem ReturnLane.noticeMaskWrite : ReturnLane.Statement .noticeMaskWrite := ReturnLane.of_none rfl

theorem ReturnLane.unitResetStreams : ReturnLane.Statement .unitResetStreams := ReturnLane.of_none rfl

theorem ReturnLane.unitResetFull : ReturnLane.Statement .unitResetFull := ReturnLane.of_none rfl

theorem ReturnLane.streamsTeardown : ReturnLane.Statement .streamsTeardown := ReturnLane.of_none rfl

theorem ReturnLane.frameCompletion : ReturnLane.Statement .frameCompletion := ReturnLane.of_none rfl

theorem ReturnLane.creditGrant (g : BitVec 4) : ReturnLane.Statement (.creditGrant g) := fun _ b hb => by
  cases hb
  revert g
  decide

theorem ReturnLane.egressLinkReset (g : BitVec 4) : ReturnLane.Statement (.egressLinkReset g) := fun _ b hb => by
  cases hb
  revert g
  decide

theorem ReturnLane.returnLaneOther (b : Byte) : ReturnLane.Statement (.returnLaneOther b) := fun wf c hb => by
  cases hb
  simp only [Instr.wellFormed, decide_eq_true_eq] at wf
  unfold decodeReturnLane
  rw [if_neg wf.1, if_neg wf.2]

theorem ReturnLane.stallExpiry : ReturnLane.Statement .stallExpiry := ReturnLane.of_none rfl

end Sys2Proof.Laws
end

