-- ==== Sys2Proof/Tests/Slice0.lean ====
section
/-!
SUPPORT. Tests of the model: ill-formed terms, the two checks, the worked cases of the spec, and for every statement of
Sys2Proof/Certificates/Slice0/Obligations.lean that has hypotheses a state and operands that meet them (witness_…).
-/
namespace Sys2Proof.Tests

open Sys2Proof Sys2Proof.Machine

-- One theorem at a time: each evaluation by the kernel waits for all before it, and would hold a thread meanwhile.
set_option Elab.async false

/-! ### Well-formedness -/

theorem test_short_reset_pulse_is_ill_formed :
    (Instr.resetNAssert 1999).wellFormed = false ∧ (Instr.resetNAssert 2000).wellFormed = true := by decide

theorem test_cell_of_wrong_length_is_ill_formed :
    (Instr.cellArrival [0x10, 1, 1, 0, 0, 9, 9]).wellFormed = false ∧
    (Instr.cellArrival [0x10, 1, 1, 0, 0, 9, 9, 9]).wellFormed = true ∧ (Instr.cellArrival []).wellFormed = false := by decide

theorem test_known_return_type_is_ill_formed_as_other :
    (Instr.returnLaneOther 0x10).wellFormed = false ∧ (Instr.returnLaneOther 0x2F).wellFormed = false ∧
    (Instr.returnLaneOther 0x0F).wellFormed = true ∧ (Instr.returnLaneOther 0x30).wellFormed = true := by decide

/-- Return-lane bytes written out from R187: type in bits 7–4. -/
theorem test_return_lane_bytes :
    decodeReturnLane 0x13 = .creditGrant 3 ∧ decodeReturnLane 0x10 = .creditGrant 0 ∧
    decodeReturnLane 0x25 = .egressLinkReset 5 ∧ decodeReturnLane 0x35 = .returnLaneOther 0x35 := by decide

theorem test_no_word_spells_a_command : decodeTableWord 8 0x13 = none := by decide

/-! ### Layouts and checks (spec/11) -/

/-- The check value that R184 gives for 123456789. -/
theorem test_crc16_check_value : crc16 [0x31, 0x32, 0x33, 0x34, 0x35, 0x36, 0x37, 0x38, 0x39] = 0x29B1 := by decide +kernel

/-- The check value that R186 gives for 123456789. -/
theorem test_crc32_check_value : crc32 [0x31, 0x32, 0x33, 0x34, 0x35, 0x36, 0x37, 0x38, 0x39] = 0xFC891918 := by
  decide +kernel

/-- A cell with the fields given, spare bits 0 and a correct check. -/
def cell (kind : BitVec 2) (sync : Bool) (tag : BitVec 12) (seq : Byte) (payload : List Byte) : List Byte :=
  cellBytes 1 kind sync false false 0 tag seq payload (crc16 ((cellBytes 1 kind sync false false 0 tag seq payload 0).take
    (5 + payload.length)))

/-- A DATA cell with SYNC, written out from Table 11-1. -/
theorem test_data_cell_bytes : (cell 0 true 0x105 7 [0xAA, 0xBB]).take 7 = [0x12, 2, 0x01, 0x05, 7, 0xAA, 0xBB] ∧
    parseCell (cell 0 true 0x105 7 [0xAA, 0xBB]) = some ⟨1, .data, true, 0x105, 7, [0xAA, 0xBB], true⟩ := by
  decide +kernel

/-- The configuration block 2-byte samples, 3 rows, 4 columns, class 1, held limit 4, COLUMN_FIRST, HELD. -/
theorem test_configuration_block :
    parseCfg [2, 3, 0, 4, 1, 4, 3] =
      some ⟨⟨2, 3, 4, .columnFirst⟩, .held, 1, 4, .resync, .emit, .dropOldest⟩ ∧
    parseCfg [4, 4, 1, 0, 0, 4, 0] ≠ none ∧ parseCfg [4, 4, 1, 1, 0, 4, 0] = none := by decide

/-- The three CLASS_WRITE commands of Table 5-7. -/
theorem test_table_5_7 :
    parseEntry [4, 1, 0x03, 0x00, 0x0F, 0x00, 0x13, 250] = none ∧ parseEntry [4, 1, 0x0F, 0x00, 0x0F, 0x00, 0x00, 60] = none ∧
    parseEntry [4, 1, 0x03, 0x00, 0x0F, 0x00, 0x13, 248] = some (4, ⟨true, 0x300, 0xF00, .spread, 248, 3⟩) := by decide

/-! ### Worked cases of the spec -/

/-- The classification table of Table 5-5. -/
def table55 : Classifier where
  table := ((((Vector.replicate 64 ClassEntry.reset).set 0 ⟨true, 0x105, 0xFFF, .discard, 0, 0⟩).set 1
    ⟨true, 0x100, 0xFF0, .spread, 0, 4⟩).set 2 ⟨true, 0x110, 0xFF0, .spread, 16, 4⟩).set 3 ⟨true, 0x200, 0xF00, .stream, 40, 0⟩
  unitAddr := 2

/-- The resolutions of Table 5-6. -/
theorem test_table_5_6 :
    resolve table55 0x103 = .stream 3 ∧ resolve table55 0x105 = .discard ∧ resolve table55 0x11A = .stream 26 ∧
    resolve table55 0x120 = .noClaim ∧ resolve table55 0x2C7 = .stream 40 ∧ resolve table55 0xFF2 = .managementUnit ∧
    resolve table55 0xFF5 = .noClaim ∧ resolve table55 0xFFA = .noClaim ∧ resolve table55 0xFFF = .managementBroadcast := by
  decide +kernel

/-- Tables 2-3 and 2-4: the fill index at each position of a 3 × 4 block, and where fill index 6 or 7 lies. -/
theorem test_tables_2_3_and_2_4 :
    let a : Geometry := ⟨2, 3, 4, .rowFirst⟩
    let b : Geometry := ⟨2, 3, 4, .columnFirst⟩
    (List.range 12).map (fun p => a.indexAt (p / 4) (p % 4)) = List.range 12 ∧
    (List.range 12).map (fun p => b.indexAt (p / 4) (p % 4)) = [0, 3, 6, 9, 1, 4, 7, 10, 2, 5, 8, 11] ∧
    a.byteAt (a.rowOf 6) (a.colOf 6) = 12 ∧ b.rowOf 7 = 1 ∧ b.colOf 7 = 2 ∧ a.pages = 1 := by decide

/-- A sample across a page end (02, worked placement): bytes 510 to 512 of a block in pages 71 and 72. -/
theorem test_sample_crosses_page_end :
    writeBlockBytes [71, 72] [] 510 [1, 2, 3] = [(71 * 512 + 510, 1), (71 * 512 + 511, 2), (72 * 512, 3)] ∧
    (⟨3, 1, 200, .rowFirst⟩ : Geometry).pages = 2 := by decide

/-- Table 2-5: a SHORT COLUMN_FIRST block of sample count 7 is sent with zero at fill index 7 and above. -/
theorem test_table_2_5 :
    let d : Desc := ⟨.sending, 3, 0, ⟨1, 3, 4, .columnFirst⟩, [9], 7, ⟨true, false, false⟩⟩
    let mem := writeBlockBytes [9] [] 0 [1, 1, 1, 1, 1, 1, 1, 1, 1, 1, 1, 1]
    blockPayload mem d = [1, 1, 1, 0, 1, 1, 0, 0, 1, 1, 0, 0] := by decide +kernel

/-- One selection of the round-robin on class queues that are told by their lengths. -/
def takeTurn (s : Nat × Nat × List Nat) : Nat × Nat × List Nat :=
  let (cur, budget, lengths) := s
  let queue := fun (c : Nat) => List.replicate (lengths.getD c 0) (0 : Handle)
  let e : Egress := ⟨#v[queue 0, queue 1, queue 2, queue 3], [], Fin.ofNat 4 cur, budget⟩
  match chooseClass e .reset with
  | some (c, b) => (c.val, b, lengths.set c.val (lengths.getD c.val 0 - 1))
  | none => s

/-- The eleven selections of Table 7-4: class taken and budget after. -/
theorem test_table_7_4 :
    (List.range 12).map (fun n => 
      let r := (List.range n).foldl (fun s _ => takeTurn s) (0, 4, [6, 2, 0, 3])
      (r.1, r.2.1)) =
      [(0, 4), (0, 3), (0, 2), (0, 1), (0, 0), (1, 2), (1, 1), (3, 0), (0, 3), (0, 2), (3, 0), (3, 0)] := by decide +kernel

/-! ### Helpers: a running part -/

/-- The part after its init sweep, with one entry that sends tags 0100h–010Fh to streams 0–15. -/
def running : State :=
  { State.reset with
    ingress := ⟨.ready, [], false, false, none⟩
    classifier.table := State.reset.classifier.table.set 0 ⟨true, 0x100, 0xFF0, .spread, 0, 4⟩
    engine.mode := .running }

/-- A small configuration: 1-byte samples, 1 × 2 blocks. -/
def smallCfg : StreamCfg := ⟨⟨1, 1, 2, .rowFirst⟩, .immediate, 1, 2, .resync, .emit, .dropOldest⟩

/-- A record in the given state and sub-state. -/
def record (st : StreamState) (f : Fill) : Ctx := { Ctx.reset with cfg := smallCfg, state := st, fill := f }

/-- Stream 0 is engaged in slot 0 with the given copy. -/
def engaged (x : Ctx) (inUse : Bool) : State :=
  { running with engine.slots := running.engine.slots.set 0 ⟨.clean, some 0, x, inUse⟩ }

/-- The agent executes a command record. -/
def executing (r : List Byte) : State := { running with agent.state := .executing r }

/-- The agent executes a command record on stream 0, which it holds in slot 0 with the given copy. -/
def executingOn (r : List Byte) (x : Ctx) : State :=
  { engaged x true with agent.state := .executing r, engine.mgmt := .holds 0 0 }

/-- A block descriptor of the small geometry, on page 0. -/
def block (st : DescState) : Desc := ⟨st, 0, 0, smallCfg.geom, [0], 0, .none⟩

/-- The state with descriptor 0 outside the free list. -/
def holding (d : Desc) (s : State) : State :=
  { s with
    pool.desc := s.pool.desc.set 0 d
    pool.freeDesc := s.pool.freeDesc.drop 1
    pool.freePages := s.pool.freePages.drop 1 }

/-- A block of stream 0 waits in class queue 1 and counts as outstanding. -/
def queued : State :=
  setDrain 0 ⟨1, false⟩ (setQueue 1 [0] (holding (block .queued) running))

/-- A block of stream 0 is in flight. -/
def sendingBlock (aborted : Bool) : State :=
  setDrain 0 ⟨1, true⟩ (holding (block .sending)
    { running with link := ⟨2, .sending, none, some (.block 0 1 aborted), [1]⟩ })

/-- A reply for tests. -/
def someReply : Reply := ⟨5, 1, .done, false, []⟩

/-- A notice for tests. -/
def someNotice : Notice := ⟨.seqGap, some 0, 1, none⟩

/-! ### Commands, one step each -/

/-- The state that a command leaves. -/
def after (c : Instr) (s : State) : State :=
  match exec c s with
  | .next t => t
  | .fault _ | .refused _ => s

theorem test_cell_arrival_accepts :
    let t := after (.cellArrival (cell 0 false 0x103 9 [1, 2])) running
    t.ingress.fifo = [⟨.data, false, 9, [1, 2], 3⟩] ∧ t.ingress.rsp = some .accept ∧ t.agent.counters.cellsAccepted = 1 := by
  decide +kernel

theorem test_dispatch_starts_fetch :
    let t := after .dispatch { running with ingress.fifo := [⟨.data, false, 9, [1, 2], 3⟩] }
    t.engine.fetch = some ⟨.dispatcher, 3, 0⟩ ∧ t.engine.parked.length = 1 ∧ t.ingress.fifo = [] := by decide +kernel

theorem test_fetch_completion_hands_over :
    let t := after .fetchCompletion (after .dispatch { running with ingress.fifo := [⟨.data, false, 9, [1, 2], 3⟩] })
    t.engine.fetch = none ∧ t.engine.parked = [] ∧ t.assembler.length = 1 ∧ t.engine.slots[0].inUse = true := by decide +kernel

/-- A cell of two 1-byte samples fills a 1 × 2 block, which is queued in class 1. -/
theorem test_cell_assembly_completes_block :
    let t := after .cellAssembly
      { engaged (record .opened .empty) true with assembler := [⟨⟨.data, false, 9, [7, 8], 0⟩, 0, none⟩] }
    t.egress.queues[1] = [0] ∧ t.pool.mem = [(0, 7), (1, 8)] ∧ t.engine.slots[0].copy.counters.blocksCompleted = 1 ∧
    t.pool.drain[0].count = 1 ∧ t.engine.slots[0].copy.expected = 10 ∧ t.link.port = .waiting := by decide +kernel

theorem test_credit_grant_sends_block :
    let t := after (.creditGrant 2) queued
    t.link.credit = 1 ∧ t.link.inflight = some (.block 0 1 false) ∧ t.link.frame.length = 20 ∧ t.egress.queues[1] = [] := by
  decide +kernel

theorem test_frame_completion_frees_block :
    let t := after .frameCompletion (sendingBlock false)
    t.pool.desc[0].state = .free ∧ t.engine.drainList = [0] ∧ t.agent.counters.framesSent = 1 ∧ t.link.port = .idle := by
  decide +kernel

theorem test_stream_open_replies_done :
    let t := after .streamOpen (executingOn ([4, 0, 0, 5, 0] ++ smallCfg.toBytes) Ctx.reset)
    t.engine.slots[0].copy.state = .opened ∧ t.egress.replies = [⟨5, 4, .done, false, []⟩] ∧ t.agent.state = .idle := by
  decide +kernel

theorem test_ident_result :
    (after .ident (executing [1, 0, 0, 5])).egress.replies =
      [⟨5, 1, .done, false, [0x4D, 0x4C, 0x48, 0x16, 1, 0, 1, 0, 64, 2, 0, 128]⟩] := by decide +kernel

theorem test_command_take_replays :
    let t := after .commandTake { running with
      agent.cmdq := [[1, 0, 0, 5]]
      agent.cache := some ⟨5, 1, someReply⟩ }
    t.egress.replies = [{ someReply with replayed := true }] ∧ t.agent.state = .idle := by decide +kernel

theorem test_stall_expiry_purges_class_3 :
    let s := holding { block .queued with stream := 4 } running
    let t := after .stallExpiry (setQueue 3 [0] { s with link := ⟨0, .waiting, some 7, none, []⟩ })
    t.link.port = .stalled ∧ t.egress.queues[3] = [] ∧ t.agent.counters.stallDiscards = 1 ∧ t.notices.queue.length = 1 := by
  decide +kernel

theorem test_graceful_close_drains :
    let t := after .streamCloseGraceful
      { executingOn [5, 0, 0, 5, 0, 0] (record .opened .empty) with pool.drain := running.pool.drain.set 0 ⟨1, false⟩ }
    t.engine.slots[0].copy.state = .draining ∧ t.pool.drain[0] = ⟨1, true⟩ ∧
    t.egress.replies = [⟨5, 5, .draining, false, []⟩] := by decide +kernel

/-- Table 12-2 on the pins RSP1 and RSP0 (R189). -/
theorem test_response_pins :
    rspLines (some .accept) = (.released, .low) ∧ rspLines (some .refuseFormat) = (.low, .released) ∧
    rspLines (some .refuseFull) = (.low, .low) ∧ rspLines none = (.released, .released) := by decide

/-- An agent that waits for reply space takes its command in the event that frees the place (R127, R151). -/
theorem test_frame_completion_serves_waiting_agent :
    let t := after .frameCompletion { running with
      agent := { running.agent with cmdq := [[0x12, 0, 0, 5]], state := .waitingReplySpace }
      egress.replies := [someReply, someReply, someReply]
      link := ⟨0, .sending, none, some (.reply someReply), [1]⟩ }
    t.agent.cmdq = [] ∧ t.agent.state = .idle ∧ t.egress.replies.length = 4 := by decide +kernel

/-- A read for the dispatcher waits for the end of an assembly, and completes in the event that ends it (R73, R81). -/
theorem test_read_waits_for_assembler :
    let s := after .fetchCompletion { after .dispatch { running with ingress.fifo := [⟨.data, false, 9, [1, 2], 3⟩] } with
      assembler := [⟨⟨.data, false, 9, [7, 8], 0⟩, 5, none⟩] }
    let t := after .cellAssembly s
    s.engine.readWaits = true ∧ s.assembler.length = 1 ∧ t.engine.readWaits = false ∧ t.engine.fetch = none ∧
    t.assembler.map (fun a => a.cell.stream) = [3] := by decide +kernel

/-- A head that begins to wait while a cell is in assembly on another slot is handed the mark in the event that releases it (R75, R81). -/
theorem test_waiting_head_is_handed_the_mark :
    let s := after .dispatch { executingOn [6, 0, 0, 5, 0] (record .opened .empty) with
      ingress.fifo := [⟨.data, false, 9, [1, 2], 0⟩]
      assembler := [⟨⟨.data, false, 9, [7, 8], 1⟩, 5, none⟩] }
    let t := after .streamPause (after .cellAssembly s)
    s.engine.dispWait = some 0 ∧ s.assembler.map (fun a => a.slot) = [5] ∧
    t.assembler.map (fun a => (a.slot, a.cell.seq)) = [(0, 9)] ∧ t.ingress.fifo = [] ∧ t.engine.dispWait = none ∧
    t.engine.slots[0].inUse = true := by decide +kernel

/-- A slot released while a cell is in assembly on another goes to the waiting head when that assembly ends (notes/assumptions/8.md). -/
theorem test_head_takes_slot_released_for_it :
    let s := after .streamPause (after .dispatch { executingOn [6, 0, 0, 5, 0] (record .opened .empty) with
      ingress.fifo := [⟨.data, false, 9, [1, 2], 0⟩]
      assembler := [⟨⟨.data, false, 9, [7, 8], 1⟩, 5, none⟩] })
    let t := after .cellAssembly s
    s.engine.dispWait = some 0 ∧ s.engine.slots[0].inUse = false ∧ s.assembler.map (fun a => a.slot) = [5] ∧
    t.assembler.map (fun a => (a.slot, a.cell.seq)) = [(0, 9)] ∧ t.engine.slots[0].inUse = true := by decide +kernel

/-- Of five commands that arrive at once the first is taken in its arrival, and the fifth finds room (R150, R151). -/
theorem test_five_commands_arrive :
    let t := (List.range 5).foldl (fun s n => after (.cellArrival (cell 2 false 0xFF0 0 [1, 0, 0, byteOf (n + 1)])) s) running
    t.agent.state = .executing [1, 0, 0, 1] ∧ t.agent.cmdq.length = 4 ∧ t.ingress.rsp = some .accept ∧
    t.agent.counters.cellsRefusedFull = 0 := by decide +kernel

/-- The end of an execution takes the next command in the same event (R151). -/
theorem test_end_of_execution_takes_next :
    let t := after .ident { executing [1, 0, 0, 5] with agent.cmdq := [[0x0C, 0, 0, 6], [0x0E, 0, 0, 7]] }
    t.agent.state = .executing [0x0C, 0, 0, 6] ∧ t.agent.cmdq = [[0x0E, 0, 0, 7]] ∧ t.egress.replies.length = 1 := by
  decide +kernel

theorem test_unit_reset_full_pends :
    (after .unitResetFull (executing [0x11, 0, 0, 5, 1])).agent.state = .resetPending .full := by decide +kernel

/-! ### Witnesses: states and operands that meet the hypotheses of the statements, at the ends of their ranges -/

theorem witness_step_runs_front_command :
    ({ running with pending := [.dispatch, .ident] } : State).pending = .dispatch :: [.ident] := rfl

/-- The port is WAITING with a timer of n µs. -/
def waiting (n : Option Nat) : State := { running with link := ⟨0, .waiting, n, none, []⟩ }

theorem witness_empty_queue :
    running.pending = [] ∧ running.resetLow = false ∧ running.link.timer = none ∧
    (waiting (some 2)).link.timer = some 2 ∧ (waiting (some 1)).link.timer = some 1 ∧
    (waiting (some 0)).link.port = .waiting := by decide +kernel

theorem witness_reset_pin :
    1999 < 2000 ∧ (heldInReset running).resetLow = true ∧ running.resetLow = false ∧
    (∀ ns, Instr.dispatch ≠ .resetNAssert ns) ∧ (∀ straps, Instr.dispatch ≠ .resetNRelease straps) :=
  ⟨by decide, rfl, rfl, fun _ => nofun, fun _ => nofun⟩

theorem witness_init_sweep_completion : State.reset.resetLow = false ∧ State.reset.engine.mode = .initSweep := ⟨rfl, rfl⟩

/-- Arrivals that are only counted: in INIT, FILL, wrong check, no claim. -/
theorem witness_only_counted :
    running.resetLow = false ∧ State.reset.ingress.port ≠ .ready ∧ running.ingress.port = .ready ∧
    (parseCell (cell 3 false 0 0 [])).map (fun c => (c.kind, c.checkOk)) = some (.fill, true) ∧
    (parseCell (cellBytes 1 0 false false false 0 0 0 [] 0)).map (fun c => c.checkOk) = some false ∧
    (parseCell (cell 0 false 0xFEF 0 [])).map (fun c => (c.kind, c.checkOk)) = some (.data, true) ∧
    resolve running.classifier 0xFEF = .noClaim := by decide +kernel

theorem arrives_of (bytes : List Byte) (c : Cell) (s : State)
    (h : s.resetLow = false ∧ s.ingress.port = .ready ∧ parseCell bytes = some c ∧ c.checkOk = true) : Arrives bytes c s :=
  ⟨h.1, h.2.1, h.2.2.1, h.2.2.2⟩

/-- A MARK cell whose action is 4, on a stream and on no management tag. -/
theorem witness_format_fault :
    Arrives (cell 1 false 0x100 0 [4]) ⟨1, .mark, false, 0x100, 0, [4], true⟩ running ∧
    resolve running.classifier 0x100 = .stream 0 ∧ FormatFaulty ⟨1, .mark, false, 0x100, 0, [4], true⟩ (.stream 0) := by
  refine ⟨arrives_of _ _ _ (by decide +kernel), by decide +kernel, ?_⟩
  refine .inr (.inr (.inr (.inr (.inl ⟨rfl, ?_⟩))))
  rintro ⟨b, h, hb⟩
  obtain rfl : b = 4 := by simpa using h.symm
  revert hb; decide

/-- A MGMT cell of three bytes on the broadcast tag. -/
theorem witness_broadcast_format_fault :
    Arrives (cell 2 false 0xFFF 0 [1, 0, 0]) ⟨1, .mgmt, false, 0xFFF, 0, [1, 0, 0], true⟩ running ∧
    resolve running.classifier 0xFFF = .managementBroadcast ∧
    FormatFaulty ⟨1, .mgmt, false, 0xFFF, 0, [1, 0, 0], true⟩ .managementBroadcast :=
  ⟨arrives_of _ _ _ (by decide +kernel), by decide +kernel, .inr (.inr (.inr (.inr (.inr ⟨rfl, by decide⟩))))⟩

/-- The FIFO holds n cells of stream 0. -/
def withFifo (n : Nat) : State := { running with ingress.fifo := List.replicate n ⟨.data, false, 0, [], 0⟩ }

/-- A DATA cell of eight bytes on stream 0. -/
def dataCell : Cell := ⟨1, .data, false, 0x100, 0, List.replicate 8 0, true⟩

theorem dataCell_is_well_formed (r : Resolution) (h : (∃ t, r = .stream t) ∨ r = .discard) : ¬ FormatFaulty dataCell r := by
  rintro (h' | h' | h' | h' | h' | h')
  · exact absurd h' (by decide)
  · exact absurd h' (by decide)
  · exact absurd h'.1 (by decide)
  · rcases h with ⟨t, rfl⟩ | rfl <;> rcases h'.2 with h' | h' <;> cases h'
  · exact absurd h'.1 (by decide)
  · exact absurd h'.1 (by decide)

theorem witness_stream_cell :
    Arrives (cell 0 false 0x100 0 (List.replicate 8 0)) dataCell (withFifo 31) ∧
    Arrives (cell 0 false 0x100 0 (List.replicate 8 0)) dataCell (withFifo 32) ∧
    resolve running.classifier 0x100 = .stream 0 ∧ ¬ FormatFaulty dataCell (.stream 0) ∧
    (withFifo 31).ingress.fifo.length < 32 ∧ 32 ≤ (withFifo 32).ingress.fifo.length :=
  ⟨arrives_of _ _ _ (by decide +kernel), arrives_of _ _ _ (by decide +kernel), by decide +kernel,
    dataCell_is_well_formed _ (.inl ⟨0, rfl⟩), by decide +kernel, by decide +kernel⟩

/-- The running part with a first entry that discards tag 0100h. -/
def discarding : State :=
  { running with classifier.table := running.classifier.table.set 0 ⟨true, 0x100, 0xFFF, .discard, 0, 0⟩ }

theorem witness_discarded_cell :
    Arrives (cell 0 false 0x100 0 (List.replicate 8 0)) dataCell discarding ∧
    resolve discarding.classifier 0x100 = .discard ∧ ¬ FormatFaulty dataCell .discard :=
  ⟨arrives_of _ _ _ (by decide +kernel), by decide +kernel, dataCell_is_well_formed _ (.inr rfl)⟩

/-- The command queue holds n records. -/
def withCommands (n : Nat) : State := { running with agent.cmdq := List.replicate n [1, 0, 0, 5] }

/-- A MGMT cell with a command of four bytes. -/
def command (tag : BitVec 12) : Cell := ⟨1, .mgmt, false, tag, 0, [1, 0, 0, 5], true⟩

theorem command_is_well_formed (tag : BitVec 12) (r : Resolution) (h : r = .managementUnit ∨ r = .managementBroadcast) :
    ¬ FormatFaulty (command tag) r := by
  rintro (h' | h' | h' | h' | h' | h')
  · exact absurd rfl h'
  · exact absurd (show 64 < 4 from h') (by decide)
  · rcases h with rfl | rfl <;> rcases h'.2 with ⟨t, h'⟩ | h' <;> cases h'
  · exact absurd h'.1 (by rintro (h | h) <;> cases h)
  · exact absurd h'.1 nofun
  · exact absurd (show 4 < 4 from h'.2) (by decide)

theorem witness_management_cell :
    Arrives (cell 2 false 0xFF0 0 [1, 0, 0, 5]) (command 0xFF0) (withCommands 3) ∧
    Arrives (cell 2 false 0xFF0 0 [1, 0, 0, 5]) (command 0xFF0) (withCommands 4) ∧
    Arrives (cell 2 false 0xFFF 0 [1, 0, 0, 5]) (command 0xFFF) (withCommands 3) ∧
    Arrives (cell 2 false 0xFFF 0 [1, 0, 0, 5]) (command 0xFFF) (withCommands 4) ∧
    resolve running.classifier 0xFF0 = .managementUnit ∧ resolve running.classifier 0xFFF = .managementBroadcast ∧
    (withCommands 3).agent.cmdq.length < 4 ∧ 4 ≤ (withCommands 4).agent.cmdq.length ∧
    ¬ FormatFaulty (command 0xFF0) .managementUnit ∧ ¬ FormatFaulty (command 0xFFF) .managementBroadcast :=
  ⟨arrives_of _ _ _ (by decide +kernel), arrives_of _ _ _ (by decide +kernel), arrives_of _ _ _ (by decide +kernel),
    arrives_of _ _ _ (by decide +kernel), by decide +kernel, by decide +kernel, by decide +kernel, by decide +kernel,
    command_is_well_formed _ _ (.inl rfl), command_is_well_formed _ _ (.inr rfl)⟩

/-- An answer is owed, with room and without, and not owed. -/
theorem witness_response_pins :
    (withFifo 31).ingress.fifo.length < 32 ∧ ¬ (withFifo 32).ingress.fifo.length < 32 ∧
    (withCommands 3).agent.cmdq.length < 4 ∧ ¬ (withCommands 4).agent.cmdq.length < 4 ∧
    dataCell.kind ≠ .fill ∧ (command 0xFF0).kind ≠ .fill ∧ State.reset.ingress.port ≠ .ready := by decide +kernel

theorem witness_cell_layout : (List.replicate 127 (0 : Byte)).length < 128 := by simp

/-- A bus reset in READY, with a slot in use and with none; in INIT and in BUS_RESET. -/
theorem witness_bus_reset :
    running.ingress.port = .ready ∧ running.engine.mode = .running ∧ anyInUse running.engine = false ∧
    running.engine.fetch = none ∧ anyInUse (engaged Ctx.reset true).engine = true ∧
    PortEngineAgree State.reset ∧ State.reset.ingress.port ≠ .ready ∧
    PortEngineAgree (after .busResetSequence running) ∧ (after .busResetSequence running).ingress.port = .busReset ∧
    running.resetLow = false := by
  refine ⟨?_, ?_, ?_, ?_, ?_, ?_, ?_, ?_, ?_, ?_⟩ <;> (try unfold PortEngineAgree) <;> decide +kernel

/-- Tags at the ends of the two ranges; a lowest fitting entry for each action. -/
theorem witness_tags :
    0xFF0 ≤ (0xFF0 : BitVec 12).toNat ∧ 0xFF0 ≤ (0xFFF : BitVec 12).toNat ∧ (0xFEF : BitVec 12).toNat < 0xFF0 ∧
    (∀ n : EntryNo, State.reset.classifier.table[n].valid = false) ∧
    (table55.table[0].valid = true ∧ table55.table[0].action = .discard) ∧
    (table55.table[2].valid = true ∧ table55.table[2].action = .spread ∧ table55.table[2].legal = true ∧
      (∀ b < 12, table55.table[2].care.getLsbD b = true →
        (0x11F : BitVec 12).getLsbD b = table55.table[2].value.getLsbD b)) ∧
    (table55.table[3].valid = true ∧ table55.table[3].action = .stream) := by decide +kernel

theorem witness_argument_blocks :
    (parseEntry [63, 1, 0x03, 0x00, 0x0F, 0x00, 0x13, 248]).isSome = true ∧ (parseCfg [4, 64, 0, 16, 3, 16, 31]).isSome = true ∧
    (parseLimits [32, 31, 1, 0, 255, 255, 8, 1, 8, 1, 15]).isSome = true ∧
    parseEntry [63, 0, 0x0F, 0xFF, 0x0F, 0xFF, 0x24, 255] = some (63, ⟨false, 0xFFF, 0xFFF, .discard, 255, 4⟩) ∧
    parseEntry [64, 0, 0, 0, 0, 0, 0, 0] = none ∧ parseCfg [1, 1, 0, 1, 4, 1, 0] = none ∧
    ((0 : Byte) = 0 ∨ 0x11 < (0x12 : Byte).toNat) ∧ (2 : Byte) ≠ 0 ∧ (2 : Byte) ≠ 1 := by decide

/-- A sweep step of stream 0 or 255 on records in every state that it tells apart. -/
def sweeping (n : StreamId) (x : Ctx) : State :=
  { running with
    ingress.port := .busReset
    engine.mode := .busSweep n false
    engine.store := running.engine.store.set n x }

/-- A FILLING record under the broken policy DISCARD. -/
def discardingBroken : Ctx := { record .opened (.filling 0 1 false) with cfg := { smallCfg with broken := .discard } }

theorem witness_sweep_step :
    (sweeping 0 (record .paused .empty)).engine.mode = .busSweep 0 false ∧ (0 : StreamId).val + 1 < 256 ∧
    (currentCopy 255 (sweeping 255 (record .draining .empty))).state = .draining ∧
    (currentCopy 255 (sweeping 255 (record .opened .hunting))).fill = .hunting ∧
    (currentCopy 7 (sweeping 7 (record .opened (.filling 0 1 true)))).cfg.broken = .emit ∧
    (currentCopy 7 (sweeping 7 discardingBroken)).cfg.broken = .discard ∧
    (sweeping 7 Ctx.reset).resetLow = false ∧
    engagedSlot (sweeping 0 Ctx.reset).engine 0 = none ∧
    engagedSlot ({ engaged (record .opened .empty) false with engine.mode := .busSweep 0 false } : State).engine 0 = some 0 ∧
    ({ running with engine.mode := .busSweep 7 true } : State).engine.mode = .busSweep 7 true := by decide +kernel

/-- The FIFO head belongs to stream 0. -/
def head0 (s : State) : State := { s with ingress.fifo := [⟨.data, false, 0, [], 0⟩] }

/-- The dispatcher fetches stream t, with n cells of it parked. -/
def fetching (t : StreamId) (n : Nat) (s : State) : State :=
  { s with
    engine.fetch := some ⟨.dispatcher, t, 7⟩
    engine.slots := s.engine.slots.set 7 ⟨.fetching, some t, .reset, false⟩
    engine.parked := List.replicate n ⟨.data, false, 0, [], t⟩ }

theorem witness_dispatch :
    (let s := head0 (engaged (record .opened .empty) false);
      dispatcherFetch s.engine ≠ some 0 ∧ s.engine.parked = [] ∧ s.assembler = [] ∧ engagedSlot s.engine 0 = some 0 ∧
      s.engine.slots[0].inUse = false ∧ s.engine.mode = .running) ∧
    (let s := fetching 9 8 (head0 (engaged (record .opened .empty) false));
      dispatcherFetch s.engine ≠ some 0 ∧ dispatcherFetch s.engine ≠ none ∧ s.assembler = [] ∧
      engagedSlot s.engine 0 = some 0 ∧ s.engine.slots[0].inUse = false) ∧
    (let s := head0 running;
      s.engine.fetch = none ∧ noRequestWaits s.engine = true ∧ s.engine.parked = [] ∧
      engagedSlot s.engine 0 = none ∧ victim { s.engine with dispWait := none } = some 0) ∧
    (let s := { head0 running with engine.dispWait := some 0 };
      victim { s.engine with dispWait := none } = some 0 ∧ engagedSlot s.engine 0 = none) ∧
    (let s := fetching 0 7 (head0 running);
      dispatcherFetch s.engine = some 0 ∧ s.engine.parked.length < 8) ∧
    State.reset.engine.mode ≠ .running := by decide +kernel

/-- A cell of stream 1 is being assembled on slot 3. -/
def assemblerBusy (s : State) : State := { s with assembler := [⟨⟨.data, false, 0, [], 1⟩, 3, none⟩] }

/-- The heads that stay: on a slot in use, for the assembler, behind a lodged request, a full list, another fetch, parked cells. -/
theorem witness_dispatch_waits :
    (let s := head0 (engaged (record .opened .empty) true);
      dispatcherFetch s.engine = none ∧ s.engine.parked = [] ∧ engagedSlot s.engine 0 = some 0 ∧ s.engine.slots[0].inUse = true ∧
      s.assembler = [] ∧ s.engine.readWaits = false) ∧
    (let s := assemblerBusy (head0 (engaged (record .opened .empty) true));
      engagedSlot s.engine 0 = some 0 ∧ s.engine.slots[0].inUse = true ∧ (∃ a ∈ s.assembler, a.slot ≠ 0)) ∧
    (let s := assemblerBusy (head0 (engaged (record .opened .empty) false));
      engagedSlot s.engine 0 = some 0 ∧ s.engine.slots[0].inUse = false ∧ s.assembler ≠ []) ∧
    (let s := { head0 running with engine.fetch := some ⟨.management, 9, 7⟩ };
      dispatcherFetch s.engine = none ∧ s.engine.parked = [] ∧ engagedSlot s.engine 0 = none ∧ s.engine.fetch ≠ none ∧
      s.engine.dispReq = none) ∧
    (let s := fetching 0 8 (head0 running);
      dispatcherFetch s.engine = some 0 ∧ 8 ≤ s.engine.parked.length) ∧
    (let s := fetching 9 1 (head0 running);
      dispatcherFetch s.engine = some 9 ∧ engagedSlot s.engine 0 = none) ∧
    (let s := { head0 running with engine.parked := [⟨.data, false, 0, [], 9⟩] };
      dispatcherFetch s.engine = none ∧ s.engine.parked ≠ []) ∧
    (let s := { assemblerBusy (head0 (engaged (record .opened .empty) false)) with engine.dispWait := some 0 };
      engagedSlot s.engine 0 = some 0 ∧ s.engine.slots[0].inUse = false ∧ s.assembler ≠ [] ∧ s.engine.dispWait = some 0) ∧
    (let s := { head0 running with engine.fetch := some ⟨.management, 9, 7⟩, engine.dispReq := some 0 };
      engagedSlot s.engine 0 = none ∧ s.engine.fetch ≠ none ∧ s.engine.dispReq ≠ none) ∧
    running.ingress.fifo = [] := by decide +kernel

/-- A fetch of stream 9 into slot 7 for a party, write-back or read. -/
def fetchingFor (p : Party) (st : SlotState) (of : StreamId) (m : EngineMode) : State :=
  { engaged (record .opened .empty) true with
    engine.fetch := some ⟨p, 9, 7⟩
    engine.slots := (engaged (record .opened .empty) true).engine.slots.set 7 ⟨st, some of, .reset, false⟩
    engine.parked := [⟨.data, false, 0, [], 9⟩]
    engine.mode := m }

theorem witness_fetch :
    (let s := fetchingFor .management .evicting 4 .running;
      s.engine.slots[7].state = .evicting ∧ s.engine.slots[7].stream = some 4) ∧
    (let s := fetchingFor .dispatcher .fetching 9 .running;
      s.engine.slots[7].state = .fetching ∧ s.engine.slots[7].stream = some 9 ∧ s.engine.mode = .running ∧
      s.engine.dispReq = none ∧ s.engine.parked ≠ []) ∧
    (let s := fetchingFor .drain .fetching 9 (.sweepWait .bus);
      s.engine.slots[7].state = .fetching ∧ s.engine.mode = .sweepWait .bus ∧ anyInUse s.engine = true ∧
      s.engine.slots[7].inUse = false ∧ s.resetLow = false) ∧
    (let s := assemblerBusy (fetchingFor .dispatcher .fetching 9 .running);
      s.engine.slots[7].state = .fetching ∧ s.engine.mode = .running ∧ s.assembler ≠ []) ∧
    (let s := fetching 9 1 { running with engine.mode := .sweepWait .bus };
      s.engine.slots[7].state = .fetching ∧ s.engine.slots[7].inUse = false ∧ anyInUse s.engine = false) ∧
    (let s := { fetchingFor .dispatcher .fetching 9 .running with engine.dispReq := some 4 };
      s.engine.dispReq = some 4 ∧ s.engine.mgmt = .idle ∧ s.engine.drainReq = .idle) := by decide +kernel

/-- The fetch unit is IDLE beside requests of the agent, of the drain service and of the dispatcher, for a stream that is engaged in a
free slot, in one in use, or not engaged. -/
theorem witness_start_next :
    (let s := { running with engine.mgmt := .lodged 5, engine.drainReq := .lodged 5 };
      s.engine.mode = .running ∧ s.engine.fetch = none ∧ s.resetLow = false ∧ engagedSlot s.engine 5 = none ∧
      victim s.engine = some 0) ∧
    (let s := { engaged (record .opened .empty) false with engine.mgmt := .lodged 0, engine.drainReq := .lodged 0 };
      engagedSlot s.engine 0 = some 0 ∧ s.engine.slots[0].inUse = false ∧ s.engine.fetch = none) ∧
    (let s := { engaged (record .opened .empty) true with engine.drainReq := .lodged 0 };
      engagedSlot s.engine 0 = some 0 ∧ s.engine.slots[0].inUse = true ∧ s.engine.mgmt = .idle) ∧
    (let s := { head0 running with engine.dispReq := some 0 };
      s.engine.mgmt = .idle ∧ s.engine.drainReq = .idle ∧ s.engine.dispReq = some 0) ∧
    running.engine.dispReq = none ∧ State.reset.engine.mode ≠ .running ∧ (fetching 9 1 running).engine.fetch ≠ none := by
  decide +kernel

/-- A stream that the agent asks for: the engine sweeps; engaged, free and in use; being fetched; behind another fetch; not engaged. -/
theorem witness_agent_asks :
    State.reset.engine.mode ≠ .running ∧
    (engagedSlot (engaged Ctx.reset false).engine 0 = some 0 ∧ (engaged Ctx.reset false).engine.slots[0].inUse = false) ∧
    (engagedSlot (engaged Ctx.reset true).engine 0 = some 0 ∧ (engaged Ctx.reset true).engine.slots[0].inUse = true) ∧
    (engagedSlot (fetching 9 1 running).engine 9 = none ∧ (fetching 9 1 running).engine.fetch = some ⟨.dispatcher, 9, 7⟩) ∧
    (engagedSlot (fetching 9 1 running).engine 5 = none ∧ (5 : StreamId) ≠ 9) ∧
    (engagedSlot running.engine 5 = none ∧ running.engine.fetch = none ∧ running.engine.mode = .running) := by decide +kernel

/-- After the bus-reset sweep: a party whose fetch completed in SWEEP_WAIT, one that asked for an engaged slot, free or in use, one
that asked for a stream not engaged, and none. -/
theorem witness_serve_waiting :
    (let v := engaged (record .opened .empty) false;
      v.engine.mode = .running ∧ v.engine.fetch = none ∧ engagedSlot v.engine 0 = some 0 ∧ v.engine.slots[0].inUse = false ∧
      ({ v with engine.mgmt := .fetched 0 } : State).engine.mgmt = .fetched 0 ∧
      ({ v with engine.drainReq := .fetched 0 } : State).engine.mgmt = .idle ∧
      ({ v with engine.mgmt := .asked 0 } : State).engine.mgmt = .asked 0 ∧
      ({ v with engine.drainReq := .asked 0 } : State).engine.drainReq = .asked 0) ∧
    (let v := { running with engine.mgmt := .asked 5, engine.drainReq := .asked 5 };
      engagedSlot v.engine 5 = none ∧ v.engine.mgmt = .asked 5 ∧ v.engine.drainReq = .asked 5) ∧
    (engagedSlot (engaged (record .opened .empty) true).engine 0 = some 0 ∧
      (engaged (record .opened .empty) true).engine.slots[0].inUse = true) ∧
    running.engine.mgmt = .idle ∧ running.engine.drainReq = .idle := by decide +kernel

theorem witness_victim :
    State.reset.engine.lru.Nodup ∧ (∀ i : SlotNo, i ∈ State.reset.engine.lru) ∧ victim State.reset.engine = some 0 ∧
    State.reset.engine.slots[0].state = .vacant := by decide +kernel

/-- The drain-completion service holds the slot of a DRAINING stream with n blocks outstanding. -/
def draining (n : Nat) : State :=
  { engaged (record .draining .empty) true with
    engine.drainReq := .holds 0 0
    engine.drainList := [0]
    pool.drain := running.pool.drain.set 0 ⟨n, false⟩ }

theorem witness_drain_completion :
    (draining 0).engine.drainReq = .holds 0 0 ∧ (draining 0).engine.slots[0].copy.state = .draining ∧
    (draining 0).pool.drain[0] = ⟨0, false⟩ ∧ (draining 1).pool.drain[0] ≠ ⟨0, false⟩ ∧
    (draining 0).engine.mode = .running := by decide +kernel

/-- In RUNNING; in SWEEP_WAIT beside a fetch in progress. -/
theorem mode_stays_running (i : SlotNo) : ModeStays i running := .inl rfl
theorem mode_stays_beside_fetch (i : SlotNo) (k : SweepKind) (f : Fetch) (s : State) :
    ModeStays i { s with engine.mode := .sweepWait k, engine.fetch := some f } := .inr ⟨⟨k, rfl⟩, .inl nofun⟩

/-- The service turns to stream d, engaged free or in use, or not engaged. -/
theorem witness_drain_service :
    (let v := { engaged (record .draining .empty) false with engine.drainList := [0] };
      v.engine.drainReq = .idle ∧ v.engine.drainList = 0 :: [] ∧ v.engine.mode = .running ∧ noRequestWaits v.engine = true ∧
      engagedSlot v.engine 0 = some 0 ∧ v.engine.slots[0].inUse = false) ∧
    (engagedSlot (engaged (record .draining .empty) true).engine 0 = some 0 ∧
      (engaged (record .draining .empty) true).engine.slots[0].inUse = true) ∧
    (engagedSlot running.engine 5 = none ∧ running.engine.fetch = none ∧ victim running.engine = some 0) ∧
    (fetching 9 1 running).engine.fetch = some ⟨.dispatcher, 9, 7⟩ ∧ State.reset.engine.mode ≠ .running := by decide +kernel

/-- A waiter of each kind for slot 0, and none. -/
theorem witness_waiters :
    (let s := engaged (record .opened .empty) true;
      waiterOf 0 s = .nobody ∧
      waiterOf 0 { s with engine.parked := [⟨.data, false, 0, [], 0⟩] } = .parkedCell ⟨.data, false, 0, [], 0⟩ ∧
      waiterOf 0 { s with engine.mgmt := .asked 0 } = .management 0 ∧
      waiterOf 0 { s with engine.drainReq := .asked 0 } = .drain 0 ∧
      waiterOf 0 { head0 s with engine.dispWait := some 0 } = .head ⟨.data, false, 0, [], 0⟩ ∧
      waiterOf 0 { assemblerBusy (head0 s) with engine.dispWait := some 0 } = .head ⟨.data, false, 0, [], 0⟩ ∧
      s.assembler = [] ∧ s.engine.readWaits = false) := by decide +kernel

/-- The last operation in progress, with a sweep recorded: an assembly, a drain completion, a command. -/
theorem witness_last_operation :
    (let s := { engaged (record .opened .empty) true with
        engine.mode := .sweepWait .init
        assembler := [⟨⟨.data, true, 4, [1, 2, 3], 0⟩, 0, none⟩] };
      EndsCellOrDrain .cellAssembly 0 s ∧ s.engine.fetch = none ∧ s.engine.readWaits = false ∧
      ∀ j : SlotNo, j ≠ 0 → s.engine.slots[j].inUse = false) ∧
    EndsCellOrDrain .drainCompletion 0 (draining 0) ∧
    EndsAgentOperation .streamPause 0 { executingOn [6, 0, 0, 5, 0] (record .opened .empty) with
      engine.mode := .sweepWait .bus } :=
  ⟨⟨.inl ⟨rfl, _, _, rfl, rfl⟩, rfl, rfl, by decide +kernel⟩, .inr ⟨rfl, 0, rfl⟩,
    ⟨0, rfl⟩, .inr (.inr ⟨[6, 0, 0, 5, 0], .streamPause, True, rfl, trivial, rfl, rfl, by decide⟩)⟩

/-- A cell of stream 0 is being assembled on a record. -/
def assembling (x : Ctx) : State := { engaged x true with assembler := [⟨⟨.data, true, 4, [1, 2, 3], 0⟩, 0, none⟩] }

theorem witness_assembly :
    (assembling (record .opened .empty)).assembler ≠ [] ∧ (assembling (record .opened .empty)).engine.mode = .running ∧
    (assembling (record .paused .empty)).engine.slots[0].copy.state ≠ .opened ∧
    (assembling (record .opened .empty)).engine.readWaits = false ∧
    ({ assembling (record .opened .empty) with engine.readWaits := true } : State).engine.readWaits = true := by decide +kernel

/-- The assembler is free and a slot waits for the head; and nobody is to be served. -/
theorem witness_serve_head :
    (let v := { head0 (engaged (record .opened .empty) false) with engine.dispWait := some 0 };
      v.engine.mode = .running ∧ v.engine.slots[0].inUse = false ∧ v.engine.slots[0].stream = some 0 ∧
      v.ingress.fifo = [⟨.data, false, 0, [], 0⟩] ∧ v.assembler = [] ∧ v.engine.readWaits = false) ∧
    State.reset.engine.mode ≠ .running ∧ (assembling Ctx.reset).assembler ≠ [] ∧ running.engine.dispWait = none ∧
    (engaged Ctx.reset true).engine.slots[0].inUse = true := by decide +kernel

/-- An assembly that a FULL reset overtook, of a whole cell that fits its block. -/
theorem witness_overtaken_assembly :
    let x := record .opened (.filling 0 1 false)
    let d := block .filling
    let cell : StreamCell := ⟨.data, false, 0, [1], 0⟩
    (x.state = .opened ∧ judgeSeq x cell.seq = .first ∧ cell.kind = .data ∧ cell.sync = false ∧
      cell.payload.length % x.cfg.geom.w = 0 ∧ 1 + cell.payload.length / x.cfg.geom.w ≤ d.geom.rows * d.geom.cols) ∧
    (let s := { fetching 9 1 (engaged x true) with
        engine.mode := .sweepWait .init
        assembler := [⟨cell, 0, some (0, d)⟩] };
      s.engine.slots[0].copy = x ∧ s.engine.readWaits = false ∧ Memory.wf s.pool.mem = true ∧
      ({ s with engine.readWaits := true } : State).engine.readWaits = true) := by decide +kernel

/-- A record that expects sequence number 0. -/
def expecting0 : Ctx := { record .opened .empty with seqValid := true }

theorem witness_sequence :
    (record .opened .empty).seqValid = false ∧ expecting0.seqValid = true ∧ expecting0.expected = 0 ∧
    (255 : BitVec 8) = expecting0.expected - 1 ∧ (1 : BitVec 8) ≠ expecting0.expected ∧
    (1 : BitVec 8) ≠ expecting0.expected - 1 ∧ judgeSeq expecting0 255 = .duplicate := by decide

theorem witness_gap :
    ({ record .opened (.filling 0 1 false) with cfg := { smallCfg with gap := .tolerate } } : Ctx).cfg.gap = .tolerate ∧
    (record .opened .hunting).fill = .hunting ∧ (record .opened .hunting).cfg.gap = .resync ∧
    discardingBroken.cfg.broken = .discard ∧ (record .opened (.filling 0 1 false)).cfg.broken = .emit := by decide

theorem witness_samples :
    (let g : Geometry := ⟨4, 64, 16, .columnFirst⟩;
      1 ≤ g.w ∧ 1 ≤ g.rows ∧ 1 ≤ g.cols ∧ 1023 < g.rows * g.cols) ∧
    ([0, 511] : List Page).Nodup ∧ Memory.wf [(3, 1)] = true ∧ 1021 + ([1, 2, 3] : List Byte).length ≤ 512 * 2 := by
  decide +kernel

/-- Fill index 0 and 1 of a 1 × 2 block. -/
theorem witness_sample_placed :
    (let s := holding (block .filling) running;
      0 + 1 < s.pool.desc[0].geom.rows * s.pool.desc[0].geom.cols ∧
      1 + 1 = s.pool.desc[0].geom.rows * s.pool.desc[0].geom.cols) ∧
    (record .opened (.filling 0 1 false)).fill = .filling 0 1 false ∧
    (allocate 0 (record .opened .empty).nextBlock (record .opened .empty).cfg.geom running).isSome = true ∧
    (record .opened .hunting).fill = .hunting ∧ (record .faulted .empty).state ≠ .opened := by decide +kernel

theorem witness_failed_start :
    ({ running with pool.freeDesc := [] } : State).pool.freeDesc = [] ∧
    ({ running with pool.freePages := [] } : State).pool.freePages.length < (record .opened .empty).cfg.geom.pages ∧
    (record .opened .empty).state = .opened ∧ (record .opened .empty).fill = .empty := by decide +kernel

/-- A HELD-mode record with held limit 2 and a held list. -/
def heldRecord (l : List Handle) (o : OverflowPolicy) : Ctx :=
  { record .opened (.filling 0 1 false) with cfg := { smallCfg with mode := .held, overflow := o }, held := l }

theorem witness_completion :
    (record .opened .empty).cfg.mode = .immediate ∧
    (heldRecord [5] .fault).held.length < (heldRecord [5] .fault).cfg.heldLimit ∧
    (heldRecord [5, 6] .dropOldest).cfg.heldLimit ≤ (heldRecord [5, 6] .dropOldest).held.length ∧
    (heldRecord [5, 6] .dropOldest).held = 5 :: [6] ∧
    (heldRecord [5, 6] .fault).cfg.heldLimit ≤ (heldRecord [5, 6] .fault).held.length ∧
    (heldRecord [5, 6] .fault).cfg.overflow = .fault := by decide

/-- Cells judged first and gap, that fit a width of 2 or not, and a gap that faults the stream. -/
theorem witness_cell_stages :
    (let x := { record .opened .empty with cfg := { smallCfg with geom := ⟨2, 1, 2, .rowFirst⟩ } };
      judgeSeq x 0 = .first ∧ ([1, 2] : List Byte).length % x.cfg.geom.w = 0 ∧ ([1, 2, 3] : List Byte).length % x.cfg.geom.w ≠ 0) ∧
    judgeSeq expecting0 0 = .inOrder ∧ judgeSeq expecting0 5 = .gap ∧ markActionOf 1 = some .cut ∧
    markActionOf 3 = some .cutAndRelease ∧
    (gapEffect 0 running { heldRecord [5, 6] .fault with seqValid := true }).2.state = .faulted ∧
    (gapEffect 0 running expecting0).2.state ≠ .faulted ∧ (0 : Byte) ≠ 1 ∧ (4 : Byte) ≠ 3 := by decide +kernel

theorem witness_allocation :
    ((allocate 3 0 ⟨4, 64, 16, .rowFirst⟩ running).map (fun r => r.1)) = some 0 ∧
    allocate 3 0 smallCfg.geom { running with pool.freeDesc := [] } = none ∧
    ({ running with pool.freePages := List.finRange 512 |>.take 7 } : State).pool.freePages.length <
      (⟨4, 64, 16, .rowFirst⟩ : Geometry).pages := by decide +kernel

/-- A fall to 0 with and without drain pending, and a fall to 1. -/
theorem witness_freeing :
    QueuesDisjoint queued ∧ queued.pool.drain[0].count - 1 = 0 ∧
    (setDrain 0 ⟨1, true⟩ queued).pool.drain[0].pending = true ∧ (setDrain 0 ⟨2, true⟩ queued).pool.drain[0].count - 1 ≠ 0 := by
  refine ⟨?_, ?_, ?_, ?_⟩ <;> (try unfold QueuesDisjoint) <;> decide +kernel

theorem witness_queue_entry :
    ({ running with link.port := .stalled } : State).link.port = .stalled ∧
    running.agent.limits.discardable.getLsbD (3 : EgressClass).val = true ∧
    running.agent.limits.discardable.getLsbD (2 : EgressClass).val = false ∧ running.link.port ≠ .stalled := by decide +kernel

/-- An IDLE port with n credits. -/
def withCredit (n : Nat) (s : State) : State := { s with link.credit := n }

/-- A reply waits. -/
def replyWaits : State := { running with egress.replies := [someReply] }

/-- A notice waits; it has been taken before, or not. -/
def noticeWaits (lost : Option Nat) : State := { running with notices.queue := [{ someNotice with lost := lost }] }

theorem witness_selection :
    (let s := withCredit 1 replyWaits;
      s.link.inflight = none ∧ s.link.port ≠ .stalled ∧ 1 ≤ s.link.credit ∧ s.egress.replies = [someReply]) ∧
    (let s := withCredit 15 (noticeWaits none);
      s.link.inflight = none ∧ s.link.port ≠ .stalled ∧ 1 ≤ s.link.credit ∧ s.egress.replies = [] ∧
      s.notices.queue = [someNotice] ∧ someNotice.lost = none) ∧
    (let s := withCredit 1 (noticeWaits (some 3));
      1 ≤ s.link.credit ∧ s.egress.replies = [] ∧ s.notices.queue = [{ someNotice with lost := some 3 }]) ∧
    (let s := withCredit 1 queued;
      s.link.inflight = none ∧ s.link.port ≠ .stalled ∧ s.egress.replies = [] ∧ s.notices.queue = [] ∧
      chooseClass s.egress s.agent.limits = some (1, 2) ∧ s.egress.queues[1] = [0]) ∧
    (let s := queued;
      s.link.inflight = none ∧ hasWaiting s = true ∧ s.link.credit = 0 ∧ s.link.port ≠ .waiting ∧ s.link.port ≠ .stalled) ∧
    (let s : State := { queued with link.port := .waiting };
      s.link.inflight = none ∧ hasWaiting s = true ∧ s.link.credit = 0 ∧ s.link.port = .waiting) ∧
    (running.link.inflight = none ∧ running.link.port ≠ .stalled ∧ hasWaiting running = false) ∧
    (sendingBlock false).link.inflight ≠ none := by decide +kernel

theorem witness_round_robin :
    (let e : Egress := ⟨#v[[1], [], [], [2]], [], 0, 1⟩;
      e.queues[e.curClass] ≠ [] ∧ 0 < e.budget) ∧
    (let e : Egress := ⟨#v[[1], [], [], []], [], 0, 0⟩;
      e.budget = 0 ∧ (0 : EgressClass).val = (e.curClass.val + 4) % 4 ∧ e.queues[0] ≠ [] ∧ e.queues[1] = [] ∧
      e.queues[2] = [] ∧ e.queues[3] = []) ∧
    (∀ c : EgressClass, Egress.reset.queues[c] = []) := by decide

theorem witness_grant :
    queued.resetLow = false ∧ (15 : BitVec 4) ≠ 0 ∧ queued.link.inflight = none ∧ hasWaiting queued = true ∧
    hasWaiting running = false ∧ running.link.inflight = none ∧
    (sendingBlock false).link.inflight ≠ none ∧ (sendingBlock false).link.port ≠ .stalled ∧
    15 < (sendingBlock false).link.credit + (14 : BitVec 4).toNat ∧
    ¬ 15 < (sendingBlock false).link.credit + (13 : BitVec 4).toNat := by decide +kernel

/-- A reply or a notice is in flight. -/
def sendingItem (i : Item) (s : State) : State := { s with link := ⟨2, .sending, none, some i, [1]⟩ }

theorem witness_frame_completion :
    running.link.inflight = none ∧ (sendingBlock false).link.inflight = some (.block 0 1 false) ∧
    (sendingBlock false).agent.state.isResetPending = false ∧
    (∀ d : EgressClass, (0 : Handle) ∉ (sendingBlock false).egress.queues[d]) ∧
    (sendingBlock false).pool.drain[0].count - 1 = 0 ∧ (sendingBlock false).pool.drain[0].pending = true ∧
    (sendingItem (.reply someReply) running).link.inflight = some (.reply someReply) ∧
    ({ sendingBlock false with agent.state := .resetPending .full } : State).agent.state ≠ .waitingReplySpace ∧
    (∀ r, Item.block 0 1 false ≠ .reply r) := ⟨by decide +kernel, by decide +kernel, by decide +kernel, by decide +kernel,
      by decide +kernel, by decide +kernel, by decide +kernel, by decide +kernel, nofun⟩

/-- An agent that waits for reply space: the completion of a reply frees a place, that of a block does not. -/
theorem witness_frame_completion_for_waiting_agent :
    (let s : State := { sendingItem (.reply someReply) running with
        agent.state := .waitingReplySpace
        agent.cmdq := [[1, 0, 0, 5]] };
      s.agent.state = .waitingReplySpace ∧ s.link.inflight = some (.reply someReply) ∧
      replyOccupancy (after .frameCompletion { s with agent.state := .idle }) < 4) ∧
    (let s : State := { sendingBlock false with
        egress.replies := [someReply, someReply, someReply, someReply]
        agent.state := .waitingReplySpace
        agent.cmdq := [[1, 0, 0, 5]] };
      4 ≤ replyOccupancy (after .frameCompletion { s with agent.state := .idle })) := by decide +kernel

/-- The returned notice meets a younger record of its kind and stream, or none. -/
theorem witness_egress_link_reset :
    (sendingBlock true).link.inflight = some (.block 0 1 true) ∧
    (sendingItem (.notice someNotice) (noticeWaits none)).notices.queue = [] ++ someNotice :: [] ∧
    (sendingItem (.notice someNotice) running).notices.queue = [] ∧
    (sendingItem (.reply someReply) running).resetLow = false := by decide +kernel

/-- Class 3, discardable by default, and class 1 hold blocks when the timer runs out. -/
def stalling : State := { setQueue 3 [4] queued with link := ⟨0, .waiting, some 1, none, []⟩ }

theorem witness_stall_expiry :
    stalling.link.port = .waiting ∧ stalling.link.timer = some 1 ∧ stalling.agent.state.isResetPending = false ∧
    QueuesDisjoint stalling ∧ (waiting none).link.timer = none ∧ running.link.port ≠ .waiting ∧
    ({ stalling with agent.state := .resetPending .streams } : State).agent.state ≠ .resetPending .full ∧
    ({ stalling with egress.replies := [someReply] } : State).egress.replies ≠ [] := by
  refine ⟨?_, ?_, ?_, ?_, ?_, ?_, ?_, ?_⟩ <;> (try unfold QueuesDisjoint) <;> decide +kernel

theorem witness_return_lane :
    (Instr.creditGrant 15).wellFormed = true ∧ returnLaneByte (.creditGrant 15) = some 0x1F ∧
    (0x0F : Byte).toNat / 16 ≠ 1 ∧ (0x30 : Byte).toNat / 16 ≠ 2 := by decide

theorem witness_frames :
    63 < 64 ∧ 15 < (⟨4, 64, 16, .rowFirst⟩ : Geometry).cols ∧ ({ someNotice with lost := some 255 } : Notice).lost = some 255 := by
  decide

/-- One command waits and the agent is IDLE. -/
def taking (r : List Byte) (s : State) : State := { s with agent.cmdq := [r] }

/-- Three replies wait, and one is in flight or not. -/
def replies (s : State) : State := { s with egress.replies := [someReply, someReply, someReply] }

theorem witness_command_take :
    (let s := taking [1, 0, 0, 5] { replies running with agent.cache := some ⟨5, 1, someReply⟩ };
      s.agent.state = .idle ∧ s.agent.cmdq = [1, 0, 0, 5] :: [] ∧ replyOccupancy s < 4 ∧
      s.agent.cache = some ⟨5, 1, someReply⟩ ∧ recordId [1, 0, 0, 5] ≠ 0 ∧ recordId [1, 0, 0, 5] = 5 ∧
      recordCode [1, 0, 0, 5] = 1) ∧
    (let s := taking [0x12, 0, 0, 5] running;
      s.agent.state = .idle ∧ replyOccupancy s < 4 ∧ s.agent.cache = none ∧ recordCommand [0x12, 0, 0, 5] = none) ∧
    recordCommand [0, 0, 0, 0] = none ∧
    (recordCommand [1, 0, 0, 5, 0] = some .ident ∧ (recordArgs [1, 0, 0, 5, 0]).length ≠ Command.ident.argLength) ∧
    (recordCommand [1, 0, 0, 5] = some .ident ∧ (recordArgs [1, 0, 0, 5]).length = Command.ident.argLength ∧
      Command.ident.onStream = false) ∧
    (let s := taking [6, 0, 0, 5, 0] (engaged Ctx.reset false);
      s.agent.state = .idle ∧ s.agent.cache = none ∧ replyOccupancy s < 4 ∧ s.engine.mode = .running ∧
      recordCommand [6, 0, 0, 5, 0] = some .streamPause ∧ (recordArgs [6, 0, 0, 5, 0]).length = Command.streamPause.argLength ∧
      Command.streamPause.onStream = true ∧ engagedSlot s.engine (recordStream [6, 0, 0, 5, 0]) = some 0 ∧
      s.engine.slots[0].inUse = false) ∧
    (let s := taking [6, 0, 0, 5, 0] running;
      s.engine.mode = .running ∧ engagedSlot s.engine (recordStream [6, 0, 0, 5, 0]) = none ∧ s.engine.fetch = none ∧
      victim s.engine = some 0) ∧
    (let s := taking [1, 0, 0, 5] (sendingItem (.reply someReply) (replies running));
      s.agent.state = .idle ∧ s.agent.cmdq ≠ [] ∧ 4 ≤ replyOccupancy s) ∧
    (executing [1, 0, 0, 5]).agent.state ≠ .idle ∧ running.agent.cmdq = [] := by decide +kernel

theorem runs_of (c : Command) (r : List Byte) (s : State)
    (h : s.resetLow = false ∧ s.agent.state = .executing r ∧ recordCommand r = some c) : Runs c r s := ⟨h.1, h.2.1, h.2.2⟩

theorem witness_reading_commands :
    Runs .ident [1, 0, 0, 0] (executing [1, 0, 0, 0]) ∧ Runs .classRead [3, 0, 0, 5, 63] (executing [3, 0, 0, 5, 63]) ∧
    Runs .classRead [3, 0, 0, 5, 64] (executing [3, 0, 0, 5, 64]) ∧ Runs .poolQuery [0x0C, 0, 0, 5] (executing [0x0C, 0, 0, 5]) ∧
    Runs .limitsRead [0x0E, 0, 0, 5] (executing [0x0E, 0, 0, 5]) ∧
    Runs .countersRead [0x0F, 0, 0, 5, 0] (executing [0x0F, 0, 0, 5, 0]) ∧
    Runs .countersRead [0x0F, 0, 0, 5, 2] (executing [0x0F, 0, 0, 5, 2]) ∧ recordArgs [0x0F, 0, 0, 5, 2] = [2] := by
  refine ⟨?_, ?_, ?_, ?_, ?_, ?_, ?_, by decide⟩ <;> exact runs_of _ _ _ (by decide +kernel)

theorem witness_writing_commands :
    Runs .classWrite [2, 0, 0, 5, 63, 1, 3, 0, 0x0F, 0, 0x13, 248] (executing [2, 0, 0, 5, 63, 1, 3, 0, 0x0F, 0, 0x13, 248]) ∧
    (parseEntry (recordArgs [2, 0, 0, 5, 63, 1, 3, 0, 0x0F, 0, 0x13, 248])).isSome = true ∧
    Runs .classWrite [2, 0, 0, 5, 64, 0, 0, 0, 0, 0, 0, 0] (executing [2, 0, 0, 5, 64, 0, 0, 0, 0, 0, 0, 0]) ∧
    parseEntry (recordArgs [2, 0, 0, 5, 64, 0, 0, 0, 0, 0, 0, 0]) = none ∧
    Runs .countersRead [0x0F, 0, 0, 5, 1] (executing [0x0F, 0, 0, 5, 1]) ∧
    Runs .noticeMaskWrite [0x10, 0, 0, 5, 0] (executing [0x10, 0, 0, 5, 0]) :=
  ⟨runs_of _ _ _ (by decide +kernel), by decide, runs_of _ _ _ (by decide +kernel), by decide,
    runs_of _ _ _ (by decide +kernel), runs_of _ _ _ (by decide +kernel)⟩

/-- Limits at the ends of their ranges, and a release mark that equals the hold mark. -/
theorem witness_limits_write :
    Runs .limitsWrite [0x0D, 0, 0, 5, 2, 1, 1, 0, 0, 0, 1, 8, 1, 8, 0]
      (executing [0x0D, 0, 0, 5, 2, 1, 1, 0, 0, 0, 1, 8, 1, 8, 0]) ∧
    (parseLimits (recordArgs [0x0D, 0, 0, 5, 2, 1, 1, 0, 0, 0, 1, 8, 1, 8, 0])).isSome = true ∧
    parseLimits (recordArgs [0x0D, 0, 0, 5, 2, 2, 1, 0, 0, 0, 1, 8, 1, 8, 0]) = none ∧
    Runs .limitsWrite [0x0D, 0, 0, 5, 2, 2, 1, 0, 0, 0, 1, 8, 1, 8, 0]
      (executing [0x0D, 0, 0, 5, 2, 2, 1, 0, 0, 0, 1, 8, 1, 8, 0]) :=
  ⟨runs_of _ _ _ (by decide +kernel), by decide, by decide, runs_of _ _ _ (by decide +kernel)⟩

/-- The agent runs a command on stream 0 in slot 0. -/
theorem runsOn_of (c : Command) (r : List Byte) (x : Ctx) (h : recordCommand r = some c) :
    RunsOn c r 0 0 (executingOn r x) := ⟨⟨rfl, rfl, h⟩, .inl rfl, rfl⟩

/-- So it does in SWEEP_WAIT, beside a fetch in progress. -/
theorem runsOn_in_sweepWait (c : Command) (r : List Byte) (x : Ctx) (h : recordCommand r = some c) :
    RunsOn c r 0 0 { executingOn r x with engine.mode := .sweepWait .bus, engine.fetch := some ⟨.dispatcher, 9, 7⟩ } :=
  ⟨⟨rfl, rfl, h⟩, mode_stays_beside_fetch _ _ _ _, rfl⟩

theorem copy_of (r : List Byte) (x : Ctx) : (executingOn r x).engine.slots[(0 : SlotNo)].copy = x := rfl

/-- Each stream command, legal in a state that does not take it; illegal arguments; a close form that is neither. -/
theorem witness_refused_stream_commands :
    RunsOn .streamPause [6, 0, 0, 5, 0] 0 0 (executingOn [6, 0, 0, 5, 0] Ctx.reset) ∧
    streamRow [6, 0, 0, 5, 0] .streamPause = some (.streamPause, True) ∧ takenIn .streamPause Ctx.reset.state = false ∧
    RunsOn .streamOpen [4, 0, 0, 5, 0, 0, 0, 0, 0, 0, 0, 0] 0 0 (executingOn [4, 0, 0, 5, 0, 0, 0, 0, 0, 0, 0, 0] Ctx.reset) ∧
    (configArg [4, 0, 0, 5, 0, 0, 0, 0, 0, 0, 0, 0]).isSome = false ∧
    RunsOn .streamClose [5, 0, 0, 5, 0, 2] 0 0 (executingOn [5, 0, 0, 5, 0, 2] Ctx.reset) ∧
    closeForm [5, 0, 0, 5, 0, 2] = none ∧ closeForm [5, 0, 0, 5, 0, 1] = some true :=
  ⟨runsOn_of _ _ _ (by decide), rfl, by decide, runsOn_of _ _ _ (by decide), by decide, runsOn_of _ _ _ (by decide), by decide,
    by decide⟩

theorem witness_stream_commands :
    RunsOn .streamOpen ([4, 0, 0, 5, 0] ++ smallCfg.toBytes) 0 0 (executingOn ([4, 0, 0, 5, 0] ++ smallCfg.toBytes) Ctx.reset) ∧
    parseCfg ((recordArgs ([4, 0, 0, 5, 0] ++ smallCfg.toBytes)).drop 1) = some smallCfg ∧
    RunsOn .streamPause [6, 0, 0, 5, 0] 0 0 (executingOn [6, 0, 0, 5, 0] (record .opened .empty)) ∧
    RunsOn .streamResume [7, 0, 0, 5, 0] 0 0 (executingOn [7, 0, 0, 5, 0] (record .paused (.filling 0 1 false))) ∧
    RunsOn .streamResume [7, 0, 0, 5, 0] 0 0 (executingOn [7, 0, 0, 5, 0] (record .paused .hunting)) ∧
    RunsOn .streamQuery [0x0B, 0, 0, 5, 0] 0 0 (executingOn [0x0B, 0, 0, 5, 0] (record .faulted .empty)) ∧
    RunsOn .streamCut [8, 0, 0, 5, 0] 0 0 (executingOn [8, 0, 0, 5, 0] (record .paused (.filling 0 1 false))) ∧
    RunsOn .streamRelease [9, 0, 0, 5, 0] 0 0 (executingOn [9, 0, 0, 5, 0] (heldRecord [5, 6] .fault)) ∧
    RunsOn .streamReconfigure ([0x0A, 0, 0, 5, 0] ++ smallCfg.toBytes) 0 0
      (executingOn ([0x0A, 0, 0, 5, 0] ++ smallCfg.toBytes) (record .paused .empty)) :=
  ⟨runsOn_of _ _ _ (by decide), by decide, runsOn_of _ _ _ (by decide), runsOn_of _ _ _ (by decide),
    runsOn_of _ _ _ (by decide), runsOn_of _ _ _ (by decide), runsOn_of _ _ _ (by decide), runsOn_of _ _ _ (by decide),
    runsOn_of _ _ _ (by decide)⟩

/-- A graceful close with nothing outstanding, and with one block. -/
theorem witness_graceful_close :
    RunsOn .streamClose [5, 0, 0, 5, 0, 0] 0 0 (executingOn [5, 0, 0, 5, 0, 0] (record .opened .empty)) ∧
    closeForm [5, 0, 0, 5, 0, 0] = some false ∧
    (cut 0 (executingOn [5, 0, 0, 5, 0, 0] (record .opened .empty)) (record .opened .empty)).1.pool.drain[0].count = 0 ∧
    (cut 0 (executingOn [5, 0, 0, 5, 0, 0] (record .opened (.filling 0 1 false)))
      (record .opened (.filling 0 1 false))).1.pool.drain[0].count = 1 :=
  ⟨runsOn_of _ _ _ (by decide), by decide, by decide +kernel, by decide +kernel⟩

/-- The egress side is idle, and the port agrees with it. -/
theorem running_link_agrees : LinkAgrees running := by
  constructor <;> decide +kernel

/-- A block of the stream is in flight, and none is owned or queued. -/
theorem sendingBlock_link_agrees : LinkAgrees (sendingBlock false) := by
  constructor <;> decide +kernel

theorem witness_teardown :
    QueuesDisjoint (sendingBlock false) ∧ LinkAgrees (sendingBlock false) ∧ ownedBlocks (heldRecord [5, 6] .fault) = [0, 5, 6] ∧
    ownedBlocks (record .opened .empty) = [] ∧ (∀ d : EgressClass, (0 : Handle) ∉ (sendingBlock false).egress.queues[d]) ∧
    QueuesDisjoint running ∧ LinkAgrees running ∧ (ownedBlocks (heldRecord [5, 6] .fault)).Nodup :=
  ⟨by unfold QueuesDisjoint; decide +kernel, sendingBlock_link_agrees, rfl, rfl, by decide +kernel,
    by unfold QueuesDisjoint; decide +kernel, running_link_agrees, by decide⟩

/-- The agent tears down stream n, whose record it holds in slot 0 as that of stream 0. -/
def tearing (n : StreamId) (x : Ctx) : State :=
  { engaged x true with agent.state := .tearing n, engine.mgmt := .holds 0 0 }

theorem witness_abort_and_teardown :
    RunsOn .streamClose [5, 0, 0, 5, 0, 1] 0 0 (executingOn [5, 0, 0, 5, 0, 1] (record .draining .empty)) ∧
    closeForm [5, 0, 0, 5, 0, 1] = some true ∧ (record .draining .empty).state ≠ .closed ∧
    (tearing 255 Ctx.reset).agent.state = .tearing 255 ∧ (tearing 254 (record .opened .empty)).engine.mgmt = .holds 0 0 ∧
    ModeStays 0 (tearing 0 Ctx.reset) :=
  ⟨runsOn_of _ _ _ (by decide), by decide, nofun, rfl, rfl, .inl rfl⟩

/-- A reconfiguration that is allowed, from HELD to IMMEDIATE too, and one that the class change forbids. -/
theorem witness_reconfigure :
    RunsOn .streamReconfigure ([0x0A, 0, 0, 5, 0] ++ smallCfg.toBytes) 0 0
      (executingOn ([0x0A, 0, 0, 5, 0] ++ smallCfg.toBytes) { heldRecord [5, 6] .fault with state := .paused, fill := .empty }) ∧
    parseCfg ((recordArgs ([0x0A, 0, 0, 5, 0] ++ smallCfg.toBytes)).drop 1) = some smallCfg ∧
    (heldRecord [5, 6] .fault).cfg.mode = .held ∧ smallCfg.mode = .immediate ∧
    (record .paused .empty).cfg.cls = smallCfg.cls ∧ (record .paused (.filling 0 1 false)).fill ≠ .empty :=
  ⟨runsOn_of _ _ _ (by decide), by decide, by decide, by decide, by decide, by decide⟩

theorem witness_unit_reset :
    Runs .unitReset [0x11, 0, 0, 5, 0] (executing [0x11, 0, 0, 5, 0]) ∧
    Runs .unitReset [0x11, 0, 0, 5, 1] (executing [0x11, 0, 0, 5, 1]) ∧
    Runs .unitReset [0x11, 0, 0, 5, 2] (executing [0x11, 0, 0, 5, 2]) ∧ recordArgs [0x11, 0, 0, 5, 2] = [2] := by
  refine ⟨?_, ?_, ?_, by decide⟩ <;> exact runs_of _ _ _ (by decide +kernel)

/-- A reset waits for its reply, in flight or queued behind another. -/
def resetWaits (l : ResetLevel) (s : State) : State := { s with agent.state := .resetPending l }

/-- A FULL reset that finds an assembly in progress leaves it the descriptor it was filling; with nothing in progress the init sweep
begins (R87, R172). -/
theorem test_full_reset_overtakes_assembly :
    let s := resetWaits .full (sendingItem (.reply someReply) (holding (block .filling)
      { engaged (record .opened (.filling 0 1 false)) true with assembler := [⟨⟨.data, false, 0, [1], 0⟩, 0, none⟩] }))
    let t := after .frameCompletion s
    t.assembler.map (fun a => a.stale) = [some (0, block .filling)] ∧ t.engine.mode = .sweepWait .init ∧
    t.pool.desc[0].state = .free ∧
    (after .frameCompletion (resetWaits .full (sendingItem (.reply someReply) running))).engine.mode = .initSweep := by
  decide +kernel

/-- The engine at a FULL reset: in RUNNING with nothing in progress, or beside an operation or a fetch; in a sweep. -/
theorem witness_engine_at_full_reset :
    (running.engine.mode = .running ∧ anyInUse running.engine = false ∧ running.engine.fetch = none) ∧
    anyInUse (engaged Ctx.reset true).engine = true ∧ (fetching 9 1 running).engine.fetch ≠ none ∧
    (sweeping 3 Ctx.reset).engine.mode ≠ .running := by decide +kernel

theorem witness_pending_reset :
    (let s := resetWaits .full (sendingItem (.reply someReply) running);
      s.link.inflight = some (.reply someReply) ∧ s.link.port = .sending ∧ s.link.timer = none ∧ s.egress.replies = []) ∧
    (resetWaits .streams (sendingItem (.reply someReply) replyWaits)).egress.replies ≠ [] ∧
    (let s := resetWaits .streams { replyWaits with link := ⟨0, .waiting, some 1, none, []⟩ };
      s.link.inflight = none ∧ s.link.port = .waiting ∧ s.egress.replies ≠ [] ∧ s.resetLow = false) := by decide +kernel

/-- The notice queue holds n records of LINK_RESET. -/
def withNotices (n : Nat) : State := { running with notices.queue := List.replicate n ⟨.linkReset, none, 255, none⟩ }

theorem witness_notice_request :
    ({ running with notices.mask := 0xFE } : State).notices.mask.getLsbD (NoticeKind.seqGap.code - 1) = false ∧
    running.notices.mask.getLsbD (NoticeKind.linkReset.code - 1) = true ∧
    (withNotices 1).notices.queue = [] ++ ⟨.linkReset, none, 255, none⟩ :: [] ∧ noticePlaces (withNotices 15) < 16 ∧
    16 ≤ noticePlaces (withNotices 16) ∧
    (∀ m ∈ (withNotices 16).notices.queue, ¬ (m.kind = .seqGap ∧ m.stream = some 0)) := by decide +kernel

/-- The invariants hold of the running part, which has next states. -/
theorem witness_invariants :
    MemoryCanonical running ∧ HoldAgrees running ∧ PoolLowAgrees running ∧ PortEngineAgree running ∧ LinkAgrees running ∧
    FrameAgrees running ∧ WithinBounds running ∧ LimitsLegal running ∧ TableLegal running ∧ RanksComplete running := by
  refine ⟨by unfold MemoryCanonical; decide +kernel, by unfold HoldAgrees; decide +kernel,
    by unfold PoolLowAgrees; decide +kernel, by unfold PortEngineAgree; decide +kernel, running_link_agrees,
    by unfold FrameAgrees; decide +kernel, by constructor <;> decide +kernel, by unfold LimitsLegal; decide +kernel,
    by unfold TableLegal EntryAccepted; decide +kernel, by unfold RanksComplete; decide +kernel⟩

theorem witness_agent_agrees :
    AgentAgrees running ∧ AgentAgrees { replies (sendingItem (.reply someReply) running) with
      agent.state := .waitingReplySpace
      agent.cmdq := [[1, 0, 0, 5]] } :=
  ⟨⟨fun _ => rfl, nofun⟩, ⟨nofun, fun _ => ⟨nofun, by decide +kernel⟩⟩⟩

/-- The agent ended an execution and had no command queued. -/
theorem witness_take_follows : TakeFollows (fun u => u = running) running := ⟨running, rfl, rfl, rfl⟩

theorem witness_configs_legal : ConfigsLegal running := by
  constructor <;> decide +kernel

/-- Every slot of the running part is VACANT. -/
theorem running_slot (i : Nat) (h : i < 8) : running.engine.slots[i] = .vacant := by
  simp [running, State.reset, State.powerOn, Engine.reset]

/-- No operation holds a slot of the running part. -/
theorem running_holds (i : SlotNo) : ¬ Holds i running := by
  rintro (⟨a, h, _⟩ | ⟨t, h⟩ | ⟨t, h⟩)
  · exact absurd h (by simp [running, State.reset, State.powerOn])
  · exact absurd h nofun
  · exact absurd h nofun

theorem witness_engine_consistent : EngineConsistent running where
  oneCell := Nat.zero_le _
  marks i := by simp [running_slot, running_holds, Slot.vacant]
  apart := ⟨nofun, nofun⟩
  engaged := ⟨nofun, nofun, nofun⟩
  vacant i := by simp [running_slot, Slot.vacant]
  distinct i j t := by simp [running_slot, Slot.vacant]
  busy i := by
    have h : running.engine.fetch = none := rfl
    simp [running_slot, Slot.vacant, h]
  fetched := nofun
  requester := nofun
  agent h := absurd rfl h
  parked := nofun
  readWaits := nofun
  headWaits := nofun
  quiet := by rintro (h | ⟨_, _, h⟩) <;> cases h
  reset := fun _ => nofun

/-- Every descriptor of the running part is FREE. -/
theorem running_desc (h : Nat) (lt : h < 128) : running.pool.desc[h] = .free := by
  simp [running, State.reset, State.powerOn, Pool.reset]

/-- Every record of the running part has its reset value. -/
theorem running_liveCopy (t : StreamId) : liveCopy t running = .reset := by
  have h : slotNos.find? (fun i => running.engine.slots[i].stream == some t &&
      (running.engine.slots[i].state == .clean || running.engine.slots[i].state == .dirty ||
        running.engine.slots[i].state == .evicting)) = none := by simp [running_slot, Slot.vacant]
  simp only [liveCopy, h]
  simp [running, State.reset, State.powerOn, Engine.reset]

theorem witness_storage_conserved : StorageConserved running where
  pages := by
    have free : running.pool.freePages = List.finRange 512 := by simp [running, State.reset, State.powerOn, Pool.reset]
    have none : (List.finRange 128).flatMap (fun h => running.pool.desc[h].pages) = [] := by simp [running_desc, Desc.free]
    rw [free, none, List.append_nil]
  pageLists h := by simp [running_desc, Desc.free]
  free := ⟨List.nodup_finRange 128, fun h => by
    have all : running.pool.freeDesc = List.finRange 128 := by simp [running, State.reset, State.powerOn, Pool.reset]
    simp [running_desc, Desc.free, all]⟩
  queued := ⟨by decide +kernel, fun h => by
    have none (c : EgressClass) : running.egress.queues[c] = [] := by simp [running, State.reset, State.powerOn, Egress.reset]
    simp only [none]; simp [running_desc, Desc.free]⟩
  sending h := by
    have none : running.link.inflight = none := rfl
    simp [running_desc, Desc.free, none]
  reset _ h := by simp [running_desc, Desc.free]
  owned _ := by constructor <;> simp [running_liveCopy, running_desc, Ctx.reset, Desc.free]
  outstanding t := by
    have h : running.pool.drain[t].count = 0 := by simp [running, State.reset, State.powerOn, Pool.reset]
    rw [h, eq_comm, List.countP_eq_zero]; simp [running_desc, Desc.free]

theorem witness_a_step_answers_next :
    ∃ t, step { running with pending := [.busResetSequence] } = .next t ∧ t.ingress.port = .busReset := ⟨_, rfl, rfl⟩

end Sys2Proof.Tests
end

section
/-!
SUPPORT. The judgement of a sequence number, row by row of Table 2-1, and the assembly of a duplicate (R27, R28).
-/
namespace Sys2Proof.Machine

open Sys2Proof

/-! ### Table 2-1 (R27) -/

theorem judgeSeq_of_not_valid {x : Ctx} (seq : BitVec 8) (hv : x.seqValid = false) : judgeSeq x seq = .first :=
  if_pos hv

theorem judgeSeq_of_valid {x : Ctx} (seq : BitVec 8) (hv : x.seqValid = true) :
    judgeSeq x seq = if seq = x.expected then .inOrder else if seq = x.expected - 1 then .duplicate else .gap :=
  if_neg (by simp [hv])

theorem seqValid_of_judgeSeq_duplicate {x : Ctx} {seq : BitVec 8} (h : judgeSeq x seq = .duplicate) :
    x.seqValid = true := by
  cases hv : x.seqValid with
  | true => rfl
  | false => rw [judgeSeq_of_not_valid seq hv] at h; cases h

/-- Only the duplicate leaves the expected sequence behind the cell. -/
theorem afterSeq_of_ne_duplicate {j : SeqJudgement} (seq : BitVec 8) (x : Ctx) (h : j ≠ .duplicate) :
    afterSeq j seq x = { x with expected := seq + 1, seqValid := true } := by
  cases j with
  | first | inOrder | gap => rfl
  | duplicate => exact absurd rfl h

theorem afterSeq_duplicate {x : Ctx} (seq : BitVec 8) (hv : x.seqValid = true) : afterSeq .duplicate seq x = x := by
  show { x with seqValid := true } = x
  rw [← hv]

/-! ### A duplicate (R28) -/

/-- The count of a cell (R25) comes before its judgement and does not bear on it. -/
@[simp] theorem judgeSeq_countCell (x : Ctx) (seq : BitVec 8) : judgeSeq x.countCell seq = judgeSeq x seq := rfl

theorem assembleCell_of_opened {x : Ctx} (c : StreamCell) (s : State) (hx : x.state = .opened) :
    assembleCell c s x = judgedCell c.stream c s x.countCell :=
  if_pos hx

/-- A duplicate leaves the rest of the state and, of its record, all but two counters. -/
theorem judgedCell_of_duplicate {x : Ctx} {c : StreamCell} (t : StreamId) (s : State)
    (h : judgeSeq x c.seq = .duplicate) :
    judgedCell t c s x = (s, x.countDuplicate.discardSamples (c.samples x.cfg.geom.w)) := by
  simp only [judgedCell, h, afterSeq_duplicate c.seq (seqValid_of_judgeSeq_duplicate h)]

theorem StreamCell.samples_eq (c : StreamCell) (w : Nat) : c.samples w = if c.kind = .data then c.payload.length / w else 0 := by
  unfold StreamCell.samples
  cases c.kind with
  | data => rfl
  | mark => rfl

/-- Settles O22: the four rows of Table 2-1, and the whole effect of a duplicate. -/
theorem sequenceJudgedAndDuplicateDiscarded : Obligations.SequenceJudgedAndDuplicateDiscarded := by
  refine ⟨fun x seq => ⟨?first, ?inOrder, ?duplicate, ?gap, ?advances, ?stays⟩, ?discarded⟩
  case first => exact judgeSeq_of_not_valid seq
  case inOrder =>
    intro hv he
    rw [judgeSeq_of_valid seq hv, if_pos he]
  case duplicate =>
    intro hv hd
    -- the row "in order" stands before this one: modulo 256 a number differs from the one before it
    have hne : seq ≠ x.expected := by bv_omega
    rw [judgeSeq_of_valid seq hv, if_neg hne, if_pos hd]
  case gap =>
    intro hv hne hnd
    rw [judgeSeq_of_valid seq hv, if_neg hne, if_neg hnd]
  case advances => exact fun j => afterSeq_of_ne_duplicate seq x
  case stays => exact afterSeq_duplicate seq
  case discarded =>
    intro c s x hx hd
    rw [assembleCell_of_opened c s hx, judgedCell_of_duplicate c.stream s ((judgeSeq_countCell x c.seq).trans hd),
      StreamCell.samples_eq]
    rfl

end Sys2Proof.Machine
end

section
/-!
SUPPORT. Tag classification: the two ranges of tags, the comparison of a data tag with an entry bit by bit, and the
resolution that the table or the unit address gives (R94–R99).
-/
namespace Sys2Proof.Machine

open Sys2Proof

/-! ### The management range (R94) -/

theorem isManagementTag_iff (tag : BitVec 12) : isManagementTag tag = true ↔ 0xFF0 ≤ tag.toNat := by
  rw [isManagementTag, decide_eq_true_iff, BitVec.le_def]
  rfl

/-- The unit's own tag is one of 0FF0h–0FF7h: the sum does not wrap. -/
theorem eq_unitTag_iff (tag : BitVec 12) (addr : BitVec 3) :
    tag = 0xFF0#12 + addr.setWidth 12 ↔ tag.toNat = 0xFF0 + addr.toNat := by
  bv_omega

theorem eq_broadcastTag_iff (tag : BitVec 12) : tag = 0xFFF#12 ↔ tag.toNat = 0xFFF := by
  bv_omega

theorem resolve_of_management (c : Classifier) {tag : BitVec 12} (h : 0xFF0 ≤ tag.toNat) :
    resolve c tag = if tag.toNat = 0xFFF then .managementBroadcast
      else if tag.toNat = 0xFF0 + c.unitAddr.toNat then .managementUnit else .noClaim := by
  simp only [resolve, if_pos ((isManagementTag_iff tag).mpr h), eq_broadcastTag_iff, eq_unitTag_iff]

/-! ### A data tag and one entry (R95, R97, R98) -/

theorem and_eq_and_iff_getLsbD {w : Nat} (x y m : BitVec w) :
    x &&& m = y &&& m ↔ ∀ b < w, m.getLsbD b = true → x.getLsbD b = y.getLsbD b := by
  constructor
  · intro h b _ hm
    simpa [hm] using congrArg (·.getLsbD b) h
  · intro h
    apply BitVec.eq_of_getLsbD_eq
    intro b hb
    cases hm : m.getLsbD b with
    | false => simp [hm]
    | true => simp [hm, h b hb hm]

theorem matchesTag_iff (e : ClassEntry) (tag : BitVec 12) :
    e.matchesTag tag = true ↔
      e.valid = true ∧ ∀ b < 12, e.care.getLsbD b = true → tag.getLsbD b = e.value.getLsbD b := by
  rw [ClassEntry.matchesTag, Bool.and_eq_true, decide_eq_true_iff, and_eq_and_iff_getLsbD]

theorem resolution_of_stream {e : ClassEntry} (tag : BitVec 12) (h : e.action = .stream) :
    e.resolution tag = .stream e.base := by
  rw [ClassEntry.resolution, h]

theorem resolution_of_discard {e : ClassEntry} (tag : BitVec 12) (h : e.action = .discard) :
    e.resolution tag = .discard := by
  rw [ClassEntry.resolution, h]

theorem resolution_of_spread {e : ClassEntry} (tag : BitVec 12) (h : e.action = .spread) :
    e.resolution tag = .stream (Fin.ofNat 256 (e.base.val + tag.toNat % 2 ^ e.width)) := by
  rw [ClassEntry.resolution, h]

/-- Check 3 of R101. -/
theorem spread_reach_of_legal {e : ClassEntry} (hv : e.valid = true) (ha : e.action = .spread) (hl : e.legal = true) :
    e.base.val + 2 ^ e.width - 1 ≤ 255 := by
  simp only [ClassEntry.legal, hv, ha, Bool.not_true, Bool.false_or, bne_self_eq_false, Bool.and_eq_true,
    decide_eq_true_eq] at hl
  exact hl.1

/-- The stream that a legal SPREAD entry gives does not wrap modulo 256. -/
theorem resolution_of_legal_spread {e : ClassEntry} (tag : BitVec 12) (hv : e.valid = true) (ha : e.action = .spread)
    (hl : e.legal = true) :
    ∃ t : StreamId, e.resolution tag = .stream t ∧ t.val = e.base.val + tag.toNat % 2 ^ e.width := by
  refine ⟨_, resolution_of_spread tag ha, ?_⟩
  have reach : e.base.val + 2 ^ e.width - 1 ≤ 255 := spread_reach_of_legal hv ha hl
  have low : tag.toNat % 2 ^ e.width < 2 ^ e.width := Nat.mod_lt _ (Nat.two_pow_pos _)
  exact Nat.mod_eq_of_lt (by omega)

/-! ### A data tag and the table (R96) -/

theorem resolve_of_data (c : Classifier) {tag : BitVec 12} (h : tag.toNat < 0xFF0) :
    resolve c tag =
      ((c.table.toList.find? (·.matchesTag tag)).map (·.resolution tag)).getD .noClaim := by
  have hm : ¬ isManagementTag tag = true := by rw [isManagementTag_iff]; omega
  rw [resolve, if_neg hm]
  cases c.table.toList.find? (·.matchesTag tag) <;> rfl

theorem resolve_of_no_match (c : Classifier) {tag : BitVec 12} (h : tag.toNat < 0xFF0)
    (noMatch : ∀ n : EntryNo, ¬ c.table[n].matchesTag tag = true) : resolve c tag = .noClaim := by
  have nothing : c.table.toList.find? (·.matchesTag tag) = none := by
    rw [List.find?_eq_none]
    intro e he
    obtain ⟨i, hi, rfl⟩ := Vector.mem_iff_getElem.mp (Vector.mem_toList_iff.mp he)
    exact noMatch ⟨i, hi⟩
  rw [resolve_of_data c h, nothing]
  rfl

theorem resolve_of_lowest_match (c : Classifier) {tag : BitVec 12} (h : tag.toNat < 0xFF0) {n : EntryNo}
    (here : c.table[n].matchesTag tag = true) (lowest : ∀ m < n, ¬ c.table[m].matchesTag tag = true) :
    resolve c tag = c.table[n].resolution tag := by
  have found : c.table.toList.find? (·.matchesTag tag) = some c.table[n] := by
    rw [List.find?_eq_some_iff_getElem]
    refine ⟨here, n, by simp, by simp, fun j hj => ?_⟩
    simpa using lowest ⟨j, Nat.lt_trans hj n.isLt⟩ hj
  rw [resolve_of_data c h, found]
  rfl

/-- Settles O13: the management range by the unit address, a data tag by the lowest entry that matches it. -/
theorem tagsResolveByAddressOrLowestEntry : Obligations.TagsResolveByAddressOrLowestEntry := by
  refine fun c tag => ⟨?management, fun data => ?table⟩
  case management =>
    intro h
    rw [resolve_of_management c h]
    by_cases own : tag.toNat = 0xFF0 + c.unitAddr.toNat
    · -- the model asks for the broadcast tag first; it is no unit's own tag, since an address is at most 7
      have addr : c.unitAddr.toNat < 8 := c.unitAddr.isLt
      have notBroadcast : tag.toNat ≠ 0xFFF := by omega
      rw [if_neg notBroadcast, if_pos own, if_pos own]
    · rw [if_neg own, if_neg own]
  case table =>
    simp only [← matchesTag_iff]
    refine ⟨resolve_of_no_match c data, fun n here lowest => ?_⟩
    rw [resolve_of_lowest_match c data here lowest]
    obtain ⟨valid, -⟩ := (matchesTag_iff _ tag).mp here
    exact ⟨resolution_of_stream tag, resolution_of_discard tag, resolution_of_legal_spread tag valid⟩

end Sys2Proof.Machine
end

section
/-!
SUPPORT. The arrival of a cell: which branch of Figure 6-1 it takes by port state, check, kind and claim (R108–R111), and the
five tests of the format judgement (R112, R113).
-/
namespace Sys2Proof.Machine

open Sys2Proof

/-! ### The branches of an arrival (R107–R111) -/

section
variable {bytes : List Byte} {c : Cell} {s : State}

theorem exec_cellArrival_of_parse (awake : s.resetLow = false) (parsed : parseCell bytes = some c) :
    exec (.cellArrival bytes) s = .next (arrive c s) := by
  have arm : exec (.cellArrival bytes) s = execCellArrival bytes s := rfl
  simp only [arm, execCellArrival, live, awake, parsed, Bool.false_eq_true, if_false]

theorem arrive_of_not_ready (h : s.ingress.port ≠ .ready) : arrive c s = respond none (count .cellsSeen s) := by
  simp only [arrive, respond_frame, count_frame]
  cases port : s.ingress.port with
  | ready => exact absurd port h
  | init | busReset => rfl

theorem arrive_of_ready (h : s.ingress.port = .ready) : arrive c s = judgeArrival c (respond none (count .cellsSeen s)) := by
  simp only [arrive, respond_frame, count_frame, h]

theorem judgeArrival_of_failed_check (h : c.checkOk = false) : judgeArrival c s = count .checkErrors s := by
  simp only [judgeArrival, h, Bool.false_eq_true, if_false]

theorem judgeArrival_of_fill (check : c.checkOk = true) (fill : c.kind = .fill) : judgeArrival c s = s := by
  simp only [judgeArrival, check, fill, if_true]

/-- Past check and kind, the resolution of the tag alone decides. -/
theorem judgeArrival_of_ne_fill (check : c.checkOk = true) (notFill : c.kind ≠ .fill) :
    judgeArrival c s = if resolve s.classifier c.tag = .noClaim then count .cellsUnclaimed s
      else claimedCell c (resolve s.classifier c.tag) s := by
  simp only [judgeArrival, check, if_true]
  cases kind : c.kind with
  | fill => exact absurd kind notFill
  | data | mark | mgmt => cases resolve s.classifier c.tag <;> rfl

/-- A cell with a correct check, not FILL, that arrives in READY: the count of R118 does not bear on its claim. -/
theorem Arrives.exec_eq (h : Arrives bytes c s) (notFill : c.kind ≠ .fill) :
    exec (.cellArrival bytes) s = .next (if resolve s.classifier c.tag = .noClaim
      then count .cellsUnclaimed (respond none (count .cellsSeen s))
      else claimedCell c (resolve s.classifier c.tag) (respond none (count .cellsSeen s))) := by
  rw [exec_cellArrival_of_parse h.awake h.parsed, arrive_of_ready h.ready, judgeArrival_of_ne_fill h.check notFill]
  rfl

end

/-! ### The five tests of R112 -/

theorem legalMark_iff (payload : List Byte) :
    legalMark payload = true ↔ ∃ b : Byte, payload = [b] ∧ (b = 1 ∨ b = 2 ∨ b = 3) := by
  have range (b : Byte) : 1 ≤ b.toNat ∧ b.toNat ≤ 3 ↔ b = 1 ∨ b = 2 ∨ b = 3 := by bv_omega
  match payload with
  | [] => simp [legalMark]
  | [b] => simp [legalMark, range]
  | _ :: _ :: _ => simp [legalMark]

/-- Test 3 as R112 words it: MGMT on a stream or DISCARD, DATA or MARK on the management range. -/
theorem kindFits_eq_false_iff {k : CellKind} {r : Resolution} (notFill : k ≠ .fill) (claimed : r ≠ .noClaim) :
    kindFits k r = false ↔ (k = .mgmt ∧ ((∃ t, r = .stream t) ∨ r = .discard)) ∨
      ((k = .data ∨ k = .mark) ∧ (r = .managementUnit ∨ r = .managementBroadcast)) := by
  cases r with
  | noClaim => exact absurd rfl claimed
  | stream _ | discard | managementUnit | managementBroadcast =>
    cases k with
    | fill => exact absurd rfl notFill
    | data | mark | mgmt => simp [kindFits]

/-- The model's format judgement is the five tests of R112. -/
theorem wellFormedCell_eq_false_iff {c : Cell} {r : Resolution} (notFill : c.kind ≠ .fill) (claimed : r ≠ .noClaim) :
    wellFormedCell c r = false ↔ FormatFaulty c r := by
  simp only [wellFormedCell, Bool.and_eq_false_iff, Bool.or_eq_false_iff, decide_eq_false_iff_not, bne_eq_false_iff_eq,
    kindFits_eq_false_iff notFill claimed, ← Bool.not_eq_true (legalMark _), legalMark_iff, Nat.not_le, or_assoc, FormatFaulty]

theorem claimedCell_of_formatFaulty {c : Cell} {r : Resolution} (s : State) (notFill : c.kind ≠ .fill)
    (claimed : r ≠ .noClaim) (faulty : FormatFaulty c r) : claimedCell c r s = formatFault r s := by
  simp only [claimedCell, (wellFormedCell_eq_false_iff notFill claimed).mpr faulty, Bool.false_eq_true, if_false]

/-- Only the broadcast tag leaves a claimed cell without an answer (R113). -/
theorem answer_of_claimed {r : Resolution} (code : Response) (claimed : r ≠ .noClaim) :
    r.answer code = if r = .managementBroadcast then none else some code := by
  cases r with
  | noClaim => exact absurd rfl claimed
  | stream _ | discard | managementUnit | managementBroadcast => rfl

/-! ### Arrivals that are only counted, and format faults -/

/-- Settles O6: each arrival ends at its branch of Figure 6-1, before any answer is due. -/
theorem arrivalsThatAreOnlyCounted : Obligations.ArrivalsThatAreOnlyCounted := by
  intro bytes c s awake parsed
  have arrives := exec_cellArrival_of_parse awake parsed
  refine ⟨?seenAlone, ?failedCheck, ?unclaimed⟩
  case seenAlone =>
    intro h
    by_cases ready : s.ingress.port = .ready
    · obtain ⟨check, fill⟩ := h.resolve_left (not_not_intro ready)
      rw [arrives, arrive_of_ready ready, judgeArrival_of_fill check fill]
      rfl
    · rw [arrives, arrive_of_not_ready ready]
      rfl
  case failedCheck =>
    intro ready check
    rw [arrives, arrive_of_ready ready, judgeArrival_of_failed_check check]
    rfl
  case unclaimed =>
    intro ready check notFill unclaimed
    rw [Arrives.exec_eq ⟨awake, ready, parsed, check⟩ notFill, if_pos unclaimed]
    rfl

/-- Settles O7: the five tests of R112 send the cell to the format fault, which counts and answers. -/
theorem formatFaultIsRefused : Obligations.FormatFaultIsRefused := by
  intro bytes c s arrives notFill claimed faulty
  rw [arrives.exec_eq notFill, if_neg claimed, claimedCell_of_formatFaulty _ notFill claimed faulty, formatFault,
    answer_of_claimed .refuseFormat claimed]
  rfl

end Sys2Proof.Machine
end

section
/-!
SUPPORT. The reading of a limits block (R161, R185), what the judgement of the port does while a reply waits (R129, R133), the end
of the execution of a command that acts on no stream (R151, R152, R154), and LIMITS_WRITE (R161, R162).
-/
namespace Sys2Proof.Machine

open Sys2Proof

/-! ### A limits block of 11 bytes (R161, R185) -/

theorem word16_toNat (hi lo : Byte) : (word16 hi lo).toNat = 256 * hi.toNat + lo.toNat := by
  rw [word16, BitVec.toNat_append, ← Nat.shiftLeft_add_eq_or_of_lt lo.isLt, Nat.shiftLeft_eq]
  omega

theorem Limits.valid_iff (l : Limits) :
    l.valid = true ↔ 2 ≤ l.holdMark ∧ l.holdMark ≤ 32 ∧ l.releaseMark < l.holdMark ∧ l.reserve ≤ 256 ∧
      ∀ w ∈ l.weights.toList, 1 ≤ w ∧ w ≤ 8 := by
  simp only [Limits.valid, Bool.and_eq_true, List.all_eq_true, decide_eq_true_eq, and_assoc]

/-- The fields that the 11 bytes of a limits block spell (R185). -/
def limitsOfBytes (b0 b1 b2 b3 b4 b5 b6 b7 b8 b9 b10 : Byte) : Limits :=
  ⟨b0.toNat, b1.toNat, 256 * b2.toNat + b3.toNat, b4 ++ b5, #v[b6.toNat, b7.toNat, b8.toNat, b9.toNat],
    BitVec.ofNat 4 b10.toNat⟩

section
variable (b0 b1 b2 b3 b4 b5 b6 b7 b8 b9 b10 : Byte)

theorem parseLimits_of_bytes :
    parseLimits [b0, b1, b2, b3, b4, b5, b6, b7, b8, b9, b10] =
      if (limitsOfBytes b0 b1 b2 b3 b4 b5 b6 b7 b8 b9 b10).valid then
        some (limitsOfBytes b0 b1 b2 b3 b4 b5 b6 b7 b8 b9 b10) else none := by
  have discardable : b10.extractLsb' 0 4 = BitVec.ofNat 4 b10.toNat := by
    rw [BitVec.extractLsb', Nat.shiftRight_zero]
  simp only [parseLimits, word16_toNat, discardable]
  rfl

/-- The four refusals of R161 together are the failure of the check. -/
theorem limitsOfBytes_not_valid_iff :
    ¬ (limitsOfBytes b0 b1 b2 b3 b4 b5 b6 b7 b8 b9 b10).valid = true ↔
      b0.toNat < 2 ∨ 32 < b0.toNat ∨ b0.toNat ≤ b1.toNat ∨ 256 < 256 * b2.toNat + b3.toNat ∨
        ∃ b ∈ [b6, b7, b8, b9], b.toNat < 1 ∨ 8 < b.toNat := by
  have weights : (limitsOfBytes b0 b1 b2 b3 b4 b5 b6 b7 b8 b9 b10).weights.toList = [b6, b7, b8, b9].map BitVec.toNat := rfl
  rw [Limits.valid_iff, weights, List.forall_mem_map]
  simp only [limitsOfBytes, Classical.not_and_iff_not_or_not, Classical.not_forall, exists_prop, Nat.not_le, Nat.not_lt]

end

/-! ### The judgement of the port while a reply waits (R129, R133) -/

/-- With a reply queued the port takes the oldest one, waits for credit, or stays as it is. -/
theorem judgePort_of_reply {s : State} {r : Reply} {rest : List Reply} (queued : s.egress.replies = r :: rest) :
    judgePort s = s ∨
    (s.link.inflight = none ∧ s.link.port ≠ .stalled ∧ ¬ (s.link.port = .waiting ∧ s.link.credit = 0) ∧
      (judgePort s = startFrame (.reply r) { s with egress.replies := rest } ∨
        judgePort s = { s with link.port := .waiting, link.timer := loadedTimer s.agent.limits })) := by
  have waits : hasWaiting s = true := by simp [hasWaiting, queued]
  have take : takeForSending s = startFrame (.reply r) { s with egress.replies := rest } := by
    simp only [takeForSending, queued]
  cases item : s.link.inflight with
  | some _ => exact .inl (judgePort_of_inflight (by simp [item]))
  | none =>
    by_cases stalled : s.link.port = .stalled
    · exact .inl (judgePort_of_stalled stalled)
    · have judged : judgePort s = if 0 < s.link.credit then takeForSending s
          else if s.link.port = .waiting then s
          else { s with link.port := .waiting, link.timer := loadedTimer s.agent.limits } := by
        cases port : s.link.port with
        | stalled => exact absurd port stalled
        | idle | sending | waiting => simp [judgePort, item, port, waits]
      by_cases credit : 0 < s.link.credit
      · rw [judged, if_pos credit, take]
        exact .inr ⟨rfl, stalled, fun h => by omega, .inl rfl⟩
      · rw [judged, if_neg credit]
        by_cases waiting : s.link.port = .waiting
        · exact .inl (if_pos waiting)
        · exact .inr ⟨rfl, stalled, fun h => waiting h.1, .inr (if_neg waiting)⟩

/-- A waiting reply that becomes the in-flight item is owed as before. -/
theorem judgePort_owedReplies {s : State} (queued : s.egress.replies ≠ []) : owedReplies (judgePort s) = owedReplies s := by
  obtain ⟨r, rest, queued⟩ := List.exists_cons_of_ne_nil queued
  obtain same | ⟨item, -, -, taken | waits⟩ := judgePort_of_reply queued
  · rw [same]
  · rw [taken]
    simp [owedReplies, startFrame, item, queued]
  · rw [waits]
    rfl

/-- While a reply waits no notice and no block is taken: the judgement writes the link and the reply queue alone, and the link only
where the port can begin to send or to wait. -/
theorem judgePort_writes {s : State} (queued : s.egress.replies ≠ []) :
    ∃ q l, judgePort s = { s with egress.replies := q, link := l } ∧
      (s.link.inflight ≠ none ∨ s.link.port = .stalled ∨ (s.link.port = .waiting ∧ s.link.credit = 0) → l = s.link) := by
  obtain ⟨r, rest, queued⟩ := List.exists_cons_of_ne_nil queued
  obtain same | ⟨item, stalled, waiting, taken | waits⟩ := judgePort_of_reply queued
  · exact ⟨s.egress.replies, s.link, same, fun _ => rfl⟩
  · exact ⟨_, _, taken, fun busy => by simp [item, stalled, waiting] at busy⟩
  · exact ⟨_, _, waits, fun busy => by simp [item, stalled, waiting] at busy⟩

/-! ### The end of an execution (R151, R152, R154, R155) -/

section
variable (record : List Byte) (status : Status) (result : List Byte)

theorem finish_agent (next : AgentState) (u : State) : (finish record status result next u).agent =
    { u.agent with state := next, cache := cacheAfter record (replyFor record status result) u.agent.cache } := by
  rw [finish, appendReply]
  obtain ⟨-, -, -, -, agent, -⟩ := judgePort_frame _
  exact agent

/-- An execution that leaves link, replies and cache to its end is answered there. -/
theorem finish_answered (next : AgentState) {s u : State} (link : u.link = s.link)
    (replies : u.egress.replies = s.egress.replies) (cache : u.agent.cache = s.agent.cache) :
    Answered record status result s (finish record status result next u) where
  reply := by
    rw [finish, appendReply, judgePort_owedReplies (by simp)]
    simp only [owedReplies, link, replies, List.append_assoc]
    rfl
  cache := by
    rw [finish_agent, ← cache]
    rfl

theorem finish_keptByReply (next : AgentState) (u : State) : KeptByReply u (finish record status result next u) := by
  obtain ⟨q, l, writes, link⟩ := judgePort_writes (s := { u with
    agent.state := next
    agent.cache := cacheAfter record (replyFor record status result) u.agent.cache
    egress.replies := u.egress.replies ++ [replyFor record status result] }) (by simp)
  rw [finish, appendReply, writes]
  exact ⟨rfl, rfl, rfl, rfl, rfl, rfl, ⟨rfl, rfl⟩, rfl, link, rfl, rfl, rfl, rfl, rfl⟩

end

theorem exec_commandTake_of_awake {u : State} (awake : u.resetLow = false) : exec .commandTake u = .next (takeNext u) := by
  have arm : exec .commandTake u = execCommandTake u := rfl
  simp only [arm, execCommandTake, live, awake, Bool.false_eq_true, if_false]

/-- The row of a command that acts on no stream ends the execution of its record, and the take follows in that event (R151). -/
theorem runPlain_takeFollows {c : Command} {record : List Byte} {s : State} {f : List Byte → State → Answer} {a : Answer}
    (runs : Runs c record s) (answer : f record s = a) (awake : a.state.resetLow = false) :
    ∃ t, live (runPlain c anyRecord f) s = .next t ∧
      TakeFollows (fun u => u = finish record a.status a.result .idle a.state) t := by
  have event : live (runPlain c anyRecord f) s = .next (takeNext (finish record a.status a.result .idle a.state)) := by
    simp only [live, runPlain, runs.awake, runs.executing, runs.names, anyRecord, answer, and_self, Bool.false_eq_true,
      if_true, if_false]
  have pin := (finish_keptByReply record a.status a.result .idle a.state).pin
  have idle : (finish record a.status a.result .idle a.state).agent.state = .idle := by rw [finish_agent]
  exact ⟨_, event, _, rfl, idle, exec_commandTake_of_awake (pin.trans awake)⟩

theorem TakeFollows.imp {p q : State → Prop} {t : State} (h : TakeFollows p t) (imp : ∀ u, p u → q u) : TakeFollows q t :=
  let ⟨u, ended, idle, take⟩ := h
  ⟨u, imp u ended, idle, take⟩

/-- A command that acts on no stream and leaves link, replies and cache is answered, and its end keeps the rest. -/
theorem runPlain_answers {c : Command} {record : List Byte} {s : State} {f : List Byte → State → Answer} {a : Answer}
    (runs : Runs c record s) (answer : f record s = a) (pin : a.state.resetLow = s.resetLow) (link : a.state.link = s.link)
    (replies : a.state.egress.replies = s.egress.replies) (cache : a.state.agent.cache = s.agent.cache) :
    ∃ t, live (runPlain c anyRecord f) s = .next t ∧
      TakeFollows (fun u => Answered record a.status a.result s u ∧ KeptByReply a.state u) t := by
  obtain ⟨t, event, follows⟩ := runPlain_takeFollows runs answer (pin.trans runs.awake)
  refine ⟨t, event, follows.imp fun u ended => ?_⟩
  subst ended
  exact ⟨finish_answered _ _ _ _ link replies cache, finish_keptByReply _ _ _ _ _⟩

/-! ### LIMITS_WRITE (R161, R162) -/

/-- The readers of the limits judge once more: the hold flag where a mark changed, pool-low, and HOLD (R63, R120, R121). -/
theorem applyLimits_of_awake (l : Limits) {s : State} (awake : s.resetLow = false) :
    applyLimits l s =
      let flag := holdFlagAfterLimits s.agent.limits l s.ingress.fifo.length s.ingress.holdFlag
      let low := decide (s.pool.freePages.length < l.reserve)
      { s with
        agent.limits := l
        pool.low := low
        ingress.holdFlag := flag
        ingress.hold := s.ingress.port != .ready || flag || low } := by
  simp only [applyLimits, judgePoolLow, judgeHold, holdDue, awake, Bool.false_or]

theorem answerLimitsWrite_of_some {record : List Byte} {l : Limits} (s : State)
    (parsed : parseLimits (recordArgs record) = some l) : answerLimitsWrite record s = ⟨applyLimits l s, .done, []⟩ := by
  simp only [answerLimitsWrite, parsed]

theorem answerLimitsWrite_of_none {record : List Byte} (s : State) (refused : parseLimits (recordArgs record) = none) :
    answerLimitsWrite record s = refuse .badArgument s := by
  simp only [answerLimitsWrite, refused]

/-- Settles O42: the block is judged whole by the check of R161, and the answer to what it spells is given before the reply. -/
theorem limitsWriteIsAllOrNothing : Obligations.LimitsWriteIsAllOrNothing := by
  refine ⟨?judged, fun s record runs => ⟨?accepted, ?refused⟩⟩
  case judged =>
    intro b0 b1 b2 b3 b4 b5 b6 b7 b8 b9 b10
    simp only [parseLimits_of_bytes, ← limitsOfBytes_not_valid_iff b0 b1 b2 b3 b4 b5 b6 b7 b8 b9 b10, ite_not]
    rfl
  case accepted =>
    intro l parsed
    have applied := applyLimits_of_awake l runs.awake
    obtain ⟨t, event, follows⟩ := runPlain_answers runs (answerLimitsWrite_of_some s parsed) rfl rfl rfl rfl
    exact ⟨t, event, follows.imp fun u ⟨answered, kept⟩ => ⟨answered, applied ▸ kept⟩⟩
  case refused =>
    intro refused
    exact runPlain_answers runs (answerLimitsWrite_of_none s refused) rfl rfl rfl rfl

end Sys2Proof.Machine
end

section
/-!
SUPPORT. The bytes of the return lane: a byte is its type over its low four bits, the indication that each type decodes to, and
the byte that each indication is written as (R187).
-/
namespace Sys2Proof.Machine

open Sys2Proof

/-! ### A byte as type and low bits -/

theorem returnLaneType_toNat (b : Byte) : (returnLaneType b).toNat = b.toNat / 16 := by
  rw [returnLaneType, BitVec.extractLsb'_toNat, Nat.shiftRight_eq_div_pow]
  omega

theorem returnLaneType_append_low (b : Byte) : returnLaneType b ++ b.extractLsb' 0 4 = b :=
  BitVec.extractLsb'_append_extractLsb'

theorem toNat_type_append_low (type low : BitVec 4) : (type ++ low).toNat = 16 * type.toNat + low.toNat := by
  rw [BitVec.toNat_append, ← Nat.shiftLeft_add_eq_or_of_lt low.isLt, Nat.shiftLeft_eq]
  omega

/-- Adding low bits to a byte whose own are 0 writes them beside its type: nothing carries. -/
theorem add_low_eq_type_append_low {high : Byte} {type : BitVec 4} (low : BitVec 4) (h : high.toNat = 16 * type.toNat) :
    high + low.setWidth 8 = type ++ low := by
  have sum := toNat_type_append_low type low
  bv_omega

/-! ### The indication of a type -/

section
variable {b : Byte}

theorem decodeReturnLane_of_grant (type : returnLaneType b = 1) :
    decodeReturnLane b = .creditGrant (b.extractLsb' 0 4) :=
  if_pos type

theorem decodeReturnLane_of_reset (type : returnLaneType b = 2) :
    decodeReturnLane b = .egressLinkReset (b.extractLsb' 0 4) := by
  simp [decodeReturnLane, type]

theorem decodeReturnLane_of_other (notGrant : returnLaneType b ≠ 1) (notReset : returnLaneType b ≠ 2) :
    decodeReturnLane b = .returnLaneOther b := by
  rw [decodeReturnLane, if_neg notGrant, if_neg notReset]

end

/-! ### Reading and writing a byte are inverse -/

theorem decodeReturnLane_writes_back (b : Byte) :
    returnLaneByte (decodeReturnLane b) = some b ∧ (decodeReturnLane b).wellFormed = true := by
  have whole := returnLaneType_append_low b
  by_cases grant : returnLaneType b = 1
  · rw [grant] at whole
    rw [decodeReturnLane_of_grant grant]
    exact ⟨congrArg some whole, rfl⟩
  · by_cases reset : returnLaneType b = 2
    · rw [reset] at whole
      rw [decodeReturnLane_of_reset reset]
      exact ⟨congrArg some whole, rfl⟩
    · rw [decodeReturnLane_of_other grant reset]
      exact ⟨rfl, decide_eq_true ⟨grant, reset⟩⟩

/-- Three commands are carried by a byte of the return lane; of the others there is nothing to read back. -/
theorem returnLaneByte_reads_back (i : Instr) : Laws.ReturnLane.Statement i := by
  cases i with
  | creditGrant g => exact Laws.ReturnLane.creditGrant g
  | egressLinkReset spare => exact Laws.ReturnLane.egressLinkReset spare
  | returnLaneOther b => exact Laws.ReturnLane.returnLaneOther b
  | _ => exact Laws.ReturnLane.of_none rfl

theorem decodeReturnLane_grant_add (g : BitVec 4) : decodeReturnLane (0x10#8 + g.setWidth 8) = .creditGrant g :=
  add_low_eq_type_append_low (high := 0x10#8) (type := 1) g rfl ▸ Laws.ReturnLane.creditGrant g rfl _ rfl

theorem decodeReturnLane_reset_add (spare : BitVec 4) :
    decodeReturnLane (0x20#8 + spare.setWidth 8) = .egressLinkReset spare :=
  add_low_eq_type_append_low (high := 0x20#8) (type := 2) spare rfl ▸ Laws.ReturnLane.egressLinkReset spare rfl _ rfl

/-! ### A byte of another type (R187) -/

/-- In reset and out of it the port is left as it was. -/
theorem exec_returnLaneOther (b : Byte) (s : State) : exec (.returnLaneOther b) s = .next s := by
  have arm : exec (.returnLaneOther b) s = live id s := rfl
  rw [arm, live, id, ite_self]

/-- Settles O37: the cases are the three types of byte, and the three commands that a byte carries. -/
theorem returnLaneBytesReadBack : Obligations.ReturnLaneBytesReadBack := by
  refine ⟨returnLaneByte_reads_back, decodeReturnLane_writes_back,
    fun g => ⟨decodeReturnLane_grant_add g, decodeReturnLane_reset_add g⟩, fun b notGrant notReset => ?other,
    exec_returnLaneOther⟩
  have type := returnLaneType_toNat b
  exact decodeReturnLane_of_other (fun grant => notGrant (by simp [← type, grant]))
    (fun reset => notReset (by simp [← type, reset]))

end Sys2Proof.Machine
end

section
/-!
SUPPORT. Every command but the two of RESET_N as one event on the state, and the invariants that such an event keeps: what a
step does, said once (R87, R121, R129, R150–R151, R188).
-/
namespace Sys2Proof.Machine

open Sys2Proof

/-! ### The event of a command -/

/-- What a command does to the running part; the two edges of RESET_N act on a part that does not run. -/
def eventOf : Instr → Option (State → State)
  | .resetNAssert _ | .resetNRelease _ => none
  | .initSweepCompletion => some initSweepDone
  | .cellArrival bytes => some fun s =>
    match parseCell bytes with
    | some c => arrive c s
    | none => s
  | .busResetSequence => some busReset
  | .busSweepStep => some sweepStep
  | .dispatch => some dispatchHead
  | .writeBackCompletion => some writeBackDone
  | .fetchCompletion => some fetchDone
  | .cellAssembly => some assemblyDone
  | .drainCompletion => some drainDone
  | .commandTake => some takeNext
  | .ident => some (runPlain .ident anyRecord answerIdent)
  | .classWrite => some (runPlain .classWrite anyRecord answerClassWrite)
  | .classRead => some (runPlain .classRead anyRecord answerClassRead)
  | .streamOpen => some (runStream .streamOpen anyRecord answerOpen)
  | .streamCloseGraceful => some (runStream .streamClose (fun r => closeForm r != some true) answerCloseGraceful)
  | .streamCloseAbort => some (runStream .streamClose (fun r => closeForm r != some false) answerCloseAbort)
  | .streamPause => some (runStream .streamPause anyRecord answerPause)
  | .streamResume => some (runStream .streamResume anyRecord answerResume)
  | .streamCut => some (runStream .streamCut anyRecord answerCut)
  | .streamRelease => some (runStream .streamRelease anyRecord answerRelease)
  | .streamReconfigure => some (runStream .streamReconfigure anyRecord answerReconfigure)
  | .streamQuery => some (runStream .streamQuery anyRecord answerQuery)
  | .poolQuery => some (runPlain .poolQuery anyRecord answerPoolQuery)
  | .limitsWrite => some (runPlain .limitsWrite anyRecord answerLimitsWrite)
  | .limitsRead => some (runPlain .limitsRead anyRecord answerLimitsRead)
  | .countersRead => some (runPlain .countersRead (fun r => clearOption r != some true) answerCounters)
  | .countersReadClear => some (runPlain .countersRead (fun r => clearOption r != some false) answerCounters)
  | .noticeMaskWrite => some (runPlain .noticeMaskWrite anyRecord answerNoticeMask)
  | .unitResetStreams => some (unitReset (fun r => resetLevelArg r != some .full))
  | .unitResetFull => some (unitReset (fun r => resetLevelArg r != some .streams))
  | .streamsTeardown => some teardownStep
  | .frameCompletion => some frameDone
  | .creditGrant g => some (grant g)
  | .egressLinkReset _ => some linkReset
  | .returnLaneOther _ => some id
  | .stallExpiry => some stallExpiry

theorem exec_of_event {c : Instr} {f : State → State} (h : eventOf c = some f) (s : State) : exec c s = live f s := by
  cases c <;> cases h <;> rfl

theorem live_of_awake (f : State → State) {s : State} (awake : s.resetLow = false) : live f s = .next (f s) := by
  simp only [live, awake, Bool.false_eq_true, if_false]

theorem live_of_resetLow (f : State → State) {s : State} (low : s.resetLow = true) : live f s = .next s := by
  simp only [live, low, if_true]

/-- In a running part a command is its event. -/
theorem exec_of_awake {c : Instr} {f : State → State} (h : eventOf c = some f) {s : State} (awake : s.resetLow = false) :
    exec c s = .next (f s) := by
  rw [exec_of_event h, live_of_awake f awake]

/-- Only the two edges of RESET_N are no event of the running part. -/
theorem eventOf_eq_none {c : Instr} (h : eventOf c = none) :
    (∃ ns, c = .resetNAssert ns) ∨ ∃ straps, c = .resetNRelease straps := by
  cases c with
  | resetNAssert ns => exact .inl ⟨ns, rfl⟩
  | resetNRelease straps => exact .inr ⟨straps, rfl⟩
  | _ => cases h

/-- Every event of the running part keeps the invariants of `KeepsAgree`. -/
theorem event_keeps {c : Instr} {f : State → State} (h : eventOf c = some f) (s : State) : KeepsAgree s (f s) := by
  have same : Keeps s s := Keeps.refl s
  cases c with
  | resetNAssert | resetNRelease => cases h
  | initSweepCompletion => cases h; exact initSweepDone_keeps s
  | cellArrival bytes =>
    cases h
    cases parsed : parseCell bytes with
    | none => simpa only [parsed] using same.agree
    | some c => simpa only [parsed] using (arrive_keeps c s).agree
  | busResetSequence => cases h; exact busReset_keeps s
  | busSweepStep => cases h; exact sweepStep_keeps s
  | dispatch => cases h; exact (dispatchHead_keeps s).agree
  | writeBackCompletion => cases h; exact (writeBackDone_keeps s).agree
  | fetchCompletion => cases h; exact fetchDone_keeps s
  | cellAssembly => cases h; exact assemblyDone_keeps s
  | drainCompletion => cases h; exact drainDone_keeps s
  | commandTake => cases h; exact (takeNext_keeps s).agree
  | ident => cases h; exact (runPlain_keeps _ _ _ s fun _ => ⟨same, rfl⟩).agree
  | classWrite => cases h; exact (runPlain_keeps _ _ _ s fun r => answerClassWrite_keeps r s).agree
  | classRead =>
    cases h
    exact (runPlain_keeps _ _ _ s fun r => by rw [answerClassRead_state]; exact ⟨same, rfl⟩).agree
  | streamOpen => cases h; exact runStream_keeps _ _ _ s fun r t x => answerOpen_sound r t s x
  | streamCloseGraceful => cases h; exact runStream_keeps _ _ _ s fun r t x => answerCloseGraceful_sound r t s x
  | streamCloseAbort => cases h; exact runStream_keeps _ _ _ s fun r t x => answerCloseAbort_sound r t s x
  | streamPause => cases h; exact runStream_keeps _ _ _ s fun r t x => answerPause_sound r t s x
  | streamResume => cases h; exact runStream_keeps _ _ _ s fun r t x => answerResume_sound r t s x
  | streamCut => cases h; exact runStream_keeps _ _ _ s fun r t x => answerCut_sound r t s x
  | streamRelease => cases h; exact runStream_keeps _ _ _ s fun r t x => answerRelease_sound r t s x
  | streamReconfigure => cases h; exact runStream_keeps _ _ _ s fun r t x => answerReconfigure_sound r t s x
  | streamQuery => cases h; exact runStream_keeps _ _ _ s fun r t x => answerQuery_sound r t s x
  | poolQuery => cases h; exact (runPlain_keeps _ _ _ s fun _ => ⟨same, rfl⟩).agree
  | limitsWrite => cases h; exact (runPlain_keeps _ _ _ s fun r => answerLimitsWrite_keeps r s).agree
  | limitsRead => cases h; exact (runPlain_keeps _ _ _ s fun _ => ⟨same, rfl⟩).agree
  | countersRead => cases h; exact (runPlain_keeps _ _ _ s fun r => answerCounters_keeps r s).agree
  | countersReadClear => cases h; exact (runPlain_keeps _ _ _ s fun r => answerCounters_keeps r s).agree
  | noticeMaskWrite => cases h; exact (runPlain_keeps _ _ _ s fun r => answerNoticeMask_keeps r s).agree
  | unitResetStreams => cases h; exact (unitReset_keeps _ s).agree
  | unitResetFull => cases h; exact (unitReset_keeps _ s).agree
  | streamsTeardown => cases h; exact teardownStep_keeps s
  | frameCompletion => cases h; exact frameDone_keeps s
  | creditGrant g => cases h; exact grant_keeps g s
  | egressLinkReset _ => cases h; exact linkReset_keeps s
  | returnLaneOther _ => cases h; exact same.agree
  | stallExpiry => cases h; exact stallExpiry_keeps s

/-! ### RESET_N -/

/-- What an edge of RESET_N leaves when it acts: the power-on values, page bytes and waiting commands kept. -/
def powerCycled (straps : BitVec 3) (low : Bool) (s : State) : State :=
  { State.powerOn straps s.pool.mem s.pending with resetLow := low }

theorem exec_resetNAssert (ns : Nat) (s : State) :
    exec (.resetNAssert ns) s = .next (if 2000 ≤ ns then powerCycled s.classifier.unitAddr true s else s) := rfl

theorem exec_resetNRelease (straps : BitVec 3) (s : State) :
    exec (.resetNRelease straps) s = .next (if s.resetLow then powerCycled straps false s else s) := rfl

/-! ### What a step does -/

/-- A command answers the state it met, what its event makes of that, or the power-on values. -/
theorem exec_cases (c : Instr) (s : State) :
    exec c s = .next s ∨ (∃ f, eventOf c = some f ∧ exec c s = .next (f s)) ∨
      ∃ straps low, exec c s = .next (powerCycled straps low s) := by
  cases event : eventOf c with
  | some f =>
    cases low : s.resetLow with
    | true => exact .inl (by rw [exec_of_event event, live_of_resetLow f low])
    | false => exact .inr (.inl ⟨f, rfl, exec_of_awake event low⟩)
  | none =>
    obtain ⟨ns, rfl⟩ | ⟨straps, rfl⟩ := eventOf_eq_none event
    · rw [exec_resetNAssert]
      by_cases long : 2000 ≤ ns
      · rw [if_pos long]; exact .inr (.inr ⟨_, _, rfl⟩)
      · rw [if_neg long]; exact .inl rfl
    · rw [exec_resetNRelease]
      cases s.resetLow with
      | true => exact .inr (.inr ⟨_, _, rfl⟩)
      | false => exact .inl rfl

/-- A predicate that does not see the waiting commands is kept by every step, when every event, the passing of one µs and the
edges of RESET_N keep it. -/
theorem step_preserves {P : State → Prop} (queue : ∀ s q, P s → P { s with pending := q })
    (event : ∀ c f, eventOf c = some f → ∀ s, P s → P (f s)) (time : ∀ s, P s → P (passMicrosecond s))
    (cycled : ∀ straps low s, P s → P (powerCycled straps low s)) {s t : State} (h : P s) (next : step s = .next t) : P t := by
  rw [step] at next
  cases waiting : s.pending with
  | nil =>
    simp only [waiting] at next
    cases low : s.resetLow with
    | true => rw [live_of_resetLow _ low] at next; cases next; exact h
    | false => rw [live_of_awake _ low] at next; cases next; exact time s h
  | cons c rest =>
    simp only [waiting] at next
    have h' := queue s rest h
    obtain same | ⟨f, ev, out⟩ | ⟨straps, low, out⟩ := exec_cases c { s with pending := rest }
    · rw [same] at next; cases next; exact h'
    · rw [out] at next; cases next; exact event c f ev _ h'
    · rw [out] at next; cases next; exact cycled straps low _ h'

/-- The same for an invariant of `KeepsAgree`. -/
theorem step_preserves_of_keeps {P : State → Prop} (queue : ∀ s q, P s → P { s with pending := q })
    (keeps : ∀ s t, KeepsAgree s t → P s → P t) (cycled : ∀ straps low s, P s → P (powerCycled straps low s)) {s t : State}
    (h : P s) (next : step s = .next t) : P t :=
  step_preserves queue (fun _ _ ev s => keeps s _ (event_keeps ev s)) (fun s => keeps s _ (passMicrosecond_keeps s)) cycled
    h next

/-! ### The invariants of the step -/

/-- What holds at the power-on values holds of them with other page bytes, which only the canonical form reads. -/
theorem powerCycled_invariants (straps : BitVec 3) (low : Bool) (s : State) :
    let t := powerCycled straps low s
    HoldAgrees t ∧ PoolLowAgrees t ∧ PortEngineAgree t ∧ LinkAgrees t ∧ FrameAgrees t ∧ WithinBounds t ∧ LimitsLegal t ∧
      TableLegal t ∧ ConfigsLegal t ∧ RanksComplete t := by
  obtain ⟨-, hold, poolLow, port, link, frame, bounds, limits, table, configs, ranks⟩ :=
    powerOn_invariants straps [] s.pending low rfl
  exact ⟨hold, poolLow, port, ⟨link.sending, link.idle, link.waiting, link.stalled, link.timer⟩, frame,
    ⟨bounds.fifo, bounds.commands, bounds.parked, bounds.notices, bounds.lost, bounds.credit, bounds.replies,
      bounds.reserved⟩, limits, table, ⟨configs.store, configs.slots⟩, ranks⟩

/-- Settles O53: HOLD and pool-low are judged wherever one of their causes changes. -/
theorem stepKeepsHoldAndPoolLow : Obligations.StepKeepsHoldAndPoolLow := by
  refine ⟨fun s t => ?hold, fun s t => ?low⟩
  case hold =>
    exact step_preserves_of_keeps (P := HoldAgrees) (fun _ _ h => h) (fun _ _ k => k.hold)
      (fun straps low s _ => (powerCycled_invariants straps low s).1)
  case low =>
    exact step_preserves_of_keeps (P := PoolLowAgrees) (fun _ _ h => h) (fun _ _ k => k.low)
      (fun straps low s _ => (powerCycled_invariants straps low s).2.1)

/-- Settles O54: every change of the engine mode that the port state does not fit changes the port in the same event. -/
theorem stepKeepsPortBesideEngine : Obligations.StepKeepsPortBesideEngine := fun _ _ =>
  step_preserves_of_keeps (fun _ _ h => h) (fun _ _ k => k.fits)
    (fun straps low s _ => (powerCycled_invariants straps low s).2.2.1)

/-- Settles O55: the port is judged again at the end of every event that changes what it depends on. -/
theorem stepKeepsLinkStates : Obligations.StepKeepsLinkStates := by
  refine ⟨fun s t => ?states, fun s t => ?lane⟩
  case states =>
    refine step_preserves_of_keeps (fun _ _ h => ⟨h.sending, h.idle, h.waiting, h.stalled, h.timer⟩) (fun _ _ k => k.link)
      fun straps low s _ => ?_
    obtain ⟨-, -, -, link, -⟩ := powerCycled_invariants straps low s
    exact link
  case lane =>
    exact step_preserves_of_keeps (fun _ _ h => h) (fun _ _ k => k.frame) (fun _ _ _ _ _ => rfl)

/-- Settles O57: the commands check what they store, and no other event writes it. -/
theorem stepKeepsStoredSettingsLegal : Obligations.StepKeepsStoredSettingsLegal := by
  refine ⟨fun s t => ?limits, fun s t => ?configs, fun s t => ?table, fun s t => ?ranks, fun s t => ?memory⟩
  case limits =>
    refine step_preserves_of_keeps (fun _ _ h => h) (fun _ _ k => k.limits) fun straps low s _ => ?_
    obtain ⟨-, -, -, -, -, -, limits, -⟩ := powerCycled_invariants straps low s
    exact limits
  case configs =>
    refine step_preserves_of_keeps (fun _ _ h => ⟨h.store, h.slots⟩) (fun _ _ k => k.configs) fun straps low s _ => ?_
    obtain ⟨-, -, -, -, -, -, -, -, configs, -⟩ := powerCycled_invariants straps low s
    exact configs
  case table =>
    refine step_preserves_of_keeps (fun _ _ h => h) (fun _ _ k => k.table) fun straps low s _ => ?_
    obtain ⟨-, -, -, -, -, -, -, table, -⟩ := powerCycled_invariants straps low s
    exact table
  case ranks =>
    refine step_preserves_of_keeps (fun _ _ h => h) (fun _ _ k => k.ranks) fun straps low s _ => ?_
    obtain ⟨-, -, -, -, -, -, -, -, -, ranks⟩ := powerCycled_invariants straps low s
    exact ranks
  case memory => exact step_preserves_of_keeps (fun _ _ h => h) (fun _ _ k => k.memory) (fun _ _ _ h => h)

/-! ### Every command, RESET_N and the init sweep -/

/-- Settles O2: the three outcomes of `exec_cases`. -/
theorem everyCommandAnswersNext : Obligations.EveryCommandAnswersNext := by
  intro c s
  cases event : eventOf c with
  | some f =>
    obtain same | ⟨g, ev, out⟩ | ⟨straps, low, out⟩ := exec_cases c s
    · exact ⟨s, same, rfl, fun _ => rfl⟩
    · exact ⟨_, out, (event_keeps ev s).queue, fun _ => (event_keeps ev s).unit⟩
    · rw [exec_of_event event] at out ⊢
      cases low : s.resetLow with
      | true => exact ⟨s, live_of_resetLow f low, rfl, fun _ => rfl⟩
      | false => exact ⟨_, live_of_awake f low, (event_keeps event s).queue, fun _ => (event_keeps event s).unit⟩
  | none =>
    obtain ⟨ns, rfl⟩ | ⟨straps, rfl⟩ := eventOf_eq_none event
    · rw [exec_resetNAssert]
      refine ⟨_, rfl, ?_⟩
      by_cases long : 2000 ≤ ns
      · rw [if_pos long]; exact ⟨rfl, fun _ => rfl⟩
      · rw [if_neg long]; exact ⟨rfl, fun _ => rfl⟩
    · rw [exec_resetNRelease]
      refine ⟨_, rfl, ?_, fun notRelease => absurd rfl (notRelease straps)⟩
      cases s.resetLow <;> rfl

/-- Settles O3: the low level of 2 µs, the shorter one, and every other event while RESET_N is low. -/
theorem resetPinHoldsThePart : Obligations.ResetPinHoldsThePart := by
  refine ⟨fun ns s short => ?filtered, fun ns s long => ?resets, fun c s low notAssert notRelease => ?still⟩
  case filtered => rw [exec_resetNAssert, if_neg (by omega)]
  case resets =>
    rw [exec_resetNAssert, if_pos long]
    exact ⟨_, rfl, rfl, rfl, rfl, rfl, rfl, rfl, rfl⟩
  case still =>
    cases event : eventOf c with
    | some f => rw [exec_of_event event, live_of_resetLow f low]
    | none =>
      obtain ⟨ns, rfl⟩ | ⟨straps, rfl⟩ := eventOf_eq_none event
      · exact absurd rfl (notAssert ns)
      · exact absurd rfl (notRelease straps)

theorem ctxReset_recordAtReset : RecordAtReset Ctx.reset where
  geometry := ⟨rfl, rfl, rfl, rfl⟩
  release := ⟨rfl, rfl, rfl⟩
  policies := ⟨rfl, rfl, rfl⟩
  stream := ⟨rfl, rfl, rfl⟩
  sequence := ⟨rfl, rfl, rfl⟩
  counters := rfl

theorem engineReset_atReset : EngineAtReset Engine.reset where
  store t := by
    have record : Engine.reset.store[t] = Ctx.reset := Vector.getElem_replicate t.isLt
    rw [record]
    exact ctxReset_recordAtReset
  slots i := by
    have slot : Engine.reset.slots[i] = Slot.vacant := Vector.getElem_replicate i.isLt
    rw [slot]
    exact ⟨rfl, rfl, rfl⟩
  lru := rfl
  requests := ⟨rfl, rfl, rfl, rfl, rfl, rfl⟩
  lists := ⟨rfl, rfl⟩
  mode := rfl

theorem powerOn_atPowerOn (straps : BitVec 3) (m : Memory) (q : List Instr) : AtPowerOn (State.powerOn straps m q) := by
  have table (n : EntryNo) : (Classifier.reset straps).table[n] = ClassEntry.reset := Vector.getElem_replicate n.isLt
  have desc (h : Handle) : (Pool.reset m).desc[h] = Desc.free := Vector.getElem_replicate h.isLt
  have drain (t : StreamId) : (Pool.reset m).drain[t] = ⟨0, false⟩ := Vector.getElem_replicate t.isLt
  have free (h : Handle) : (Pool.reset m).desc[h].state = .free := congrArg Desc.state (desc h)
  have lists : (Pool.reset m).freePages = List.finRange 512 ∧ (Pool.reset m).freeDesc = List.finRange 128 ∧
      (Pool.reset m).low = false := ⟨by rw [Pool.reset], by rw [Pool.reset], by rw [Pool.reset]⟩
  exact ⟨rfl, table, engineReset_atReset, rfl, free, lists, drain, rfl, rfl, rfl, rfl, rfl⟩

/-- Settles O1. -/
theorem stepRunsFrontCommand : Obligations.StepRunsFrontCommand := by
  intro s c rest front
  rw [step, front]

/-- Settles O4: the rising edge after a low level, an edge without one, and `State.reset`. -/
theorem releaseLeavesPowerOnValues : Obligations.ReleaseLeavesPowerOnValues := by
  refine ⟨fun straps s low => ?edge, fun straps s high => ?noEdge, powerOn_atPowerOn _ _ _, rfl, rfl, rfl⟩
  case edge =>
    rw [exec_resetNRelease, if_pos low]
    exact ⟨_, rfl, powerOn_atPowerOn straps _ _, rfl, rfl, rfl⟩
  case noEdge => rw [exec_resetNRelease, high]; rfl

/-- Settles O5. -/
theorem initSweepCompletionMakesReady : Obligations.InitSweepCompletionMakesReady := by
  intro s awake sweep
  rw [exec_of_awake (c := .initSweepCompletion) rfl awake]
  simp only [initSweepDone, sweep, answerPort, judgeHold, holdDue, awake, bne_self_eq_false, Bool.false_or]

end Sys2Proof.Machine
end

section
/-!
SUPPORT. Frames: what an operation of the context engine leaves alone, what an operation on blocks leaves alone; and the agent,
which takes what it can take at the end of every event (R71–R91, R40–R67, R151).
-/
namespace Sys2Proof.Machine

open Sys2Proof

/-! ### One entry of a vector -/

theorem getElem_set_fin {α : Type} {n : Nat} (v : Vector α n) (i j : Fin n) (x : α) :
    (v.set i x)[j] = if i = j then x else v[j] := by
  simp only [Fin.getElem_fin, Vector.getElem_set, Fin.ext_iff]

theorem getElem_set_fin_self {α : Type} {n : Nat} (v : Vector α n) (i : Fin n) (x : α) : (v.set i x)[i] = x := by
  rw [getElem_set_fin, if_pos rfl]

theorem getElem_set_fin_ne {α : Type} {n : Nat} (v : Vector α n) {i j : Fin n} (x : α) (h : j ≠ i) : (v.set i x)[j] = v[j] := by
  rw [getElem_set_fin, if_neg (Ne.symm h)]

/-! ### Operations of the context engine -/

/-- From `s` to `t` only the context engine, the FIFO with its hold flag, HOLD and the assembler have changed. -/
structure EngineEffect (s t : State) : Prop where
  classifier : t.classifier = s.classifier
  pool : t.pool = s.pool
  egress : t.egress = s.egress
  link : t.link = s.link
  agent : t.agent = s.agent
  notices : t.notices = s.notices
  resetLow : t.resetLow = s.resetLow
  pending : t.pending = s.pending
  port : t.ingress.port = s.ingress.port
  rsp : t.ingress.rsp = s.ingress.rsp

/-- Beside that, the engine keeps its mode, a read that waits, and every record, in the store and in the slots: requests are judged, marks and
cells move (R73–R83). -/
structure RequestEffect (s t : State) : Prop extends EngineEffect s t where
  mode : t.engine.mode = s.engine.mode
  readWaits : t.engine.readWaits = s.engine.readWaits
  store : t.engine.store = s.engine.store
  copies : ∀ i : SlotNo, t.engine.slots[i].copy = s.engine.slots[i].copy

theorem EngineEffect.eq {s t : State} (h : EngineEffect s t) :
    t = { s with engine := t.engine, ingress := t.ingress, assembler := t.assembler } := by
  obtain ⟨classifier, pool, egress, link, agent, notices, resetLow, pending, -, -⟩ := h
  rw [← classifier, ← pool, ← egress, ← link, ← agent, ← notices, ← resetLow, ← pending]

theorem EngineEffect.refl (s : State) : EngineEffect s s := ⟨rfl, rfl, rfl, rfl, rfl, rfl, rfl, rfl, rfl, rfl⟩

theorem EngineEffect.trans {s t u : State} (h : EngineEffect s t) (k : EngineEffect t u) : EngineEffect s u where
  classifier := k.classifier.trans h.classifier
  pool := k.pool.trans h.pool
  egress := k.egress.trans h.egress
  link := k.link.trans h.link
  agent := k.agent.trans h.agent
  notices := k.notices.trans h.notices
  resetLow := k.resetLow.trans h.resetLow
  pending := k.pending.trans h.pending
  port := k.port.trans h.port
  rsp := k.rsp.trans h.rsp

theorem RequestEffect.refl (s : State) : RequestEffect s s :=
  { toEngineEffect := .refl s, mode := rfl, readWaits := rfl, store := rfl, copies := fun _ => rfl }

theorem RequestEffect.trans {s t u : State} (h : RequestEffect s t) (k : RequestEffect t u) : RequestEffect s u where
  toEngineEffect := h.toEngineEffect.trans k.toEngineEffect
  mode := k.mode.trans h.mode
  readWaits := k.readWaits.trans h.readWaits
  store := k.store.trans h.store
  copies i := (k.copies i).trans (h.copies i)

theorem RequestEffect.recordsKept {s t : State} (h : RequestEffect s t) : RecordsKept s t := ⟨h.store, h.copies⟩

/-- A change of the engine and the assembler that keeps mode and records. -/
theorem RequestEffect.ofEngine {s : State} (e : Engine) (a : List Assembly) (mode : e.mode = s.engine.mode)
    (readWaits : e.readWaits = s.engine.readWaits) (store : e.store = s.engine.store)
    (copies : ∀ i : SlotNo, e.slots[i].copy = s.engine.slots[i].copy) :
    RequestEffect s { s with engine := e, assembler := a } :=
  { toEngineEffect := ⟨rfl, rfl, rfl, rfl, rfl, rfl, rfl, rfl, rfl, rfl⟩, mode := mode, readWaits := readWaits, store := store, copies := copies }

theorem EngineEffect.ofEngine {s : State} (e : Engine) (a : List Assembly) :
    EngineEffect s { s with engine := e, assembler := a } := ⟨rfl, rfl, rfl, rfl, rfl, rfl, rfl, rfl, rfl, rfl⟩

theorem setReq_request (p : Party) (r : EngReq) (s : State) : RequestEffect s (setReq p r s) := by
  cases p with
  | management => exact .ofEngine { s.engine with mgmt := r } s.assembler rfl rfl rfl fun _ => rfl
  | drain => exact .ofEngine { s.engine with drainReq := r } s.assembler rfl rfl rfl fun _ => rfl
  | dispatcher => exact .refl s

theorem setSlot_request (i : SlotNo) (x : Slot) (s : State) (copy : x.copy = s.engine.slots[i].copy) :
    RequestEffect s (setSlot i x s) := by
  refine .ofEngine { s.engine with slots := s.engine.slots.set i x } s.assembler rfl rfl rfl fun j => ?_
  simp only [getElem_set_fin]
  by_cases same : i = j
  · rw [if_pos same, copy, same]
  · rw [if_neg same]

theorem takeMark_request (i : SlotNo) (s : State) : RequestEffect s (takeMark i s) :=
  .trans (.ofEngine { s.engine with lru := touch i s.engine.lru } s.assembler rfl rfl rfl fun _ => rfl)
    (setSlot_request i _ _ rfl)

theorem beginFetch_request (p : Party) (t : StreamId) (i : SlotNo) (s : State) : RequestEffect s (beginFetch p t i s) := by
  refine .trans (.ofEngine { s.engine with fetch := some ⟨p, t, i⟩ } s.assembler rfl rfl rfl fun _ => rfl)
    (setSlot_request i _ _ ?_)
  split <;> rfl

theorem judgeTake_request (p : Party) (s : State) : RequestEffect s (judgeTake p s) := by
  unfold judgeTake
  split
  · split
    · split
      · exact .refl s
      · exact (takeMark_request _ s).trans (setReq_request p _ _)
    · exact .refl s
  all_goals exact .refl s

theorem judgeLodge_request (p : Party) (s : State) : RequestEffect s (judgeLodge p s) := by
  unfold judgeLodge
  split
  · split
    · exact .refl s
    · exact setReq_request p _ s
  all_goals exact .refl s

theorem startRequest_request (p : Party) (s : State) : RequestEffect s (startRequest p s) := by
  unfold startRequest
  split
  · split
    · exact (setReq_request p _ s).trans (judgeTake_request p _)
    · split
      · exact (beginFetch_request p _ _ s).trans (setReq_request p _ _)
      · exact .refl s
  · exact .refl s

theorem fifoRemoval_request (s : State) : RequestEffect s (fifoRemoval s) :=
  { toEngineEffect := ⟨rfl, rfl, rfl, rfl, rfl, rfl, rfl, rfl, rfl, rfl⟩, mode := rfl, readWaits := rfl, store := rfl, copies := fun _ => rfl }

theorem dropWait_request (s : State) : RequestEffect s (dropWait s) :=
  .ofEngine { s.engine with dispWait := none } s.assembler rfl rfl rfl fun _ => rfl

theorem parkHead_request (c : StreamCell) (s : State) : RequestEffect s (parkHead c s) :=
  .trans (.ofEngine { s.engine with parked := s.engine.parked ++ [c] } s.assembler rfl rfl rfl fun _ => rfl)
    (fifoRemoval_request _)

theorem takeHead_request (c : StreamCell) (i : SlotNo) (s : State) : RequestEffect s (takeHead c i s) :=
  .trans (.trans (.ofEngine { s.engine with dispWait := none } [⟨c, i, none⟩] rfl rfl rfl fun _ => rfl) (fifoRemoval_request _))
    (takeMark_request i _)

theorem sendHead_request (c : StreamCell) (i : SlotNo) (s : State) : RequestEffect s (sendHead c i s) := by
  unfold sendHead
  split
  · exact .ofEngine { s.engine with dispWait := some i } s.assembler rfl rfl rfl fun _ => rfl
  · split
    · exact takeHead_request c i s
    · split
      · exact .refl s
      · exact dropWait_request s

theorem dispatchHead_request (s : State) : RequestEffect s (dispatchHead s) := by
  unfold dispatchHead
  split
  · split
    · split
      · split
        · exact (dropWait_request s).trans (parkHead_request _ _)
        · exact dropWait_request s
      · split
        · exact sendHead_request _ _ s
        · exact dropWait_request s
    · split
      · split
        · exact sendHead_request _ _ s
        · refine (dropWait_request s).trans ?_
          simp only
          split
          · split
            · exact (beginFetch_request _ _ _ _).trans (parkHead_request _ _)
            · exact .refl _
          · split
            · exact .ofEngine { (dropWait s).engine with dispReq := _ } _ rfl rfl rfl fun _ => rfl
            · exact .refl _
      · exact .refl s
  · exact .refl s

theorem startDispatcher_request (s : State) : RequestEffect s (startDispatcher s) := by
  unfold startDispatcher
  split
  · exact .trans (.ofEngine { s.engine with dispReq := none } s.assembler rfl rfl rfl fun _ => rfl) (dispatchHead_request _)
  · exact .refl s

theorem startNext_request (s : State) : RequestEffect s (startNext s) := by
  unfold startNext
  split
  · exact ((startRequest_request _ s).trans (startRequest_request _ _)).trans (startDispatcher_request _)
  all_goals exact .refl s

theorem askEngage_request (p : Party) (t : StreamId) (s : State) : RequestEffect s (askEngage p t s) := by
  refine (setReq_request p (.asked t) s).trans ?_
  unfold askEngage
  simp only
  split
  · exact ((judgeTake_request p _).trans (judgeLodge_request p _)).trans (startNext_request _)
  all_goals exact .refl _

theorem serveDrain_request (s : State) : RequestEffect s (serveDrain s) := by
  unfold serveDrain
  split
  · exact askEngage_request _ _ s
  · exact .refl s

theorem raiseDrain_request (t : StreamId) (s : State) : RequestEffect s (raiseDrain t s) := by
  unfold raiseDrain
  split
  · exact .refl s
  · exact .trans (.ofEngine { s.engine with drainList := s.engine.drainList ++ [t] } s.assembler rfl rfl rfl fun _ => rfl)
      (serveDrain_request _)

theorem handTo_request {p : Party} {i : SlotNo} {t : StreamId} {s u : State} (h : handTo p i t s = some u) :
    RequestEffect s u := by
  unfold handTo at h
  split at h
  · obtain ⟨-, taken⟩ := Option.ite_none_right_eq_some.mp h
    cases taken
    exact (takeMark_request i s).trans (setReq_request p _ _)
  all_goals cases h

theorem handToParked_request (i : SlotNo) (s : State) : RequestEffect s (handToParked i s) := by
  unfold handToParked
  split
  · exact .refl s
  · next c rest _ =>
    split
    · exact .trans (.ofEngine { s.engine with parked := rest } [⟨c, i, none⟩] rfl rfl rfl fun _ => rfl) (takeMark_request i _)
    · exact .refl s

theorem handToHead_request (i : SlotNo) (t : StreamId) (s : State) : RequestEffect s (handToHead i t s) := by
  unfold handToHead
  split
  · split
    · exact takeHead_request _ i s
    · exact .refl s
  · exact .refl s

theorem handOn_request (i : SlotNo) (s : State) : RequestEffect s (handOn i s) := by
  unfold handOn
  split
  · exact .refl s
  · split
    · exact handToParked_request i s
    · split
      · next handed => exact handTo_request handed
      · split
        · next handed => exact handTo_request handed
        · exact handToHead_request i _ s

theorem serveHead_request (s : State) : RequestEffect s (serveHead s) := by
  unfold serveHead
  split
  · split
    · split
      · exact .refl s
      · exact handToHead_request _ _ s
    · exact .refl s
  · exact .refl s

theorem handFetched_request (p : Party) (s : State) : RequestEffect s (handFetched p s) := by
  unfold handFetched
  split
  · exact (setReq_request p _ s).trans (judgeTake_request p _)
  all_goals exact .refl s

theorem serveWaiting_request (s : State) : RequestEffect s (serveWaiting s) :=
  (handFetched_request .management s).trans <| (handFetched_request .drain _).trans <|
    (judgeTake_request .management _).trans <| (judgeTake_request .drain _).trans <|
    (judgeLodge_request .management _).trans <| (judgeLodge_request .drain _).trans (startNext_request _)

theorem startInitSweep_effect (s : State) : EngineEffect s (startInitSweep s) := .ofEngine _ _

theorem discardParked_effect (s : State) : EngineEffect s (discardParked s) := by
  unfold discardParked
  split
  · exact .refl s
  · split <;> exact .ofEngine _ s.assembler

theorem startBusSweep_effect (s : State) : EngineEffect s (startBusSweep s) :=
  (discardParked_effect s).trans (.ofEngine _ _)

theorem leaveSweepWait_effect (s : State) : EngineEffect s (leaveSweepWait s) := by
  unfold leaveSweepWait
  split
  · split
    · split
      · exact startInitSweep_effect s
      · exact startBusSweep_effect s
    · exact .refl s
  all_goals exact .refl s

theorem release_effect (i : SlotNo) (wrote : Bool) (s : State) : EngineEffect s (release i wrote s) := by
  have given (x : Slot) : EngineEffect s (setSlot i x s) := .ofEngine { s.engine with slots := s.engine.slots.set i x } s.assembler
  unfold release
  simp only
  split
  · exact (given _).trans (handOn_request i _).toEngineEffect
  · exact (given _).trans (leaveSweepWait_effect _)
  all_goals exact given _

theorem requestSweep_effect (k : SweepKind) (s : State) : EngineEffect s (requestSweep k s) := by
  unfold requestSweep
  split
  · exact EngineEffect.trans (.ofEngine { s.engine with mode := _ } s.assembler) (leaveSweepWait_effect _)
  all_goals first
    | exact .refl s
    | exact .ofEngine { s.engine with mode := _ } s.assembler

theorem handRequester_request (f : Fetch) (s : State) : RequestEffect s (handRequester f s) := by
  unfold handRequester
  split
  · split
    · exact (takeMark_request _ s).trans (setReq_request _ _ _)
    · exact (takeMark_request _ s).trans (setReq_request _ _ _)
    · exact handToParked_request _ s
  all_goals exact setReq_request _ _ s

theorem completeRead_effect (f : Fetch) (s : State) : EngineEffect s (completeRead f s) :=
  EngineEffect.trans (t := setSlot f.slot { s.engine.slots[f.slot] with state := .clean, copy := s.engine.store[f.stream] }
      { s with engine.fetch := none, engine.readWaits := false }) (.ofEngine _ s.assembler)
    (((handRequester_request f _).trans (startNext_request _)).toEngineEffect.trans (leaveSweepWait_effect _))

theorem fetchDone_effect (s : State) : EngineEffect s (fetchDone s) := by
  unfold fetchDone
  split
  · exact .refl s
  · split
    · split
      · exact .ofEngine { s.engine with readWaits := true } s.assembler
      · exact completeRead_effect _ s
    all_goals exact .refl s

theorem resumeRead_effect (s : State) : EngineEffect s (resumeRead s) := by
  unfold resumeRead
  split
  · exact fetchDone_effect s
  · exact .refl s

theorem writeBackDone_effect (s : State) : EngineEffect s (writeBackDone s) := by
  unfold writeBackDone
  split
  · exact .refl s
  · simp only
    split
    · exact .ofEngine _ s.assembler
    · exact .refl s

/-! ### Operations on blocks -/

/-- From `s` to `t` only HOLD, the pool, the egress side, the notices and the counters have changed, and the places taken in the
reply queue are the same. -/
structure BlockEffect (s t : State) : Prop where
  engine : t.engine = s.engine
  assembler : t.assembler = s.assembler
  classifier : t.classifier = s.classifier
  resetLow : t.resetLow = s.resetLow
  pending : t.pending = s.pending
  port : t.ingress.port = s.ingress.port
  fifo : t.ingress.fifo = s.ingress.fifo
  holdFlag : t.ingress.holdFlag = s.ingress.holdFlag
  rsp : t.ingress.rsp = s.ingress.rsp
  agentState : t.agent.state = s.agent.state
  cmdq : t.agent.cmdq = s.agent.cmdq
  cache : t.agent.cache = s.agent.cache
  limits : t.agent.limits = s.agent.limits
  places : replyOccupancy t = replyOccupancy s

theorem BlockEffect.refl (s : State) : BlockEffect s s :=
  ⟨rfl, rfl, rfl, rfl, rfl, rfl, rfl, rfl, rfl, rfl, rfl, rfl, rfl, rfl⟩

theorem BlockEffect.trans {s t u : State} (h : BlockEffect s t) (k : BlockEffect t u) : BlockEffect s u where
  engine := k.engine.trans h.engine
  assembler := k.assembler.trans h.assembler
  classifier := k.classifier.trans h.classifier
  resetLow := k.resetLow.trans h.resetLow
  pending := k.pending.trans h.pending
  port := k.port.trans h.port
  fifo := k.fifo.trans h.fifo
  holdFlag := k.holdFlag.trans h.holdFlag
  rsp := k.rsp.trans h.rsp
  agentState := k.agentState.trans h.agentState
  cmdq := k.cmdq.trans h.cmdq
  cache := k.cache.trans h.cache
  limits := k.limits.trans h.limits
  places := k.places.trans h.places

theorem judgePort_block (s : State) : BlockEffect s (judgePort s) := by
  obtain ⟨ingress, classifier, engine, assembler, agent, resetLow, pending, -⟩ := judgePort_frame s
  exact ⟨engine, assembler, classifier, resetLow, pending, by rw [ingress], by rw [ingress], by rw [ingress], by rw [ingress],
    by rw [agent], by rw [agent], by rw [agent], by rw [agent], (judgePort_places s).2⟩

theorem requestNotice_block (k : NoticeKind) (t : Option StreamId) (s : State) : BlockEffect s (requestNotice k t s) := by
  obtain ⟨ingress, classifier, engine, assembler, state, cmdq, cache, limits, resetLow, pending, -⟩ := requestNotice_frame k t s
  exact ⟨engine, assembler, classifier, resetLow, pending, by rw [ingress], by rw [ingress], by rw [ingress], by rw [ingress],
    state, cmdq, cache, limits, requestNotice_replies k t s⟩

theorem count_block (c : CounterName) (s : State) : BlockEffect s (count c s) :=
  ⟨rfl, rfl, rfl, rfl, rfl, rfl, rfl, rfl, rfl, rfl, rfl, rfl, rfl, rfl⟩

theorem setDesc_block (h : Handle) (d : Desc) (s : State) : BlockEffect s (setDesc h d s) :=
  ⟨rfl, rfl, rfl, rfl, rfl, rfl, rfl, rfl, rfl, rfl, rfl, rfl, rfl, rfl⟩

theorem setDescState_block (h : Handle) (st : DescState) (s : State) : BlockEffect s (setDescState h st s) :=
  setDesc_block h _ s

theorem setDrain_block (t : StreamId) (e : DrainEntry) (s : State) : BlockEffect s (setDrain t e s) :=
  ⟨rfl, rfl, rfl, rfl, rfl, rfl, rfl, rfl, rfl, rfl, rfl, rfl, rfl, rfl⟩

theorem setQueue_block (c : EgressClass) (q : List Handle) (s : State) : BlockEffect s (setQueue c q s) :=
  ⟨rfl, rfl, rfl, rfl, rfl, rfl, rfl, rfl, rfl, rfl, rfl, rfl, rfl, rfl⟩

theorem freeBlock_block (h : Handle) (s : State) : BlockEffect s (freeBlock h s) :=
  ⟨rfl, rfl, rfl, rfl, rfl, rfl, rfl, rfl, rfl, rfl, rfl, rfl, rfl, rfl⟩

theorem allocate_block {t : StreamId} {n : BitVec 16} {g : Geometry} {s u : State} {h : Handle}
    (taken : allocate t n g s = some (h, u)) : BlockEffect s u := by
  unfold allocate at taken
  split at taken
  · cases taken
  · obtain ⟨-, taken⟩ := Option.ite_none_right_eq_some.mp taken
    cases taken
    exact ⟨rfl, rfl, rfl, rfl, rfl, rfl, rfl, rfl, rfl, rfl, rfl, rfl, rfl, rfl⟩

theorem queueEntry_block (t : StreamId) (c : EgressClass) (h : Handle) (s : State) : BlockEffect s (queueEntry t c h s) := by
  unfold queueEntry
  split
  · exact (freeBlock_block h s).trans (count_block _ _)
  · exact (setDescState_block h _ s).trans <| (setQueue_block c _ _).trans <| (setDrain_block t _ _).trans (judgePort_block _)

theorem handOnBlocks_block (t : StreamId) (c : EgressClass) (hs : List Handle) (s : State) :
    BlockEffect s (handOnBlocks t c hs s) := by
  induction hs generalizing s with
  | nil => exact .refl s
  | cons h hs ih => exact (queueEntry_block t c h s).trans (ih _)

theorem placeCompleted_block (t : StreamId) (h : Handle) (s : State) (x : Ctx) : BlockEffect s (placeCompleted t h s x).1 := by
  unfold placeCompleted
  split
  · exact queueEntry_block t _ h s
  · split
    · exact setDescState_block h _ s
    · split
      · unfold overflowDropOldest
        split
        · exact setDescState_block h _ s
        · exact (freeBlock_block _ s).trans <| (setDescState_block h _ _).trans (requestNotice_block _ _ _)
      · exact (freeBlock_block h s).trans (requestNotice_block _ _ _)

theorem complete_block (t : StreamId) (h : Handle) (n : Nat) (short broken spliced : Bool) (s : State) (x : Ctx) :
    BlockEffect s (complete t h n short broken spliced s x).1 :=
  (setDesc_block h _ s).trans (placeCompleted_block t h _ _)

theorem cut_block (t : StreamId) (s : State) (x : Ctx) : BlockEffect s (cut t s x).1 := by
  unfold cut
  split
  · exact complete_block ..
  all_goals exact .refl s

theorem breakAndHunt_block (t : StreamId) (s : State) (x : Ctx) : BlockEffect s (breakAndHunt t s x).1 := by
  unfold breakAndHunt
  split
  · split
    · simp only
      split <;> exact complete_block ..
    · exact freeBlock_block _ s
  all_goals exact .refl s

theorem releaseHeld_block (t : StreamId) (s : State) (x : Ctx) : BlockEffect s (releaseHeld t s x).1 := by
  unfold releaseHeld
  split
  · exact handOnBlocks_block t _ _ s
  · exact .refl s

theorem placeSample_block (t : StreamId) (h : Handle) (k : Nat) (spliced : Bool) (sample : List Byte) (s : State) (x : Ctx) :
    BlockEffect s (placeSample t h k spliced sample s x).1 := by
  unfold placeSample
  simp only
  have written (m : Memory) : BlockEffect s { s with pool.mem := m } :=
    ⟨rfl, rfl, rfl, rfl, rfl, rfl, rfl, rfl, rfl, rfl, rfl, rfl, rfl, rfl⟩
  split
  · exact (written _).trans (complete_block ..)
  · exact written _

theorem startBlock_block (t : StreamId) (sample : List Byte) (s : State) (x : Ctx) :
    BlockEffect s (startBlock t sample s x).1 := by
  unfold startBlock
  split
  · next taken => exact (allocate_block taken).trans (placeSample_block ..)
  · exact (count_block _ s).trans (requestNotice_block _ _ _)

theorem takeSample_block (t : StreamId) (sample : List Byte) (w : Work) : BlockEffect w.1 (takeSample t sample w).1 := by
  unfold takeSample
  split
  · split
    · exact startBlock_block ..
    · exact placeSample_block ..
    · exact .refl _
  · exact .refl _

theorem takeSamples_block (t : StreamId) (l : List (List Byte)) (w : Work) : BlockEffect w.1 (takeSamples t l w).1 := by
  induction l generalizing w with
  | nil => exact .refl _
  | cons x xs ih => exact (takeSample_block t x w).trans (ih _)

theorem gapEffect_block (t : StreamId) (s : State) (x : Ctx) : BlockEffect s (gapEffect t s x).1 := by
  refine (requestNotice_block .seqGap (some t) s).trans ?_
  unfold gapEffect applyGapPolicy
  split
  · exact .refl _
  · exact breakAndHunt_block t _ _

theorem syncStep_block (t : StreamId) (b : Bool) (s : State) (x : Ctx) : BlockEffect s (syncStep t b s x).1 := by
  unfold syncStep
  split
  · split
    · exact complete_block ..
    all_goals exact .refl s
  · exact .refl s

theorem markEffect_block (t : StreamId) (a : MarkAction) (s : State) (x : Ctx) : BlockEffect s (markEffect t a s x).1 := by
  cases a with
  | cut => exact cut_block t s x
  | release => exact releaseHeld_block t s x
  | cutAndRelease =>
    unfold markEffect
    simp only
    split
    · exact cut_block t s x
    · exact (cut_block t s x).trans (releaseHeld_block t _ _)

theorem laterStages_block (t : StreamId) (c : StreamCell) (gap : Bool) (s : State) (x : Ctx) :
    BlockEffect s (laterStages t c gap s x).1 := by
  unfold laterStages
  simp only
  split
  · exact .refl s
  · split
    · split
      · unfold misfitEffect
        split
        · exact .refl s
        · exact gapEffect_block t s _
      · exact (syncStep_block t _ s x).trans (takeSamples_block t _ _)
    · split
      · exact markEffect_block t _ s x
      · exact .refl s

/-- The assembly of a cell, beside its record (R25–R50). -/
theorem assembleCell_block (c : StreamCell) (s : State) (x : Ctx) : BlockEffect s (assembleCell c s x).1 := by
  unfold assembleCell
  simp only
  split
  · unfold judgedCell
    simp only
    split
    · exact laterStages_block ..
    · exact laterStages_block ..
    · exact .refl s
    · exact (gapEffect_block c.stream s _).trans (laterStages_block ..)
  · exact .refl s

theorem sweepCtx_block (t : StreamId) (s : State) (x : Ctx) : BlockEffect s (sweepCtx t s x).1 := by
  unfold sweepCtx
  split
  · exact breakAndHunt_block t s _
  · exact breakAndHunt_block t s _
  all_goals exact .refl s

/-! ### The agent takes what it can take (R151) -/

/-- From `s` to `t` the agent, its command queue and the places taken in the reply queue are the same. -/
structure AgentKept (s t : State) : Prop where
  state : t.agent.state = s.agent.state
  cmdq : t.agent.cmdq = s.agent.cmdq
  places : replyOccupancy t = replyOccupancy s

theorem AgentKept.refl (s : State) : AgentKept s s := ⟨rfl, rfl, rfl⟩

theorem AgentKept.trans {s t u : State} (h : AgentKept s t) (k : AgentKept t u) : AgentKept s u :=
  ⟨k.state.trans h.state, k.cmdq.trans h.cmdq, k.places.trans h.places⟩

theorem EngineEffect.agentKept {s t : State} (h : EngineEffect s t) : AgentKept s t where
  state := by rw [h.agent]
  cmdq := by rw [h.agent]
  places := by simp only [replyOccupancy, h.egress, h.link]

theorem BlockEffect.agentKept {s t : State} (h : BlockEffect s t) : AgentKept s t := ⟨h.agentState, h.cmdq, h.places⟩

theorem AgentKept.agrees {s t : State} (k : AgentKept s t) (h : AgentAgrees s) : AgentAgrees t where
  idle i := by rw [k.cmdq]; exact h.idle (k.state ▸ i)
  waiting w := by rw [k.cmdq, k.places]; exact h.waiting (k.state ▸ w)

/-- A take leaves the rest of the queue, and an agent that does not wait for reply space. -/
theorem takeOne_agent (record : List Byte) (rest : List (List Byte)) {s : State} (idle : s.agent.state = .idle) :
    (takeOne record rest s).agent.cmdq = rest ∧
      ((takeOne record rest s).agent.state = .idle ∨ (takeOne record rest s).agent.state = .executing record) := by
  unfold takeOne
  simp only
  split
  · next r _ =>
    have kept := judgePort_block { s with agent.cmdq := rest, egress.replies := s.egress.replies ++ [r] }
    exact ⟨kept.cmdq, .inl (kept.agentState.trans idle)⟩
  · unfold beginExecution
    split
    · rw [finish_agent]
      exact ⟨rfl, .inl rfl⟩
    · simp only
      split
      · split
        · rw [(askEngage_request _ _ _).agent]
          exact ⟨rfl, .inr rfl⟩
        · exact ⟨rfl, .inr rfl⟩
      · exact ⟨rfl, .inr rfl⟩

/-- Enough takes leave nothing that could be taken. -/
theorem takeCommands_agrees (n : Nat) (s : State) (enough : s.agent.cmdq.length ≤ n)
    (waiting : s.agent.state = .waitingReplySpace → AgentAgrees s) : AgentAgrees (takeCommands n s) := by
  induction n generalizing s with
  | zero =>
    have empty : s.agent.cmdq = [] := List.eq_nil_of_length_eq_zero (by omega)
    exact ⟨fun _ => empty, fun w => (waiting w).waiting w⟩
  | succ n ih =>
    unfold takeCommands
    split
    · next record rest idle queued =>
      split
      · obtain ⟨cmdq, state⟩ := takeOne_agent record rest idle
        refine ih _ ?_ fun w => ?_
        · rw [cmdq]
          rw [queued, List.length_cons] at enough
          omega
        · rw [w] at state
          simp at state
      · next full => exact ⟨fun i => (nomatch i), fun _ => ⟨by simp [queued], Nat.not_lt.mp full⟩⟩
    · next rest =>
      refine ⟨fun idle => ?_, fun w => (waiting w).waiting w⟩
      cases queue : s.agent.cmdq with
      | nil => rfl
      | cons record more => exact absurd queue (rest record more idle)

theorem takeNext_agrees (s : State) (waiting : s.agent.state = .waitingReplySpace → AgentAgrees s) :
    AgentAgrees (takeNext s) := takeCommands_agrees _ s (Nat.le_refl _) waiting

/-- An agent in any other state takes nothing and waits for nothing. -/
theorem AgentAgrees.of_busy {s : State} (notIdle : s.agent.state ≠ .idle) (notWaiting : s.agent.state ≠ .waitingReplySpace) :
    AgentAgrees s := ⟨fun i => absurd i notIdle, fun w => absurd w notWaiting⟩

end Sys2Proof.Machine
end

section
/-!
SUPPORT. The agent after every event: what it could take has been taken (R127, R140, R151, R168; Table 8-2).
-/
namespace Sys2Proof.Machine

open Sys2Proof

/-! ### Events that leave the agent alone -/

theorem fallOutstanding_agentKept (t : StreamId) (s : State) : AgentKept s (fallOutstanding t s) := by
  unfold fallOutstanding
  simp only
  split
  · exact (setDrain_block t _ s).agentKept.trans (raiseDrain_request t _).agentKept
  · exact (setDrain_block t _ s).agentKept

theorem freeQueued_agentKept (h : Handle) (s : State) : AgentKept s (freeQueued h s) := by
  have left (q : Vector (List Handle) 4) : AgentKept s { s with egress.queues := q } := ⟨rfl, rfl, rfl⟩
  exact (left _).trans ((freeBlock_block h _).agentKept.trans (fallOutstanding_agentKept _ _))

theorem purgeStalled_agentKept (hs : List Handle) (s : State) : AgentKept s (purgeStalled hs s) := by
  induction hs generalizing s with
  | nil => exact .refl s
  | cons h hs ih => exact (freeQueued_agentKept h s).trans ((count_block _ _).agentKept.trans (ih _))

theorem purgeClass_agentKept (c : EgressClass) (s : State) : AgentKept s (purgeClass c s) := by
  unfold purgeClass
  split
  · exact purgeStalled_agentKept _ s
  · exact .refl s

theorem stallPurge_agentKept (s : State) : AgentKept s (stallPurge s) :=
  (purgeClass_agentKept 0 s).trans <| (purgeClass_agentKept 1 _).trans <| (purgeClass_agentKept 2 _).trans
    (purgeClass_agentKept 3 _)

/-- A block that ends its flight takes no reply place with it; its stream's count falls (R60, R67). -/
theorem freeSending_agentKept (h : Handle) {s : State} (block : ∃ h c m, s.link.inflight = some (.block h c m)) :
    AgentKept s (freeSending h s) := by
  obtain ⟨b, c, m, item⟩ := block
  have landed : AgentKept s { s with link.inflight := none, link.frame := [] } := ⟨rfl, rfl, by simp [replyOccupancy, item]⟩
  exact landed.trans ((freeBlock_block h _).agentKept.trans (fallOutstanding_agentKept _ _))

/-- An abandoned item takes its place back: a reply stands in the queue again (R144). -/
theorem abandon_agentKept (s : State) : AgentKept s (abandon s) := by
  unfold abandon
  split
  · exact .refl s
  · next item flies =>
    match item with
    | .block h c true =>
      have freed := freeSending_agentKept h ⟨h, c, true, flies⟩
      refine ⟨freed.state, freed.cmdq, ?_⟩
      rw [← freed.places]
      have still : (freeSending h s).link.inflight = none := by
        unfold freeSending fallOutstanding
        simp only
        split
        · rw [(raiseDrain_request _ _).link]; rfl
        · rfl
      simp [replyOccupancy, abandonItem, still]
    | .block h c false => exact ⟨rfl, rfl, by simp [replyOccupancy, abandonItem, flies]⟩
    | .reply r => exact ⟨rfl, rfl, by simp [replyOccupancy, abandonItem, flies]⟩
    | .notice n => exact ⟨rfl, rfl, by simp [replyOccupancy, abandonItem, flies]⟩

theorem linkReset_agentKept (s : State) : AgentKept s (linkReset s) := by
  have idle (u : State) (l : Link) (same : l.inflight = u.link.inflight) : AgentKept u { u with link := l } :=
    ⟨rfl, rfl, by simp only [replyOccupancy, same]⟩
  exact (abandon_agentKept s).trans <| (count_block _ _).agentKept.trans <|
    (idle _ { (count .egressLinkResets (abandon s)).link with credit := 0, port := .idle, timer := none } rfl).trans
      (judgePort_block _).agentKept

theorem addCredit_agentKept (g : Nat) (s : State) : AgentKept s (addCredit g s) := by
  unfold addCredit
  split <;> exact ⟨rfl, rfl, rfl⟩

theorem endStall_agentKept (s : State) : AgentKept s (endStall s) := by
  unfold endStall
  split <;> exact ⟨rfl, rfl, rfl⟩

theorem grant_agentKept (g : BitVec 4) (s : State) : AgentKept s (grant g s) := by
  unfold grant
  split
  · exact .refl s
  · exact (addCredit_agentKept _ s).trans ((endStall_agentKept _).trans (judgePort_block _).agentKept)

theorem answerPort_agentKept (s : State) : AgentKept s (answerPort s) := ⟨rfl, rfl, rfl⟩

theorem initSweepDone_agentKept (s : State) : AgentKept s (initSweepDone s) := by
  unfold initSweepDone
  split
  · exact ⟨rfl, rfl, rfl⟩
  all_goals exact .refl s

theorem busReset_agentKept (s : State) : AgentKept s (busReset s) := by
  have emptied : AgentKept s (match s.ingress.port with
      | .ready => emptyForBusReset (respond none s)
      | .init | .busReset => respond none s) := by
    split <;> exact ⟨rfl, rfl, rfl⟩
  exact emptied.trans <| (requestSweep_effect .bus _).agentKept.trans <| (count_block _ _).agentKept.trans
    (requestNotice_block .linkReset none _).agentKept

theorem sweepStream_agentKept (t : StreamId) (s : State) : AgentKept s (sweepStream t s) := by
  unfold sweepStream
  split
  · exact ((EngineEffect.ofEngine { s.engine with lru := _ } s.assembler).agentKept.trans
      (sweepCtx_block t _ _).agentKept).trans (EngineEffect.ofEngine _ _).agentKept
  · exact (sweepCtx_block t s _).agentKept.trans (EngineEffect.ofEngine _ _).agentKept

theorem sweepStep_agentKept (s : State) : AgentKept s (sweepStep s) := by
  unfold sweepStep
  split
  · next n _ =>
    simp only
    split
    · exact (sweepStream_agentKept n s).trans (EngineEffect.ofEngine _ _).agentKept
    · exact (sweepStream_agentKept n s).trans <| AgentKept.trans (t := answerPort { sweepStream n s with engine.mode := .running })
        ⟨rfl, rfl, rfl⟩ (serveWaiting_request _).agentKept
  · exact (startInitSweep_effect s).agentKept
  all_goals exact .refl s

theorem assemblyDone_agentKept (s : State) : AgentKept s (assemblyDone s) := by
  unfold assemblyDone
  split
  · exact .refl s
  · next a rest _ =>
    have first : AgentKept s { s with assembler := rest } := ⟨rfl, rfl, rfl⟩
    refine first.trans <| AgentKept.trans ?_ <| (resumeRead_effect _).agentKept.trans (serveHead_request _).agentKept
    split
    · exact AgentKept.trans (t := { s with assembler := rest, pool.mem := overtakenWrites a { s with assembler := rest } })
        ⟨rfl, rfl, rfl⟩ (release_effect _ _ _).agentKept
    · exact (assembleCell_block _ _ _).agentKept.trans <| (EngineEffect.ofEngine _ _).agentKept.trans
        (release_effect _ _ _).agentKept

theorem drainDone_agentKept (s : State) : AgentKept s (drainDone s) := by
  unfold drainDone
  split
  · simp only
    refine AgentKept.trans ?_ <| (EngineEffect.ofEngine _ _).agentKept.trans <| (release_effect _ _ _).agentKept.trans
      (serveDrain_request _).agentKept
    split
    · exact (EngineEffect.ofEngine _ s.assembler).agentKept.trans (requestNotice_block _ _ _).agentKept
    · exact .refl s
  all_goals exact .refl s

/-! ### Events that may let the agent take a command -/

theorem queueCommand_agrees (record : List Byte) (answer : Option Response) {s : State} (h : AgentAgrees s) :
    AgentAgrees (queueCommand record answer s) :=
  takeNext_agrees _ fun waits => ⟨fun idle => by (rw [waits] at idle; cases idle), fun _ => ⟨by simp, (h.waiting waits).2⟩⟩

theorem refuseFull_agentKept (s : State) : AgentKept s (refuseFull s) :=
  AgentKept.trans (t := respond (some .refuseFull) (count .cellsRefusedFull s)) ⟨rfl, rfl, rfl⟩ (requestNotice_block _ _ _).agentKept

theorem claimedCell_agrees (c : Cell) (r : Resolution) {s : State} (h : AgentAgrees s) : AgentAgrees (claimedCell c r s) := by
  have kept {t : State} (k : AgentKept s t) : AgentAgrees t := k.agrees h
  have counted : AgentAgrees (count .cellsAccepted s) := kept ⟨rfl, rfl, rfl⟩
  unfold claimedCell
  split
  · cases r with
    | stream t =>
      simp only [arriveStream]
      split
      · exact kept ⟨rfl, rfl, rfl⟩
      · exact kept (refuseFull_agentKept s)
    | discard => exact kept ⟨rfl, rfl, rfl⟩
    | managementUnit =>
      simp only [arriveManagement]
      split
      · exact queueCommand_agrees _ _ counted
      · exact kept (refuseFull_agentKept s)
    | managementBroadcast =>
      simp only [arriveManagement]
      split
      · exact queueCommand_agrees _ _ counted
      · exact kept (.trans (t := respond none (count .mgmtDropped s)) ⟨rfl, rfl, rfl⟩ (requestNotice_block _ _ _).agentKept)
    | noClaim => exact h
  · exact kept ⟨rfl, rfl, rfl⟩

theorem arrive_agrees (c : Cell) {s : State} (h : AgentAgrees s) : AgentAgrees (arrive c s) := by
  have seenKept : AgentKept s (respond none (count .cellsSeen s)) := ⟨rfl, rfl, rfl⟩
  have seen : AgentAgrees (respond none (count .cellsSeen s)) := seenKept.agrees h
  by_cases ready : s.ingress.port = .ready
  · rw [arrive_of_ready ready]
    cases check : c.checkOk with
    | false => rw [judgeArrival_of_failed_check check]; exact (count_block _ _).agentKept.agrees seen
    | true =>
      by_cases fill : c.kind = .fill
      · rw [judgeArrival_of_fill check fill]; exact seen
      · rw [judgeArrival_of_ne_fill check fill]
        split
        · exact (count_block _ _).agentKept.agrees seen
        · exact claimedCell_agrees c _ seen
  · rw [arrive_of_not_ready ready]; exact seen

/-- The take that ends an execution meets an IDLE agent. -/
theorem takeNext_agrees_of_idle {s : State} (idle : s.agent.state = .idle) : AgentAgrees (takeNext s) :=
  takeNext_agrees s fun waits => by rw [waits] at idle; cases idle

theorem finish_idle (record : List Byte) (status : Status) (result : List Byte) (s : State) :
    (finish record status result .idle s).agent.state = .idle := by rw [finish_agent]

theorem runPlain_agrees (c : Command) (mine : List Byte → Bool) (f : List Byte → State → Answer) {s : State}
    (h : AgentAgrees s) : AgentAgrees (runPlain c mine f s) := by
  unfold runPlain
  split
  · split
    · exact takeNext_agrees_of_idle (finish_idle ..)
    · exact h
  all_goals exact h

theorem runStream_agrees (c : Command) (mine : List Byte → Bool) (f : List Byte → StreamId → State → Ctx → StreamAnswer)
    {s : State} (h : AgentAgrees s) : AgentAgrees (runStream c mine f s) := by
  unfold runStream
  split
  · split
    · exact takeNext_agrees_of_idle (by rw [(release_effect _ _ _).agent]; exact finish_idle ..)
    · exact h
  · exact h

theorem unitReset_agrees (mine : List Byte → Bool) {s : State} (h : AgentAgrees s) : AgentAgrees (unitReset mine s) := by
  unfold unitReset
  split
  · split
    · split
      · refine .of_busy ?_ ?_ <;> rw [finish_agent] <;> exact fun e => nomatch e
      · exact takeNext_agrees_of_idle (finish_idle ..)
    · exact h
  all_goals exact h

theorem teardownStep_agrees {s : State} (h : AgentAgrees s) : AgentAgrees (teardownStep s) := by
  unfold teardownStep
  split
  · simp only
    split
    · refine .of_busy ?_ ?_ <;> rw [(askEngage_request _ _ _).agent] <;> exact fun e => nomatch e
    · exact takeNext_agrees_of_idle rfl
  · exact h

/-- What a reset leaves of the agent when it takes effect: its power-on value, or the teardown of stream 0 (R170, R171). -/
theorem fullReset_agent (s : State) : (fullReset s).agent = Agent.reset := (requestSweep_effect _ _).agent

theorem streamsReset_agent (s : State) : (streamsReset s).agent = { s.agent with state := .tearing 0 } :=
  (askEngage_request _ _ _).agent

theorem resetEffect_agrees {s : State} (h : AgentAgrees s) : AgentAgrees (resetEffect s) := by
  unfold resetEffect
  split
  · refine ⟨fun _ => ?_, fun w => ?_⟩
    · rw [fullReset_agent]; rfl
    · rw [fullReset_agent] at w; cases w
  · refine .of_busy ?_ ?_ <;> rw [streamsReset_agent] <;> exact fun e => nomatch e
  all_goals exact h

theorem expire_agrees {s : State} (h : AgentAgrees s) : AgentAgrees (expire s) := by
  have stalled : AgentKept s { s with link.port := .stalled, link.timer := none } := ⟨rfl, rfl, rfl⟩
  have purged := (stalled.trans (stallPurge_agentKept _)).trans (requestNotice_block .egressStall none _).agentKept
  unfold expire resetAtExpiry
  split
  · exact purged.agrees h
  · exact resetEffect_agrees (purged.agrees h)

theorem stallExpiry_agrees {s : State} (h : AgentAgrees s) : AgentAgrees (stallExpiry s) := by
  unfold stallExpiry
  split
  · exact expire_agrees h
  · exact h

theorem serveAgent_agrees {s : State} (h : s.agent.state ≠ .waitingReplySpace → AgentAgrees s) : AgentAgrees (serveAgent s) := by
  unfold serveAgent
  split
  · exact takeNext_agrees_of_idle rfl
  all_goals
    next state => exact h (by rw [state]; exact fun e => nomatch e)

/-- With a frame at its end, an agent that waits for reply space is served, and no other counts reply places. -/
theorem frameDone_agrees {s : State} (h : AgentAgrees s) : AgentAgrees (frameDone s) := by
  unfold frameDone
  split
  · exact h
  · next item flies =>
    have discarded : (discardItem item s).agent.state = s.agent.state ∧ (discardItem item s).agent.cmdq = s.agent.cmdq := by
      match item with
      | .block b c m =>
        have freed := freeSending_agentKept b ⟨b, c, m, flies⟩
        exact ⟨freed.state, freed.cmdq⟩
      | .reply _ => exact ⟨rfl, rfl⟩
      | .notice _ => exact ⟨rfl, rfl⟩
    obtain ⟨state, cmdq⟩ := discarded
    simp only
    generalize ended : count CounterName.framesSent { discardItem item s with link.inflight := none, link.frame := [] } = u
    have state : u.agent.state = s.agent.state := by rw [← ended]; exact state
    have cmdq : u.agent.cmdq = s.agent.cmdq := by rw [← ended]; exact cmdq
    -- the place that a reply gave free counts only for an agent that waits for one
    have agrees (notWaiting : u.agent.state ≠ .waitingReplySpace) : AgentAgrees u :=
      ⟨fun idle => by rw [cmdq]; exact h.idle (state ▸ idle), fun w => absurd w notWaiting⟩
    have told (notWaiting : (tellAgent item u).agent.state ≠ .waitingReplySpace) : AgentAgrees (tellAgent item u) := by
      unfold tellAgent resetAtReply at notWaiting ⊢
      split
      · split
        · by_cases waits : u.agent.state = .waitingReplySpace
          · have none : resetEffect u = u := by rw [resetEffect, waits]
            simp only [none] at notWaiting ⊢
            simp_all
          · exact resetEffect_agrees (agrees waits)
        · simp_all
      all_goals simp_all
    refine serveAgent_agrees fun notWaiting => ?_
    have judged := (judgePort_block (tellAgent item u)).agentKept
    exact judged.agrees (told (judged.state ▸ notWaiting))

theorem event_agrees {c : Instr} {f : State → State} (event : eventOf c = some f) (s : State) (h : AgentAgrees s) :
    AgentAgrees (f s) := by
  cases c with
  | resetNAssert | resetNRelease => cases event
  | initSweepCompletion => cases event; exact (initSweepDone_agentKept s).agrees h
  | cellArrival bytes =>
    cases event
    cases parsed : parseCell bytes with
    | none => simpa only [parsed] using h
    | some c => simpa only [parsed] using arrive_agrees c h
  | busResetSequence => cases event; exact (busReset_agentKept s).agrees h
  | busSweepStep => cases event; exact (sweepStep_agentKept s).agrees h
  | dispatch => cases event; exact (dispatchHead_request s).agentKept.agrees h
  | writeBackCompletion => cases event; exact (writeBackDone_effect s).agentKept.agrees h
  | fetchCompletion => cases event; exact (fetchDone_effect s).agentKept.agrees h
  | cellAssembly => cases event; exact (assemblyDone_agentKept s).agrees h
  | drainCompletion => cases event; exact (drainDone_agentKept s).agrees h
  | commandTake => cases event; exact takeNext_agrees s fun _ => h
  | unitResetStreams | unitResetFull => cases event; exact unitReset_agrees _ h
  | streamsTeardown => cases event; exact teardownStep_agrees h
  | frameCompletion => cases event; exact frameDone_agrees h
  | creditGrant g => cases event; exact (grant_agentKept g s).agrees h
  | egressLinkReset _ => cases event; exact (linkReset_agentKept s).agrees h
  | returnLaneOther _ => cases event; exact h
  | stallExpiry => cases event; exact stallExpiry_agrees h
  | ident | classWrite | classRead | poolQuery | limitsWrite | limitsRead | countersRead | countersReadClear
  | noticeMaskWrite => cases event; exact runPlain_agrees _ _ _ h
  | streamOpen | streamCloseGraceful | streamCloseAbort | streamPause | streamResume | streamCut | streamRelease
  | streamReconfigure | streamQuery => cases event; exact runStream_agrees _ _ _ h

theorem passMicrosecond_agrees (s : State) (h : AgentAgrees s) : AgentAgrees (passMicrosecond s) := by
  unfold passMicrosecond
  split
  · exact h
  · split
    · exact stallExpiry_agrees h
    · exact ⟨h.idle, h.waiting⟩

/-- Settles O56: the bounds by the laws of the events, the take by the case split over them above. -/
theorem stepKeepsBounds : Obligations.StepKeepsBounds := by
  refine ⟨fun s t => ?bounds, fun s t => ?take⟩
  case bounds =>
    refine step_preserves_of_keeps (fun _ _ h => ⟨h.fifo, h.commands, h.parked, h.notices, h.lost, h.credit, h.replies,
      h.reserved⟩) (fun _ _ k => k.bounds) fun straps low s _ => ?_
    obtain ⟨-, -, -, -, -, bounds, -⟩ := powerCycled_invariants straps low s
    exact bounds
  case take =>
    exact step_preserves (fun _ _ h => ⟨h.idle, h.waiting⟩) (fun _ _ ev s => event_agrees ev s) passMicrosecond_agrees
      fun _ _ _ _ => ⟨fun _ => rfl, fun w => nomatch w⟩

end Sys2Proof.Machine
end

section
/-!
SUPPORT. The consistency of the context engine in five parts (slots, marks, requests, waits, mode), each on the engine itself, and
the operations of RUNNING that keep them (R71–R83).
-/
namespace Sys2Proof.Machine

open Sys2Proof

/-! ### Engagement of a slot -/

theorem mem_slotNos : ∀ i : SlotNo, i ∈ slotNos := by decide

theorem engages_iff {t : StreamId} {x : Slot} :
    x.engages t = true ↔ x.stream = some t ∧ (x.state = .clean ∨ x.state = .dirty) := by
  simp [Slot.engages]

theorem engagedSlot_engages {e : Engine} {t : StreamId} {i : SlotNo} (h : engagedSlot e t = some i) :
    e.slots[i].engages t = true := by
  have := List.find?_some h
  simpa using this

theorem engagedSlot_eq_none_iff {e : Engine} {t : StreamId} :
    engagedSlot e t = none ↔ ∀ i : SlotNo, ¬ e.slots[i].engages t = true := by
  rw [engagedSlot, List.find?_eq_none]
  exact ⟨fun h i => h i (mem_slotNos i), fun h i _ => h i⟩

/-- A slot as another one with the same stream, engaged where the other is: marks, copies and CLEAN or DIRTY may differ. -/
structure SlotAlike (x y : Slot) : Prop where
  stream : y.stream = x.stream
  state : y.state = x.state ∨ ((x.state = .clean ∨ x.state = .dirty) ∧ (y.state = .clean ∨ y.state = .dirty))

namespace SlotAlike

variable {x y : Slot}

theorem refl (x : Slot) : SlotAlike x x := ⟨rfl, .inl rfl⟩

theorem vacant (h : SlotAlike x y) : y.state = .vacant ↔ x.state = .vacant := by
  obtain same | ⟨a, b⟩ := h.state
  · rw [same]
  · constructor <;> intro v <;> simp [v] at a b

theorem fetching (h : SlotAlike x y) : y.state = .fetching ↔ x.state = .fetching := by
  obtain same | ⟨a, b⟩ := h.state
  · rw [same]
  · constructor <;> intro v <;> simp [v] at a b

theorem evicting (h : SlotAlike x y) : y.state = .evicting ↔ x.state = .evicting := by
  obtain same | ⟨a, b⟩ := h.state
  · rw [same]
  · constructor <;> intro v <;> simp [v] at a b

theorem engages (h : SlotAlike x y) (t : StreamId) : y.engages t = true ↔ x.engages t = true := by
  rw [engages_iff, engages_iff, h.stream]
  obtain same | ⟨a, b⟩ := h.state
  · rw [same]
  · simp only [a, b]

end SlotAlike

theorem alike_set {e : Engine} {i : SlotNo} {x : Slot} (h : SlotAlike e.slots[i] x) (j : SlotNo) :
    SlotAlike e.slots[j] (e.slots.set i x)[j] := by
  rw [getElem_set_fin]
  split
  · next same => subst same; exact h
  · exact .refl _

/-! ### The parts -/

/-- Slots and fetch unit (R71, R72, R76). -/
structure SlotsFit (e : Engine) : Prop where
  vacant : ∀ i : SlotNo, e.slots[i].state = .vacant ↔ e.slots[i].stream = none
  distinct : ∀ (i j : SlotNo) (t : StreamId), e.slots[i].stream = some t → e.slots[j].stream = some t → i = j
  busy : ∀ i : SlotNo, e.slots[i].state = .evicting ∨ e.slots[i].state = .fetching ↔ ∃ f, e.fetch = some f ∧ f.slot = i
  fetched : ∀ f, e.fetch = some f → (e.slots[f.slot].state = .fetching → e.slots[f.slot].stream = some f.stream) ∧
    ∀ i : SlotNo, e.slots[i].stream = some f.stream → i = f.slot ∧ e.slots[i].state = .fetching

/-- The slot that an engagement holds, with its stream. -/
def heldBy : EngReq → List (SlotNo × StreamId)
  | .holds t i => [(i, t)]
  | .idle | .asked _ | .lodged _ | .fetching _ | .fetched _ => []

/-- The slots held by the cell in assembly, the agent and the drain service, each with its stream. -/
def holders (e : Engine) (a : List Assembly) : List (SlotNo × StreamId) :=
  a.map (fun x => (x.slot, x.cell.stream)) ++ (heldBy e.mgmt ++ heldBy e.drainReq)

/-- Marks and holders (R73). -/
structure MarksFit (e : Engine) (a : List Assembly) : Prop where
  oneCell : a.length ≤ 1
  marks : ∀ i : SlotNo, e.slots[i].inUse = true ↔ ∃ t, (i, t) ∈ holders e a
  apart : ((holders e a).map Prod.fst).Nodup
  engaged : ∀ (i : SlotNo) (t : StreamId), (i, t) ∈ holders e a → e.slots[i].engages t = true

/-- The parties of fetches and the parked cells; the agent asks only if it may (R76, R82, R86). -/
structure RequestsFit (mayAsk : Prop) (e : Engine) : Prop where
  requester : ∀ f, e.fetch = some f →
    (f.party = .management → e.mgmt = .fetching f.stream) ∧ (f.party = .drain → e.drainReq = .fetching f.stream) ∧
    (f.party = .dispatcher → ∀ c ∈ e.parked, c.stream = f.stream)
  agent : e.mgmt ≠ .idle → mayAsk
  parked : ∀ c ∈ e.parked, ∀ d ∈ e.parked, c.stream = d.stream

/-- A read that waits and the head that waits; `reads` and `head i` say of which waits there is something to wait for, which is all of
them outside an event. -/
structure WaitsFit (reads : Prop) (head : SlotNo → Prop) (e : Engine) (a : List Assembly) (q : List StreamCell) : Prop where
  reads : e.readWaits = true → (reads → a ≠ []) ∧
    ∃ f, e.fetch = some f ∧ f.party = .dispatcher ∧ e.slots[f.slot].state = .fetching
  head : ∀ i, e.dispWait = some i → e.mode = .running →
    ∃ c rest, q = c :: rest ∧ e.slots[i].engages c.stream = true ∧ (head i → e.slots[i].inUse = true ∨ a ≠ [])

/-- The mode and what is in progress (R87). -/
structure ModeFits (e : Engine) : Prop where
  quiet : (e.mode = .initSweep ∨ ∃ n b, e.mode = .busSweep n b) →
    (∀ i : SlotNo, e.slots[i].inUse = false) ∧ e.fetch = none ∧ e.dispWait = none
  reset : (e.mode = .sweepWait .init ∨ ∃ n, e.mode = .busSweep n true) → heldBy e.mgmt = []

/-- The engine of a state is consistent, but for waits that the event in progress has still to serve. -/
structure EngineOk (reads : Prop) (head : SlotNo → Prop) (mayAsk : Prop) (s : State) : Prop where
  slots : SlotsFit s.engine
  marks : MarksFit s.engine s.assembler
  requests : RequestsFit mayAsk s.engine
  waits : WaitsFit reads head s.engine s.assembler s.ingress.fifo
  modes : ModeFits s.engine

/-! ### The parts and the invariant -/

theorem mem_heldBy {r : EngReq} {i : SlotNo} {t : StreamId} : (i, t) ∈ heldBy r ↔ r = .holds t i := by
  cases r with
  | holds u j => simp [heldBy, and_comm, eq_comm]
  | idle | asked | lodged | fetching | fetched => simp [heldBy]

theorem heldBy_eq_nil {r : EngReq} : heldBy r = [] ↔ ∀ t i, r ≠ .holds t i := by
  cases r with
  | holds u j => simp [heldBy]
  | idle | asked | lodged | fetching | fetched => simp [heldBy]

theorem mem_holders {e : Engine} {a : List Assembly} {i : SlotNo} {t : StreamId} :
    (i, t) ∈ holders e a ↔ (∃ x ∈ a, x.slot = i ∧ x.cell.stream = t) ∨ e.mgmt = .holds t i ∨ e.drainReq = .holds t i := by
  simp [holders, mem_heldBy]

theorem holders_apart {e : Engine} {a : List Assembly} (one : a.length ≤ 1) :
    ((holders e a).map Prod.fst).Nodup ↔
      (∀ x ∈ a, ∀ t, e.mgmt ≠ .holds t x.slot ∧ e.drainReq ≠ .holds t x.slot) ∧
        ∀ t u i, e.mgmt = .holds t i → e.drainReq ≠ .holds u i := by
  have heldOne (r : EngReq) : (heldBy r).length ≤ 1 := by cases r <;> simp [heldBy]
  have single {α : Type} {l : List α} (h : l.length ≤ 1) : l.Nodup := by
    match l, h with
    | [], _ => exact .nil
    | [x], _ => exact List.nodup_cons.mpr ⟨List.not_mem_nil, List.nodup_nil⟩
  have cellsApart : ((a.map (fun x => (x.slot, x.cell.stream))).map Prod.fst).Nodup := single (by simpa using one)
  have mgmtApart : ((heldBy e.mgmt).map Prod.fst).Nodup := single (by simpa using heldOne _)
  have drainApart : ((heldBy e.drainReq).map Prod.fst).Nodup := single (by simpa using heldOne _)
  simp only [holders, List.map_append, List.nodup_append, cellsApart, mgmtApart, drainApart,
    true_and, List.mem_map, List.mem_append, forall_exists_index, and_imp, Prod.exists, exists_and_right, exists_eq_right,
    mem_heldBy, Prod.mk.injEq]
  constructor
  · rintro ⟨requests, cells⟩
    refine ⟨fun x hx t => ⟨fun m => ?_, fun d => ?_⟩, fun t u i m d => requests i t m i u d rfl⟩
    · exact cells x.slot _ x hx rfl rfl x.slot (.inl ⟨t, m⟩) rfl
    · exact cells x.slot _ x hx rfl rfl x.slot (.inr ⟨t, d⟩) rfl
  · rintro ⟨cells, requests⟩
    refine ⟨fun i t m j u d same => requests t u i m (same ▸ d), ?_⟩
    rintro i u x hx rfl rfl j (⟨t, m⟩ | ⟨t, d⟩) same
    · exact (cells x hx t).1 (same ▸ m)
    · exact (cells x hx t).2 (same ▸ d)

/-- The holders with and without the slot of the agent, or of the drain service. -/
theorem holders_mgmt {e e' : Engine} (a : List Assembly) {t : StreamId} {i : SlotNo} (holds : e'.mgmt = .holds t i)
    (held : heldBy e.mgmt = []) (drain : e'.drainReq = e.drainReq) : (holders e' a).Perm ((i, t) :: holders e a) := by
  rw [holders, holders, holds, held, drain]
  exact List.perm_middle

theorem holders_drain {e e' : Engine} (a : List Assembly) {t : StreamId} {i : SlotNo} (holds : e'.drainReq = .holds t i)
    (held : heldBy e.drainReq = []) (mgmt : e'.mgmt = e.mgmt) : (holders e' a).Perm ((i, t) :: holders e a) := by
  rw [holders, holders, holds, held, mgmt, List.append_nil, ← List.append_assoc]
  exact List.perm_append_singleton _ _

/-- The invariant is its five parts, with every wait served. -/
theorem engineConsistent_iff {s : State} : EngineConsistent s ↔ EngineOk True (fun _ => True) (AgentOnStream s) s := by
  have holds (i : SlotNo) : Holds i s ↔ ∃ t, (i, t) ∈ holders s.engine s.assembler := by
    simp only [Holds, mem_holders, exists_or]
    refine or_congr_left ⟨fun ⟨x, hx, slot⟩ => ⟨_, x, hx, slot, rfl⟩, fun ⟨t, x, hx, slot, _⟩ => ⟨x, hx, slot⟩⟩
  constructor
  · intro h
    exact {
      slots := ⟨h.vacant, h.distinct, h.busy, h.fetched⟩
      marks := {
        oneCell := h.oneCell
        marks := fun i => (h.marks i).trans (holds i)
        apart := (holders_apart h.oneCell).mpr h.apart
        engaged := fun i t held => by
          obtain ⟨cells, mgmt, drain⟩ := h.engaged
          obtain ⟨x, hx, rfl, rfl⟩ | m | d := mem_holders.mp held
          · exact cells x hx
          · exact mgmt t i m
          · exact drain t i d }
      requests := ⟨h.requester, h.agent, h.parked⟩
      waits := ⟨fun r => ⟨fun _ => (h.readWaits r).1, (h.readWaits r).2⟩, fun i w run => by
        obtain ⟨c, rest, q, engaged, served⟩ := h.headWaits i w run
        exact ⟨c, rest, q, engaged, fun _ => served⟩⟩
      modes := ⟨h.quiet, fun r => heldBy_eq_nil.mpr (h.reset r)⟩ }
  · rintro ⟨slots, marks, requests, waits, modes⟩
    exact {
      oneCell := marks.oneCell
      marks := fun i => (marks.marks i).trans (holds i).symm
      apart := (holders_apart marks.oneCell).mp marks.apart
      engaged := ⟨fun a ha => marks.engaged _ _ (mem_holders.mpr (.inl ⟨a, ha, rfl, rfl⟩)),
        fun t i m => marks.engaged _ _ (mem_holders.mpr (.inr (.inl m))),
        fun t i d => marks.engaged _ _ (mem_holders.mpr (.inr (.inr d)))⟩
      vacant := slots.vacant
      distinct := slots.distinct
      busy := slots.busy
      fetched := slots.fetched
      requester := requests.requester
      agent := requests.agent
      parked := requests.parked
      readWaits := fun r => ⟨(waits.reads r).1 trivial, (waits.reads r).2⟩
      headWaits := fun i w run => by
        obtain ⟨c, rest, q, engaged, served⟩ := waits.head i w run
        exact ⟨c, rest, q, engaged, served trivial⟩
      quiet := modes.quiet
      reset := fun r => heldBy_eq_nil.mp (modes.reset r) }

/-- One mark for each holder: at most three slots are in use. -/
theorem MarksFit.atMostThree {e : Engine} {a : List Assembly} (h : MarksFit e a) :
    (slotNos.filter (fun i => e.slots[i].inUse)).length ≤ 3 := by
  have heldOne (r : EngReq) : (heldBy r).length ≤ 1 := by cases r <;> simp [heldBy]
  have few : ((holders e a).map Prod.fst).length ≤ 3 := by
    have := h.oneCell
    have := heldOne e.mgmt
    have := heldOne e.drainReq
    simp only [holders, List.map_append, List.length_append, List.length_map]
    omega
  have distinct : (slotNos.filter (fun i => e.slots[i].inUse)).Nodup := List.Pairwise.filter _ (by decide)
  refine Nat.le_trans (List.Nodup.length_le_of_subset distinct fun i hi => ?_) few
  obtain ⟨t, held⟩ := (h.marks i).mp (List.mem_filter.mp hi).2
  exact List.mem_map.mpr ⟨_, held, rfl⟩

/-! ### Changes that a part does not see, or sees alike -/

section
variable {e e' : Engine} {a a' : List Assembly} {q q' : List StreamCell} {r r' : Prop} {w w' : SlotNo → Prop} {ask ask' : Prop}

theorem SlotsFit.alike (h : SlotsFit e) (alike : ∀ i : SlotNo, SlotAlike e.slots[i] e'.slots[i]) (fetch : e'.fetch = e.fetch) :
    SlotsFit e' where
  vacant i := by rw [(alike i).vacant, (alike i).stream]; exact h.vacant i
  distinct i j t hi hj := h.distinct i j t ((alike i).stream ▸ hi) ((alike j).stream ▸ hj)
  busy i := by rw [(alike i).evicting, (alike i).fetching, fetch]; exact h.busy i
  fetched f hf := by
    obtain ⟨reading, only⟩ := h.fetched f (fetch ▸ hf)
    refine ⟨fun st => ?_, fun i hi => ?_⟩
    · rw [(alike _).stream]; exact reading ((alike _).fetching.mp st)
    · rw [(alike i).fetching]; exact only i ((alike i).stream ▸ hi)

theorem MarksFit.alike (h : MarksFit e a) (one : a'.length ≤ 1) (alike : ∀ i : SlotNo, SlotAlike e.slots[i] e'.slots[i])
    (used : ∀ i : SlotNo, e'.slots[i].inUse = e.slots[i].inUse) (same : holders e' a' = holders e a) : MarksFit e' a' where
  oneCell := one
  marks i := by rw [used, same]; exact h.marks i
  apart := by rw [same]; exact h.apart
  engaged i t held := ((alike i).engages t).mpr (h.engaged i t (same ▸ held))

/-- A free slot that its stream is engaged in is taken by a new holder. -/
theorem MarksFit.take (h : MarksFit e a) {i : SlotNo} {t : StreamId} (one : a'.length ≤ 1)
    (alike : ∀ j : SlotNo, SlotAlike e.slots[j] e'.slots[j])
    (used : ∀ j : SlotNo, e'.slots[j].inUse = if i = j then true else e.slots[j].inUse)
    (free : e.slots[i].inUse = false) (engaged : e.slots[i].engages t = true)
    (holder : (holders e' a').Perm ((i, t) :: holders e a)) : MarksFit e' a' where
  oneCell := one
  marks j := by
    rw [used, exists_congr fun u => holder.mem_iff (a := (j, u))]
    by_cases same : i = j
    · subst same
      simp
    · rw [if_neg same, h.marks j]
      simp [Ne.symm same]
  apart := by
    rw [(holder.map Prod.fst).nodup_iff, List.map_cons, List.nodup_cons]
    refine ⟨fun held => ?_, h.apart⟩
    obtain ⟨⟨j, u⟩, held, same⟩ := List.mem_map.mp held
    have := (h.marks j).mpr ⟨u, held⟩
    rw [show j = i from same, free] at this
    cases this
  engaged j u held := by
    rw [(alike j).engages]
    obtain new | old := List.mem_cons.mp (holder.mem_iff.mp held)
    · cases new; exact engaged
    · exact h.engaged j u old

/-- A holder gives its slot up. -/
theorem MarksFit.end (h : MarksFit e a) {i : SlotNo} {t : StreamId} (one : a'.length ≤ 1)
    (alike : ∀ j : SlotNo, SlotAlike e.slots[j] e'.slots[j])
    (used : ∀ j : SlotNo, e'.slots[j].inUse = if i = j then false else e.slots[j].inUse)
    (holder : (holders e a).Perm ((i, t) :: holders e' a')) : MarksFit e' a' := by
  have apart := h.apart
  rw [(holder.map Prod.fst).nodup_iff, List.map_cons, List.nodup_cons] at apart
  obtain ⟨gone, apart⟩ := apart
  refine ⟨one, fun j => ?_, apart, fun j u held => ?_⟩
  · rw [used]
    by_cases same : i = j
    · subst same
      rw [if_pos rfl]
      refine ⟨fun no => (by cases no), fun ⟨u, held⟩ => absurd (List.mem_map.mpr ⟨_, held, rfl⟩) gone⟩
    · rw [if_neg same, h.marks j, exists_congr fun u => holder.mem_iff (a := (j, u))]
      simp [Ne.symm same]
  · rw [(alike j).engages]
    exact h.engaged j u (holder.mem_iff.mpr (List.mem_cons_of_mem _ held))

/-- A slot that is VACANT, EVICTING or FETCHING is not in use. -/
theorem MarksFit.free_of_not_engaged (h : MarksFit e a) {i : SlotNo} (state : e.slots[i].state ≠ .clean ∧ e.slots[i].state ≠ .dirty) :
    e.slots[i].inUse = false := by
  cases used : e.slots[i].inUse with
  | false => rfl
  | true =>
    obtain ⟨t, held⟩ := (h.marks i).mp used
    obtain ⟨-, engaged⟩ := engages_iff.mp (h.engaged i t held)
    exact (engaged.elim state.1 state.2).elim

theorem RequestsFit.imp (h : RequestsFit ask e) (may : ask → ask') : RequestsFit ask' e :=
  ⟨h.requester, fun m => may (h.agent m), h.parked⟩

theorem WaitsFit.imp (h : WaitsFit r w e a q) (reads : r' → r) (head : ∀ i, w' i → w i) : WaitsFit r' w' e a q where
  reads k := ⟨fun r' => (h.reads k).1 (reads r'), (h.reads k).2⟩
  head i k run := by
    obtain ⟨c, rest, fifo, engaged, served⟩ := h.head i k run
    exact ⟨c, rest, fifo, engaged, fun w' => served (head i w')⟩

/-- Marks are taken, a wait is withdrawn, a free assembler gets a cell. -/
theorem WaitsFit.mono (h : WaitsFit r w e a q) (alike : ∀ i : SlotNo, SlotAlike e.slots[i] e'.slots[i])
    (used : ∀ i : SlotNo, e.slots[i].inUse = true → e'.slots[i].inUse = true) (cells : a ≠ [] → a' ≠ [])
    (fetch : e'.fetch = e.fetch) (reads : e'.readWaits = e.readWaits) (mode : e'.mode = e.mode)
    (wait : ∀ i, e'.dispWait = some i → e.dispWait = some i ∧ q' = q) : WaitsFit r w e' a' q' where
  reads k := by
    obtain ⟨busy, f, hf, party, reading⟩ := h.reads (reads ▸ k)
    exact ⟨fun r => cells (busy r), f, fetch.trans hf, party, (alike _).fetching.mpr reading⟩
  head i k run := by
    obtain ⟨waited, rfl⟩ := wait i k
    obtain ⟨c, rest, fifo, engaged, served⟩ := h.head i waited (mode ▸ run)
    exact ⟨c, rest, fifo, ((alike i).engages _).mpr engaged, fun w => (served w).imp (used i) cells⟩

/-- Outside RUNNING only the wait of a read counts. -/
theorem WaitsFit.of_not_running (h : WaitsFit r w e a q) (mode : e'.mode ≠ .running)
    (alike : ∀ i : SlotNo, SlotAlike e.slots[i] e'.slots[i]) (fetch : e'.fetch = e.fetch) (reads : e'.readWaits = e.readWaits)
    (cells : r' → e.readWaits = true → a' ≠ []) : WaitsFit r' w' e' a' q' where
  reads k := by
    obtain ⟨-, f, hf, party, reading⟩ := h.reads (reads ▸ k)
    exact ⟨fun r' => cells r' (reads ▸ k), f, fetch.trans hf, party, (alike _).fetching.mpr reading⟩
  head _ _ run := absurd run mode

theorem ModeFits.of_running (mode : e.mode = .running) : ModeFits e := by
  constructor <;> rw [mode] <;> rintro (no | ⟨_, _⟩) <;> simp_all

theorem ModeFits.same (h : ModeFits e) (mode : e'.mode = e.mode) (used : ∀ i : SlotNo, e'.slots[i].inUse = e.slots[i].inUse)
    (fetch : e'.fetch = e.fetch) (wait : e.dispWait = none → e'.dispWait = none) (mgmt : heldBy e.mgmt = [] → heldBy e'.mgmt = []) :
    ModeFits e' where
  quiet k := by
    obtain ⟨free, idle, none⟩ := h.quiet (mode ▸ k)
    exact ⟨fun i => (used i).trans (free i), fetch.trans idle, wait none⟩
  reset k := mgmt (h.reset (mode ▸ k))

end

/-! ### Requests -/

section
variable {r : Prop} {w : SlotNo → Prop} {ask : Prop}

/-- An operation that leaves engine, assembler and FIFO. -/
theorem EngineOk.same {s t : State} (h : EngineOk r w ask s) (engine : t.engine = s.engine) (assembler : t.assembler = s.assembler)
    (fifo : t.ingress.fifo = s.ingress.fifo) : EngineOk r w ask t := by
  obtain ⟨slots, marks, requests, waits, modes⟩ := h
  refine ⟨?_, ?_, ?_, ?_, ?_⟩ <;> simp only [engine, assembler, fifo] <;> assumption

theorem EngineOk.block {s t : State} (h : EngineOk r w ask s) (k : BlockEffect s t) : EngineOk r w ask t :=
  h.same k.engine k.assembler k.fifo

theorem EngineOk.imp {s : State} {r' : Prop} {w' : SlotNo → Prop} {ask' : Prop} (h : EngineOk r w ask s) (reads : r' → r)
    (head : ∀ i, w' i → w i) (may : ask → ask') : EngineOk r' w' ask' s :=
  ⟨h.slots, h.marks, h.requests.imp may, h.waits.imp reads head, h.modes⟩

/-- The order of last use, the store, the dispatcher's request and the drain list bear on no part. -/
theorem EngineOk.unseen {s : State} (h : EngineOk r w ask s) (l : List SlotNo) (m : Vector Ctx 256) (d : Option StreamId)
    (n : List StreamId) : EngineOk r w ask { s with engine.lru := l, engine.store := m, engine.dispReq := d, engine.drainList := n } :=
  ⟨⟨h.slots.vacant, h.slots.distinct, h.slots.busy, h.slots.fetched⟩,
    ⟨h.marks.oneCell, h.marks.marks, h.marks.apart, h.marks.engaged⟩,
    ⟨h.requests.requester, h.requests.agent, h.requests.parked⟩, ⟨h.waits.reads, h.waits.head⟩, ⟨h.modes.quiet, h.modes.reset⟩⟩

/-- A slot is written that stays alike, with its mark. -/
theorem setSlot_ok {s : State} (h : EngineOk r w ask s) (i : SlotNo) {x : Slot} (alike : SlotAlike s.engine.slots[i] x)
    (used : x.inUse = s.engine.slots[i].inUse) : EngineOk r w ask (setSlot i x s) := by
  have all := alike_set alike
  have marks (j : SlotNo) : (s.engine.slots.set i x)[j].inUse = s.engine.slots[j].inUse := by
    rw [getElem_set_fin]
    split
    · next same => subst same; exact used
    · rfl
  exact ⟨h.slots.alike all rfl, h.marks.alike h.marks.oneCell all marks rfl,
    ⟨h.requests.requester, h.requests.agent, h.requests.parked⟩,
    h.waits.mono all (fun j k => (marks j).trans k) id rfl rfl rfl fun _ k => ⟨k, rfl⟩,
    h.modes.same rfl marks rfl id id⟩

/-- A party that holds no slot changes its request; one for which a fetch is in progress waits for that. -/
theorem setReq_ok {s : State} (h : EngineOk r w ask s) (p : Party) (req : EngReq) (held : heldBy (reqOf p s) = [])
    (holds : heldBy req = []) (may : p = .management → req ≠ .idle → ask)
    (fetch : ∀ f, s.engine.fetch = some f → f.party = p → req = .fetching f.stream) : EngineOk r w ask (setReq p req s) := by
  obtain ⟨slots, marks, requests, waits, modes⟩ := h
  cases p with
  | dispatcher => exact ⟨slots, marks, requests, waits, modes⟩
  | management =>
    have holder : holders { s.engine with mgmt := req } s.assembler = holders s.engine s.assembler := by
      simp only [holders, holds, show heldBy s.engine.mgmt = [] from held]
    refine ⟨slots.alike (fun _ => .refl _) rfl, marks.alike marks.oneCell (fun _ => .refl _) (fun _ => rfl) holder,
      ⟨fun f hf => ?_, may rfl, requests.parked⟩, ⟨waits.reads, waits.head⟩, modes.same rfl (fun _ => rfl) rfl id fun _ => holds⟩
    obtain ⟨-, drain, dispatcher⟩ := requests.requester f hf
    exact ⟨fetch f hf, drain, dispatcher⟩
  | drain =>
    have holder : holders { s.engine with drainReq := req } s.assembler = holders s.engine s.assembler := by
      simp only [holders, holds, show heldBy s.engine.drainReq = [] from held]
    refine ⟨slots.alike (fun _ => .refl _) rfl, marks.alike marks.oneCell (fun _ => .refl _) (fun _ => rfl) holder,
      ⟨fun f hf => ?_, requests.agent, requests.parked⟩, ⟨waits.reads, waits.head⟩, modes.same rfl (fun _ => rfl) rfl id id⟩
    obtain ⟨mgmt, -, dispatcher⟩ := requests.requester f hf
    exact ⟨mgmt, fetch f hf, dispatcher⟩

theorem mark_used (e : Engine) (i j : SlotNo) :
    (e.slots.set i { e.slots[i] with inUse := true })[j].inUse = if i = j then true else e.slots[j].inUse := by
  rw [getElem_set_fin]
  split
  · rfl
  · rfl

theorem mark_used_of_used (e : Engine) (i j : SlotNo) (used : e.slots[j].inUse = true) :
    (e.slots.set i { e.slots[i] with inUse := true })[j].inUse = true := by
  rw [mark_used, used, ite_self]

/-- The agent or the drain service, for which no fetch is in progress, takes the free slot of its stream. -/
theorem takeMark_ok {s : State} (h : EngineOk r w ask s) (running : s.engine.mode = .running) (p : Party) {t : StreamId} {i : SlotNo}
    (real : p ≠ .dispatcher) (held : heldBy (reqOf p s) = []) (may : p = .management → ask)
    (fetch : ∀ f, s.engine.fetch = some f → f.party ≠ p) (engaged : s.engine.slots[i].engages t = true)
    (free : s.engine.slots[i].inUse = false) : EngineOk r w ask (setReq p (.holds t i) (takeMark i s)) := by
  obtain ⟨slots, marks, requests, waits, modes⟩ := h
  have alike := alike_set (e := s.engine) (i := i) (x := { s.engine.slots[i] with inUse := true }) ⟨rfl, .inl rfl⟩
  have used := mark_used s.engine i
  have still := mark_used_of_used s.engine i
  cases p with
  | dispatcher => exact absurd rfl real
  | management =>
    refine ⟨slots.alike alike rfl, marks.take marks.oneCell alike used free engaged (holders_mgmt _ rfl held rfl),
      ⟨fun f hf => ?_, fun _ => may rfl, requests.parked⟩, waits.mono alike still id rfl rfl rfl fun _ k => ⟨k, rfl⟩,
      .of_running running⟩
    · obtain ⟨-, drain, dispatcher⟩ := requests.requester f hf
      exact ⟨fun p => absurd p (fetch f hf), drain, dispatcher⟩
  | drain =>
    refine ⟨slots.alike alike rfl, marks.take marks.oneCell alike used free engaged (holders_drain _ rfl held rfl),
      ⟨fun f hf => ?_, requests.agent, requests.parked⟩, waits.mono alike still id rfl rfl rfl fun _ k => ⟨k, rfl⟩,
      .of_running running⟩
    · obtain ⟨mgmt, -, dispatcher⟩ := requests.requester f hf
      exact ⟨mgmt, fun p => absurd p (fetch f hf), dispatcher⟩

/-- A cell takes the free slot of its stream into the free assembler; a wait of the head and a parked cell may go with it. -/
theorem takeCell_ok {s u : State} (h : EngineOk r w ask s) (running : s.engine.mode = .running) {c : StreamCell} {i : SlotNo}
    (assembler : s.assembler = []) (engaged : s.engine.slots[i].engages c.stream = true) (free : s.engine.slots[i].inUse = false)
    (cell : u.assembler = [⟨c, i, none⟩])
    (engine : u.engine = { s.engine with
      slots := s.engine.slots.set i { s.engine.slots[i] with inUse := true }
      lru := touch i s.engine.lru
      dispWait := u.engine.dispWait
      parked := u.engine.parked })
    (wait : ∀ j, u.engine.dispWait = some j → s.engine.dispWait = some j ∧ u.ingress.fifo = s.ingress.fifo)
    (parked : ∀ d ∈ u.engine.parked, d ∈ s.engine.parked) : EngineOk r w ask u := by
  obtain ⟨slots, marks, requests, waits, modes⟩ := h
  have alike := alike_set (e := s.engine) (i := i) (x := { s.engine.slots[i] with inUse := true }) ⟨rfl, .inl rfl⟩
  have used := mark_used s.engine i
  have still := mark_used_of_used s.engine i
  refine ⟨?_, ?_, ?_, ?_, ?_⟩
  · rw [engine]
    exact slots.alike alike rfl
  · rw [engine, cell]
    refine marks.take (t := c.stream) (by simp) alike used free engaged ?_
    simp [holders, assembler]
  · rw [engine]
    refine ⟨fun f hf => ?_, requests.agent, fun x hx y hy => requests.parked x (parked x hx) y (parked y hy)⟩
    obtain ⟨mgmt, drain, dispatcher⟩ := requests.requester f hf
    exact ⟨mgmt, drain, fun p x hx => dispatcher p x (parked x hx)⟩
  · rw [engine, cell]
    exact waits.mono alike still (fun _ => by simp) rfl rfl rfl wait
  · rw [engine]
    exact .of_running running

theorem judgeTake_ok (p : Party) {s : State} (h : EngineOk r w ask s) (running : s.engine.mode = .running) :
    EngineOk r w ask (judgeTake p s) := by
  unfold judgeTake
  split
  · next t asked =>
    split
    · next i found =>
      split
      · exact h
      · next free =>
        cases p with
        | dispatcher => cases asked
        | management =>
          have mgmt : s.engine.mgmt = .asked t := asked
          refine takeMark_ok h running .management (by simp) (by rw [asked]; rfl) (fun _ => h.requests.agent (by simp [mgmt]))
            (fun f hf p => ?_) (engagedSlot_engages found) (by simpa using free)
          have := (h.requests.requester f hf).1 p
          rw [mgmt] at this
          cases this
        | drain =>
          have drain : s.engine.drainReq = .asked t := asked
          refine takeMark_ok h running .drain (by simp) (by rw [asked]; rfl) (fun p => nomatch p)
            (fun f hf p => ?_) (engagedSlot_engages found) (by simpa using free)
          have := (h.requests.requester f hf).2.1 p
          rw [drain] at this
          cases this
    · exact h
  all_goals exact h

/-- A fetch for a party is in progress only while the party waits for it. -/
theorem RequestsFit.party_waits {e : Engine} {s : State} (h : RequestsFit ask e) (engine : e = s.engine) {p : Party}
    (real : p ≠ .dispatcher) (req : ∀ t, reqOf p s ≠ .fetching t) (f : Fetch) (hf : e.fetch = some f) : f.party ≠ p := by
  intro party
  subst engine
  obtain ⟨mgmt, drain, -⟩ := h.requester f hf
  cases p with
  | dispatcher => exact real rfl
  | management => exact req f.stream (mgmt party)
  | drain => exact req f.stream (drain party)

theorem reqOf_dispatcher (s : State) : reqOf .dispatcher s = .idle := rfl

theorem ne_dispatcher_of_reqOf {p : Party} {s : State} (h : reqOf p s ≠ .idle) : p ≠ .dispatcher := by
  rintro rfl
  exact h rfl

theorem mayAsk_of_reqOf {p : Party} {s : State} (h : EngineOk r w ask s) (asks : reqOf p s ≠ .idle) (party : p = .management) : ask :=
  h.requests.agent (by subst party; exact asks)

theorem judgeLodge_ok (p : Party) {s : State} (h : EngineOk r w ask s) : EngineOk r w ask (judgeLodge p s) := by
  unfold judgeLodge
  split
  · next t asked =>
    split
    · exact h
    · have asks : reqOf p s ≠ .idle := by simp [asked]
      exact setReq_ok h p _ (by rw [asked]; rfl) rfl (fun party _ => mayAsk_of_reqOf h asks party) fun f hf party =>
        absurd party (h.requests.party_waits rfl (ne_dispatcher_of_reqOf asks) (by simp [asked]) f hf)
  all_goals exact h

/-! ### A fetch begins (R76, R77) -/

theorem victim_idle {e : Engine} {i : SlotNo} (h : victim e = some i) :
    e.slots[i].state = .vacant ∨
      (e.slots[i].inUse = false ∧ (e.slots[i].state = .clean ∨ e.slots[i].state = .dirty) ∧ e.dispWait ≠ some i) := by
  unfold victim at h
  split at h
  · next j found =>
    cases h
    exact .inl (by simpa using List.find?_some found)
  · have := List.find?_some h
    simp only [Bool.and_eq_true, Bool.not_eq_true', Bool.or_eq_true, beq_iff_eq, bne_iff_ne] at this
    obtain ⟨⟨free, state⟩, wait⟩ := this
    exact .inr ⟨free, state, wait⟩

/-- With the fetch unit IDLE a stream that is not engaged stands in no slot. -/
theorem SlotsFit.not_carried {e : Engine} (h : SlotsFit e) {t : StreamId} (idle : e.fetch = none) (apart : engagedSlot e t = none)
    (i : SlotNo) : e.slots[i].stream ≠ some t := by
  intro stream
  have notEngaged := engagedSlot_eq_none_iff.mp apart i
  rw [engages_iff] at notEngaged
  have notBusy := mt (h.busy i).mp (by simp [idle])
  have notVacant := mt (h.vacant i).mp (fun none => by rw [none] at stream; cases stream)
  cases state : e.slots[i].state with
  | vacant => exact notVacant state
  | evicting => exact notBusy (.inl state)
  | fetching => exact notBusy (.inr state)
  | clean => exact notEngaged ⟨stream, .inl state⟩
  | dirty => exact notEngaged ⟨stream, .inr state⟩

/-- The slot that a fetch has chosen, as steps 2 and 3 of R76 leave it. -/
theorem SlotsFit.beginFetch {e : Engine} (h : SlotsFit e) {p : Party} {t : StreamId} {i : SlotNo} (idle : e.fetch = none)
    (apart : engagedSlot e t = none) (chosen : e.slots[i].state = .vacant ∨ e.slots[i].state = .clean ∨ e.slots[i].state = .dirty) :
    SlotsFit { e with
      fetch := some ⟨p, t, i⟩
      slots := e.slots.set i (if e.slots[i].state = .dirty then { e.slots[i] with state := .evicting }
        else { e.slots[i] with state := .fetching, stream := some t }) } := by
  have absent := h.not_carried idle apart
  have notBusy (j : SlotNo) := mt (h.busy j).mp (by simp [idle])
  generalize fetched : (if e.slots[i].state = .dirty then { e.slots[i] with state := SlotState.evicting }
    else { e.slots[i] with state := .fetching, stream := some t }) = x
  have state : x.state = .evicting ∨ x.state = .fetching := by rw [← fetched]; split <;> simp
  have carries : x.stream ≠ none := by
    rw [← fetched]
    split
    · next dirty => exact fun none => by rw [(h.vacant i).mpr none] at dirty; cases dirty
    · simp
  have own (u : StreamId) (hu : x.stream = some u) : u = t ∧ x.state = .fetching ∨ e.slots[i].stream = some u := by
    rw [← fetched] at hu ⊢
    split at hu
    · exact .inr hu
    · next clean =>
      rw [if_neg clean]
      exact .inl ⟨(Option.some.inj hu).symm, rfl⟩
  constructor
  · intro j
    simp only [getElem_set_fin]
    split
    · constructor
      · intro v; simp [v] at state
      · intro v; exact absurd v carries
    · exact h.vacant j
  · intro j k u hj hk
    simp only [getElem_set_fin] at hj hk
    by_cases ij : i = j <;> by_cases ik : i = k
    · exact ij.symm.trans ik
    · rw [if_pos ij] at hj
      rw [if_neg ik] at hk
      obtain ⟨rfl, -⟩ | old := own u hj
      · exact absurd hk (absent k)
      · exact ij ▸ h.distinct i k u old hk
    · rw [if_neg ij] at hj
      rw [if_pos ik] at hk
      obtain ⟨rfl, -⟩ | old := own u hk
      · exact absurd hj (absent j)
      · exact ik ▸ h.distinct j i u hj old
    · rw [if_neg ij] at hj
      rw [if_neg ik] at hk
      exact h.distinct j k u hj hk
  · intro j
    simp only [getElem_set_fin, Option.some.injEq, exists_eq_left']
    split
    · next same => exact ⟨fun _ => same, fun _ => state⟩
    · next other => exact ⟨fun busy => absurd busy (notBusy j), fun same => absurd same other⟩
  · rintro f hf
    cases hf
    refine ⟨fun reading => ?_, fun j hj => ?_⟩
    · simp only [getElem_set_fin_self] at reading ⊢
      rw [← fetched] at reading ⊢
      split at reading
      · cases reading
      · next clean => rw [if_neg clean]
    · simp only [getElem_set_fin] at hj ⊢
      by_cases same : i = j
      · rw [if_pos same] at hj ⊢
        obtain ⟨-, reading⟩ | old := own t hj
        · exact ⟨same.symm, reading⟩
        · exact absurd old (absent i)
      · rw [if_neg same] at hj
        exact absurd hj (absent j)

/-- A fetch begins on a victim, and its party waits for it: the request or the head's cell that it is for. -/
theorem beginFetch_ok {s u : State} (h : EngineOk r w ask s) (running : s.engine.mode = .running) {p : Party} {t : StreamId}
    {i : SlotNo} (idle : s.engine.fetch = none) (apart : engagedSlot s.engine t = none) (chosen : victim s.engine = some i)
    (assembler : u.assembler = s.assembler)
    (slots : u.engine.slots = (beginFetch p t i s).engine.slots) (fetch : u.engine.fetch = some ⟨p, t, i⟩)
    (mode : u.engine.mode = s.engine.mode) (reads : u.engine.readWaits = s.engine.readWaits)
    (holder : heldBy u.engine.mgmt = heldBy s.engine.mgmt ∧ heldBy u.engine.drainReq = heldBy s.engine.drainReq)
    (requests : RequestsFit ask u.engine)
    (wait : ∀ j, u.engine.dispWait = some j → s.engine.dispWait = some j ∧ u.ingress.fifo = s.ingress.fifo) :
    EngineOk r w ask u := by
  have slots : u.engine.slots = s.engine.slots.set i (if s.engine.slots[i].state = .dirty
      then { s.engine.slots[i] with state := .evicting }
      else { s.engine.slots[i] with state := .fetching, stream := some t }) := slots
  have vic := victim_idle chosen
  have state : s.engine.slots[i].state = .vacant ∨ s.engine.slots[i].state = .clean ∨ s.engine.slots[i].state = .dirty :=
    vic.imp_right fun v => v.2.1
  have free : s.engine.slots[i].inUse = false := by
    obtain vacant | ⟨free, -⟩ := vic
    · exact h.marks.free_of_not_engaged (by rw [vacant]; decide)
    · exact free
  have begun := h.slots.beginFetch (p := p) idle apart state
  have others (j : SlotNo) (hj : j ≠ i) : u.engine.slots[j] = s.engine.slots[j] := by rw [slots, getElem_set_fin_ne _ _ hj]
  have used (j : SlotNo) : u.engine.slots[j].inUse = s.engine.slots[j].inUse := by
    by_cases same : j = i
    · subst same
      rw [slots, getElem_set_fin_self]
      split <;> rfl
    · rw [others j same]
  have sameHolders : holders u.engine u.assembler = holders s.engine s.assembler := by
    rw [holders, holders, assembler, holder.1, holder.2]
  refine ⟨?_, ⟨?_, ?_, ?_, ?_⟩, requests, ⟨?_, ?_⟩, .of_running (mode.trans running)⟩
  · obtain ⟨a, b, c, d⟩ := begun
    refine ⟨?_, ?_, ?_, ?_⟩ <;> simp only [slots, fetch] <;> assumption
  · rw [assembler]; exact h.marks.oneCell
  · intro j
    rw [used, sameHolders]
    exact h.marks.marks j
  · rw [sameHolders]; exact h.marks.apart
  · intro j t' held
    rw [sameHolders] at held
    have notVictim : j ≠ i := by
      rintro rfl
      have := (h.marks.marks j).mpr ⟨t', held⟩
      rw [free] at this
      cases this
    rw [others j notVictim]
    exact h.marks.engaged j t' held
  · intro k
    obtain ⟨-, f, hf, -⟩ := h.waits.reads (reads ▸ k)
    rw [idle] at hf
    cases hf
  · intro j k run
    obtain ⟨waited, fifo⟩ := wait j k
    obtain ⟨c, rest, queue, engaged, served⟩ := h.waits.head j waited running
    have notVictim : j ≠ i := by
      rintro rfl
      obtain vacant | ⟨-, -, notWaited⟩ := vic
      · obtain ⟨-, engaged⟩ := engages_iff.mp engaged
        rw [vacant] at engaged
        exact absurd engaged (by decide)
      · exact notWaited waited
    rw [others j notVictim, fifo, assembler]
    exact ⟨c, rest, queue, engaged, served⟩

theorem startRequest_ok (p : Party) {s : State} (h : EngineOk r w ask s) (running : s.engine.mode = .running) :
    EngineOk r w ask (startRequest p s) := by
  unfold startRequest
  split
  · next t idle lodged =>
    have asks : reqOf p s ≠ .idle := by simp [lodged]
    have real := ne_dispatcher_of_reqOf asks
    split
    · refine judgeTake_ok p (setReq_ok h p _ (by rw [lodged]; rfl) rfl (fun party _ => mayAsk_of_reqOf h asks party)
        fun f hf => ?_) ?_
      · rw [idle] at hf; cases hf
      · rw [(setReq_request p _ s).mode, running]
    · next apart =>
      split
      · next i chosen =>
        cases p with
        | dispatcher => exact absurd rfl real
        | management =>
          have mgmt : heldBy s.engine.mgmt = [] := by rw [show s.engine.mgmt = .lodged t from lodged]; rfl
          refine beginFetch_ok h running (p := .management) idle apart chosen rfl rfl rfl rfl rfl ⟨mgmt.symm, rfl⟩
            ⟨fun f hf => ?_, fun _ => mayAsk_of_reqOf h asks rfl, h.requests.parked⟩ fun _ k => ⟨k, rfl⟩
          cases hf
          exact ⟨fun _ => rfl, (nomatch ·), (nomatch ·)⟩
        | drain =>
          have drain : heldBy s.engine.drainReq = [] := by rw [show s.engine.drainReq = .lodged t from lodged]; rfl
          refine beginFetch_ok h running (p := .drain) idle apart chosen rfl rfl rfl rfl rfl ⟨rfl, drain.symm⟩
            ⟨fun f hf => ?_, h.requests.agent, h.requests.parked⟩ fun _ k => ⟨k, rfl⟩
          cases hf
          exact ⟨(nomatch ·), fun _ => rfl, (nomatch ·)⟩
      · exact h
  · exact h

/-! ### The dispatcher (R81) -/

theorem dropWait_ok {s : State} (h : EngineOk r w ask s) : EngineOk r w ask (dropWait s) :=
  ⟨h.slots.alike (fun _ => .refl _) rfl, h.marks.alike h.marks.oneCell (fun _ => .refl _) (fun _ => rfl) rfl,
    ⟨h.requests.requester, h.requests.agent, h.requests.parked⟩,
    h.waits.mono (fun _ => .refl _) (fun _ => id) id rfl rfl rfl (fun _ k => (nomatch k)),
    h.modes.same rfl (fun _ => rfl) rfl (fun _ => rfl) id⟩

theorem takeHead_ok {s : State} (h : EngineOk r w ask s) (running : s.engine.mode = .running) {c : StreamCell} {i : SlotNo}
    (assembler : s.assembler = []) (engaged : s.engine.slots[i].engages c.stream = true) (free : s.engine.slots[i].inUse = false) :
    EngineOk r w ask (takeHead c i s) :=
  takeCell_ok h running assembler engaged free rfl rfl (fun _ k => nomatch k) fun _ => id

theorem sendHead_ok {s : State} (h : EngineOk r w ask s) (running : s.engine.mode = .running) {c : StreamCell}
    {rest : List StreamCell} (head : s.ingress.fifo = c :: rest) {i : SlotNo} (found : engagedSlot s.engine c.stream = some i) :
    EngineOk r w ask (sendHead c i s) := by
  have engaged := engagedSlot_engages found
  unfold sendHead
  split
  · next used =>
    refine ⟨h.slots.alike (fun _ => .refl _) rfl, h.marks.alike h.marks.oneCell (fun _ => .refl _) (fun _ => rfl) rfl,
      ⟨h.requests.requester, h.requests.agent, h.requests.parked⟩, ⟨h.waits.reads, ?_⟩, .of_running running⟩
    rintro j wait -
    cases wait
    exact ⟨c, rest, head, engaged, fun _ => .inl used⟩
  · next free =>
    split
    · next empty => exact takeHead_ok h running (List.isEmpty_iff.mp empty) engaged (by simpa using free)
    · split
      · exact h
      · exact dropWait_ok h

/-- The head joins the parked cells of its stream, where no wait is left behind. -/
theorem parkHead_ok {s : State} (h : EngineOk r w ask s) (c : StreamCell) (wait : s.engine.dispWait = none)
    (fetch : ∀ f, s.engine.fetch = some f → f.party = .dispatcher → c.stream = f.stream)
    (parked : ∀ d ∈ s.engine.parked, d.stream = c.stream) : EngineOk r w ask (parkHead c s) := by
  refine ⟨h.slots.alike (fun _ => .refl _) rfl, h.marks.alike h.marks.oneCell (fun _ => .refl _) (fun _ => rfl) rfl,
    ⟨fun f hf => ?_, h.requests.agent, ?_⟩,
    h.waits.mono (fun _ => .refl _) (fun _ => id) id rfl rfl rfl fun _ k => ?_, h.modes.same rfl (fun _ => rfl) rfl id id⟩
  · obtain ⟨mgmt, drain, dispatcher⟩ := h.requests.requester f hf
    refine ⟨mgmt, drain, fun p d hd => ?_⟩
    obtain old | new := List.mem_append.mp hd
    · exact dispatcher p d old
    · rw [List.mem_singleton.mp new]; exact fetch f hf p
  · have all (d) (hd : d ∈ s.engine.parked ++ [c]) : d.stream = c.stream := by
      obtain old | new := List.mem_append.mp hd
      · exact parked d old
      · rw [List.mem_singleton.mp new]
    exact fun x hx y hy => (all x hx).trans (all y hy).symm
  · have : s.engine.dispWait = some _ := k
    rw [wait] at this
    cases this

theorem dispatcherFetch_some {e : Engine} {u : StreamId} (h : dispatcherFetch e = some u) :
    ∃ f, e.fetch = some f ∧ f.party = .dispatcher ∧ f.stream = u := by
  unfold dispatcherFetch at h
  split at h
  · next t i hf => cases h; exact ⟨_, hf, rfl, rfl⟩
  all_goals cases h

theorem dispatchHead_ok {s : State} (h : EngineOk r w ask s) : EngineOk r w ask (dispatchHead s) := by
  unfold dispatchHead
  split
  · next c rest running head =>
    split
    · next u fetched =>
      split
      · next same =>
        split
        · obtain ⟨f, hf, party, stream⟩ := dispatcherFetch_some fetched
          obtain ⟨-, -, dispatcher⟩ := h.requests.requester f hf
          refine parkHead_ok (dropWait_ok h) c rfl (fun g hg _ => ?_) fun d hd => ?_
          · have : s.engine.fetch = some g := hg
            rw [hf] at this
            cases this
            exact same.trans stream.symm
          · exact (dispatcher party d hd).trans (stream.trans same.symm)
        · exact dropWait_ok h
      · split
        · next found => exact sendHead_ok h running head found
        · exact dropWait_ok h
    · split
      · next empty =>
        split
        · next found => exact sendHead_ok h running head found
        · next apart =>
          simp only
          split
          · next free =>
            simp only [Bool.and_eq_true, Option.isNone_iff_eq_none] at free
            split
            · next i chosen =>
              have none : s.engine.parked = [] := List.isEmpty_iff.mp empty
              refine beginFetch_ok (dropWait_ok h) running (p := .dispatcher) (t := c.stream) free.1 apart chosen rfl rfl rfl rfl
                rfl ⟨rfl, rfl⟩ ⟨fun f hf => ?_, h.requests.agent, ?_⟩ fun _ k => nomatch k
              · cases hf
                refine ⟨(nomatch ·), (nomatch ·), fun _ d hd => ?_⟩
                have : d ∈ s.engine.parked ++ [c] := hd
                simp only [none, List.nil_append, List.mem_singleton] at this
                rw [this]
              · have all (d : StreamCell) (hd : d ∈ s.engine.parked ++ [c]) : d = c := by simpa [none] using hd
                exact fun x hx y hy => by rw [all x hx, all y hy]
            · exact dropWait_ok h
          · split
            · exact (dropWait_ok h).unseen s.engine.lru s.engine.store (some c.stream) s.engine.drainList
            · exact dropWait_ok h
      · exact h
  · exact h

theorem startDispatcher_ok {s : State} (h : EngineOk r w ask s) : EngineOk r w ask (startDispatcher s) := by
  unfold startDispatcher
  split
  · exact dispatchHead_ok (h.unseen s.engine.lru s.engine.store none s.engine.drainList)
  · exact h

theorem startNext_ok {s : State} (h : EngineOk r w ask s) : EngineOk r w ask (startNext s) := by
  unfold startNext
  split
  · next running =>
    have mgmt := startRequest_ok .management h running
    exact startDispatcher_ok (startRequest_ok .drain mgmt ((startRequest_request _ s).mode.trans running))
  all_goals exact h

/-! ### Engagement (R74) -/

theorem reqOf_setReq {p : Party} (real : p ≠ .dispatcher) (req : EngReq) (s : State) : reqOf p (setReq p req s) = req := by
  cases p with
  | dispatcher => exact absurd rfl real
  | management | drain => rfl

/-- A party that asks nothing, and may, asks for a stream. -/
theorem askEngage_ok (p : Party) (t : StreamId) {s : State} (h : EngineOk r w ask s) (real : p ≠ .dispatcher)
    (idle : reqOf p s = .idle) (may : p = .management → ask) : EngineOk r w ask (askEngage p t s) := by
  have asked : EngineOk r w ask (setReq p (.asked t) s) :=
    setReq_ok h p _ (by rw [idle]; rfl) rfl (fun party _ => may party) fun f hf party =>
      absurd party (h.requests.party_waits rfl real (by simp [idle]) f hf)
  unfold askEngage
  simp only
  split
  · next running => exact startNext_ok (judgeLodge_ok p (judgeTake_ok p asked running))
  all_goals exact asked

theorem serveDrain_ok {s : State} (h : EngineOk r w ask s) : EngineOk r w ask (serveDrain s) := by
  unfold serveDrain
  split
  · next idle _ => exact askEngage_ok .drain _ h (by simp) idle fun p => nomatch p
  · exact h

theorem raiseDrain_ok (t : StreamId) {s : State} (h : EngineOk r w ask s) : EngineOk r w ask (raiseDrain t s) := by
  unfold raiseDrain
  split
  · exact h
  · exact serveDrain_ok (h.unseen s.engine.lru s.engine.store s.engine.dispReq (s.engine.drainList ++ [t]))

theorem fallOutstanding_ok (t : StreamId) {s : State} (h : EngineOk r w ask s) : EngineOk r w ask (fallOutstanding t s) := by
  unfold fallOutstanding
  simp only
  split
  · exact raiseDrain_ok t (h.block (setDrain_block t _ s))
  · exact h.block (setDrain_block t _ s)

theorem handFetched_ok (p : Party) {s : State} (h : EngineOk r w ask s) (running : s.engine.mode = .running) :
    EngineOk r w ask (handFetched p s) := by
  unfold handFetched
  split
  · next t fetched =>
    have asks : reqOf p s ≠ .idle := by simp [fetched]
    refine judgeTake_ok p (setReq_ok h p _ (by rw [fetched]; rfl) rfl (fun party _ => mayAsk_of_reqOf h asks party)
      fun f hf party => ?_) ((setReq_request p _ s).mode.trans running)
    exact absurd party (h.requests.party_waits rfl (ne_dispatcher_of_reqOf asks) (by simp [fetched]) f hf)
  all_goals exact h

theorem serveWaiting_ok {s : State} (h : EngineOk r w ask s) (running : s.engine.mode = .running) :
    EngineOk r w ask (serveWaiting s) := by
  have a := handFetched_ok .management h running
  have ra := (handFetched_request .management s).mode.trans running
  have b := handFetched_ok .drain a ra
  have rb := (handFetched_request .drain _).mode.trans ra
  have c := judgeTake_ok .management b rb
  have rc := (judgeTake_request .management _).mode.trans rb
  exact startNext_ok (judgeLodge_ok _ (judgeLodge_ok _ (judgeTake_ok .drain c rc)))

end

end Sys2Proof.Machine
end

section
/-!
SUPPORT. The consistency of the context engine through releases, sweeps, fetches and every event of the part (R75, R76, R87–R91,
R170–R172).
-/
namespace Sys2Proof.Machine

open Sys2Proof

section
variable {r : Prop} {w : SlotNo → Prop} {ask : Prop}

/-! ### The mark is handed on (R75) -/

theorem handToParked_ok {i : SlotNo} {s : State} (h : EngineOk r w ask s) (running : s.engine.mode = .running)
    (engaged : ∀ c ∈ s.engine.parked.head?, s.engine.slots[i].engages c.stream = true) (free : s.engine.slots[i].inUse = false) :
    EngineOk r w ask (handToParked i s) := by
  unfold handToParked
  split
  · exact h
  · next c rest parked =>
    split
    · next empty =>
      exact takeCell_ok h running (List.isEmpty_iff.mp empty) (engaged c (by rw [parked]; rfl)) free rfl rfl (fun _ k => ⟨k, rfl⟩)
        fun d hd => by rw [parked]; exact List.mem_cons_of_mem _ hd
    · exact h

theorem handToHead_ok {i : SlotNo} {t : StreamId} {s : State} (h : EngineOk r w ask s) (running : s.engine.mode = .running)
    (free : s.engine.slots[i].inUse = false) (engaged : s.engine.slots[i].engages t = true) :
    EngineOk r w ask (handToHead i t s) := by
  unfold handToHead
  split
  · split
    · next taken =>
      obtain ⟨-, stream, empty, -⟩ := taken
      exact takeHead_ok h running (List.isEmpty_iff.mp empty) (stream ▸ engaged) free
    · exact h
  · exact h

/-- A slot handed to the agent or the drain service that asked for its stream. -/
theorem handTo_ok {p : Party} {i : SlotNo} {t : StreamId} {s u : State} (h : EngineOk r w ask s)
    (running : s.engine.mode = .running) (free : s.engine.slots[i].inUse = false) (engaged : s.engine.slots[i].engages t = true)
    (handed : handTo p i t s = some u) : EngineOk r w ask u := by
  unfold handTo at handed
  split at handed
  · next v asked =>
    obtain ⟨-, taken⟩ := Option.ite_none_right_eq_some.mp handed
    cases taken
    have asks : reqOf p s ≠ .idle := by simp [asked]
    exact takeMark_ok h running p (ne_dispatcher_of_reqOf asks) (by rw [asked]; rfl) (mayAsk_of_reqOf h asks)
      (h.requests.party_waits rfl (ne_dispatcher_of_reqOf asks) (by simp [asked])) engaged free
  all_goals cases handed

theorem parkedWaits_head {t : StreamId} {e : Engine} (h : parkedWaits t e = true) : ∃ c rest, e.parked = c :: rest ∧ c.stream = t := by
  unfold parkedWaits at h
  split at h
  · cases h
  · next c rest parked => exact ⟨c, rest, parked, by simpa using h⟩

/-- What handing a mark on comes to: nobody's slot, a parked cell, the agent or else the drain service, or the FIFO head. -/
theorem handOn_cases (i : SlotNo) (s : State) : (s.engine.slots[i].stream = none ∧ handOn i s = s) ∨
    ∃ t, s.engine.slots[i].stream = some t ∧
      ((parkedWaits t s.engine = true ∧ handOn i s = handToParked i s) ∨ (parkedWaits t s.engine = false ∧
        ((∃ p, (p = .management ∨ (p = .drain ∧ handTo .management i t s = none)) ∧ handTo p i t s = some (handOn i s)) ∨
          (handTo .management i t s = none ∧ handTo .drain i t s = none ∧ handOn i s = handToHead i t s)))) := by
  cases stream : s.engine.slots[i].stream with
  | none => exact .inl ⟨rfl, by rw [handOn, stream]⟩
  | some t =>
    refine .inr ⟨t, rfl, ?_⟩
    have handed : handOn i s = if parkedWaits t s.engine then handToParked i s
        else match handTo .management i t s with
          | some s' => s'
          | none =>
            match handTo .drain i t s with
            | some s' => s'
            | none => handToHead i t s := by rw [handOn, stream] <;> rfl
    cases parked : parkedWaits t s.engine with
    | true => exact .inl ⟨rfl, by rw [handed, parked]; rfl⟩
    | false =>
      refine .inr ⟨rfl, ?_⟩
      rw [parked] at handed
      cases agent : handTo .management i t s with
      | some u => exact .inl ⟨.management, .inl rfl, by rw [handed, agent]; rfl⟩
      | none =>
        cases drain : handTo .drain i t s with
        | some u => exact .inl ⟨.drain, .inr ⟨rfl, rfl⟩, by rw [handed, agent, drain]; rfl⟩
        | none => exact .inr ⟨rfl, rfl, by rw [handed, agent, drain]; rfl⟩

/-- The mark of a free slot that its stream is engaged in is handed on. -/
theorem handOn_ok {i : SlotNo} {s : State} (h : EngineOk r w ask s) (running : s.engine.mode = .running)
    (free : s.engine.slots[i].inUse = false) (engaged : ∀ t, s.engine.slots[i].stream = some t → s.engine.slots[i].engages t = true) :
    EngineOk r w ask (handOn i s) := by
  obtain ⟨-, eq⟩ | ⟨t, stream, ⟨waits, eq⟩ | ⟨-, ⟨p, -, handed⟩ | ⟨-, -, eq⟩⟩⟩ := handOn_cases i s
  · rw [eq]; exact h
  · rw [eq]
    obtain ⟨c, rest, parked, same⟩ := parkedWaits_head waits
    refine handToParked_ok h running (fun d hd => ?_) free
    rw [parked] at hd
    cases hd
    exact same ▸ engaged t stream
  · exact handTo_ok h running free (engaged t stream) handed
  · rw [eq]; exact handToHead_ok h running free (engaged t stream)

/-- A party that is handed the slot has taken its mark; nothing else of the slots, the cells and the head's wait has changed. -/
theorem handTo_taken {p : Party} {i : SlotNo} {t : StreamId} {s u : State} (h : handTo p i t s = some u) :
    u.engine.slots = s.engine.slots.set i { s.engine.slots[i] with inUse := true } ∧ u.assembler = s.assembler ∧
      u.engine.dispWait = s.engine.dispWait := by
  unfold handTo at h
  split at h
  · obtain ⟨-, eq⟩ := Option.ite_none_right_eq_some.mp h
    cases eq
    cases p <;> exact ⟨rfl, rfl, rfl⟩
  all_goals cases h

/-- A slot that was given up is taken in that event, or a cell is in assembly on another slot, wherever the head waits on it. -/
theorem handOn_serves {i : SlotNo} {s : State} (h : EngineOk r w ask s) (running : s.engine.mode = .running)
    (reads : s.engine.readWaits = true → s.assembler ≠ []) (wait : (handOn i s).engine.dispWait = some i) :
    (handOn i s).engine.slots[i].inUse = true ∨ (handOn i s).assembler ≠ [] := by
  have taken {u : State} (slots : u.engine.slots = s.engine.slots.set i { s.engine.slots[i] with inUse := true }) :
      u.engine.slots[i].inUse = true := by rw [slots, getElem_set_fin_self]
  have waited (still : s.engine.dispWait = some i) := h.waits.head i still running
  obtain ⟨none, eq⟩ | ⟨t, stream, ⟨waits, eq⟩ | ⟨-, ⟨p, -, handed⟩ | ⟨-, -, eq⟩⟩⟩ := handOn_cases i s
  · obtain ⟨c, rest, -, engaged, -⟩ := waited (eq ▸ wait)
    rw [engages_iff, none] at engaged
    cases engaged.1
  · obtain ⟨c, rest, parked, -⟩ := parkedWaits_head waits
    rw [eq, handToParked, parked]
    simp only
    split
    · exact .inl (taken rfl)
    · next busy => exact .inr (by simpa using busy)
  · exact .inl (taken (handTo_taken handed).1)
  · rw [eq] at wait ⊢
    unfold handToHead at wait ⊢
    split at wait
    · next c rest fifo =>
      split at wait
      · cases wait
      · next blocked =>
        rw [if_neg blocked]
        obtain ⟨d, more, fifo', engaged, -⟩ := waited wait
        rw [fifo] at fifo'
        cases fifo'
        have same : c.stream = t := by
          rw [engages_iff, stream] at engaged
          exact (Option.some.inj engaged.1).symm
        refine .inr fun empty => blocked ⟨wait, same, by rw [empty]; rfl, ?_⟩
        cases read : s.engine.readWaits with
        | false => rfl
        | true => exact absurd empty (reads read)
    · next fifo =>
      obtain ⟨d, more, fifo', -⟩ := waited wait
      rw [fifo] at fifo'
      cases fifo'

/-- Marks that are taken stay, and so does a busy assembler, while a mark is handed on; the head waits on no other slot. -/
theorem handOn_grows (i : SlotNo) (s : State) :
    (∀ j : SlotNo, s.engine.slots[j].inUse = true → (handOn i s).engine.slots[j].inUse = true) ∧
    (s.assembler ≠ [] → (handOn i s).assembler ≠ []) ∧
    (∀ j, (handOn i s).engine.dispWait = some j → s.engine.dispWait = some j) := by
  have marked := mark_used_of_used s.engine i
  have same : (∀ j : SlotNo, s.engine.slots[j].inUse = true → s.engine.slots[j].inUse = true) ∧
    (s.assembler ≠ [] → s.assembler ≠ []) ∧ (∀ j, s.engine.dispWait = some j → s.engine.dispWait = some j) :=
    ⟨fun _ => id, id, fun _ => id⟩
  obtain ⟨-, eq⟩ | ⟨t, -, ⟨-, eq⟩ | ⟨-, ⟨p, -, handed⟩ | ⟨-, -, eq⟩⟩⟩ := handOn_cases i s
  · rw [eq]; exact same
  · rw [eq, handToParked]
    split
    · exact same
    · split
      · exact ⟨marked, fun _ => by simp [takeMark], fun _ => id⟩
      · exact same
  · obtain ⟨slots, assembler, wait⟩ := handTo_taken handed
    rw [slots, assembler, wait]
    exact ⟨marked, id, fun _ => id⟩
  · rw [eq, handToHead]
    split
    · split
      · exact ⟨marked, fun _ => by simp [takeHead, takeMark, fifoRemoval], fun _ k => (nomatch k)⟩
      · exact same
    · exact same

/-! ### Sweeps begin (R87–R89) -/

/-- The values that the init sweep writes are consistent, whatever waits in the FIFO. -/
theorem startInitSweep_ok (s : State) : EngineOk r w ask (startInitSweep s) := by
  have slot (i : SlotNo) : (startInitSweep s).engine.slots[i] = Slot.vacant := Vector.getElem_replicate i.isLt
  refine ⟨⟨fun i => ?_, fun i j t hi => ?_, fun i => ?_, fun f hf => (nomatch hf)⟩,
    ⟨Nat.zero_le _, fun i => ?_, .nil, fun i t held => (nomatch held)⟩,
    ⟨fun f hf => (nomatch hf), fun no => absurd rfl no, fun c hc => (nomatch hc)⟩, ⟨fun k => (nomatch k), fun i k => (nomatch k)⟩,
    ⟨fun _ => ⟨fun i => ?_, rfl, rfl⟩, fun _ => rfl⟩⟩
  · rw [slot]; exact ⟨fun _ => rfl, fun _ => rfl⟩
  · rw [slot] at hi; cases hi
  · rw [slot]; exact ⟨fun no => (by cases no <;> contradiction), fun ⟨f, hf, _⟩ => (nomatch hf)⟩
  · rw [slot]; exact ⟨fun no => (nomatch no), fun ⟨t, held⟩ => (nomatch held)⟩
  · rw [slot]; rfl

/-- With no slot in use no cell is in assembly, and no party holds a slot. -/
theorem MarksFit.none_held {e : Engine} {a : List Assembly} (h : MarksFit e a) (free : anyInUse e = false) : holders e a = [] := by
  refine List.eq_nil_iff_forall_not_mem.mpr fun ⟨i, t⟩ held => ?_
  have used := (h.marks i).mpr ⟨t, held⟩
  have : anyInUse e = true := by
    rw [anyInUse, List.any_eq_true]
    exact ⟨e.slots[i], by rw [Vector.mem_toList_iff, Fin.getElem_fin]; exact Vector.getElem_mem _, used⟩
  rw [free] at this
  cases this

theorem not_inUse_of_anyInUse {e : Engine} (free : anyInUse e = false) (i : SlotNo) : e.slots[i].inUse = false := by
  rw [anyInUse, List.any_eq_false] at free
  simpa using free e.slots[i] (by rw [Vector.mem_toList_iff, Fin.getElem_fin]; exact Vector.getElem_mem _)

theorem discardParked_ok {s : State} (h : EngineOk r w ask s) : EngineOk r w ask (discardParked s) := by
  have emptied : EngineOk r w ask { s with engine.parked := [] } :=
    ⟨h.slots.alike (fun _ => .refl _) rfl, h.marks.alike h.marks.oneCell (fun _ => .refl _) (fun _ => rfl) rfl,
      ⟨fun f hf => ⟨(h.requests.requester f hf).1, (h.requests.requester f hf).2.1, fun _ _ no => (nomatch no)⟩, h.requests.agent,
        fun _ no => (nomatch no)⟩, ⟨h.waits.reads, h.waits.head⟩, ⟨h.modes.quiet, h.modes.reset⟩⟩
  unfold discardParked
  split
  · exact h
  · split
    · exact emptied
    · next i found =>
      obtain ⟨-, state⟩ := engages_iff.mp (engagedSlot_engages found)
      refine setSlot_ok emptied i ⟨rfl, ?_⟩ rfl
      simp only
      split
      · exact .inl rfl
      · exact .inr ⟨state, .inr rfl⟩

theorem discardParked_engine (s : State) :
    (discardParked s).engine.mgmt = s.engine.mgmt ∧ (discardParked s).engine.drainReq = s.engine.drainReq ∧
    (discardParked s).engine.fetch = s.engine.fetch ∧ (discardParked s).assembler = s.assembler ∧
    (∀ j : SlotNo, (discardParked s).engine.slots[j].inUse = s.engine.slots[j].inUse) := by
  unfold discardParked
  split
  · exact ⟨rfl, rfl, rfl, rfl, fun _ => rfl⟩
  · split
    · exact ⟨rfl, rfl, rfl, rfl, fun _ => rfl⟩
    · next i _ =>
      refine ⟨rfl, rfl, rfl, rfl, fun j => ?_⟩
      simp only [setSlot, getElem_set_fin]
      split
      · next same => subst same; rfl
      · rfl

/-- The bus-reset sweep begins where nothing is in progress. -/
theorem startBusSweep_ok {s : State} (h : EngineOk r w ask s) (free : anyInUse s.engine = false) (idle : s.engine.fetch = none)
    {r' : Prop} {w' : SlotNo → Prop} : EngineOk r' w' ask (startBusSweep s) := by
  have d := discardParked_ok h
  obtain ⟨mgmt, drain, fetch, assembler, used⟩ := discardParked_engine s
  have reads : (discardParked s).engine.readWaits = false := by
    cases k : (discardParked s).engine.readWaits with
    | false => rfl
    | true =>
      obtain ⟨-, f, hf, -⟩ := d.waits.reads k
      rw [fetch, idle] at hf
      cases hf
  refine ⟨d.slots.alike (fun _ => .refl _) rfl, d.marks.alike d.marks.oneCell (fun _ => .refl _) (fun _ => rfl) rfl,
    ⟨d.requests.requester, d.requests.agent, d.requests.parked⟩, ⟨fun k => ?_, fun _ k => (nomatch k)⟩,
    ⟨fun _ => ⟨fun i => (used i).trans (not_inUse_of_anyInUse free i), fetch.trans idle, rfl⟩, ?_⟩⟩
  · have : (discardParked s).engine.readWaits = true := k
    rw [reads] at this
    cases this
  · rintro (no | ⟨n, no⟩) <;> cases no

theorem EngineOk.of_not_running {s : State} (h : EngineOk r w ask s) (mode : s.engine.mode ≠ .running) {r' : Prop}
    {w' : SlotNo → Prop} (reads : r' → s.engine.readWaits = true → s.assembler ≠ []) : EngineOk r' w' ask s :=
  ⟨h.slots, h.marks, h.requests, h.waits.of_not_running mode (fun _ => .refl _) rfl rfl reads, h.modes⟩

theorem leaveSweepWait_ok {s : State} (h : EngineOk r w ask s) : EngineOk r w ask (leaveSweepWait s) := by
  unfold leaveSweepWait
  split
  · split
    · next ended =>
      simp only [Bool.and_eq_true, Bool.not_eq_true', Option.isNone_iff_eq_none] at ended
      split
      · exact startInitSweep_ok s
      · exact startBusSweep_ok h ended.1 ended.2
    · exact h
  all_goals exact h

/-! ### The end of an operation (R75, R87) -/

/-- The state in which a mark has been given up and not yet handed on. -/
def givenUp (i : SlotNo) (wrote : Bool) (s : State) : State :=
  setSlot i { s.engine.slots[i] with inUse := false, state := if wrote then .dirty else s.engine.slots[i].state } s

theorem release_eq (i : SlotNo) (wrote : Bool) (s : State) : release i wrote s =
    match s.engine.mode with
    | .running => handOn i (givenUp i wrote s)
    | .sweepWait _ => leaveSweepWait (givenUp i wrote s)
    | .initSweep | .busSweep _ _ => givenUp i wrote s := rfl

theorem givenUp_used (i : SlotNo) (wrote : Bool) (s : State) (j : SlotNo) :
    (givenUp i wrote s).engine.slots[j].inUse = if i = j then false else s.engine.slots[j].inUse := by
  simp only [givenUp, setSlot, getElem_set_fin]
  split <;> rfl

/-- The holder of slot `i`, for stream `t`, has ended its operation in `s`, which left `u` with the slots as they were, but for copies and
CLEAN or DIRTY; the holder's mark is still to be given up. -/
structure EndsOperation (i : SlotNo) (t : StreamId) (s u : State) : Prop where
  holder : (holders s.engine s.assembler).Perm ((i, t) :: holders u.engine u.assembler)
  one : u.assembler.length ≤ 1
  alike : ∀ j : SlotNo, SlotAlike s.engine.slots[j] u.engine.slots[j]
  used : ∀ j : SlotNo, u.engine.slots[j].inUse = s.engine.slots[j].inUse
  fetch : u.engine.fetch = s.engine.fetch
  parked : u.engine.parked = s.engine.parked
  reads : u.engine.readWaits = s.engine.readWaits
  mode : u.engine.mode = s.engine.mode
  wait : u.engine.dispWait = s.engine.dispWait
  fifo : u.ingress.fifo = s.ingress.fifo
  mgmt : u.engine.mgmt = s.engine.mgmt ∨ (u.engine.mgmt = .idle ∧ ∃ v j, s.engine.mgmt = .holds v j)
  drain : u.engine.drainReq = s.engine.drainReq ∨ ∃ v j, s.engine.drainReq = .holds v j

/-- The mark is given up; the waits that the slot, and the assembler, served are still to be served. -/
theorem givenUp_ok {s u : State} (h : EngineOk r w ask s) {i : SlotNo} {t : StreamId} (wrote : Bool) (k : EndsOperation i t s u) :
    EngineOk (r ∧ u.assembler = s.assembler) (fun j => w j ∧ j ≠ i ∧ u.assembler = s.assembler) ask (givenUp i wrote u) := by
  obtain ⟨holder, one, alike, used, fetch, parked, reads, mode, wait, fifo, mgmt, drain⟩ := k
  have engaged : s.engine.slots[i].engages t = true := h.marks.engaged i t (holder.mem_iff.mpr List.mem_cons_self)
  obtain ⟨-, state⟩ := engages_iff.mp engaged
  have alike (j : SlotNo) : SlotAlike s.engine.slots[j] (givenUp i wrote u).engine.slots[j] := by
    simp only [givenUp, setSlot, getElem_set_fin]
    split
    · next same =>
      subst same
      refine ⟨(alike i).stream, .inr ⟨state, ?_⟩⟩
      cases wrote with
      | true => exact .inr rfl
      | false => exact (engages_iff.mp (((alike i).engages t).mpr engaged)).2
    · exact alike j
  have used (j : SlotNo) : (givenUp i wrote u).engine.slots[j].inUse = if i = j then false else s.engine.slots[j].inUse := by
    rw [givenUp_used, used]
  have mgmtHeld : heldBy s.engine.mgmt = [] → heldBy u.engine.mgmt = [] := by
    obtain same | ⟨idle, -⟩ := mgmt
    · rw [same]; exact id
    · rw [idle]; exact fun _ => rfl
  refine ⟨h.slots.alike alike fetch, h.marks.end one alike used holder,
    ⟨fun f hf => ?_, fun asks => h.requests.agent ?_, ?_⟩, ⟨fun k => ?_, fun j k run => ?_⟩, ⟨fun k => ?_, fun k => ?_⟩⟩
  · obtain ⟨m, d, p⟩ := h.requests.requester f (fetch ▸ hf)
    refine ⟨fun party => ?_, fun party => ?_, fun party c hc => p party c (parked ▸ hc)⟩
    · obtain same | ⟨-, v, j, holds⟩ := mgmt
      · exact same.trans (m party)
      · rw [m party] at holds; cases holds
    · obtain same | ⟨v, j, holds⟩ := drain
      · exact same.trans (d party)
      · rw [d party] at holds; cases holds
  · obtain same | ⟨idle, -⟩ := mgmt
    · exact same ▸ asks
    · exact absurd idle asks
  · rw [show (givenUp i wrote u).engine.parked = s.engine.parked from parked]
    exact h.requests.parked
  · obtain ⟨busy, f, hf, party, reading⟩ := h.waits.reads (reads ▸ k)
    exact ⟨fun ⟨r, same⟩ => (show u.assembler ≠ [] from same ▸ busy r), f, fetch.trans hf, party, (alike _).fetching.mpr reading⟩
  · obtain ⟨c, rest, queue, engaged, served⟩ := h.waits.head j (wait ▸ k) (mode ▸ run)
    refine ⟨c, rest, fifo.trans queue, ((alike j).engages _).mpr engaged, fun ⟨w, other, same⟩ => ?_⟩
    rw [used, if_neg (Ne.symm other)]
    exact (served w).imp_right fun busy => (show u.assembler ≠ [] from same ▸ busy)
  · obtain ⟨free, idle, none⟩ := h.modes.quiet (mode ▸ k)
    refine ⟨fun j => ?_, fetch.trans idle, wait.trans none⟩
    rw [used, free, ite_self]
  · exact mgmtHeld (h.modes.reset (mode ▸ k))

theorem EngineOk.served {s : State} (h : EngineOk r w ask s) {r' : Prop} {w' : SlotNo → Prop}
    (reads : r' → s.engine.readWaits = true → s.assembler ≠ [])
    (head : ∀ i, w' i → s.engine.mode = .running → s.engine.dispWait = some i → s.engine.slots[i].inUse = true ∨ s.assembler ≠ []) :
    EngineOk r' w' ask s :=
  ⟨h.slots, h.marks, h.requests, ⟨fun k => ⟨fun r' => reads r' k, (h.waits.reads k).2⟩, fun i k run => by
    obtain ⟨c, rest, queue, engaged, -⟩ := h.waits.head i k run
    exact ⟨c, rest, queue, engaged, fun w' => head i w' run k⟩⟩, h.modes⟩

theorem givenUp_engaged {s u : State} (h : EngineOk r w ask s) {i : SlotNo} {t : StreamId} (wrote : Bool)
    (k : EndsOperation i t s u) (v : StreamId) (stream : (givenUp i wrote u).engine.slots[i].stream = some v) :
    (givenUp i wrote u).engine.slots[i].engages v = true := by
  have engaged := ((k.alike i).engages t).mpr (h.marks.engaged i t (k.holder.mem_iff.mpr List.mem_cons_self))
  obtain ⟨-, state⟩ := engages_iff.mp engaged
  rw [engages_iff]
  refine ⟨stream, ?_⟩
  simp only [givenUp, setSlot, getElem_set_fin_self]
  cases wrote with
  | true => exact .inr rfl
  | false => exact state

/-- The mark is released, in any mode: what the assembler and the released slot served is still to be served. -/
theorem release_ok_of_ends {s u : State} (h : EngineOk r w ask s) {i : SlotNo} {t : StreamId} (wrote : Bool)
    (k : EndsOperation i t s u) :
    EngineOk (r ∧ u.assembler = s.assembler) (fun j => w j ∧ j ≠ i ∧ u.assembler = s.assembler) ask (release i wrote u) := by
  have given := givenUp_ok h wrote k
  have free : (givenUp i wrote u).engine.slots[i].inUse = false := by rw [givenUp_used, if_pos rfl]
  rw [release_eq]
  split
  · next running => exact handOn_ok given running free (givenUp_engaged h wrote k)
  · exact leaveSweepWait_ok given
  all_goals exact given

/-- The agent or the drain service releases its slot: every wait is served again (R75). -/
theorem release_ok {s u : State} (h : EngineOk True (fun _ => True) ask s) {i : SlotNo} {t : StreamId} (wrote : Bool)
    (k : EndsOperation i t s u) (cells : u.assembler = s.assembler) :
    EngineOk True (fun _ => True) ask (release i wrote u) := by
  have released := (release_ok_of_ends h wrote k).imp (r' := True) (w' := fun j => j ≠ i) (fun _ => ⟨trivial, cells⟩)
    (fun j other => ⟨trivial, other, cells⟩) id
  have given := (givenUp_ok h wrote k).imp (r' := True) (w' := fun j => j ≠ i) (fun _ => ⟨trivial, cells⟩)
    (fun j other => ⟨trivial, other, cells⟩) id
  refine released.served (fun _ waits => (released.waits.reads waits).1 trivial) fun j _ run wait => ?_
  by_cases same : j = i
  · subst same
    have mode : u.engine.mode = .running := by
      cases m : u.engine.mode with
      | running => rfl
      | sweepWait sweep =>
        -- a sweep that begins withdraws the wait of the head, and one that is pending is not RUNNING
        rw [release_eq, m] at run
        unfold leaveSweepWait at run
        have still : (givenUp j wrote u).engine.mode = .sweepWait sweep := m
        rw [still] at run
        simp only at run
        split at run
        · cases sweep <;> cases run
        · rw [still] at run; cases run
      | initSweep | busSweep =>
        rw [release_eq, m] at run
        exact absurd (show u.engine.mode = .running from run) (by rw [m]; exact fun no => nomatch no)
    have eq : release j wrote u = handOn j (givenUp j wrote u) := by rw [release_eq, mode]
    rw [eq] at wait ⊢
    exact handOn_serves given mode (fun waits => (given.waits.reads waits).1 trivial) wait
  · obtain ⟨c, rest, -, -, served⟩ := released.waits.head j wait run
    exact served same

/-! ### Fetches (R76) -/

/-- A read has ended: its slot is CLEAN and the unit IDLE. -/
theorem readEnded_ok {s : State} (h : EngineOk r w ask s) {f : Fetch} (fetch : s.engine.fetch = some f)
    (reading : s.engine.slots[f.slot].state = .fetching) {r' : Prop} :
    EngineOk r' w ask (setSlot f.slot { s.engine.slots[f.slot] with state := .clean, copy := s.engine.store[f.stream] }
      { s with engine.fetch := none, engine.readWaits := false }) := by
  obtain ⟨stream, only⟩ := h.slots.fetched f fetch
  have own := stream reading
  have entry (j : SlotNo) : (s.engine.slots.set f.slot
      { s.engine.slots[f.slot] with state := .clean, copy := s.engine.store[f.stream] })[j] =
      if f.slot = j then { s.engine.slots[f.slot] with state := .clean, copy := s.engine.store[f.stream] }
      else s.engine.slots[j] := getElem_set_fin _ _ _ _
  have streams (j : SlotNo) : (s.engine.slots.set f.slot
      { s.engine.slots[f.slot] with state := .clean, copy := s.engine.store[f.stream] })[j].stream = s.engine.slots[j].stream := by
    rw [entry]
    split
    · next same => subst same; rfl
    · rfl
  have used (j : SlotNo) : (s.engine.slots.set f.slot
      { s.engine.slots[f.slot] with state := .clean, copy := s.engine.store[f.stream] })[j].inUse = s.engine.slots[j].inUse := by
    rw [entry]
    split
    · next same => subst same; rfl
    · rfl
  have notHeld {j : SlotNo} {t : StreamId} (engaged : s.engine.slots[j].engages t = true) : f.slot ≠ j := by
    rintro rfl
    obtain ⟨-, state⟩ := engages_iff.mp engaged
    rw [reading] at state
    exact absurd state (by decide)
  refine ⟨⟨fun j => ?_, fun j k t hj hk => ?_, fun j => ?_, fun g hg => (nomatch hg)⟩,
    ⟨h.marks.oneCell, fun j => ?_, h.marks.apart, fun j t held => ?_⟩,
    ⟨fun g hg => (nomatch hg), h.requests.agent, h.requests.parked⟩, ⟨fun k => (nomatch k), fun j k run => ?_⟩,
    ⟨fun k => ?_, h.modes.reset⟩⟩
  · simp only [setSlot]
    by_cases same : f.slot = j
    · rw [entry, if_pos same]
      simp only
      rw [own]
      exact ⟨fun no => (by cases no), fun no => (by cases no)⟩
    · rw [entry, if_neg same]; exact h.slots.vacant j
  · exact h.slots.distinct j k t (streams j ▸ hj) (streams k ▸ hk)
  · simp only [setSlot]
    rw [entry]
    by_cases same : f.slot = j
    · rw [if_pos same]
      exact ⟨fun no => (by cases no <;> contradiction), fun ⟨g, hg, _⟩ => (by cases hg)⟩
    · rw [if_neg same]
      refine ⟨fun busy => ?_, fun ⟨g, hg, _⟩ => (by cases hg)⟩
      obtain ⟨g, hg, slot⟩ := (h.slots.busy j).mp busy
      rw [fetch] at hg
      cases hg
      exact absurd slot same
  · simp only [setSlot]
    rw [used]
    exact h.marks.marks j
  · have engaged := h.marks.engaged j t held
    simp only [setSlot]
    rw [entry, if_neg (notHeld engaged)]
    exact engaged
  · obtain ⟨c, rest, queue, engaged, served⟩ := h.waits.head j k run
    refine ⟨c, rest, queue, ?_⟩
    simp only [setSlot]
    rw [entry, if_neg (notHeld engaged)]
    exact ⟨engaged, served⟩
  · obtain ⟨-, idle, -⟩ := h.modes.quiet k
    rw [fetch] at idle
    cases idle

theorem completeRead_ok {s : State} (h : EngineOk r w ask s) {f : Fetch} (fetch : s.engine.fetch = some f)
    (reading : s.engine.slots[f.slot].state = .fetching) {r' : Prop} : EngineOk r' w ask (completeRead f s) := by
  obtain ⟨stream, -⟩ := h.slots.fetched f fetch
  obtain ⟨mgmt, drain, dispatcher⟩ := h.requests.requester f fetch
  have ended := readEnded_ok h fetch reading (r' := r')
  unfold completeRead
  refine leaveSweepWait_ok (startNext_ok ?_)
  generalize made : setSlot f.slot { s.engine.slots[f.slot] with state := .clean, copy := s.engine.store[f.stream] }
    { s with engine.fetch := none, engine.readWaits := false } = u at ended
  have slot : u.engine.slots[f.slot] = { s.engine.slots[f.slot] with state := .clean, copy := s.engine.store[f.stream] } := by
    rw [← made]; exact getElem_set_fin_self _ _ _
  have free : u.engine.slots[f.slot].inUse = false := by
    rw [slot]; exact h.marks.free_of_not_engaged (by rw [reading]; decide)
  have engaged : u.engine.slots[f.slot].engages f.stream = true := by
    rw [engages_iff, slot]; exact ⟨stream reading, .inl rfl⟩
  have idle : u.engine.fetch = none := by rw [← made]; rfl
  have requests : u.engine.mgmt = s.engine.mgmt ∧ u.engine.drainReq = s.engine.drainReq ∧ u.engine.parked = s.engine.parked := by
    rw [← made]; exact ⟨rfl, rfl, rfl⟩
  obtain ⟨sameMgmt, sameDrain, sameParked⟩ := requests
  have waits (real : f.party ≠ .dispatcher) : reqOf f.party u = .fetching f.stream := by
    cases party : f.party with
    | dispatcher => exact absurd party real
    | management => exact sameMgmt.trans (mgmt party)
    | drain => exact sameDrain.trans (drain party)
  have asks (party : f.party = .management) : ask := h.requests.agent (by rw [mgmt party]; exact fun no => nomatch no)
  unfold handRequester
  split
  · next running =>
    split
    · next party =>
      have req := waits (by rw [party]; decide)
      rw [party] at req
      exact takeMark_ok ended running .management (by decide) (by rw [req]; rfl) (fun _ => asks party)
        (fun g hg => by rw [idle] at hg; cases hg) engaged free
    · next party =>
      have req := waits (by rw [party]; decide)
      rw [party] at req
      exact takeMark_ok ended running .drain (by decide) (by rw [req]; rfl) (fun no => nomatch no)
        (fun g hg => by rw [idle] at hg; cases hg) engaged free
    · next party =>
      refine handToParked_ok ended running (fun c hc => ?_) free
      rw [sameParked] at hc
      exact (dispatcher party c (List.mem_of_mem_head? hc)) ▸ engaged
  all_goals
    by_cases real : f.party = .dispatcher
    · rw [real]; exact ended
    · exact setReq_ok ended f.party _ (by rw [waits real]; rfl) rfl (fun party _ => asks party)
        fun g hg => by rw [idle] at hg; cases hg

/-- A read for the dispatcher is at its end and waits for the assembler (notes/assumptions/20.md). -/
theorem readWaits_ok {s : State} (h : EngineOk r w ask s) {f : Fetch} (fetch : s.engine.fetch = some f)
    (reading : s.engine.slots[f.slot].state = .fetching) (waits : readMustWait f s = true) {r' : Prop} :
    EngineOk r' w ask { s with engine.readWaits := true } := by
  simp only [readMustWait, Bool.and_eq_true, beq_iff_eq, Bool.not_eq_true'] at waits
  exact ⟨h.slots.alike (fun _ => .refl _) rfl, h.marks.alike h.marks.oneCell (fun _ => .refl _) (fun _ => rfl) rfl,
    ⟨h.requests.requester, h.requests.agent, h.requests.parked⟩,
    ⟨fun _ => ⟨fun _ empty => by rw [empty] at waits; exact absurd waits.2 (by decide), f, fetch, waits.1.2, reading⟩,
      h.waits.head⟩, ⟨h.modes.quiet, h.modes.reset⟩⟩

theorem fetchDone_of_reading {s : State} {f : Fetch} (fetch : s.engine.fetch = some f)
    (reading : s.engine.slots[f.slot].state = .fetching) :
    fetchDone s = if readMustWait f s then { s with engine.readWaits := true } else completeRead f s := by
  rw [fetchDone, fetch]
  simp only
  rw [reading]

theorem fetchDone_ok {s : State} (h : EngineOk r w ask s) : EngineOk r w ask (fetchDone s) := by
  unfold fetchDone
  split
  · exact h
  · next f fetch =>
    split
    · next reading =>
      split
      · next waits => exact readWaits_ok h fetch reading waits
      · exact completeRead_ok h fetch reading
    all_goals exact h

/-- After an assembly a read that waited completes, or waits for the next cell in assembly. -/
theorem resumeRead_ok {s : State} (h : EngineOk r w ask s) : EngineOk True w ask (resumeRead s) := by
  unfold resumeRead
  split
  · next waits =>
    obtain ⟨-, f, fetch, -, reading⟩ := h.waits.reads waits
    rw [fetchDone_of_reading fetch reading]
    split
    · next busy => exact readWaits_ok h fetch reading busy
    · exact completeRead_ok h fetch reading
  · next noRead =>
    exact ⟨h.slots, h.marks, h.requests, ⟨fun k => absurd k noRead, h.waits.head⟩, h.modes⟩

/-- The free assembler serves the head: no wait is left unserved. -/
theorem serveHead_ok {s : State} (h : EngineOk True w ask s) : EngineOk True (fun _ => True) ask (serveHead s) := by
  have reads := fun waits => (h.waits.reads waits).1 trivial
  unfold serveHead
  split
  · next i running wait =>
    obtain ⟨c, rest, fifo, engaged, -⟩ := h.waits.head i wait running
    have stream := (engages_iff.mp engaged).1
    have here {P : Prop} (used : s.engine.slots[i].inUse = true ∨ s.assembler ≠ []) : EngineOk True (fun _ => True) ask s := by
      refine h.served (fun _ => reads) fun j _ _ k => ?_
      rw [wait] at k
      cases k
      exact used
    rw [stream]
    simp only
    split
    · next used => exact here (P := True) (.inl used)
    · next free =>
      simp only [handToHead, fifo]
      split
      · next taken =>
        have free : s.engine.slots[i].inUse = false := by simpa using free
        have all := takeHead_ok h running (List.isEmpty_iff.mp taken.2.2.1) engaged free
        exact all.served (fun _ k => (all.waits.reads k).1 trivial) fun j _ _ k => (nomatch k)
      · next blocked =>
        refine here (P := True) (.inr fun empty => blocked ⟨wait, trivial, by rw [empty]; rfl, ?_⟩)
        cases read : s.engine.readWaits with
        | false => rfl
        | true => exact absurd empty (reads read)
  · next quiet => exact h.served (fun _ => reads) fun j _ run k => absurd k (quiet j run)

theorem writeBackDone_ok {s : State} (h : EngineOk r w ask s) : EngineOk r w ask (writeBackDone s) := by
  unfold writeBackDone
  split
  · exact h
  · next f fetch =>
    simp only
    split
    · next old evicting stream =>
      obtain ⟨-, only⟩ := h.slots.fetched f fetch
      have entry (j : SlotNo) : (s.engine.slots.set f.slot
          { s.engine.slots[f.slot] with state := .fetching, stream := some f.stream })[j] =
          if f.slot = j then { s.engine.slots[f.slot] with state := .fetching, stream := some f.stream }
          else s.engine.slots[j] := getElem_set_fin _ _ _ _
      have notHeld {j : SlotNo} {t : StreamId} (engaged : s.engine.slots[j].engages t = true) : f.slot ≠ j := by
        rintro rfl
        obtain ⟨-, state⟩ := engages_iff.mp engaged
        rw [evicting] at state
        exact absurd state (by decide)
      -- no slot carries the stream to be read: the one that is being written back is EVICTING
      have absent (j : SlotNo) (other : f.slot ≠ j) : s.engine.slots[j].stream ≠ some f.stream :=
        fun carries => other (only j carries).1.symm
      refine ⟨⟨fun j => ?_, fun j k t hj hk => ?_, fun j => ?_, fun g hg => ?_⟩,
        ⟨h.marks.oneCell, fun j => ?_, h.marks.apart, fun j t held => ?_⟩,
        ⟨h.requests.requester, h.requests.agent, h.requests.parked⟩, ⟨fun k => ?_, fun j k run => ?_⟩,
        ⟨fun k => ?_, h.modes.reset⟩⟩ <;> simp only [setSlot, setStore] at *
      · rw [entry]
        split
        · exact ⟨fun no => (by cases no), fun no => (by cases no)⟩
        · exact h.slots.vacant j
      · rw [entry] at hj hk
        by_cases sj : f.slot = j <;> by_cases sk : f.slot = k
        · exact sj.symm.trans sk
        · rw [if_pos sj] at hj
          rw [if_neg sk] at hk
          cases hj
          exact absurd hk (absent k sk)
        · rw [if_neg sj] at hj
          rw [if_pos sk] at hk
          cases hk
          exact absurd hj (absent j sj)
        · rw [if_neg sj] at hj
          rw [if_neg sk] at hk
          exact h.slots.distinct j k t hj hk
      · rw [entry]
        split
        · next same => exact ⟨fun _ => ⟨f, fetch, same⟩, fun _ => .inr rfl⟩
        · exact h.slots.busy j
      · rw [fetch] at hg
        cases hg
        refine ⟨fun _ => by rw [entry, if_pos rfl], fun j carries => ?_⟩
        rw [entry] at carries ⊢
        by_cases same : f.slot = j
        · rw [if_pos same]; exact ⟨same.symm, rfl⟩
        · rw [if_neg same] at carries
          exact absurd carries (absent j same)
      · rw [entry]
        split
        · next same => subst same; exact h.marks.marks f.slot
        · exact h.marks.marks j
      · have engaged := h.marks.engaged j t held
        rw [entry, if_neg (notHeld engaged)]
        exact engaged
      · obtain ⟨-, g, hg, -, reading⟩ := h.waits.reads k
        rw [fetch] at hg
        cases hg
        rw [evicting] at reading
        cases reading
      · obtain ⟨c, rest, queue, engaged, served⟩ := h.waits.head j k run
        refine ⟨c, rest, queue, ?_⟩
        rw [entry, if_neg (notHeld engaged)]
        exact ⟨engaged, served⟩
      · obtain ⟨-, idle, -⟩ := h.modes.quiet k
        rw [fetch] at idle
        cases idle
    · exact h

end

end Sys2Proof.Machine
end

section
/-!
SUPPORT. Every event of the part keeps the context engine consistent: sweeps, agent, assembly, frames and resets (R75, R76, R85–R91,
R134, R140, R144, R151, R167–R172).
-/
namespace Sys2Proof.Machine

open Sys2Proof

/-- The engine is consistent, every wait is served, and the agent asks only if it may. -/
abbrev Served (ask : Prop) (s : State) : Prop := EngineOk True (fun _ => True) ask s

section
variable {r : Prop} {w : SlotNo → Prop} {ask : Prop}

/-! ### Sweeps (R87–R91) -/

/-- A sweep is pending or running after the change of mode: cells may leave the FIFO, and cells in assembly may be overtaken. -/
theorem EngineOk.sweep {s u : State} (h : EngineOk r w ask s) (engine : u.engine = { s.engine with mode := u.engine.mode })
    (cells : u.assembler.map (fun a => (a.slot, a.cell.stream)) = s.assembler.map (fun a => (a.slot, a.cell.stream)))
    (mode : u.engine.mode ≠ .running) (sweeping : Sweeping u → Sweeping s)
    (reset : ResetAwaitsSweep u → heldBy s.engine.mgmt = []) : EngineOk r w ask u := by
  have length : u.assembler.length = s.assembler.length := by simpa using congrArg List.length cells
  have busy (some : s.assembler ≠ []) : u.assembler ≠ [] := fun none => some (List.eq_nil_of_length_eq_zero (by rw [← length, none]; rfl))
  have holder : holders u.engine u.assembler = holders s.engine s.assembler := by rw [holders, cells, engine]; rfl
  have slots : u.engine.slots = s.engine.slots := by rw [engine]
  have fetch : u.engine.fetch = s.engine.fetch := by rw [engine]
  have mgmt : u.engine.mgmt = s.engine.mgmt := by rw [engine]
  have drain : u.engine.drainReq = s.engine.drainReq := by rw [engine]
  have parked : u.engine.parked = s.engine.parked := by rw [engine]
  have alike (i : SlotNo) : SlotAlike s.engine.slots[i] u.engine.slots[i] := by rw [slots]; exact .refl _
  refine ⟨h.slots.alike alike fetch, h.marks.alike (length ▸ h.marks.oneCell) alike (fun i => by rw [slots]) holder,
    ⟨fun f hf => ?_, fun asks => h.requests.agent (mgmt ▸ asks), by rw [parked]; exact h.requests.parked⟩,
    h.waits.of_not_running mode alike fetch (by rw [engine]) fun r' waits => busy ((h.waits.reads waits).1 r'),
    ⟨fun k => ?_, fun k => ?_⟩⟩
  · rw [mgmt, drain, parked]; exact h.requests.requester f (fetch ▸ hf)
  · obtain ⟨free, idle, none⟩ := h.modes.quiet (sweeping k)
    exact ⟨fun i => by rw [slots]; exact free i, fetch.trans idle, by rw [engine]; exact none⟩
  · rw [mgmt]; exact reset k

/-- A sweep that is over leaves an engine that runs. -/
theorem EngineOk.run {s u : State} (h : EngineOk r w ask s) (sweeping : Sweeping s)
    (engine : u.engine = { s.engine with mode := .running }) (assembler : u.assembler = s.assembler) : EngineOk r w ask u := by
  obtain ⟨slots, marks, requests, waits, modes⟩ := h
  obtain ⟨-, -, none⟩ := modes.quiet sweeping
  refine ⟨?_, ?_, ?_, ⟨?_, fun i k => ?_⟩, .of_running (by rw [engine])⟩
  · rw [engine]; exact slots.alike (fun _ => .refl _) rfl
  · rw [engine, assembler]; exact marks.alike marks.oneCell (fun _ => .refl _) (fun _ => rfl) rfl
  · rw [engine]; exact ⟨requests.requester, requests.agent, requests.parked⟩
  · rw [engine, assembler]; exact waits.reads
  · rw [engine] at k
    have k : s.engine.dispWait = some i := k
    rw [none] at k
    cases k

/-- A sweep is asked for; an init sweep only where the agent holds no slot, as at a FULL reset. -/
theorem requestSweep_ok (k : SweepKind) {s v : State} (h : EngineOk r w ask s) (engine : v.engine = s.engine)
    (cells : v.assembler.map (fun a => (a.slot, a.cell.stream)) = s.assembler.map (fun a => (a.slot, a.cell.stream)))
    (free : k = .init → heldBy s.engine.mgmt = []) : EngineOk r w ask (requestSweep k v) := by
  unfold requestSweep
  split
  · next mode =>
    refine leaveSweepWait_ok (h.sweep (by rw [← engine]) cells (fun no => nomatch no) (fun no => ?_) fun due => ?_)
    · obtain no | ⟨n, b, no⟩ := no <;> cases no
    · obtain due | ⟨n, no⟩ := due
      · cases due; exact free rfl
      · cases no
  · refine h.sweep (by rw [← engine]) cells (fun no => nomatch no) (fun no => ?_) fun _ => free rfl
    obtain no | ⟨n, b, no⟩ := no <;> cases no
  · next n b mode =>
    refine h.sweep (by rw [← engine]) cells (fun no => nomatch no) (fun _ => .inr ⟨n, b, ?_⟩) fun _ => free rfl
    rw [← engine]; exact mode
  all_goals
    have mode : v.engine.mode ≠ .running := by simp_all
    have same : v.engine = { s.engine with mode := v.engine.mode } := by rw [engine]
    exact h.sweep same cells mode (by rw [Sweeping, Sweeping, engine]; exact id) fun due => by
      rw [ResetAwaitsSweep, engine] at due; exact h.modes.reset due

theorem sweepStream_ok (t : StreamId) {s : State} (h : EngineOk r w ask s) : EngineOk r w ask (sweepStream t s) := by
  unfold sweepStream
  split
  · next i found =>
    obtain ⟨-, state⟩ := engages_iff.mp (engagedSlot_engages found)
    have swept := sweepCtx_block t { s with engine.lru := touch i s.engine.lru } s.engine.slots[i].copy
    have same : (sweepCtx t { s with engine.lru := touch i s.engine.lru } s.engine.slots[i].copy).1.engine.slots[i] =
        s.engine.slots[i] := by rw [swept.engine]
    refine setSlot_ok ((h.unseen (touch i s.engine.lru) s.engine.store s.engine.dispReq s.engine.drainList).block swept) i ?_ ?_
    · rw [same]
      refine ⟨rfl, ?_⟩
      simp only
      split
      · exact .inr ⟨state, .inr rfl⟩
      · exact .inl rfl
    · rw [same]
  · have swept := h.block (sweepCtx_block t s s.engine.store[t])
    exact swept.unseen _ _ _ _

theorem sweepStream_mode (t : StreamId) (s : State) : (sweepStream t s).engine.mode = s.engine.mode := by
  unfold sweepStream
  split
  · next i _ =>
    have swept := (sweepCtx_block t { s with engine.lru := touch i s.engine.lru } s.engine.slots[i].copy).engine
    simp only [setSlot, swept]
  · have swept := (sweepCtx_block t s s.engine.store[t]).engine
    simp only [setStore, swept]

theorem sweepStep_ok {s : State} (h : EngineOk r w ask s) : EngineOk r w ask (sweepStep s) := by
  unfold sweepStep
  split
  · next n mode =>
    have swept := sweepStream_ok n h
    have sweeping : Sweeping (sweepStream n s) := .inr ⟨n, false, (sweepStream_mode n s).trans mode⟩
    simp only
    split
    · refine swept.sweep rfl rfl (fun no => nomatch no) (fun _ => sweeping) fun due => ?_
      obtain no | ⟨m, no⟩ := due <;> cases no
    · exact serveWaiting_ok (swept.run sweeping rfl rfl) rfl
  · exact startInitSweep_ok s
  all_goals exact h

theorem initSweepDone_ok {s : State} (h : EngineOk r w ask s) : EngineOk r w ask (initSweepDone s) := by
  unfold initSweepDone
  split
  · next mode => exact h.run (.inl mode) rfl rfl
  all_goals exact h

theorem busReset_ok {s : State} (h : EngineOk r w ask s) : EngineOk r w ask (busReset s) := by
  unfold busReset
  refine EngineOk.block (EngineOk.block (requestSweep_ok .bus h ?_ ?_ fun no => nomatch no) (count_block _ _))
    (requestNotice_block _ _ _) <;> split <;> rfl

/-! ### Ends of operations (R75, R85, R86) -/

/-- A slot whose copy was written is alike, and so is its mark. -/
theorem alike_of_copyWritten {s u : State} {i : SlotNo} {x : Ctx} (slots : u.engine.slots = (setCopy i x s).engine.slots) :
    (∀ j : SlotNo, SlotAlike s.engine.slots[j] u.engine.slots[j]) ∧
      ∀ j : SlotNo, u.engine.slots[j].inUse = s.engine.slots[j].inUse := by
  have slot (j : SlotNo) : u.engine.slots[j] = if i = j then { s.engine.slots[i] with copy := x } else s.engine.slots[j] := by
    rw [slots]; exact getElem_set_fin _ _ _ _
  refine ⟨fun j => ?_, fun j => ?_⟩ <;> rw [slot] <;> split
  · next same => subst same; exact ⟨rfl, .inl rfl⟩
  · exact .refl _
  · next same => subst same; rfl
  · rfl

/-- The agent ends its operation, with the reply if there is one, and releases its slot. -/
theorem agentEnds_ok {s u : State} (h : Served ask s) {t : StreamId} {i : SlotNo} (wrote : Bool) (x : Ctx)
    (holds : s.engine.mgmt = .holds t i) (engine : u.engine = { (setCopy i x s).engine with mgmt := .idle })
    (assembler : u.assembler = s.assembler) (fifo : u.ingress.fifo = s.ingress.fifo) : Served ask (release i wrote u) := by
  obtain ⟨alike, used⟩ := alike_of_copyWritten (s := s) (u := u) (i := i) (x := x) (by rw [engine])
  refine release_ok h (t := t) wrote ⟨?_, assembler ▸ h.marks.oneCell, alike, used, ?_, ?_, ?_, ?_, ?_, fifo, .inr ?_, .inl ?_⟩ assembler
  · rw [assembler, engine]; exact holders_mgmt s.assembler holds rfl rfl
  · rw [engine]; rfl
  · rw [engine]; rfl
  · rw [engine]; rfl
  · rw [engine]; rfl
  · rw [engine]; rfl
  · rw [engine]; exact ⟨rfl, t, i, holds⟩
  · rw [engine]; rfl

/-- An agent that asks nothing asks nothing while a mark is handed on. -/
theorem handOn_mgmt_idle (i : SlotNo) {s : State} (idle : s.engine.mgmt = .idle) : (handOn i s).engine.mgmt = .idle := by
  obtain ⟨-, eq⟩ | ⟨t, -, ⟨-, eq⟩ | ⟨-, ⟨p, -, handed⟩ | ⟨-, -, eq⟩⟩⟩ := handOn_cases i s
  · rw [eq]; exact idle
  · rw [eq, handToParked]
    split
    · exact idle
    · split <;> exact idle
  · unfold handTo at handed
    split at handed
    · next u asked =>
      obtain ⟨-, eq⟩ := Option.ite_none_right_eq_some.mp handed
      rw [← Option.some.inj eq]
      cases p with
      | management => rw [reqOf, idle] at asked; cases asked
      | drain | dispatcher => exact idle
    all_goals cases handed
  · rw [eq, handToHead]
    split
    · split <;> exact idle
    · exact idle

theorem leaveSweepWait_mgmt_idle {s : State} (idle : s.engine.mgmt = .idle) : (leaveSweepWait s).engine.mgmt = .idle := by
  unfold leaveSweepWait
  split
  · split
    · split
      · rfl
      · exact (discardParked_engine s).1.trans idle
    · exact idle
  all_goals exact idle

theorem release_mgmt_idle (i : SlotNo) (wrote : Bool) {s : State} (idle : s.engine.mgmt = .idle) :
    (release i wrote s).engine.mgmt = .idle := by
  rw [release_eq]
  split
  · exact handOn_mgmt_idle i (s := givenUp i wrote s) idle
  · exact leaveSweepWait_mgmt_idle (s := givenUp i wrote s) idle
  all_goals exact idle

/-- An agent that asks nothing needs no leave to ask. -/
theorem EngineOk.of_idle {s : State} (h : EngineOk r w ask s) (idle : s.engine.mgmt = .idle) {ask' : Prop} : EngineOk r w ask' s :=
  ⟨h.slots, h.marks, ⟨h.requests.requester, fun asks => absurd idle asks, h.requests.parked⟩, h.waits, h.modes⟩

theorem EngineOk.mgmt_idle {s : State} (h : EngineOk r w ask s) (no : ¬ ask) : s.engine.mgmt = .idle :=
  Classical.byContradiction fun asks => no (h.requests.agent asks)

/-! ### The cell in assembly, and the drain completion -/

theorem assemblyDone_ok {s : State} (h : Served ask s) : Served ask (assemblyDone s) := by
  unfold assemblyDone
  split
  · exact h
  · next a rest cell =>
    have none : rest = [] := by
      have one := h.marks.oneCell
      rw [cell, List.length_cons] at one
      exact List.eq_nil_of_length_eq_zero (by omega)
    subst none
    -- the end of the operation, whatever the assembly did to blocks and to the slot's copy
    have ends (wrote : Bool) {u : State} (x : Ctx) (engine : u.engine = (setCopy a.slot x s).engine) (empty : u.assembler = [])
        (fifo : u.ingress.fifo = s.ingress.fifo) : EngineOk False (fun _ => False) ask (release a.slot wrote u) := by
      obtain ⟨alike, used⟩ := alike_of_copyWritten (s := s) (u := u) (i := a.slot) (x := x) (by rw [engine])
      have ended : EndsOperation a.slot a.cell.stream s u := by
        refine ⟨?_, by rw [empty]; exact Nat.zero_le _, alike, used, ?_, ?_, ?_, ?_, ?_, fifo, .inl ?_, .inl ?_⟩
        · rw [empty, engine, cell]; exact .refl _
        all_goals rw [engine]; rfl
      exact (release_ok_of_ends h wrote ended).imp False.elim (fun _ => False.elim) id
    refine serveHead_ok (resumeRead_ok (r := False) (w := fun _ => False) ?_)
    split
    · refine ends false s.engine.slots[a.slot].copy ?_ rfl rfl
      have same : s.engine.slots.set a.slot s.engine.slots[a.slot] = s.engine.slots := Vector.set_getElem_self _
      simp only [setCopy, setSlot]
      rw [same]
    · have block := assembleCell_block a.cell { s with assembler := [] } s.engine.slots[a.slot].copy
      refine ends true (assembleCell a.cell { s with assembler := [] } s.engine.slots[a.slot].copy).2 ?_ ?_ ?_
      · simp only [setCopy, setSlot, block.engine]
      · exact block.assembler
      · exact block.fifo

theorem drainDone_ok {s : State} (h : Served ask s) : Served ask (drainDone s) := by
  unfold drainDone
  split
  · next t i holds =>
    simp only
    refine serveDrain_ok ?_
    have ends (wrote : Bool) {u : State} (x : Ctx) (engine : u.engine = { (setCopy i x s).engine with
        drainReq := .idle, drainList := u.engine.drainList }) (assembler : u.assembler = s.assembler)
        (fifo : u.ingress.fifo = s.ingress.fifo) : Served ask (release i wrote u) := by
      obtain ⟨alike, used⟩ := alike_of_copyWritten (s := s) (u := u) (i := i) (x := x) (by rw [engine])
      refine release_ok h (t := t) wrote ⟨?_, assembler ▸ h.marks.oneCell, alike, used, ?_, ?_, ?_, ?_, ?_, fifo, .inl ?_,
        .inr ⟨t, i, holds⟩⟩ assembler
      · rw [assembler, engine]; exact holders_drain s.assembler holds rfl rfl
      all_goals rw [engine]; rfl
    split
    · have noted := requestNotice_block .streamClosed (some t) (setCopy i { s.engine.slots[i].copy with state := .closed } s)
      exact ends _ { s.engine.slots[i].copy with state := .closed } (by simp only [noted.engine]) noted.assembler noted.fifo
    · have same : s.engine.slots.set i s.engine.slots[i] = s.engine.slots := Vector.set_getElem_self _
      refine ends _ s.engine.slots[i].copy ?_ rfl rfl
      simp only [setCopy, setSlot]
      rw [same]
  all_goals exact h

/-! ### Frees of queued and sent blocks (R60, R67) -/

theorem freeQueued_ok (b : Handle) {s : State} (h : EngineOk r w ask s) : EngineOk r w ask (freeQueued b s) :=
  fallOutstanding_ok _ ((h.same (t := { s with egress.queues := withoutHandle b s.egress.queues }) rfl rfl rfl).block
    (freeBlock_block b _))

theorem freeSending_ok (b : Handle) {s : State} (h : EngineOk r w ask s) : EngineOk r w ask (freeSending b s) :=
  fallOutstanding_ok _ ((h.same (t := { s with link.inflight := none, link.frame := [] }) rfl rfl rfl).block (freeBlock_block b _))

theorem freeAllQueued_ok (bs : List Handle) {s : State} (h : EngineOk r w ask s) : EngineOk r w ask (freeAllQueued bs s) := by
  induction bs generalizing s with
  | nil => exact h
  | cons b bs ih => exact ih (freeQueued_ok b h)

theorem purgeStalled_ok (bs : List Handle) {s : State} (h : EngineOk r w ask s) : EngineOk r w ask (purgeStalled bs s) := by
  induction bs generalizing s with
  | nil => exact h
  | cons b bs ih => exact ih ((freeQueued_ok b h).block (count_block _ _))

theorem purgeClass_ok (c : EgressClass) {s : State} (h : EngineOk r w ask s) : EngineOk r w ask (purgeClass c s) := by
  unfold purgeClass
  split
  · exact purgeStalled_ok _ h
  · exact h

theorem stallPurge_ok {s : State} (h : EngineOk r w ask s) : EngineOk r w ask (stallPurge s) :=
  purgeClass_ok 3 (purgeClass_ok 2 (purgeClass_ok 1 (purgeClass_ok 0 h)))

theorem abandon_ok {s : State} (h : EngineOk r w ask s) : EngineOk r w ask (abandon s) := by
  unfold abandon
  split
  · exact h
  · next item _ =>
    match item with
    | .block b c true => exact (freeSending_ok b h).same rfl rfl rfl
    | .block _ _ false | .reply _ | .notice _ => exact h.same rfl rfl rfl

theorem linkReset_ok {s : State} (h : EngineOk r w ask s) : EngineOk r w ask (linkReset s) := by
  have counted := (abandon_ok h).block (count_block .egressLinkResets _)
  unfold linkReset
  refine EngineOk.block (EngineOk.same counted ?_ ?_ ?_) (judgePort_block _) <;> rfl

theorem grant_ok (g : BitVec 4) {s : State} (h : EngineOk r w ask s) : EngineOk r w ask (grant g s) := by
  unfold grant
  split
  · exact h
  · refine EngineOk.block ?_ (judgePort_block _)
    have added : EngineOk r w ask (addCredit g.toNat s) := by
      unfold addCredit
      split <;> exact h.same rfl rfl rfl
    unfold endStall
    split
    · exact added.same rfl rfl rfl
    all_goals exact added

/-- While the agent holds a slot, no drain completion that is raised takes it away. -/
theorem raiseDrain_mgmt_holds (u : StreamId) {s : State} {t : StreamId} {i : SlotNo} (holds : s.engine.mgmt = .holds t i) :
    (raiseDrain u s).engine.mgmt = .holds t i := by
  have taken {v : State} (h : v.engine.mgmt = .holds t i) : (judgeTake .drain v).engine.mgmt = .holds t i := by
    unfold judgeTake
    split
    · split
      · split <;> exact h
      · exact h
    all_goals exact h
  have lodged {v : State} (h : v.engine.mgmt = .holds t i) : (judgeLodge .drain v).engine.mgmt = .holds t i := by
    unfold judgeLodge
    split
    · split <;> exact h
    all_goals exact h
  have started {v : State} (p : Party) (h : v.engine.mgmt = .holds t i) : (startRequest p v).engine.mgmt = .holds t i := by
    unfold startRequest
    split
    · next req =>
      cases p with
      | management => rw [reqOf, h] at req; cases req
      | dispatcher => cases req
      | drain =>
        split
        · exact taken h
        · split <;> exact h
    · exact h
  have headed {v : State} (h : v.engine.mgmt = .holds t i) : (dispatchHead v).engine.mgmt = .holds t i := by
    have sent (c : StreamCell) (j : SlotNo) : (sendHead c j v).engine.mgmt = .holds t i := by
      unfold sendHead
      split
      · exact h
      · split
        · exact h
        · split <;> exact h
    unfold dispatchHead
    split
    · split
      · split
        · split <;> exact h
        · split
          · exact sent _ _
          · exact h
      · split
        · split
          · exact sent _ _
          · simp only
            split
            · split <;> exact h
            · split <;> exact h
        · exact h
    · exact h
  have next {v : State} (h : v.engine.mgmt = .holds t i) : (startNext v).engine.mgmt = .holds t i := by
    unfold startNext
    split
    · unfold startDispatcher
      split
      · exact headed (v := { startRequest .drain (startRequest .management v) with engine.dispReq := none })
          (started .drain (started .management h))
      · exact started .drain (started .management h)
    all_goals exact h
  unfold raiseDrain
  split
  · exact holds
  · unfold serveDrain
    split
    · unfold askEngage
      simp only
      split
      · exact next (lodged (taken (v := setReq .drain _ _) holds))
      all_goals exact holds
    · exact holds

theorem fallOutstanding_mgmt_holds (u : StreamId) {s : State} {t : StreamId} {i : SlotNo} (holds : s.engine.mgmt = .holds t i) :
    (fallOutstanding u s).engine.mgmt = .holds t i := by
  unfold fallOutstanding
  simp only
  split
  · exact raiseDrain_mgmt_holds u (s := setDrain u ⟨0, false⟩ s) holds
  · exact holds

theorem freeAllQueued_mgmt_holds (bs : List Handle) {s : State} {t : StreamId} {i : SlotNo} (holds : s.engine.mgmt = .holds t i) :
    (freeAllQueued bs s).engine.mgmt = .holds t i := by
  induction bs generalizing s with
  | nil => exact holds
  | cons b bs ih =>
    exact ih (fallOutstanding_mgmt_holds _ (s := freeBlock b { s with egress.queues := withoutHandle b s.egress.queues }) holds)

theorem freeAll_block (bs : List Handle) (s : State) : BlockEffect s (freeAll bs s) := by
  induction bs generalizing s with
  | nil => exact .refl s
  | cons b bs ih => exact (freeBlock_block b s).trans (ih _)

theorem markAbort_same (t : StreamId) (s : State) :
    (markAbort t s).engine = s.engine ∧ (markAbort t s).assembler = s.assembler ∧ (markAbort t s).ingress = s.ingress := by
  unfold markAbort
  split
  · split <;> exact ⟨rfl, rfl, rfl⟩
  all_goals exact ⟨rfl, rfl, rfl⟩

/-- The teardown of a stream frees blocks alone; the agent keeps its slot. -/
theorem tearDown_ok (t : StreamId) (x : Ctx) {s : State} (h : Served ask s) {u : StreamId} {i : SlotNo}
    (holds : s.engine.mgmt = .holds u i) :
    Served ask (tearDown t s x).1 ∧ (tearDown t s x).1.engine.mgmt = .holds u i := by
  unfold tearDown
  simp only
  have owned : BlockEffect s (freeAll (ownedBlocks x) (setDrainPending t false s)) :=
    (setDrain_block t { s.pool.drain[t] with pending := false } s).trans (freeAll_block (ownedBlocks x) _)
  have freed := freeAllQueued_ok (queuedOf t (freeAll (ownedBlocks x) (setDrainPending t false s))) (h.block owned)
  have still := freeAllQueued_mgmt_holds (queuedOf t (freeAll (ownedBlocks x) (setDrainPending t false s)))
    (s := freeAll (ownedBlocks x) (setDrainPending t false s)) ((congrArg Engine.mgmt owned.engine).trans holds)
  obtain ⟨engine, assembler, ingress⟩ := markAbort_same t (freeAllQueued (queuedOf t (freeAll (ownedBlocks x) (setDrainPending t false s)))
    (freeAll (ownedBlocks x) (setDrainPending t false s)))
  refine ⟨(freed.same engine assembler (by rw [ingress])).block (judgePort_block _), ?_⟩
  rw [(judgePort_block _).engine, engine]
  exact still

end

end Sys2Proof.Machine
end

section
/-!
SUPPORT. The events in which the agent executes, takes commands or resets, and the statement on the context engine (R71–R76, R86,
R151, R167–R172).
-/
namespace Sys2Proof.Machine

open Sys2Proof

/-! ### What the agent may ask for -/

theorem EngineConsistent.served {s : State} (h : EngineConsistent s) : Served (AgentOnStream s) s := engineConsistent_iff.mp h

theorem consistent_of_state {s t : State} (h : Served (AgentOnStream s) t) (state : t.agent.state = s.agent.state) :
    EngineConsistent t :=
  engineConsistent_iff.mpr (h.imp id (fun _ => id) fun k => by simpa only [AgentOnStream, state] using k)

/-- An agent that executes no stream command and no teardown asks nothing. -/
theorem not_agentOnStream {s : State} (other : ∀ record, s.agent.state = .executing record → ∀ c, recordCommand record = some c →
    c.onStream = false) (notTearing : ∀ n, s.agent.state ≠ .tearing n) : ¬ AgentOnStream s := by
  rintro (⟨record, c, state, names, stream⟩ | ⟨n, state⟩)
  · rw [other record state c names] at stream; cases stream
  · exact notTearing n state

theorem not_agentOnStream_of_state {s : State} {a : AgentState} (state : s.agent.state = a) (notExecuting : ∀ r, a ≠ .executing r)
    (notTearing : ∀ n, a ≠ .tearing n) : ¬ AgentOnStream s :=
  not_agentOnStream (fun r e => absurd (state.symm.trans e) (notExecuting r)) fun n e => notTearing n (state.symm.trans e)

theorem EngineConsistent.mgmt_idle {s : State} (h : EngineConsistent s) (no : ¬ AgentOnStream s) : s.engine.mgmt = .idle :=
  h.served.mgmt_idle no

/-- The engine of a state whose agent asks nothing is consistent beside any agent. -/
theorem EngineOk.consistent_of_idle {s : State} {ask : Prop} (h : Served ask s) (idle : s.engine.mgmt = .idle) : EngineConsistent s :=
  engineConsistent_iff.mpr (h.of_idle idle)

/-- Another agent beside the same engine, which may ask for anything. -/
theorem EngineOk.anyAgent {s t : State} {ask : Prop} (h : Served ask s) (engine : t.engine = s.engine)
    (assembler : t.assembler = s.assembler) (fifo : t.ingress.fifo = s.ingress.fifo) : Served True t :=
  (h.same engine assembler fifo).imp id (fun _ => id) fun _ => trivial

theorem finish_engine (record : List Byte) (status : Status) (result : List Byte) (next : AgentState) (s : State) :
    (finish record status result next s).engine = s.engine ∧ (finish record status result next s).assembler = s.assembler ∧
      (finish record status result next s).ingress = s.ingress := by
  have kept := finish_keptByReply record status result next s
  exact ⟨kept.engine, kept.assembler, kept.ingress⟩

theorem EngineOk.finish {r : Prop} {w : SlotNo → Prop} {ask : Prop} {s : State} (h : EngineOk r w ask s) (record : List Byte)
    (status : Status) (result : List Byte) (next : AgentState) : EngineOk r w ask (finish record status result next s) := by
  obtain ⟨engine, assembler, ingress⟩ := finish_engine record status result next s
  exact h.same engine assembler (by rw [ingress])

/-! ### The take (R151) -/

theorem takeOne_consistent (record : List Byte) (rest : List (List Byte)) {s : State} (idle : s.agent.state = .idle)
    (h : EngineConsistent s) : EngineConsistent (takeOne record rest s) := by
  have free : s.engine.mgmt = .idle := h.mgmt_idle (not_agentOnStream_of_state idle (fun _ no => nomatch no) fun _ no => nomatch no)
  unfold takeOne
  simp only
  split
  · next r _ =>
    have replied := judgePort_block { s with agent.cmdq := rest, egress.replies := s.egress.replies ++ [r] }
    have taken : Served True { s with agent.cmdq := rest, egress.replies := s.egress.replies ++ [r] } := h.served.anyAgent rfl rfl rfl
    exact (taken.block replied).consistent_of_idle (by rw [replied.engine]; exact free)
  · unfold beginExecution
    split
    · next status _ =>
      have taken : Served True { s with agent.cmdq := rest } := h.served.anyAgent rfl rfl rfl
      exact (taken.finish record status [] .idle).consistent_of_idle (by rw [(finish_engine ..).1]; exact free)
    · have begun : Served True { s with agent.cmdq := rest, agent.state := .executing record } := h.served.anyAgent rfl rfl rfl
      simp only
      split
      · next c names =>
        split
        · next stream =>
          have asked := askEngage_ok .management (recordStream record) begun (by decide) free fun _ => trivial
          refine engineConsistent_iff.mpr (asked.imp id (fun _ => id) fun _ => .inl ⟨record, c, ?_, names, stream⟩)
          rw [(askEngage_request _ _ _).agent]
        · exact begun.consistent_of_idle free
      · exact begun.consistent_of_idle free

theorem takeCommands_consistent (n : Nat) {s : State} (h : EngineConsistent s) : EngineConsistent (takeCommands n s) := by
  induction n generalizing s with
  | zero => exact h
  | succ n ih =>
    unfold takeCommands
    split
    · next record rest idle _ =>
      split
      · exact ih (takeOne_consistent record rest idle h)
      · have none : s.engine.mgmt = .idle :=
          h.mgmt_idle (not_agentOnStream_of_state idle (fun _ no => nomatch no) fun _ no => nomatch no)
        have waiting : Served True { s with agent.state := .waitingReplySpace } := h.served.anyAgent rfl rfl rfl
        exact waiting.consistent_of_idle none
    · exact h

theorem takeNext_consistent {s : State} (h : EngineConsistent s) : EngineConsistent (takeNext s) := takeCommands_consistent _ h

/-! ### Arrivals -/

theorem fifoEntry_ok {r : Prop} {w : SlotNo → Prop} {ask : Prop} (c : StreamCell) {s : State} (h : EngineOk r w ask s) :
    EngineOk r w ask (fifoEntry c s) := by
  refine ⟨h.slots, h.marks, h.requests, ⟨h.waits.reads, fun i k run => ?_⟩, h.modes⟩
  obtain ⟨d, rest, queue, engaged, served⟩ := h.waits.head i k run
  exact ⟨d, rest ++ [c], congrArg (· ++ [c]) queue, engaged, served⟩

theorem EngineConsistent.same {s t : State} (h : EngineConsistent s) (engine : t.engine = s.engine) (assembler : t.assembler = s.assembler)
    (fifo : t.ingress.fifo = s.ingress.fifo) (state : t.agent.state = s.agent.state) : EngineConsistent t :=
  consistent_of_state (h.served.same engine assembler fifo) state

theorem EngineConsistent.block {s t : State} (h : EngineConsistent s) (k : BlockEffect s t) : EngineConsistent t :=
  h.same k.engine k.assembler k.fifo k.agentState

theorem claimedCell_consistent (c : Cell) (r : Resolution) {s : State} (h : EngineConsistent s) :
    EngineConsistent (claimedCell c r s) := by
  have queued (record : List Byte) (answer : Option Response) : EngineConsistent (queueCommand record answer (count .cellsAccepted s)) :=
    takeNext_consistent (h.same rfl rfl rfl rfl)
  have refused : EngineConsistent (refuseFull s) :=
    (h.same (t := respond (some .refuseFull) (count .cellsRefusedFull s)) rfl rfl rfl rfl).block (requestNotice_block _ _ _)
  unfold claimedCell
  split
  · cases r with
    | stream t =>
      simp only [arriveStream]
      split
      · have counted : EngineConsistent (count .cellsAccepted s) := h.same rfl rfl rfl rfl
        exact consistent_of_state ((fifoEntry_ok _ counted.served).same rfl rfl rfl) rfl
      · exact refused
    | discard => exact h.same rfl rfl rfl rfl
    | managementUnit =>
      simp only [arriveManagement]
      split
      · exact queued _ _
      · exact refused
    | managementBroadcast =>
      simp only [arriveManagement]
      split
      · exact queued _ _
      · exact (h.same (t := respond none (count .mgmtDropped s)) rfl rfl rfl rfl).block (requestNotice_block _ _ _)
    | noClaim => exact h
  · exact h.same rfl rfl rfl rfl

theorem arrive_consistent (c : Cell) {s : State} (h : EngineConsistent s) : EngineConsistent (arrive c s) := by
  have seen : EngineConsistent (respond none (count .cellsSeen s)) := h.same rfl rfl rfl rfl
  by_cases ready : s.ingress.port = .ready
  · rw [arrive_of_ready ready]
    cases check : c.checkOk with
    | false => rw [judgeArrival_of_failed_check check]; exact seen.block (count_block _ _)
    | true =>
      by_cases fill : c.kind = .fill
      · rw [judgeArrival_of_fill check fill]; exact seen
      · rw [judgeArrival_of_ne_fill check fill]
        split
        · exact seen.block (count_block _ _)
        · exact claimedCell_consistent c _ seen
  · rw [arrive_of_not_ready ready]; exact seen

/-! ### Commands that act on no stream (R152) -/

/-- What such a command leaves alone. -/
structure LeavesEngine (s t : State) : Prop where
  engine : t.engine = s.engine
  assembler : t.assembler = s.assembler
  fifo : t.ingress.fifo = s.ingress.fifo

theorem LeavesEngine.refl (s : State) : LeavesEngine s s := ⟨rfl, rfl, rfl⟩

theorem answerClassWrite_leaves (record : List Byte) (s : State) : LeavesEngine s (answerClassWrite record s).state := by
  unfold answerClassWrite
  split <;> exact ⟨rfl, rfl, rfl⟩

theorem answerClassRead_leaves (record : List Byte) (s : State) : LeavesEngine s (answerClassRead record s).state := by
  unfold answerClassRead
  split <;> exact .refl s

theorem answerLimitsWrite_leaves (record : List Byte) (s : State) : LeavesEngine s (answerLimitsWrite record s).state := by
  unfold answerLimitsWrite
  split <;> exact ⟨rfl, rfl, rfl⟩

theorem answerCounters_leaves (record : List Byte) (s : State) : LeavesEngine s (answerCounters record s).state := by
  unfold answerCounters
  split <;> exact ⟨rfl, rfl, rfl⟩

theorem runPlain_consistent {c : Command} (mine : List Byte → Bool) {f : List Byte → State → Answer} (plain : c.onStream = false)
    (leaves : ∀ record s, LeavesEngine s (f record s).state) {s : State} (h : EngineConsistent s) :
    EngineConsistent (runPlain c mine f s) := by
  unfold runPlain
  split
  · next record executing =>
    split
    · next runs =>
      have free : s.engine.mgmt = .idle := h.mgmt_idle (not_agentOnStream (fun other state d names => by
        rw [executing] at state
        cases state
        rw [runs.1] at names
        cases names
        exact plain) fun n state => by rw [executing] at state; cases state)
      obtain ⟨engine, assembler, fifo⟩ := leaves record s
      have ended := (h.served.same engine assembler fifo).finish record (f record s).status (f record s).result .idle
      exact takeNext_consistent (ended.consistent_of_idle (by rw [(finish_engine ..).1, engine]; exact free))
    · exact h
  all_goals exact h

theorem unitReset_consistent (mine : List Byte → Bool) {s : State} (h : EngineConsistent s) : EngineConsistent (unitReset mine s) := by
  unfold unitReset
  split
  · next record executing =>
    split
    · next runs =>
      have free : s.engine.mgmt = .idle := h.mgmt_idle (not_agentOnStream (fun other state d names => by
        rw [executing] at state
        cases state
        rw [runs.1] at names
        cases names
        rfl) fun n state => by rw [executing] at state; cases state)
      have ended (status : Status) (next : AgentState) : EngineConsistent (finish record status [] next s) :=
        (h.served.finish record status [] next).consistent_of_idle (by rw [(finish_engine ..).1]; exact free)
      split
      · exact ended _ _
      · exact takeNext_consistent (ended _ _)
    · exact h
  all_goals exact h

/-! ### Stream commands and the teardown (R86, R170) -/

theorem answerOpen_state (record : List Byte) (t : StreamId) (s : State) (x : Ctx) : (answerOpen record t s x).state = s := by
  unfold answerOpen
  split
  · rfl
  · split <;> rfl

theorem answerPause_state (record : List Byte) (t : StreamId) (s : State) (x : Ctx) : (answerPause record t s x).state = s := by
  unfold answerPause
  split <;> rfl

theorem answerResume_state (record : List Byte) (t : StreamId) (s : State) (x : Ctx) : (answerResume record t s x).state = s := by
  unfold answerResume
  split <;> rfl

theorem answerCut_block (record : List Byte) (t : StreamId) (s : State) (x : Ctx) : BlockEffect s (answerCut record t s x).state := by
  unfold answerCut
  split
  · exact cut_block t s x
  · exact .refl s

theorem answerRelease_block (record : List Byte) (t : StreamId) (s : State) (x : Ctx) :
    BlockEffect s (answerRelease record t s x).state := by
  unfold answerRelease
  split
  · exact releaseHeld_block t s x
  · exact .refl s

theorem closeBlocks_block (t : StreamId) (s : State) (x : Ctx) : BlockEffect s (closeBlocks t s x).1 :=
  (cut_block t s x).trans (releaseHeld_block t _ _)

theorem drainOrClose_block (t : StreamId) (v : Work) : BlockEffect v.1 (drainOrClose t v).state := by
  unfold drainOrClose
  split
  · exact .refl _
  · exact setDrain_block t _ _

theorem answerCloseGraceful_block (record : List Byte) (t : StreamId) (s : State) (x : Ctx) :
    BlockEffect s (answerCloseGraceful record t s x).state := by
  unfold answerCloseGraceful
  split
  · exact .refl s
  · split
    · exact (closeBlocks_block t s x).trans (drainOrClose_block t _)
    · exact .refl s

theorem reconfigure_block (cfg : StreamCfg) (t : StreamId) (s : State) (x : Ctx) : BlockEffect s (reconfigure cfg t s x).1 := by
  unfold reconfigure
  split
  · exact handOnBlocks_block t _ _ s
  all_goals exact .refl s

theorem answerReconfigure_block (record : List Byte) (t : StreamId) (s : State) (x : Ctx) :
    BlockEffect s (answerReconfigure record t s x).state := by
  unfold answerReconfigure
  split
  · exact .refl s
  · split
    · exact reconfigure_block _ t s x
    · exact .refl s

/-- A stream command may run where its effect keeps the engine consistent and the agent's slot held. -/
theorem runStream_consistent (c : Command) (mine : List Byte → Bool) {f : List Byte → StreamId → State → Ctx → StreamAnswer}
    {s : State} (h : EngineConsistent s) (effect : ∀ record t i x, s.engine.mgmt = .holds t i →
      Served (AgentOnStream s) (f record t s x).state ∧ (f record t s x).state.engine.mgmt = .holds t i) :
    EngineConsistent (runStream c mine f s) := by
  unfold runStream
  split
  · next record t i _ holds =>
    split
    · obtain ⟨served, still⟩ := effect record t i s.engine.slots[i].copy holds
      refine takeNext_consistent ?_
      simp only
      generalize ended : finish record _ _ AgentState.idle { setCopy i (f record t s s.engine.slots[i].copy).ctx
        (f record t s s.engine.slots[i].copy).state with engine.mgmt := .idle } = u
      obtain ⟨engine, assembler, ingress⟩ : u.engine = { (setCopy i (f record t s s.engine.slots[i].copy).ctx
          (f record t s s.engine.slots[i].copy).state).engine with mgmt := .idle } ∧
          u.assembler = (f record t s s.engine.slots[i].copy).state.assembler ∧
          u.ingress = (f record t s s.engine.slots[i].copy).state.ingress := ended ▸ finish_engine ..
      have released := agentEnds_ok served (f record t s s.engine.slots[i].copy).wrote _ still engine assembler (by rw [ingress])
      exact released.consistent_of_idle (release_mgmt_idle i _ (by rw [engine]))
    · exact h
  · exact h

theorem runStream_consistent_of_block (c : Command) (mine : List Byte → Bool) {f : List Byte → StreamId → State → Ctx → StreamAnswer}
    {s : State} (h : EngineConsistent s) (block : ∀ record t x, BlockEffect s (f record t s x).state) :
    EngineConsistent (runStream c mine f s) :=
  runStream_consistent c mine h fun record t _ x holds =>
    ⟨h.served.block (block record t x), by rw [(block record t x).engine]; exact holds⟩

theorem answerCloseAbort_served (record : List Byte) {t : StreamId} {i : SlotNo} {s : State} (x : Ctx) {ask : Prop} (h : Served ask s)
    (holds : s.engine.mgmt = .holds t i) :
    Served ask (answerCloseAbort record t s x).state ∧ (answerCloseAbort record t s x).state.engine.mgmt = .holds t i := by
  unfold answerCloseAbort
  split
  · exact ⟨h, holds⟩
  · split
    · exact ⟨h, holds⟩
    · exact tearDown_ok t x h holds

theorem teardownStep_consistent {s : State} (h : EngineConsistent s) : EngineConsistent (teardownStep s) := by
  unfold teardownStep
  split
  · next n t i tearing holds =>
    have torn : Served (AgentOnStream s) (tearDownUnlessClosed t s s.engine.slots[i].copy).1 ∧
        (tearDownUnlessClosed t s s.engine.slots[i].copy).1.engine.mgmt = .holds t i := by
      unfold tearDownUnlessClosed
      split
      · exact ⟨h.served, holds⟩
      · exact tearDown_ok t _ h.served holds
    obtain ⟨served, still⟩ := torn
    simp only
    generalize decide (s.engine.slots[i].copy.state ≠ .closed) = wrote
    generalize ended : ({ setCopy i (tearDownUnlessClosed t s s.engine.slots[i].copy).2
      (tearDownUnlessClosed t s s.engine.slots[i].copy).1 with engine.mgmt := .idle } : State) = u
    have released := agentEnds_ok served wrote (tearDownUnlessClosed t s s.engine.slots[i].copy).2 still
      (u := u) (by rw [← ended]) (by rw [← ended]; rfl) (by rw [← ended]; rfl)
    have idle := release_mgmt_idle i wrote (s := u) (by rw [← ended])
    split
    · next more =>
      have moved : Served True { release i wrote u with agent.state := .tearing ⟨n.val + 1, more⟩ } := released.anyAgent rfl rfl rfl
      have asked := askEngage_ok .management ⟨n.val + 1, more⟩ moved (by decide) idle fun _ => trivial
      refine engineConsistent_iff.mpr (asked.imp id (fun _ => id) fun _ => .inr ⟨⟨n.val + 1, more⟩, ?_⟩)
      rw [(askEngage_request _ _ _).agent]
    · have moved : Served True { release i wrote u with agent.state := .idle } := released.anyAgent rfl rfl rfl
      exact takeNext_consistent (moved.consistent_of_idle idle)
  · exact h

/-! ### Unit resets, frames and stalls (R134, R140, R168–R172) -/

theorem fullReset_consistent {s : State} {ask : Prop} (h : Served ask s) (idle : s.engine.mgmt = .idle) :
    EngineConsistent (fullReset s) := by
  have cell (a : Assembly) : ((a.overtake s).slot, (a.overtake s).cell.stream) = (a.slot, a.cell.stream) := by
    unfold Assembly.overtake
    split <;> rfl
  have reset : Served ask (fullReset s) := by
    refine requestSweep_ok .init h rfl ?_ fun _ => by rw [idle]; rfl
    simp only [judgeHold, List.map_map, Function.comp_def, cell]
  refine reset.consistent_of_idle ?_
  unfold fullReset requestSweep
  split
  · exact leaveSweepWait_mgmt_idle idle
  all_goals exact idle

theorem resetEffect_consistent {s : State} (h : EngineConsistent s) : EngineConsistent (resetEffect s) := by
  unfold resetEffect
  split
  · next pending =>
    exact fullReset_consistent h.served
      (h.mgmt_idle (not_agentOnStream_of_state pending (fun _ no => nomatch no) fun _ no => nomatch no))
  · next pending =>
    have idle := h.mgmt_idle (not_agentOnStream_of_state pending (fun _ no => nomatch no) fun _ no => nomatch no)
    have moved : Served True { s with agent.state := .tearing 0 } := h.served.anyAgent rfl rfl rfl
    have asked := askEngage_ok .management 0 moved (by decide) idle fun _ => trivial
    refine engineConsistent_iff.mpr (asked.imp id (fun _ => id) fun _ => .inr ⟨0, ?_⟩)
    rw [streamsReset_agent]
  all_goals exact h

theorem serveAgent_consistent {s : State} (h : EngineConsistent s) : EngineConsistent (serveAgent s) := by
  unfold serveAgent
  split
  · next waiting =>
    have idle := h.mgmt_idle (not_agentOnStream_of_state waiting (fun _ no => nomatch no) fun _ no => nomatch no)
    have moved : Served True { s with agent.state := .idle } := h.served.anyAgent rfl rfl rfl
    exact takeNext_consistent (moved.consistent_of_idle idle)
  all_goals exact h

theorem frameDone_consistent {s : State} (h : EngineConsistent s) : EngineConsistent (frameDone s) := by
  unfold frameDone
  split
  · exact h
  · next item flies =>
    refine serveAgent_consistent (EngineConsistent.block ?_ (judgePort_block _))
    have discarded : EngineConsistent (discardItem item s) := by
      match item with
      | .block b c m =>
        exact consistent_of_state (freeSending_ok b h.served) (freeSending_agentKept b ⟨b, c, m, flies⟩).state
      | .reply _ | .notice _ => exact h
    have ended : EngineConsistent (count .framesSent { discardItem item s with link.inflight := none, link.frame := [] }) :=
      discarded.same rfl rfl rfl rfl
    unfold tellAgent resetAtReply
    split
    · split
      · exact resetEffect_consistent ended
      · exact ended
    all_goals exact ended

theorem stallExpiry_consistent {s : State} (h : EngineConsistent s) : EngineConsistent (stallExpiry s) := by
  unfold stallExpiry
  split
  · have stalled : EngineConsistent { s with link.port := .stalled, link.timer := none } := h.same rfl rfl rfl rfl
    have purged : EngineConsistent (stallPurge { s with link.port := .stalled, link.timer := none }) :=
      consistent_of_state (stallPurge_ok stalled.served) (stallPurge_agentKept _).state
    have noted := purged.block (requestNotice_block .egressStall none _)
    unfold expire resetAtExpiry
    split
    · exact noted
    · exact resetEffect_consistent noted
  · exact h

/-! ### Every event -/

theorem event_consistent {c : Instr} {f : State → State} (event : eventOf c = some f) (s : State) (h : EngineConsistent s) :
    EngineConsistent (f s) := by
  have of {t : State} (served : Served (AgentOnStream s) t) (kept : AgentKept s t) : EngineConsistent t :=
    consistent_of_state served kept.state
  cases c with
  | resetNAssert | resetNRelease => cases event
  | initSweepCompletion => cases event; exact of (initSweepDone_ok h.served) (initSweepDone_agentKept s)
  | cellArrival bytes =>
    cases event
    cases parsed : parseCell bytes with
    | none => simpa only [parsed] using h
    | some c => simpa only [parsed] using arrive_consistent c h
  | busResetSequence => cases event; exact of (busReset_ok h.served) (busReset_agentKept s)
  | busSweepStep => cases event; exact of (sweepStep_ok h.served) (sweepStep_agentKept s)
  | dispatch => cases event; exact of (dispatchHead_ok h.served) (dispatchHead_request s).agentKept
  | writeBackCompletion => cases event; exact of (writeBackDone_ok h.served) (writeBackDone_effect s).agentKept
  | fetchCompletion => cases event; exact of (fetchDone_ok h.served) (fetchDone_effect s).agentKept
  | cellAssembly => cases event; exact of (assemblyDone_ok h.served) (assemblyDone_agentKept s)
  | drainCompletion => cases event; exact of (drainDone_ok h.served) (drainDone_agentKept s)
  | commandTake => cases event; exact takeNext_consistent h
  | unitResetStreams | unitResetFull => cases event; exact unitReset_consistent _ h
  | streamsTeardown => cases event; exact teardownStep_consistent h
  | frameCompletion => cases event; exact frameDone_consistent h
  | creditGrant g => cases event; exact of (grant_ok g h.served) (grant_agentKept g s)
  | egressLinkReset _ => cases event; exact of (linkReset_ok h.served) (linkReset_agentKept s)
  | returnLaneOther _ => cases event; exact h
  | stallExpiry => cases event; exact stallExpiry_consistent h
  | ident | poolQuery | limitsRead =>
    cases event; exact runPlain_consistent _ rfl (fun _ s => .refl s) h
  | classWrite => cases event; exact runPlain_consistent _ rfl answerClassWrite_leaves h
  | classRead => cases event; exact runPlain_consistent _ rfl answerClassRead_leaves h
  | limitsWrite => cases event; exact runPlain_consistent _ rfl answerLimitsWrite_leaves h
  | countersRead | countersReadClear => cases event; exact runPlain_consistent _ rfl answerCounters_leaves h
  | noticeMaskWrite => cases event; exact runPlain_consistent _ rfl (fun _ _ => ⟨rfl, rfl, rfl⟩) h
  | streamOpen => cases event; exact runStream_consistent_of_block _ _ h fun r t x => by rw [answerOpen_state]; exact .refl s
  | streamPause => cases event; exact runStream_consistent_of_block _ _ h fun r t x => by rw [answerPause_state]; exact .refl s
  | streamResume => cases event; exact runStream_consistent_of_block _ _ h fun r t x => by rw [answerResume_state]; exact .refl s
  | streamCut => cases event; exact runStream_consistent_of_block _ _ h fun r t x => answerCut_block r t s x
  | streamRelease => cases event; exact runStream_consistent_of_block _ _ h fun r t x => answerRelease_block r t s x
  | streamReconfigure => cases event; exact runStream_consistent_of_block _ _ h fun r t x => answerReconfigure_block r t s x
  | streamQuery => cases event; exact runStream_consistent_of_block _ _ h fun _ _ _ => .refl s
  | streamCloseGraceful => cases event; exact runStream_consistent_of_block _ _ h fun r t x => answerCloseGraceful_block r t s x
  | streamCloseAbort =>
    cases event; exact runStream_consistent _ _ h fun r t i x holds => answerCloseAbort_served r x h.served holds

theorem passMicrosecond_consistent (s : State) (h : EngineConsistent s) : EngineConsistent (passMicrosecond s) := by
  unfold passMicrosecond
  split
  · exact h
  · split
    · exact stallExpiry_consistent h
    · exact h.same rfl rfl rfl rfl

/-- The power-on values are those that the init sweep writes. -/
theorem powerCycled_consistent (straps : BitVec 3) (low : Bool) (s : State) : EngineConsistent (powerCycled straps low s) :=
  (startInitSweep_ok (ask := True) (powerCycled straps low s)).consistent_of_idle rfl

/-- Settles O58: every event keeps the five parts of `EngineOk`; the slots in use are those of the at most three holders. -/
theorem stepKeepsEngineConsistent : Obligations.StepKeepsEngineConsistent :=
  ⟨fun _ _ => step_preserves (fun _ _ h => h.same rfl rfl rfl rfl) (fun _ _ ev s => event_consistent ev s)
    passMicrosecond_consistent fun straps low s _ => powerCycled_consistent straps low s,
   fun _ h => h.served.marks.atMostThree⟩

end Sys2Proof.Machine
end

section
/-!
SUPPORT. The state after reset, the judgement of a notice request, and the assembly of a cell branch by branch: judgement, gap,
samples, completion, cut and release (R25–R48, R174–R178).
-/
namespace Sys2Proof.Machine

open Sys2Proof

/-! ### After reset -/

theorem powerOn_desc (straps : BitVec 3) (m : Memory) (q : List Instr) (h : Handle) :
    (State.powerOn straps m q).pool.desc[h] = .free := Vector.getElem_replicate h.isLt

/-- Every record has its reset value, in the store and in VACANT slots. -/
theorem powerOn_liveCopy (straps : BitVec 3) (m : Memory) (q : List Instr) (t : StreamId) :
    liveCopy t (State.powerOn straps m q) = .reset := by
  have slot (i : SlotNo) : (State.powerOn straps m q).engine.slots[i] = Slot.vacant := Vector.getElem_replicate i.isLt
  unfold liveCopy
  split
  · next i found =>
    have carries := List.find?_some found
    rw [slot] at carries
    cases carries
  · exact Vector.getElem_replicate t.isLt

/-- All storage is free, no block is owned, queued or sent, and no count is above 0. -/
theorem powerOn_storageConserved (straps : BitVec 3) (m : Memory) (q : List Instr) :
    StorageConserved (State.powerOn straps m q) where
  pages := by
    have none : (List.finRange 128).flatMap (fun h => (State.powerOn straps m q).pool.desc[h].pages) = [] := by
      simp only [powerOn_desc, Desc.free, List.flatMap_eq_nil_iff, implies_true]
    have free : (State.powerOn straps m q).pool.freePages = List.finRange 512 := by rw [State.powerOn, Pool.reset]
    rw [none, List.append_nil, free]
  pageLists h := by rw [powerOn_desc]; rfl
  free := ⟨List.nodup_finRange 128, fun h => by
    rw [powerOn_desc]
    exact ⟨fun _ => rfl, fun _ => List.mem_finRange h⟩⟩
  queued := by
    have none (c : Nat) (lt : c < 4) : (State.powerOn straps m q).egress.queues[c] = [] := Vector.getElem_replicate lt
    refine ⟨?_, fun h => ?_⟩
    · rw [none, none, none, none]
      exact .nil
    · rw [powerOn_desc]
      exact ⟨fun ⟨c, member⟩ => (by rw [Fin.getElem_fin, none] at member; cases member), fun no => nomatch no⟩
  sending h := by
    rw [powerOn_desc]
    exact ⟨fun ⟨_, _, no⟩ => (nomatch no), fun no => (nomatch no)⟩
  reset _ h := by rw [powerOn_desc]; rfl
  owned _ := by
    constructor <;> intro t <;> simp only [powerOn_liveCopy, powerOn_desc, Ctx.reset, Desc.free] <;> simp
  outstanding t := by
    have none : (State.powerOn straps m q).pool.drain[t] = ⟨0, false⟩ := Vector.getElem_replicate t.isLt
    rw [none, eq_comm, List.countP_eq_zero]
    intro h _
    rw [powerOn_desc]
    simp [Desc.free]

/-- Settles O60: the power-on values, with no page written. -/
theorem invariantsHoldAtReset : Obligations.InvariantsHoldAtReset := by
  obtain ⟨memory, hold, low, port, link, frame, bounds, limits, table, configs, ranks⟩ :=
    powerOn_invariants Config.resetStraps [] [] false rfl
  exact ⟨memory, hold, low, port, link, frame, bounds, ⟨fun _ => rfl, fun w => nomatch w⟩, limits, configs, table, ranks,
    powerCycled_consistent Config.resetStraps false State.reset, powerOn_storageConserved _ _ _⟩

/-! ### Notice requests (R174–R178) -/

theorem Notice.isFor_iff {k : NoticeKind} {t : Option StreamId} {n : Notice} : n.isFor k t = true ↔ n.kind = k ∧ n.stream = t := by
  simp [Notice.isFor]

theorem coalesce_eq_none {k : NoticeKind} {t : Option StreamId} {q : List Notice} (none : ∀ m ∈ q, ¬ (m.kind = k ∧ m.stream = t)) :
    coalesce k t q = .none := by
  induction q with
  | nil => rfl
  | cons n ns ih =>
    rw [coalesce, if_neg (fun fits => none n List.mem_cons_self (Notice.isFor_iff.mp fits)),
      ih fun m member => none m (List.mem_cons_of_mem _ member)]
    rfl

/-- The first record of the kind and stream is the one whose repeat count rises. -/
theorem coalesce_of_first {k : NoticeKind} {t : Option StreamId} {before after : List Notice} {n : Notice}
    (fits : n.kind = k ∧ n.stream = t) (first : ∀ m ∈ before, ¬ (m.kind = k ∧ m.stream = t)) :
    coalesce k t (before ++ n :: after) = some (before ++ { n with repeats := saturate (n.repeats + 1) } :: after) := by
  induction before with
  | nil => rw [List.nil_append, coalesce, if_pos (Notice.isFor_iff.mpr fits)]; rfl
  | cons m ms ih =>
    rw [List.cons_append, coalesce, if_neg (fun no => first m List.mem_cons_self (Notice.isFor_iff.mp no)),
      ih fun m member => first m (List.mem_cons_of_mem _ member)]
    rfl

/-- Settles O52: masked, coalesced, appended, lost. -/
theorem noticeRequestJudgedByFourCases : Obligations.NoticeRequestJudgedByFourCases := by
  intro k st s
  refine ⟨fun masked => ?masked, fun before n after enabled queue fits first => ?coalesced, fun enabled none room => ?appended,
    fun enabled none full => ?lost⟩
  case masked => simp only [requestNotice, noticeEnabled, masked, Bool.false_eq_true, if_false]
  case coalesced => simp only [requestNotice, noticeEnabled, enabled, if_true, queue, coalesce_of_first fits first]; rfl
  case appended => simp only [requestNotice, noticeEnabled, enabled, if_true, coalesce_eq_none none, Config.noticeDepth, room]
  case lost =>
    simp only [requestNotice, noticeEnabled, enabled, if_true, coalesce_eq_none none, Config.noticeDepth, Nat.not_lt.mpr full,
      if_false]
    rfl

/-! ### Completion, cut, SYNC and release (R33, R40–R48) -/

/-- Settles O27: the branches on release mode, held limit and held-overflow policy. -/
theorem completionRoutineBranches : Obligations.CompletionRoutineBranches := by
  intro t h n short broken spliced s x
  have branch : complete t h n short broken spliced s x =
      placeCompleted t h (setDesc h { s.pool.desc[h] with count := n, flags := ⟨short, broken, spliced⟩ } s)
        { x.completeBlock with fill := .empty } := rfl
  refine ⟨fun immediate => ?queued, fun held room => ?held, fun oldest rest held full policy list => ?dropped,
    fun held full policy => ?faulted⟩
  case queued => simp only [branch, placeCompleted, Ctx.completeBlock, immediate]
  case held => simp only [branch, placeCompleted, Ctx.completeBlock, held, room, if_true]
  case dropped =>
    rw [branch]
    simp only [placeCompleted, Ctx.completeBlock, held, Nat.not_lt.mpr full, if_false, policy, overflowDropOldest]
    rw [list]
  case faulted =>
    simp only [branch, placeCompleted, Ctx.completeBlock, held, Nat.not_lt.mpr full, if_false, policy, overflowFault]
    rfl

theorem handOnBlocks_eq_foldl (t : StreamId) (c : EgressClass) (l : List Handle) (s : State) :
    handOnBlocks t c l s = l.foldl (fun u h => queueEntry t c h u) s := by
  induction l generalizing s with
  | nil => rfl
  | cons h hs ih => rw [handOnBlocks, List.foldl_cons, ih]

theorem cut_of_filling {x : Ctx} {h : Handle} {k : Nat} {spliced : Bool} (t : StreamId) (s : State) (fill : x.fill = .filling h k spliced) :
    cut t s x = complete t h k true false spliced s x := by rw [cut, fill]

theorem cut_of_not_filling {x : Ctx} (t : StreamId) (s : State) (fill : x.fill = .empty ∨ x.fill = .hunting) :
    cut t s x = (s, x) := by
  obtain fill | fill := fill <;> rw [cut, fill]

theorem syncStep_of_filling {x : Ctx} {h : Handle} {k : Nat} {spliced : Bool} (t : StreamId) (s : State)
    (fill : x.fill = .filling h k spliced) : syncStep t true s x = complete t h k true false spliced s x := by
  rw [syncStep, if_pos rfl, fill]

theorem syncStep_of_not_filling {x : Ctx} (t : StreamId) (s : State) (fill : x.fill = .empty ∨ x.fill = .hunting) :
    syncStep t true s x = (s, { x with fill := .empty }) := by
  rw [syncStep, if_pos rfl]
  obtain fill | fill := fill
  · simp only [fill]
    rw [← fill]
  · simp only [fill]

theorem releaseHeld_of_held {x : Ctx} (t : StreamId) (s : State) (mode : x.cfg.mode = .held) :
    releaseHeld t s x = (handOnBlocks t x.cfg.cls x.held s, { x with held := [] }) := by rw [releaseHeld, mode]

theorem releaseHeld_of_immediate {x : Ctx} (t : StreamId) (s : State) (mode : x.cfg.mode = .immediate) :
    releaseHeld t s x = (s, x) := by rw [releaseHeld, mode]

/-- Settles O28. -/
theorem cutSyncAndReleaseActions : Obligations.CutSyncAndReleaseActions := by
  intro t s x
  refine ⟨fun h k spliced fill => ⟨cut_of_filling t s fill, syncStep_of_filling t s fill⟩,
    fun fill => ⟨cut_of_not_filling t s fill, syncStep_of_not_filling t s fill⟩, rfl, fun mode => ?held,
    releaseHeld_of_immediate t s, rfl, rfl, rfl⟩
  rw [releaseHeld_of_held t s mode, handOnBlocks_eq_foldl]

/-! ### Gaps (R29–R32) -/

theorem breakAndHunt_of_not_filling {x : Ctx} (t : StreamId) (s : State) (fill : x.fill = .empty ∨ x.fill = .hunting) :
    breakAndHunt t s x = (s, { x with fill := .hunting }) := by
  obtain fill | fill := fill <;> rw [breakAndHunt, fill]

theorem breakAndHunt_discard {x : Ctx} {h : Handle} {k : Nat} {spliced : Bool} (t : StreamId) (s : State)
    (fill : x.fill = .filling h k spliced) (policy : x.cfg.broken = .discard) :
    breakAndHunt t s x = (freeBlock h s, { x.dropBlock with fill := .hunting }) := by
  simp only [breakAndHunt, fill, policy]

theorem breakAndHunt_emit {x : Ctx} {h : Handle} {k : Nat} {spliced : Bool} (t : StreamId) (s : State)
    (fill : x.fill = .filling h k spliced) (policy : x.cfg.broken = .emit) :
    breakAndHunt t s x = ((complete t h k false true spliced s x).1,
      if (complete t h k false true spliced s x).2.state = .faulted then (complete t h k false true spliced s x).2
      else { (complete t h k false true spliced s x).2 with fill := .hunting }) := by
  simp only [breakAndHunt, fill, policy]
  split <;> rfl

/-- Settles O24: TOLERATE splices, RESYNC breaks. -/
theorem gapMarksOrBreaksBlock : Obligations.GapMarksOrBreaksBlock := by
  intro t s x
  refine ⟨fun tolerate => ?splices, fun resync => ?breaks⟩
  case splices =>
    have gap : gapEffect t s x = (requestNotice .seqGap (some t) s, x.countGap.markSpliced) := by
      simp only [gapEffect, applyGapPolicy, Ctx.countGap, tolerate]
    refine ⟨fun h k spliced fill => ?_, fun fill => ?_⟩
    · simp only [gap, Ctx.markSpliced, Ctx.countGap, fill]
    · obtain fill | fill := fill <;> simp only [gap, Ctx.markSpliced, Ctx.countGap, fill]
  case breaks =>
    have gap : gapEffect t s x = breakAndHunt t (requestNotice .seqGap (some t) s) x.countGap := by
      simp only [gapEffect, applyGapPolicy, Ctx.countGap, resync]
    refine ⟨fun fill => ?_, fun h k spliced fill => ⟨fun discard => ?_, fun emit => ?_⟩⟩
    · exact gap.trans (breakAndHunt_of_not_filling t _ fill)
    · exact gap.trans (breakAndHunt_discard (x := x.countGap) t _ fill discard)
    · exact gap.trans (breakAndHunt_emit (x := x.countGap) t _ fill emit)

/-! ### The stages of a cell (R25, R29, R31, R33, R34, R44, R46) -/

section
variable {x : Ctx} {c : StreamCell} {s : State} {t : StreamId}

theorem laterStages_of_faulted (gap : Bool) (faulted : x.state = .faulted) :
    laterStages t c gap s x = (s, x.discardSamples (c.samples x.cfg.geom.w)) := if_pos faulted

theorem laterStages_of_fit (gap : Bool) (going : x.state ≠ .faulted) (data : c.kind = .data)
    (fits : c.payload.length % x.cfg.geom.w = 0) :
    laterStages t c gap s x = takeSamples t (splitSamples x.cfg.geom.w (c.payload.length / x.cfg.geom.w) c.payload)
      (syncStep t c.sync s x) := by
  simp [laterStages, going, data, isMisfit, fits, StreamCell.samples]

theorem laterStages_of_misfit (gap : Bool) (going : x.state ≠ .faulted) (data : c.kind = .data)
    (misfit : c.payload.length % x.cfg.geom.w ≠ 0) :
    laterStages t c gap s x = misfitEffect t gap (c.payload.length / x.cfg.geom.w) s x := by
  simp [laterStages, going, data, isMisfit, misfit, StreamCell.samples]

theorem laterStages_of_mark (gap : Bool) {a : MarkAction} (going : x.state ≠ .faulted) (mark : c.kind = .mark)
    (action : markActionOf (c.payload.getD 0 0) = some a) : laterStages t c gap s x = markEffect t a s x := by
  rw [laterStages, if_neg going]
  simp only [mark, action]

theorem judgedCell_of_inOrder (judged : judgeSeq x c.seq = .first ∨ judgeSeq x c.seq = .inOrder) :
    judgedCell t c s x = laterStages t c false s { x with expected := c.seq + 1, seqValid := true } := by
  obtain judged | judged := judged <;> rw [judgedCell, judged] <;> rfl

theorem judgedCell_of_gap (judged : judgeSeq x c.seq = .gap) :
    judgedCell t c s x =
      laterStages t c true (gapEffect t s { x with expected := c.seq + 1, seqValid := true }).1
        (gapEffect t s { x with expected := c.seq + 1, seqValid := true }).2 := by
  rw [judgedCell, judged]
  rfl

end

/-- Settles O23: the stages after each judgement, by kind of cell. -/
theorem cellStagesFollowJudgement : Obligations.CellStagesFollowJudgement := by
  intro c s x opened
  have whole : assembleCell c s x = judgedCell c.stream c s x.countCell := if_pos opened
  have samples (w : Nat) : c.samples w = if c.kind = .data then c.payload.length / w else 0 := StreamCell.samples_eq c w
  have keepsGeometry (y : Ctx) : (gapEffect c.stream s y).2.cfg = y.cfg := (gapEffect_keeps c.stream s y).2
  have going : x.state ≠ .faulted := by rw [opened]; decide
  refine ⟨fun judged => ?inOrder, fun judged => ?gap, by decide, by decide, by decide, fun b no1 no2 no3 => ?other⟩
  case inOrder =>
    rw [whole, judgedCell_of_inOrder (by simpa using judged)]
    refine ⟨fun data fits => ?_, fun data misfit => ?_, fun a mark action => laterStages_of_mark _ going mark action⟩
    · rw [if_pos data]; exact laterStages_of_fit _ going data fits
    · rw [if_pos data]; exact laterStages_of_misfit _ going data misfit
  case gap =>
    rw [whole, judgedCell_of_gap (by simpa using judged)]
    refine ⟨fun faulted => ?_, fun going data fits => ?_, fun going data misfit => ?_,
      fun a going mark action => laterStages_of_mark _ going mark action⟩
    · refine (laterStages_of_faulted _ faulted).trans ?_
      rw [keepsGeometry, samples]; rfl
    · refine (laterStages_of_fit _ going data (by rw [keepsGeometry]; exact fits)).trans ?_
      rw [keepsGeometry, if_pos data]; rfl
    · refine (laterStages_of_misfit _ going data (by rw [keepsGeometry]; exact misfit)).trans ?_
      rw [keepsGeometry, if_pos data]; rfl
  case other => rw [markActionOf, if_neg no1, if_neg no2, if_neg no3]

/-! ### Samples (R34–R39) -/

theorem geometry_pages (g : Geometry) : g.pages = (g.w * (g.rows * g.cols) + 511) / 512 := rfl

theorem allocate_eq_none_iff {t : StreamId} {n : BitVec 16} {g : Geometry} {s : State} :
    allocate t n g s = none ↔ s.pool.freeDesc = [] ∨ s.pool.freePages.length < (g.w * (g.rows * g.cols) + 511) / 512 := by
  rw [← geometry_pages, allocate]
  split
  · next empty => simp [empty]
  · next h rest list =>
    split
    · next enough => simp [list, enough]
    · next short => simp [list, Nat.not_le.mp short]

theorem takeSample_of_filling {t : StreamId} {sample : List Byte} {s : State} {x : Ctx} {h : Handle} {k : Nat} {spliced : Bool}
    (opened : x.state = .opened) (fill : x.fill = .filling h k spliced) :
    takeSample t sample (s, x) = placeSample t h k spliced sample s x := by simp only [takeSample, opened, fill, if_true]

theorem takeSample_of_empty {t : StreamId} {sample : List Byte} {s : State} {x : Ctx} (opened : x.state = .opened)
    (fill : x.fill = .empty) : takeSample t sample (s, x) = startBlock t sample s x := by
  simp only [takeSample, opened, fill, if_true]

theorem takeSample_discards {t : StreamId} {sample : List Byte} {s : State} {x : Ctx} (left : x.state ≠ .opened ∨ x.fill = .hunting) :
    takeSample t sample (s, x) = (s, x.discardSamples 1) := by
  unfold takeSample
  split
  · next opened =>
    obtain left | hunting := left
    · exact absurd opened left
    · simp only [hunting]
  · rfl

/-- A stream that hunts discards every sample. -/
theorem takeSamples_hunting {t : StreamId} (samples : List (List Byte)) {s : State} {x : Ctx} (hunting : x.fill = .hunting) :
    takeSamples t samples (s, x) = (s, x.discardSamples samples.length) := by
  induction samples generalizing x with
  | nil => simp [takeSamples, Ctx.discardSamples]
  | cons sample later ih =>
    rw [takeSamples, takeSample_discards (.inr hunting), ih (x := x.discardSamples 1) hunting]
    simp only [Ctx.discardSamples, List.length_cons, Nat.add_comm later.length 1, BitVec.ofNat_add, BitVec.add_assoc]

/-- The samples are placed one at a time. The record of a start has the fill index that the first sample finds. -/
theorem placeSample_congr {t : StreamId} {h : Handle} {k : Nat} {spliced : Bool} {sample : List Byte} {s : State} {x : Ctx} (f : Fill) :
    placeSample t h k spliced sample s { x with fill := f } = placeSample t h k spliced sample s x := by
  unfold placeSample
  simp only
  split <;> rfl

/-- Settles O26: FILLING, a start, HUNTING, and a start that fails. -/
theorem sampleHandledBySubState : Obligations.SampleHandledBySubState := by
  refine ⟨fun t sample s x => ⟨fun h k spliced opened fill => ?filling, fun h u opened fill found => ?start, takeSample_discards⟩,
    fun t sample later s x opened fill short => ?failed⟩
  case filling =>
    rw [takeSample_of_filling opened fill]
    refine ⟨fun more => ?_, fun last => ?_⟩
    · exact if_neg (Nat.ne_of_lt more)
    · exact if_pos last
  case start =>
    have filling : takeSample t sample (u, { x with nextBlock := x.nextBlock + 1, fill := .filling h 0 false }) =
        placeSample t h 0 false sample u { x with nextBlock := x.nextBlock + 1, fill := .filling h 0 false } :=
      takeSample_of_filling opened rfl
    rw [takeSample_of_empty opened fill, startBlock, found, filling]
    exact (placeSample_congr (x := { x with nextBlock := x.nextBlock + 1 }) _).symm
  case failed =>
    have none : allocate t x.nextBlock x.cfg.geom s = .none := allocate_eq_none_iff.mpr short
    rw [takeSamples, takeSample_of_empty opened fill, startBlock, none]
    simp only
    rw [takeSamples_hunting later rfl]
    simp only [Ctx.discardSamples, Nat.add_comm later.length 1, BitVec.ofNat_add, BitVec.add_assoc]
    rfl

end Sys2Proof.Machine
end

section
/-!
SUPPORT. The buffer pool, the drain registry and the frame link port: allocation, freeing, queue entry, selection and credit (R51–R70,
R126–R133).
-/
namespace Sys2Proof.Machine

open Sys2Proof

/-! ### The judgement of the port (R129, R133) -/

theorem judgePort_selects {s : State} (none : s.link.inflight = none) (notStalled : s.link.port ≠ .stalled) :
    judgePort s =
      if hasWaiting s then
        if 0 < s.link.credit then takeForSending s
        else if s.link.port = .waiting then s
        else { s with link.port := .waiting, link.timer := loadedTimer s.agent.limits }
      else { s with link.port := .idle, link.timer := .none } := by
  rw [judgePort, none]
  cases port : s.link.port with
  | stalled => exact absurd port notStalled
  | idle | sending | waiting => simp only <;> rfl

theorem judgePort_of_busy {s : State} (busy : s.link.inflight ≠ none ∨ s.link.port = .stalled) : judgePort s = s := by
  obtain some | stalled := busy
  · exact judgePort_of_inflight (Option.isSome_iff_ne_none.mpr some)
  · exact judgePort_of_stalled stalled

/-- With credit the item that waits is taken. -/
theorem judgePort_takes {s : State} (none : s.link.inflight = none) (notStalled : s.link.port ≠ .stalled)
    (waits : hasWaiting s = true) (credit : 0 < s.link.credit) : judgePort s = takeForSending s := by
  rw [judgePort_selects none notStalled, if_pos waits, if_pos credit]

/-- A judgement takes an item for sending, or writes port state and timer alone. -/
theorem judgePort_cases (s : State) :
    (s.link.inflight = none ∧ judgePort s = takeForSending s) ∨
      ∃ p m, judgePort s = { s with link := { s.link with port := p, timer := m } } := by
  by_cases busy : s.link.inflight ≠ none ∨ s.link.port = .stalled
  · exact .inr ⟨_, _, judgePort_of_busy busy⟩
  · rw [not_or, Classical.not_not] at busy
    obtain ⟨none, notStalled⟩ := busy
    rw [judgePort_selects none notStalled]
    split
    · split
      · exact .inl ⟨none, rfl⟩
      · split
        · exact .inr ⟨_, _, rfl⟩
        · exact .inr ⟨_, _, rfl⟩
    · exact .inr ⟨_, _, rfl⟩

/-- What waits is owed as before, whether or not it is taken for sending, and only the descriptor of a block that is taken is written. -/
structure OwedKept (s t : State) : Prop where
  replies : owedReplies t = owedReplies s
  notices : owedNotices t = owedNotices s
  blocks : ∀ c : EgressClass, owedBlocks c t = owedBlocks c s
  desc : ∀ h : Handle, t.pool.desc[h] = s.pool.desc[h] ∨ t.pool.desc[h] = { s.pool.desc[h] with state := .sending }

theorem OwedKept.refl (s : State) : OwedKept s s := ⟨rfl, rfl, fun _ => rfl, fun _ => .inl rfl⟩

theorem takeNotice_owed {n : Notice} {rest : List Notice} {s : State} (none : s.link.inflight = none)
    (queue : s.notices.queue = n :: rest) : OwedKept s (takeNotice n rest s) := by
  unfold takeNotice
  split <;> exact ⟨by simp [owedReplies, startFrame, none], by simp [owedNotices, startFrame, none, queue],
    fun c => by simp [owedBlocks, startFrame, none], fun _ => .inl rfl⟩

theorem takeBlock_owed {s : State} (none : s.link.inflight = none) : OwedKept s (takeBlock s) := by
  unfold takeBlock
  split
  · exact .refl s
  · next c budget _ =>
    split
    · exact .refl s
    · next h rest queue =>
      refine ⟨by simp [owedReplies, startFrame, none], by simp [owedNotices, startFrame, none], fun d => ?_, fun j => ?_⟩
      · simp only [owedBlocks, startFrame, none, setDescState_frame, setQueue, getElem_set_fin]
        by_cases same : c = d
        · subst same
          rw [if_pos rfl, if_pos rfl, queue]
          rfl
        · rw [if_neg same, if_neg same]
      · simp only [startFrame, setDescState, setDesc, setQueue, getElem_set_fin]
        split
        · next same => subst same; exact .inr rfl
        · exact .inl rfl

theorem takeForSending_owed {s : State} (none : s.link.inflight = none) : OwedKept s (takeForSending s) := by
  unfold takeForSending
  split
  · next r rest queue =>
    exact ⟨by simp [owedReplies, startFrame, none, queue], by simp [owedNotices, startFrame, none],
      fun c => by simp [owedBlocks, startFrame, none], fun _ => .inl rfl⟩
  · split
    · next queue => exact takeNotice_owed none queue
    · exact takeBlock_owed none

theorem judgePort_owed (s : State) : OwedKept s (judgePort s) := by
  obtain ⟨none, eq⟩ | ⟨p, m, eq⟩ := judgePort_cases s
  · rw [eq]; exact takeForSending_owed none
  · rw [eq]; exact ⟨rfl, rfl, fun _ => rfl, fun _ => .inl rfl⟩

/-! ### The round-robin (R130) -/

theorem chooseClass_current {e : Egress} (l : Limits) (blocks : e.queues[e.curClass] ≠ []) (budget : 0 < e.budget) :
    chooseClass e l = some (e.curClass, e.budget - 1) := by
  have stays : (!e.queues[e.curClass].isEmpty && decide (0 < e.budget)) = true := by
    rw [Bool.and_eq_true]
    exact ⟨by simpa using blocks, decide_eq_true budget⟩
  rw [chooseClass, if_pos stays]

theorem chooseClass_search {e : Egress} (l : Limits) (ended : e.queues[e.curClass] = [] ∨ e.budget = 0) :
    chooseClass e l = ([classAfter e.curClass 1, classAfter e.curClass 2, classAfter e.curClass 3, e.curClass].find?
      (fun c => !e.queues[c].isEmpty)).map (fun c => (c, l.weights[c] - 1)) := by
  rw [chooseClass, if_neg]
  obtain empty | zero := ended
  · simp [empty]
  · simp [zero]

theorem classAfter_val (c : EgressClass) (n : Nat) : (classAfter c n).val = (c.val + n) % 4 := rfl

/-- Of the classes after the current one, the current one last, the first with blocks is chosen. -/
theorem chooseClass_next {e : Egress} (l : Limits) (ended : e.queues[e.curClass] = [] ∨ e.budget = 0) {k : Nat} {c : EgressClass}
    (low : 1 ≤ k) (high : k ≤ 4) (place : c.val = (e.curClass.val + k) % 4) (blocks : e.queues[c] ≠ [])
    (before : ∀ (j : Nat) (d : EgressClass), 1 ≤ j → j < k → d.val = (e.curClass.val + j) % 4 → e.queues[d] = []) :
    chooseClass e l = some (c, l.weights[c] - 1) := by
  have skip (j : Nat) (h : 1 ≤ j ∧ j < k) : (!e.queues[classAfter e.curClass j].isEmpty) = false := by
    rw [before j _ h.1 h.2 (classAfter_val _ _)]; rfl
  have found : (!e.queues[c].isEmpty) = true := by simpa using blocks
  have here : k < 4 → c = classAfter e.curClass k := fun _ => Fin.ext place
  rw [chooseClass_search l ended]
  have cases : k = 1 ∨ k = 2 ∨ k = 3 ∨ k = 4 := by omega
  obtain rfl | rfl | rfl | rfl := cases
  · rw [← here (by decide),
      List.find?_cons_of_pos (p := fun c : EgressClass => !e.queues[c].isEmpty) found]
    rfl
  · rw [List.find?_cons_of_neg (by rw [skip 1 (by decide)]; decide), ← here (by decide),
      List.find?_cons_of_pos (p := fun c : EgressClass => !e.queues[c].isEmpty) found]
    rfl
  · rw [List.find?_cons_of_neg (by rw [skip 1 (by decide)]; decide), List.find?_cons_of_neg (by rw [skip 2 (by decide)]; decide),
      ← here (by decide), List.find?_cons_of_pos (p := fun c : EgressClass => !e.queues[c].isEmpty) found]
    rfl
  · have last : c = e.curClass := Fin.ext (by omega)
    rw [List.find?_cons_of_neg (by rw [skip 1 (by decide)]; decide), List.find?_cons_of_neg (by rw [skip 2 (by decide)]; decide),
      List.find?_cons_of_neg (by rw [skip 3 (by decide)]; decide), ← last,
      List.find?_cons_of_pos (p := fun c : EgressClass => !e.queues[c].isEmpty) found]
    rfl

theorem chooseClass_none {e : Egress} (l : Limits) (empty : ∀ c : EgressClass, e.queues[c] = []) : chooseClass e l = none := by
  rw [chooseClass_search l (.inl (empty _)), Option.map_eq_none_iff, List.find?_eq_none]
  intro c _
  rw [empty c]
  decide

theorem takeBlock_of_chosen {s : State} {c : EgressClass} {budget : Nat} {h : Handle} {rest : List Handle}
    (chosen : chooseClass s.egress s.agent.limits = some (c, budget)) (queue : s.egress.queues[c] = h :: rest) :
    takeBlock s = startFrame (.block h c false)
      (setDescState h .sending (setQueue c rest { s with egress.curClass := c, egress.budget := budget })) := by
  rw [takeBlock, chosen]
  simp only
  rw [queue]

/-- Settles O32: the take by what waits, the port without a take, and the round-robin. -/
theorem selectionTakesReplyNoticeThenBlock : Obligations.SelectionTakesReplyNoticeThenBlock := by
  refine ⟨fun s none notStalled => ?takes, fun s busy => judgePort_of_busy busy, fun e l => ⟨chooseClass_current l, ?search, chooseClass_none l⟩⟩
  case search => exact fun ended k c low high place blocks before => chooseClass_next l ended low high place blocks before
  case takes =>
    have takes {waits : hasWaiting s = true} (credit : 1 ≤ s.link.credit) := judgePort_takes none notStalled waits credit
    refine ⟨fun r rest credit queue => ?reply, fun n rest credit noReply queue fresh => ?notice,
      fun n rest credit noReply queue taken => ?returned, fun c budget h rest credit noReply noNotice chosen queue => ?block,
      fun waits noCredit notWaiting => ?enters, fun waits noCredit waiting => ?stays, fun nothing => ?rests⟩
    case reply =>
      rw [judgePort_takes none notStalled (by simp [hasWaiting, queue]) credit, takeForSending, queue]
      rfl
    case notice =>
      rw [judgePort_takes none notStalled (by simp [hasWaiting, queue]) credit, takeForSending, noReply]
      simp only
      rw [queue]
      simp only
      rw [takeNotice, fresh]
      rfl
    case returned =>
      obtain ⟨lost, lostEq⟩ := Option.ne_none_iff_exists'.mp taken
      rw [judgePort_takes none notStalled (by simp [hasWaiting, queue]) credit, takeForSending, noReply]
      simp only
      rw [queue]
      simp only
      rw [takeNotice, lostEq]
      rfl
    case block =>
      have waits : hasWaiting s = true := by
        have some : hasBlocks s.egress = true := (hasBlocks_iff _).mpr ⟨c, by rw [queue]; exact List.cons_ne_nil _ _⟩
        rw [hasWaiting, some, Bool.or_true]
      rw [judgePort_takes none notStalled waits credit, takeForSending, noReply]
      simp only
      rw [noNotice]
      simp only
      rw [takeBlock_of_chosen chosen queue]
      rw [← noReply]
      rfl
    case enters => rw [judgePort_selects none notStalled, if_pos waits, noCredit, if_neg (by decide), if_neg notWaiting, loadedTimer]
    case stays => rw [judgePort_selects none notStalled, if_pos waits, noCredit, if_neg (by decide), if_pos waiting]
    case rests => rw [judgePort_selects none notStalled, nothing]; rfl

/-! ### Credit (R132) -/

/-- Settles O33: the credit is added, a stall ended, and the port judged. -/
theorem creditGrantRaisesCreditAndSelects : Obligations.CreditGrantRaisesCreditAndSelects := by
  intro g s awake credit counters
  have runs : exec (.creditGrant g) s = .next (grant g s) := exec_of_awake rfl awake
  have added : addCredit g.toNat s = { s with link.credit := credit, agent.counters := counters } := by
    by_cases excess : 15 < s.link.credit + g.toNat
    · simp only [addCredit, Config.creditMax, credit, counters, excess, if_true]
      rfl
    · simp only [addCredit, Config.creditMax, credit, counters, excess, if_false]
  have positive (some : g ≠ 0) : 0 < g.toNat := by
    rcases Nat.eq_zero_or_pos g.toNat with zero | pos
    · exact absurd (BitVec.eq_of_toNat_eq zero) some
    · exact pos
  have granted (some : g ≠ 0) : grant g s = judgePort (endStall { s with link.credit := credit, agent.counters := counters }) := by
    rw [grant, if_neg some, added]
  refine ⟨fun zero => ?zero, fun some flies notStalled => ?flying, fun some none nothing => ?idle, fun some none waits => ?sends⟩
  case zero => rw [runs, grant, if_pos zero]
  case flying =>
    have still : endStall { s with link.credit := credit, agent.counters := counters } =
        { s with link.credit := credit, agent.counters := counters } := by
      unfold endStall
      split
      · next stalled => exact absurd stalled notStalled
      all_goals rfl
    rw [runs, granted some, still]
    exact congrArg Host.Outcome.next (judgePort_of_busy (.inl flies))
  all_goals
    obtain ⟨p, ended, notStalled⟩ : ∃ p, endStall { s with link.credit := credit, agent.counters := counters } =
        { s with link := { s.link with credit := credit, port := p }, agent.counters := counters } ∧ p ≠ .stalled := by
      unfold endStall
      split
      · exact ⟨.idle, rfl, by decide⟩
      all_goals
        next port => exact ⟨s.link.port, rfl, by rw [show s.link.port = _ from port]; decide⟩
    rw [runs, granted some, ended]
  case idle =>
    have judged := judgePort_selects (s := { s with
      link := { s.link with credit := credit, port := p }, agent.counters := counters }) none notStalled
    refine congrArg Host.Outcome.next (judged.trans (if_neg ?_))
    exact Bool.eq_false_iff.mp nothing
  case sends =>
    have enough : 0 < credit := by
      have := positive some
      simp only [credit]
      split <;> omega
    have takes : judgePort { s with link := { s.link with credit := credit, port := p }, agent.counters := counters } =
        takeForSending { s with link := { s.link with credit := credit, port := p }, agent.counters := counters } :=
      judgePort_takes none notStalled waits enough
    rw [takes]
    obtain ⟨item, flies, port, spent, timer⟩ := takeForSending_link (s :=
      { s with link := { s.link with credit := credit, port := p }, agent.counters := counters }) waits
    obtain ⟨ingress, -, engine, -, agent, -, -, mem, pages, -, drain, -⟩ := takeForSending_frame
      { s with link := { s.link with credit := credit, port := p }, agent.counters := counters }
    have owed := takeForSending_owed (s := { s with link := { s.link with credit := credit, port := p }, agent.counters := counters }) none
    exact ⟨_, rfl, spent, port, timer, by rw [flies]; exact Option.some_ne_none _, agent, owed.replies, owed.notices, owed.blocks, drain,
      pages, mem, engine, ingress⟩

/-! ### Allocation and freeing (R58–R63) -/

/-- Settles O29. -/
theorem allocationTakesHeadsOfFreeLists : Obligations.AllocationTakesHeadsOfFreeLists := by
  intro t blockNo g s
  refine ⟨allocate_eq_none_iff, fun h u taken => ?_⟩
  unfold allocate at taken
  split at taken
  · cases taken
  · next first rest list =>
    obtain ⟨enough, taken⟩ := Option.ite_none_right_eq_some.mp taken
    simp only [Option.some.injEq, Prod.mk.injEq] at taken
    obtain ⟨rfl, made⟩ := taken
    have own : u.pool.desc[first] = ⟨.filling, t, blockNo, g, s.pool.freePages.take g.pages, 0, .none⟩ := by
      rw [← made]; exact getElem_set_fin_self _ _ _
    have others (j : Handle) (other : j ≠ first) : u.pool.desc[j] = s.pool.desc[j] := by
      rw [← made]; exact getElem_set_fin_ne _ _ other
    have lists : u.pool.freeDesc = rest ∧ u.pool.freePages = s.pool.freePages.drop g.pages := by rw [← made]; exact ⟨rfl, rfl⟩
    obtain ⟨descs, pages⟩ := lists
    rw [own, descs, pages]
    refine ⟨list, (List.take_append_drop _ _).symm, ?_, rfl, rfl, rfl, rfl, rfl, others, ?_⟩
    · rw [List.length_take, Nat.min_eq_left enough, geometry_pages]
    · rw [← made]
      exact ⟨rfl, rfl, rfl, rfl, rfl, rfl, rfl, rfl, rfl⟩

/-! ### The drain-completion list (R67, R85) -/

section
variable (s : State)

theorem judgeTake_drainList (p : Party) : (judgeTake p s).engine.drainList = s.engine.drainList := by
  unfold judgeTake
  split
  · split
    · split
      · rfl
      · cases p <;> rfl
    · rfl
  all_goals rfl

theorem judgeLodge_drainList (p : Party) : (judgeLodge p s).engine.drainList = s.engine.drainList := by
  unfold judgeLodge
  split
  · split
    · rfl
    · cases p <;> rfl
  all_goals rfl

theorem startRequest_drainList (p : Party) : (startRequest p s).engine.drainList = s.engine.drainList := by
  unfold startRequest
  split
  · split
    · rw [judgeTake_drainList]
      cases p <;> rfl
    · split
      · cases p <;> rfl
      · rfl
  · rfl

theorem sendHead_drainList (c : StreamCell) (i : SlotNo) : (sendHead c i s).engine.drainList = s.engine.drainList := by
  unfold sendHead
  split
  · rfl
  · split
    · rfl
    · split <;> rfl

theorem dispatchHead_drainList : (dispatchHead s).engine.drainList = s.engine.drainList := by
  unfold dispatchHead
  split
  · split
    · split
      · split <;> rfl
      · split
        · exact sendHead_drainList s _ _
        · rfl
    · split
      · split
        · exact sendHead_drainList s _ _
        · simp only
          split
          · split <;> rfl
          · split <;> rfl
      · rfl
  · rfl

theorem startNext_drainList : (startNext s).engine.drainList = s.engine.drainList := by
  have requests := (startRequest_drainList (startRequest .management s) .drain).trans (startRequest_drainList s .management)
  unfold startNext
  split
  · unfold startDispatcher
    split
    · exact (dispatchHead_drainList _).trans requests
    · exact requests
  all_goals rfl

theorem askEngage_drainList (p : Party) (t : StreamId) : (askEngage p t s).engine.drainList = s.engine.drainList := by
  have asked : (setReq p (.asked t) s).engine.drainList = s.engine.drainList := by cases p <;> rfl
  unfold askEngage
  simp only
  split
  · rw [startNext_drainList, judgeLodge_drainList, judgeTake_drainList, asked]
  all_goals exact asked

theorem serveDrain_drainList : (serveDrain s).engine.drainList = s.engine.drainList := by
  unfold serveDrain
  split
  · exact askEngage_drainList s _ _
  · rfl

/-- A drain completion that is raised stands in the list. -/
theorem mem_raiseDrain_drainList (t : StreamId) : t ∈ (raiseDrain t s).engine.drainList := by
  unfold raiseDrain
  split
  · next there => exact List.contains_iff_mem.mp there
  · rw [serveDrain_drainList]
    simp

/-- A stream that stands in the list stays there. -/
theorem mem_raiseDrain_of_mem {t u : StreamId} (there : u ∈ s.engine.drainList) : u ∈ (raiseDrain t s).engine.drainList := by
  unfold raiseDrain
  split
  · exact there
  · rw [serveDrain_drainList]
    exact List.mem_append_left _ there

end

theorem fallOutstanding_pool (t : StreamId) (s : State) : (fallOutstanding t s).pool = { s.pool with
    drain := s.pool.drain.set t (if s.pool.drain[t].count - 1 = 0 ∧ s.pool.drain[t].pending = true then ⟨0, false⟩
      else ⟨s.pool.drain[t].count - 1, s.pool.drain[t].pending⟩) } := by
  unfold fallOutstanding
  simp only [Bool.and_eq_true, decide_eq_true_eq]
  split
  · rw [(raiseDrain_request t _).pool]; rfl
  · rfl

theorem fallOutstanding_engine {t : StreamId} {s : State} (stays : ¬ (s.pool.drain[t].count - 1 = 0 ∧ s.pool.drain[t].pending = true)) :
    (fallOutstanding t s).engine = s.engine := by
  unfold fallOutstanding
  simp only [Bool.and_eq_true, decide_eq_true_eq]
  rw [if_neg stays]
  rfl

theorem mem_fallOutstanding_drainList {t : StreamId} {s : State} (zero : s.pool.drain[t].count - 1 = 0)
    (pending : s.pool.drain[t].pending = true) : t ∈ (fallOutstanding t s).engine.drainList := by
  unfold fallOutstanding
  simp only [Bool.and_eq_true, decide_eq_true_eq]
  rw [if_pos ⟨zero, pending⟩]
  exact mem_raiseDrain_drainList _ t

theorem freeBlock_eq (h : Handle) (s : State) : freeBlock h s =
    judgePoolLow { s with pool := { s.pool with
      desc := s.pool.desc.set h .free
      freePages := s.pool.freePages ++ s.pool.desc[h].pages
      freeDesc := s.pool.freeDesc ++ [h] } } := rfl

theorem withoutHandle_getElem (h : Handle) (q : Vector (List Handle) 4) (c : EgressClass) : (withoutHandle h q)[c] = q[c].erase h := by
  match c with
  | 0 | 1 | 2 | 3 => rfl

theorem QueuesDisjoint.nodup {s : State} (d : QueuesDisjoint s) (c : EgressClass) : s.egress.queues[c].Nodup := by
  unfold QueuesDisjoint at d
  simp only [List.nodup_append] at d
  match c with
  | 0 => exact d.1.1.1
  | 1 => exact d.1.1.2.1
  | 2 => exact d.1.2.1
  | 3 => exact d.2.1

theorem freeQueued_egress (h : Handle) (s : State) :
    (freeQueued h s).egress = { s.egress with queues := withoutHandle h s.egress.queues } := by
  unfold freeQueued fallOutstanding
  simp only
  split
  · rw [(raiseDrain_request _ _).egress]; rfl
  · rfl

/-- Settles O30: the free lists, the descriptor, and the outstanding count of a QUEUED block. -/
theorem freeingReturnsStorageAndLowersCount : Obligations.FreeingReturnsStorageAndLowersCount := by
  refine ⟨fun h s => ?_, fun h s disjoint => ?_⟩
  · have own : (s.pool.desc.set h Desc.free)[h] = Desc.free := getElem_set_fin_self _ _ _
    refine ⟨rfl, rfl, ?_, fun j other => ?_, rfl, rfl, rfl, rfl, rfl, rfl, rfl, rfl⟩
    · exact congrArg Desc.state own
    · exact getElem_set_fin_ne _ _ other
  · have pool := fallOutstanding_pool s.pool.desc[h].stream (freeBlock h { s with egress.queues := withoutHandle h s.egress.queues })
    have freed : freeQueued h s =
        fallOutstanding s.pool.desc[h].stream (freeBlock h { s with egress.queues := withoutHandle h s.egress.queues }) := rfl
    rw [← freed] at pool
    refine ⟨by rw [pool]; rfl, by rw [pool]; rfl, by rw [pool]; rfl, by rw [pool]; rfl, fun c => ?_, fun r other => ?_,
      fun zero pending => ⟨?_, ?_⟩, fun stays => ⟨?_, ?_⟩⟩
    · rw [freeQueued_egress, withoutHandle_getElem, (disjoint.nodup c).erase_eq_filter]
      congr 1
      funext j
      exact Bool.eq_iff_iff.mpr (by simp)
    · rw [pool]; exact getElem_set_fin_ne _ _ other
    · rw [pool]
      refine (getElem_set_fin_self _ _ _).trans (if_pos ⟨zero, pending⟩)
    · exact mem_fallOutstanding_drainList zero pending
    · rw [pool]
      exact (getElem_set_fin_self _ _ _).trans (if_neg stays)
    · exact fallOutstanding_engine stays

/-! ### Queue entry (R9, R41, R126) -/

/-- Settles O31: what the entry writes, and what the selection after it keeps. -/
theorem queueEntryJoinsTailOrIsDiscarded : Obligations.QueueEntryJoinsTailOrIsDiscarded := by
  intro t c h s
  refine ⟨fun stalled discardable => if_pos ⟨stalled, discardable⟩, fun kept => ?_⟩
  have enters : queueEntry t c h s =
      judgePort (riseOutstanding t (setQueue c (s.egress.queues[c] ++ [h]) (setDescState h .queued s))) := by
    rw [queueEntry, if_neg]
    rintro ⟨stalled, discardable⟩
    obtain notStalled | no := kept
    · exact notStalled stalled
    · rw [isDiscardable, no] at discardable; cases discardable
  intro u
  have whole : u = judgePort (riseOutstanding t (setQueue c (s.egress.queues[c] ++ [h]) (setDescState h .queued s))) := enters
  have owed := judgePort_owed (riseOutstanding t (setQueue c (s.egress.queues[c] ++ [h]) (setDescState h .queued s)))
  obtain ⟨ingress, -, engine, -, agent, -, -, mem, pages, free, drain, -⟩ :=
    judgePort_frame (riseOutstanding t (setQueue c (s.egress.queues[c] ++ [h]) (setDescState h .queued s)))
  rw [← whole] at owed ingress engine agent mem pages free drain
  have own : (s.pool.desc.set h { s.pool.desc[h] with state := .queued })[h] = _ := getElem_set_fin_self _ _ _
  refine ⟨?_, fun d other => ?_, ?_, ?_, fun r other => ?_, pages, free, mem, agent, engine, ingress, owed.replies, owed.notices⟩
  · rw [owed.blocks]
    have tail : (s.egress.queues.set c (s.egress.queues[c] ++ [h]))[c] = s.egress.queues[c] ++ [h] := getElem_set_fin_self _ _ _
    exact (congrArg (_ ++ ·) tail).trans (List.append_assoc _ _ _).symm
  · rw [owed.blocks]
    have same : (s.egress.queues.set c (s.egress.queues[c] ++ [h]))[d] = s.egress.queues[d] := getElem_set_fin_ne _ _ other
    exact congrArg (_ ++ ·) same
  · obtain same | sent := owed.desc h
    · exact .inl (same.trans own)
    · refine .inr (sent.trans ?_)
      exact congrArg (fun d : Desc => { d with state := DescState.sending }) own
  · rw [drain]; exact getElem_set_fin_self _ _ _
  · rw [drain]; exact getElem_set_fin_ne _ _ other

end Sys2Proof.Machine
end

section
/-!
SUPPORT. The cell bus: what becomes of a well-formed cell, the response lane, the layout of a cell, and the bus-reset sequence (R87,
R89, R107–R123, R184, R189).
-/
namespace Sys2Proof.Machine

open Sys2Proof

/-! ### A well-formed cell (R114–R116) -/

theorem wellFormedCell_of_not_faulty {c : Cell} {r : Resolution} (notFill : c.kind ≠ .fill) (claimed : r ≠ .noClaim)
    (sound : ¬ FormatFaulty c r) : wellFormedCell c r = true := by
  rw [← wellFormedCell_eq_false_iff notFill claimed, Bool.not_eq_false] at sound
  exact sound

/-- The state in which the claim of a cell is judged. -/
def seen (s : State) : State := respond none (count .cellsSeen s)

theorem Arrives.exec_claimed {bytes : List Byte} {c : Cell} {s : State} (h : Arrives bytes c s) (notFill : c.kind ≠ .fill)
    {r : Resolution} (resolved : resolve s.classifier c.tag = r) (claimed : r ≠ .noClaim) :
    exec (.cellArrival bytes) s = .next (claimedCell c r (seen s)) := by
  rw [h.exec_eq notFill, resolved, if_neg claimed]
  rfl

section
variable {c : Cell} (s : State) (notFill : c.kind ≠ .fill)
include notFill

theorem claimedCell_stream {t : StreamId} (sound : ¬ FormatFaulty c (.stream t)) :
    claimedCell c (.stream t) s = arriveStream c t s := by
  have well : wellFormedCell c (.stream t) = true := wellFormedCell_of_not_faulty notFill (by simp) sound
  rw [claimedCell, if_pos well]

theorem claimedCell_discard (sound : ¬ FormatFaulty c .discard) :
    claimedCell c .discard s = respond (some .accept) (count .cellsDiscardClass s) := by
  rw [claimedCell, if_pos (wellFormedCell_of_not_faulty notFill (by decide) sound)]

theorem claimedCell_unit (sound : ¬ FormatFaulty c .managementUnit) :
    claimedCell c .managementUnit s = arriveManagement c false s := by
  rw [claimedCell, if_pos (wellFormedCell_of_not_faulty notFill (by decide) sound)]

theorem claimedCell_broadcast (sound : ¬ FormatFaulty c .managementBroadcast) :
    claimedCell c .managementBroadcast s = arriveManagement c true s := by
  rw [claimedCell, if_pos (wellFormedCell_of_not_faulty notFill (by decide) sound)]

end

theorem inFifo_eq (k : CellKind) : k.inFifo = if k = .mark then .mark else .data := by
  cases k <;> rfl

theorem arriveStream_of_room {c : Cell} (t : StreamId) {s : State} (awake : s.resetLow = false) (ready : s.ingress.port = .ready)
    (room : s.ingress.fifo.length < 32) : arriveStream c t s = { s with
      ingress := ⟨.ready, s.ingress.fifo ++ [fifoCell c t], flagAfterEntry s, flagAfterEntry s || s.pool.low, some .accept⟩
      agent.counters := s.agent.counters.inc .cellsAccepted } := by
  rw [arriveStream, if_pos (show s.ingress.fifo.length < Config.fifoDepth from room), inFifo_eq]
  simp only [respond, fifoEntry, judgeHold, holdDue, count, awake, ready, holdFlagAtEntry, List.length_append, List.length_singleton,
    flagAfterEntry, fifoCell, bne_self_eq_false, Bool.false_or]

theorem arriveStream_of_full {c : Cell} (t : StreamId) {s : State} (full : 32 ≤ s.ingress.fifo.length) :
    arriveStream c t s = refuseFull s := if_neg (Nat.not_lt.mpr full)

theorem arriveManagement_of_room {c : Cell} (broadcast : Bool) {s : State} (room : s.agent.cmdq.length < 4) :
    arriveManagement c broadcast s =
      queueCommand c.payload (if broadcast then none else some .accept) (count .cellsAccepted s) := if_pos room

theorem arriveManagement_of_full {c : Cell} (broadcast : Bool) {s : State} (full : 4 ≤ s.agent.cmdq.length) :
    arriveManagement c broadcast s = if broadcast then dropBroadcast s else refuseFull s := if_neg (Nat.not_lt.mpr full)

/-- Settles O8: a stream with room and without, and DISCARD. -/
theorem streamCellJoinsFifoOrIsRefused : Obligations.StreamCellJoinsFifoOrIsRefused := by
  refine ⟨fun bytes c s t arrives notFill resolved sound => ?stream, fun bytes c s arrives notFill resolved sound => ?discard⟩
  case stream =>
    rw [arrives.exec_claimed notFill resolved (fun no => nomatch no), claimedCell_stream _ notFill sound]
    refine ⟨fun room => ?_, fun full => ?_⟩
    · rw [arriveStream_of_room t (s := seen s) arrives.awake arrives.ready room]; rfl
    · rw [arriveStream_of_full t (s := seen s) full]; rfl
  case discard =>
    rw [arrives.exec_claimed notFill resolved (fun no => nomatch no), claimedCell_discard _ notFill sound]
    rfl

/-- Settles O9: both tags of a command, with room and without. -/
theorem managementCellJoinsQueueOrIsRefused : Obligations.ManagementCellJoinsQueueOrIsRefused := by
  intro bytes c s arrives
  refine ⟨fun resolved sound notFill => ?unit, fun resolved sound notFill => ?broadcast⟩
  case unit =>
    rw [arrives.exec_claimed notFill resolved (fun no => nomatch no), claimedCell_unit _ notFill sound]
    refine ⟨fun room => ?_, fun full => ?_⟩
    · rw [arriveManagement_of_room false (s := seen s) room]
      exact (exec_commandTake_of_awake (u := respond (some .accept) { count .cellsAccepted (seen s) with
        agent.cmdq := s.agent.cmdq ++ [c.payload] }) arrives.awake).symm
    · rw [arriveManagement_of_full false (s := seen s) full]; rfl
  case broadcast =>
    rw [arrives.exec_claimed notFill resolved (fun no => nomatch no), claimedCell_broadcast _ notFill sound]
    refine ⟨fun room => ?_, fun full => ?_⟩
    · rw [arriveManagement_of_room true (s := seen s) room]
      exact (exec_commandTake_of_awake (u := respond none { count .cellsAccepted (seen s) with
        agent.cmdq := s.agent.cmdq ++ [c.payload] }) arrives.awake).symm
    · rw [arriveManagement_of_full true (s := seen s) full]; rfl

/-! ### The response lane (R117, R189) -/

theorem takeOne_rsp (record : List Byte) (rest : List (List Byte)) (s : State) : (takeOne record rest s).ingress.rsp = s.ingress.rsp := by
  unfold takeOne
  simp only
  split
  · exact (judgePort_block _).rsp
  · unfold beginExecution
    split
    · rw [(finish_keptByReply ..).ingress]
    · simp only
      split
      · split
        · exact (askEngage_request _ _ _).rsp
        · rfl
      · rfl

theorem takeNext_rsp (s : State) : (takeNext s).ingress.rsp = s.ingress.rsp := by
  unfold takeNext
  generalize s.agent.cmdq.length = n
  induction n generalizing s with
  | zero => rfl
  | succ n ih =>
    unfold takeCommands
    split
    · split
      · rw [ih, takeOne_rsp]
      · rfl
    · rfl

theorem rspPins_of_none {s : State} (none : s.ingress.rsp = .none) : s.rspPins = (.released, .released) :=
  (rspPins_released_iff s).mpr none

theorem rspPins_of_some {s : State} {r : Response} (some : s.ingress.rsp = .some r) : s.rspPins = rspLines (.some r) := by
  rw [State.rspPins, some]

theorem refuseFull_rsp (s : State) : (refuseFull s).ingress.rsp = some .refuseFull := (requestNotice_block _ _ _).rsp

theorem dropBroadcast_rsp (s : State) : (dropBroadcast s).ingress.rsp = none := (requestNotice_block _ _ _).rsp

theorem arriveStream_rsp (c : Cell) (t : StreamId) (s : State) :
    (arriveStream c t s).ingress.rsp = some (if s.ingress.fifo.length < 32 then .accept else .refuseFull) := by
  by_cases room : s.ingress.fifo.length < 32
  · rw [arriveStream, if_pos (show s.ingress.fifo.length < Config.fifoDepth from room), if_pos room]; rfl
  · rw [arriveStream_of_full t (Nat.not_lt.mp room), if_neg room, refuseFull_rsp]

theorem arriveManagement_rsp (c : Cell) (broadcast : Bool) (s : State) :
    (arriveManagement c broadcast s).ingress.rsp =
      if broadcast then none else some (if s.agent.cmdq.length < 4 then .accept else .refuseFull) := by
  by_cases room : s.agent.cmdq.length < 4
  · rw [arriveManagement_of_room broadcast room, queueCommand, takeNext_rsp, if_pos room]
    rfl
  · rw [arriveManagement_of_full broadcast (Nat.not_lt.mp room), if_neg room]
    cases broadcast with
    | true => exact dropBroadcast_rsp s
    | false => exact refuseFull_rsp s

/-- There is space for a cell of a resolution (R114, R115). -/
def roomFor (s : State) : Resolution → Prop
  | .stream _ => s.ingress.fifo.length < 32
  | .managementUnit => s.agent.cmdq.length < 4
  | .discard | .managementBroadcast | .noClaim => True

theorem claimedCell_rsp_of_room {c : Cell} {r : Resolution} {s : State} (notFill : c.kind ≠ .fill) (claimed : r ≠ .noClaim)
    (answered : r ≠ .managementBroadcast) (sound : ¬ FormatFaulty c r) (room : roomFor s r) :
    (claimedCell c r s).ingress.rsp = some .accept := by
  cases r with
  | noClaim => exact absurd rfl claimed
  | managementBroadcast => exact absurd rfl answered
  | discard => rw [claimedCell_discard s notFill sound]; rfl
  | stream t => rw [claimedCell_stream s notFill sound, arriveStream_rsp, if_pos (show s.ingress.fifo.length < 32 from room)]
  | managementUnit => rw [claimedCell_unit s notFill sound, arriveManagement_rsp, if_pos (show s.agent.cmdq.length < 4 from room)]; rfl

theorem claimedCell_rsp_of_full {c : Cell} {r : Resolution} {s : State} (notFill : c.kind ≠ .fill) (sound : ¬ FormatFaulty c r)
    (full : ¬ roomFor s r) : (claimedCell c r s).ingress.rsp = some .refuseFull := by
  cases r with
  | noClaim | managementBroadcast | discard => exact absurd trivial full
  | stream t => rw [claimedCell_stream s notFill sound, arriveStream_rsp, if_neg (show ¬ s.ingress.fifo.length < 32 from full)]
  | managementUnit => rw [claimedCell_unit s notFill sound, arriveManagement_rsp, if_neg (show ¬ s.agent.cmdq.length < 4 from full)]; rfl

theorem claimedCell_rsp_of_faulty {c : Cell} {r : Resolution} {s : State} (notFill : c.kind ≠ .fill) (claimed : r ≠ .noClaim)
    (faulty : FormatFaulty c r) :
    (claimedCell c r s).ingress.rsp = if r = .managementBroadcast then none else some .refuseFormat := by
  rw [claimedCell_of_formatFaulty _ notFill claimed faulty, ← answer_of_claimed _ claimed]
  rfl

theorem claimedCell_rsp_broadcast {c : Cell} {s : State} (notFill : c.kind ≠ .fill) :
    (claimedCell c .managementBroadcast s).ingress.rsp = none := by
  by_cases faulty : FormatFaulty c .managementBroadcast
  · rw [claimedCell_rsp_of_faulty notFill (by decide) faulty]; rfl
  · rw [claimedCell_broadcast s notFill faulty, arriveManagement_rsp]; rfl

theorem busReset_rsp (s : State) : (busReset s).ingress.rsp = none := by
  unfold busReset
  refine (requestNotice_block _ _ _).rsp.trans ((count_block _ _).rsp.trans ((requestSweep_effect _ _).rsp.trans ?_))
  split <;> rfl

/-- Settles O10: the lines of each answer, and the events that leave the lane undriven. -/
theorem responsePinsShowTheAnswer : Obligations.ResponsePinsShowTheAnswer := by
  refine ⟨fun bytes c s arrives notFill => ?claimed, fun bytes c s awake parsed unjudged => ?unjudged, fun s awake => ?busReset,
    fun ns s long => ?reset⟩
  case claimed =>
    intro r
    have resolved : resolve s.classifier c.tag = r := rfl
    clear_value r
    intro room
    have roomIs : room ↔ roomFor (seen s) r := by cases r <;> exact .rfl
    by_cases noClaim : r = .noClaim
    · rw [arrives.exec_eq notFill, resolved, if_pos noClaim]
      exact ⟨_, rfl, fun _ => rspPins_of_none rfl, fun no => absurd noClaim no⟩
    · rw [arrives.exec_claimed notFill resolved noClaim]
      refine ⟨_, rfl, fun quiet => rspPins_of_none ?_, fun _ answered => ⟨fun faulty => ?_, fun sound fits => ?_, fun sound full => ?_⟩⟩
      · rw [quiet.resolve_left noClaim, claimedCell_rsp_broadcast notFill]
      · have rsp := claimedCell_rsp_of_faulty (s := seen s) notFill noClaim faulty
        rw [if_neg answered] at rsp
        exact rspPins_of_some rsp
      · exact rspPins_of_some (claimedCell_rsp_of_room notFill noClaim answered sound (roomIs.mp fits))
      · exact rspPins_of_some (claimedCell_rsp_of_full notFill sound (mt roomIs.mpr full))
  case unjudged =>
    rw [exec_cellArrival_of_parse awake parsed]
    refine ⟨_, rfl, rspPins_of_none ?_⟩
    by_cases ready : s.ingress.port = .ready
    · rw [arrive_of_ready ready]
      cases check : c.checkOk with
      | false => rw [judgeArrival_of_failed_check check]; rfl
      | true =>
        rw [check] at unjudged
        have fill : c.kind = .fill := (unjudged.resolve_left (not_not_intro ready)).resolve_left (by decide)
        rw [judgeArrival_of_fill check fill]; rfl
    · rw [arrive_of_not_ready ready]; rfl
  case busReset => exact ⟨_, exec_of_awake rfl awake, rspPins_of_none (busReset_rsp s)⟩
  case reset =>
    rw [exec_resetNAssert, if_pos long]
    exact ⟨_, rfl, rspPins_of_none rfl⟩

/-! ### The layout of a cell (R184) -/

theorem word16_bytes16 (v : BitVec 16) : word16 (v.extractLsb' 8 8) (v.extractLsb' 0 8) = v :=
  BitVec.extractLsb'_append_extractLsb'

theorem extractLsb'_low_append {m n : Nat} (x : BitVec m) (y : BitVec n) : (x ++ y).extractLsb' 0 n = y :=
  BitVec.extractLsb'_append_eq_right

theorem extractLsb'_high_append {m n : Nat} (x : BitVec m) (y : BitVec n) : (x ++ y).extractLsb' n m = x :=
  BitVec.extractLsb'_append_eq_left

section
variable (version : BitVec 4) (kind : BitVec 2) (sync spare0 spare1 : Bool)

theorem firstByte_fields :
    let b : Byte := version ++ kind ++ BitVec.ofBool sync ++ BitVec.ofBool spare0
    b.extractLsb' 4 4 = version ∧ b.extractLsb' 2 2 = kind ∧ b.getLsbD 1 = sync := by
  revert version kind sync spare0
  decide +kernel

theorem secondByte_length {n : Nat} (short : n < 128) :
    ((BitVec.ofBool spare1 ++ BitVec.ofNat 7 n : Byte).extractLsb' 0 7).toNat = n := by
  rw [extractLsb'_low_append, BitVec.toNat_ofNat, Nat.mod_eq_of_lt short]

end

/-- Settles O11: field by field. -/
theorem cellLayoutReadsBack : Obligations.CellLayoutReadsBack := by
  refine ⟨fun version kind sync spare0 spare1 spare2 tag seq payload check short => ?layout, rfl, rfl, rfl, rfl, by decide +kernel⟩
  intro bytes
  obtain ⟨versionRead, kindRead, syncRead⟩ := firstByte_fields version kind sync spare0
  have length : cellLengthField bytes = payload.length := secondByte_length spare1 short
  have spelled : bytes = (version ++ kind ++ BitVec.ofBool sync ++ BitVec.ofBool spare0) ::
      (BitVec.ofBool spare1 ++ BitVec.ofNat 7 payload.length) :: (spare2 ++ tag).extractLsb' 8 8 ::
      (spare2 ++ tag).extractLsb' 0 8 :: seq :: (payload ++ bytes16 check) := by
    simp [bytes, cellBytes, bytes16]
  refine ⟨?_, ?_⟩
  · have tail : (payload ++ bytes16 check).drop payload.length = [check.extractLsb' 8 8, check.extractLsb' 0 8] :=
      List.drop_left ..
    rw [spelled] at length
    rw [spelled, parseCell, length]
    simp only [tail, versionRead, kindRead, syncRead, word16_bytes16, extractLsb'_low_append, List.take_left]
  · rw [Instr.wellFormed, length, decide_eq_true_eq, spelled]
    simp [bytes16]
    omega

/-! ### Bus resets and the sweeps they begin (R87–R89, R122) -/

theorem startBusSweep_begun (s : State) : BusSweepBegun s.engine (startBusSweep s).engine := by
  have samples (w : Nat) : (fun c : StreamCell => c.samples w) = fun d => if d.kind = .data then d.payload.length / w else 0 :=
    funext fun d => d.samples_eq w
  have parts : (discardParked s).engine.parked = [] ∧ (discardParked s).engine.store = s.engine.store ∧
      (discardParked s).engine.lru = s.engine.lru ∧ (discardParked s).engine.readWaits = s.engine.readWaits ∧
      (discardParked s).engine.drainList = s.engine.drainList := by
    unfold discardParked
    split
    · next empty => exact ⟨empty, rfl, rfl, rfl, rfl⟩
    · split <;> exact ⟨rfl, rfl, rfl, rfl, rfl⟩
  obtain ⟨parked, store, lru, reads, list⟩ := parts
  obtain ⟨mgmt, drain, fetch, -, -⟩ := discardParked_engine s
  refine ⟨rfl, parked, ⟨rfl, rfl⟩, fun c i head engaged => ?_, fun i other => ?_, store, lru, fetch, reads, mgmt, drain, list⟩
  · obtain ⟨rest, cells⟩ := List.head?_eq_some_iff.mp head
    have written : (discardParked s).engine.slots = s.engine.slots.set i { s.engine.slots[i] with
        copy := s.engine.slots[i].copy.discardSamples
          (s.engine.parked.map (fun c => c.samples s.engine.slots[i].copy.cfg.geom.w)).sum
        state := if (s.engine.parked.map (fun c => c.samples s.engine.slots[i].copy.cfg.geom.w)).sum = 0
          then s.engine.slots[i].state else .dirty } := by
      rw [discardParked, cells]
      simp only
      rw [engaged]
      rfl
    have slot : (startBusSweep s).engine.slots[i] = _ := (congrArg (fun v : Vector Slot 8 => v[i]) written).trans (getElem_set_fin_self _ _ _)
    rw [slot]
    simp only [samples]
    rfl
  · show (discardParked s).engine.slots[i] = s.engine.slots[i]
    unfold discardParked
    split
    · rfl
    · next c rest cells =>
      split
      · rfl
      · next j engaged =>
        have apart : i ≠ j := by
          rintro rfl
          exact other c (by rw [cells]; rfl) engaged
        exact getElem_set_fin_ne _ _ apart

theorem startBusSweep_eq (s : State) : startBusSweep s = { s with engine := (startBusSweep s).engine } := by
  have discard : discardParked s = { s with engine := (discardParked s).engine } := by
    unfold discardParked
    split
    · rfl
    · split <;> rfl
  unfold startBusSweep
  simp only
  generalize (discardParked s).engine = e at discard
  rw [discard]

/-- SWEEP_WAIT ends where nothing is in progress. -/
theorem leaveSweepWait_begins {k : SweepKind} {s : State} (mode : s.engine.mode = .sweepWait k) (free : anyInUse s.engine = false)
    (idle : s.engine.fetch = none) : SweepBegun k s (leaveSweepWait s) := by
  rw [leaveSweepWait, mode]
  simp only [free, idle, Bool.not_false, Option.isNone_none, Bool.and_self, if_true]
  cases k with
  | init => rfl
  | bus =>
    exact ⟨startBusSweep_eq s, startBusSweep_begun s⟩

theorem leaveSweepWait_stays {s : State} (busy : anyInUse s.engine = true ∨ s.engine.fetch ≠ none) : leaveSweepWait s = s := by
  unfold leaveSweepWait
  split
  · rw [if_neg]
    simp only [Bool.and_eq_true, Bool.not_eq_true', Option.isNone_iff_eq_none]
    rintro ⟨free, idle⟩
    obtain used | some := busy
    · rw [free] at used; cases used
    · exact some idle
  all_goals rfl

/-- The port empties itself, and asks. -/
theorem busReset_of_ready {s : State} (ready : s.ingress.port = .ready) :
    busReset s = requestNotice .linkReset none (count .linkResets (requestSweep .bus (emptyForBusReset (respond none s)))) := by
  rw [busReset]
  simp only [respond, ready]

theorem busReset_of_not_ready {s : State} (notReady : s.ingress.port ≠ .ready) :
    busReset s = requestNotice .linkReset none (count .linkResets (requestSweep .bus (respond none s))) := by
  rw [busReset]
  cases port : s.ingress.port with
  | ready => exact absurd port notReady
  | init | busReset => simp only [respond, port]

/-- Settles O12: a sweep that begins at once or waits, and a bus reset beside a sweep. -/
theorem busResetEmptiesFifoAndAsksSweep : Obligations.BusResetEmptiesFifoAndAsksSweep := by
  refine ⟨fun s awake ready mode => ?ready, fun s awake fits notReady => ?again⟩
  case ready =>
    have asked : requestSweep .bus (emptyForBusReset (respond none s)) =
        leaveSweepWait { emptyForBusReset (respond none s) with engine.mode := .sweepWait .bus } := by
      rw [requestSweep]
      exact mode
    have ingress : (emptyForBusReset (respond none s)).ingress = ⟨.busReset, [], false, true, none⟩ := by
      simp [emptyForBusReset, judgeHold, holdDue, respond]
    rw [exec_of_awake (c := .busResetSequence) rfl awake, busReset_of_ready ready, asked]
    by_cases quiet : anyInUse s.engine = false ∧ s.engine.fetch = none
    · obtain ⟨free, idle⟩ := quiet
      obtain ⟨only, begun⟩ := leaveSweepWait_begins (k := .bus)
        (s := { emptyForBusReset (respond none s) with engine.mode := .sweepWait .bus }) rfl free idle
      generalize leaveSweepWait _ = t at only begun
      refine ⟨_, rfl, ?_, ?_, fun _ _ => ?_, fun busy => ?_, begun.kept.1, ?_, ?_, ?_, ?_, ?_, ?_, ?_⟩
      · rw [only]; exact ingress
      · rw [if_pos ⟨free, idle⟩]; exact begun.mode
      · exact ⟨begun.mode, begun.parked, begun.withdrawn, begun.counted, begun.slots, begun.kept⟩
      · rw [free, idle] at busy
        simp at busy
      all_goals rw [only]; rfl
    · have busy : anyInUse s.engine = true ∨ s.engine.fetch ≠ none := by
        rw [Classical.not_and_iff_not_or_not, Bool.not_eq_false] at quiet
        exact quiet
      rw [leaveSweepWait_stays (s := { emptyForBusReset (respond none s) with engine.mode := .sweepWait .bus }) busy]
      refine ⟨_, rfl, ingress, (if_neg quiet).symm, fun free idle => absurd ⟨free, idle⟩ quiet, fun _ => rfl, rfl, rfl, rfl, rfl, rfl,
        rfl, rfl, rfl⟩
  case again =>
    have joined : requestSweep .bus (respond none s) = respond none s := by
      have mode : s.engine.mode ≠ .running := by
        intro running
        rw [PortEngineAgree, running] at fits
        cases port : s.ingress.port with
        | ready => exact notReady port
        | init | busReset => rw [port] at fits; cases fits
      unfold requestSweep
      split
      · next running => exact absurd running mode
      all_goals simp_all
    rw [exec_of_awake (c := .busResetSequence) rfl awake, busReset_of_not_ready notReady, joined]
    rfl

end Sys2Proof.Machine
end

section
/-!
SUPPORT. The commands that act on no stream, the victim of a fetch and the bytes of a frame (R77, R138, R139, R158–R167, R179, R186).
-/
namespace Sys2Proof.Machine

open Sys2Proof

/-! ### UNIT_RESET (R167) -/

section
variable {record : List Byte} {s : State} (runs : Runs .unitReset record s) {mine : List Byte → Bool} (taken : mine record = true)
include runs taken

theorem unitReset_of_level {level : ResetLevel} (names : resetLevelArg record = some level) :
    unitReset mine s = finish record .done [] (.resetPending level) s := by
  simp only [unitReset, runs.executing, runs.names, taken, and_self, if_true, names]

theorem unitReset_of_no_level (illegal : resetLevelArg record = none) :
    unitReset mine s = takeNext (finish record .badArgument [] .idle s) := by
  simp only [unitReset, runs.executing, runs.names, taken, and_self, if_true, illegal]

end

theorem resetLevelArg_of_args {record rest : List Byte} {v : Byte} (args : recordArgs record = v :: rest) :
    resetLevelArg record = if v = 0 then some .streams else if v = 1 then some .full else none := by
  have arg : boolArg ((recordArgs record).getD 0 0) = boolArg v := by rw [args]; rfl
  rw [resetLevelArg, arg, boolArg]
  by_cases streams : v = 0
  · rw [if_pos streams, if_pos streams]
  · by_cases full : v = 1
    · rw [if_neg streams, if_pos full, if_neg streams, if_pos full]
    · rw [if_neg streams, if_neg full, if_neg streams, if_neg full]

/-- An execution that the reply ends answers its record and keeps the rest. -/
theorem finish_ends (record : List Byte) (status : Status) (result : List Byte) (next : AgentState) (s : State) :
    Answered record status result s (finish record status result next s) ∧
      KeptByReply s (finish record status result next s) ∧ (finish record status result next s).agent.state = next :=
  ⟨finish_answered _ _ _ _ rfl rfl rfl, finish_keptByReply _ _ _ _ _, by rw [finish_agent]⟩

theorem takeFollows_takeNext {p : State → Prop} {u : State} (ended : p u) (idle : u.agent.state = .idle)
    (awake : u.resetLow = false) : TakeFollows p (takeNext u) :=
  ⟨u, ended, idle, exec_commandTake_of_awake awake⟩

/-- Settles O50: the two levels, and the level that is neither, in either row. -/
theorem unitResetAnswersAndPends : Obligations.UnitResetAnswersAndPends := by
  intro s record runs
  refine ⟨fun args => ?streams, fun args => ?full, fun v args notStreams notFull row eitherRow => ?illegal⟩
  case streams =>
    have level : resetLevelArg record = some .streams := resetLevelArg_of_args args
    have reset := unitReset_of_level runs (mine := fun r => resetLevelArg r != some .full) (by rw [level]; rfl) level
    obtain ⟨answered, kept, state⟩ := finish_ends record .done [] (.resetPending .streams) s
    exact ⟨_, (exec_of_awake (c := .unitResetStreams) rfl runs.awake).trans (congrArg _ reset), answered, state, kept⟩
  case full =>
    have level : resetLevelArg record = some .full := resetLevelArg_of_args args
    have reset := unitReset_of_level runs (mine := fun r => resetLevelArg r != some .streams) (by rw [level]; rfl) level
    obtain ⟨answered, kept, state⟩ := finish_ends record .done [] (.resetPending .full) s
    exact ⟨_, (exec_of_awake (c := .unitResetFull) rfl runs.awake).trans (congrArg _ reset), answered, state, kept⟩
  case illegal =>
    have level : resetLevelArg record = none := by rw [resetLevelArg_of_args args, if_neg notStreams, if_neg notFull]
    obtain ⟨answered, kept, state⟩ := finish_ends record .badArgument [] .idle s
    have follows := takeFollows_takeNext
      (p := fun u => Answered record .badArgument [] s u ∧ KeptByReply s u) ⟨answered, kept⟩ state (kept.pin.trans runs.awake)
    obtain rfl | rfl := eitherRow
    · have reset := unitReset_of_no_level runs (mine := fun r => resetLevelArg r != some .full) (by rw [level]; rfl) level
      exact ⟨_, (exec_of_awake (c := .unitResetStreams) rfl runs.awake).trans (congrArg _ reset), follows⟩
    · have reset := unitReset_of_no_level runs (mine := fun r => resetLevelArg r != some .streams) (by rw [level]; rfl) level
      exact ⟨_, (exec_of_awake (c := .unitResetFull) rfl runs.awake).trans (congrArg _ reset), follows⟩

/-! ### The reading and the writing commands (R101, R103, R158, R159, R163, R165, R166) -/

/-- A row that shares its command with another executes the records that are its own. -/
theorem runPlain_of_mine {c : Command} {record : List Byte} {s : State} {mine : List Byte → Bool} (f : List Byte → State → Answer)
    (runs : Runs c record s) (taken : mine record = true) : runPlain c mine f s = runPlain c anyRecord f s := by
  simp only [runPlain, runs.executing, taken, anyRecord]

theorem live_congr {f g : State → State} {s : State} (same : f s = g s) : live f s = live g s := by
  rw [live, live, same]

theorem exec_countersRead {record : List Byte} {s : State} (runs : Runs .countersRead record s) (own : clearOption record ≠ some true) :
    exec .countersRead s = live (runPlain .countersRead anyRecord answerCounters) s :=
  live_congr (runPlain_of_mine (mine := fun r => clearOption r != some true) answerCounters runs (bne_iff_ne.mpr own))

theorem exec_countersReadClear {record : List Byte} {s : State} (runs : Runs .countersRead record s)
    (own : clearOption record ≠ some false) :
    exec .countersReadClear s = live (runPlain .countersRead anyRecord answerCounters) s :=
  live_congr (runPlain_of_mine (mine := fun r => clearOption r != some false) answerCounters runs (bne_iff_ne.mpr own))

theorem parseEntryNo_of_args {record : List Byte} {n : Byte} (args : recordArgs record = [n]) :
    parseEntryNo (recordArgs record) = if n.toNat < 64 then some (Fin.ofNat 64 n.toNat) else none := by
  rw [args]; rfl

theorem clearOption_of_args {record rest : List Byte} {v : Byte} (args : recordArgs record = v :: rest) : clearOption record = boolArg v := by
  rw [clearOption, args]; rfl

theorem bytes32_length (v : BitVec 32) : (bytes32 v).length = 4 := rfl

theorem Counters.toBytes_length (c : Counters) : c.toBytes.length = 60 := by
  simp only [Counters.toBytes, List.length_append, bytes32_length]

theorem byteOf_toNat (b : Byte) : byteOf b.toNat = b := by rw [byteOf, BitVec.ofNat_toNat, BitVec.setWidth_eq]

theorem ClassEntry.toBytes_eq (n : EntryNo) (e : ClassEntry) : e.toBytes n =
    [byteOf n.val, if e.valid then 1 else 0] ++ bytes16 (e.value.setWidth 16) ++ bytes16 (e.care.setWidth 16) ++
      [byteOf (16 * (match e.action with | .stream => 0 | .spread => 1 | .discard => 2) + e.width), byteOf e.base.val] := rfl

theorem vector4_toList {α : Type} (v : Vector α 4) : v.toList = [v[0], v[1], v[2], v[3]] := by
  obtain ⟨⟨l⟩, size⟩ := v
  match l, size with
  | [_, _, _, _], _ => rfl

theorem vector4_of_elements {α : Type} (v : Vector α 4) : #v[v[0], v[1], v[2], v[3]] = v :=
  Vector.toList_inj.mp (vector4_toList v).symm

theorem poolResult_eq (p : Pool) (e : Egress) : poolResult p e = bytes16 (BitVec.ofNat 16 p.freePages.length) ++
    [byteOf p.freeDesc.length, byteOf (p.countIn .filling), byteOf (p.countIn .held), byteOf (p.countIn .queued),
     byteOf (p.countIn .sending), byteOf e.queues[0].length, byteOf e.queues[1].length, byteOf e.queues[2].length,
     byteOf e.queues[3].length, if p.low then 1 else 0] := by
  rw [poolResult, vector4_toList]
  simp [byteOfBool]

theorem Limits.toBytes_eq (l : Limits) : l.toBytes = [byteOf l.holdMark, byteOf l.releaseMark] ++
    bytes16 (BitVec.ofNat 16 l.reserve) ++ bytes16 l.stallLimit ++ [byteOf l.weights[0], byteOf l.weights[1], byteOf l.weights[2],
      byteOf l.weights[3], l.discardable.setWidth 8] := by
  rw [Limits.toBytes, vector4_toList]
  simp

theorem identResult_eq (unitAddr : BitVec 3) :
    identResult unitAddr = [0x4D, 0x4C, 0x48, 0x16, 1, unitAddr.setWidth 8, 1, 0, 64, 2, 0, 128] := by
  simp [identResult, bytes16, Config.vendorCode, Config.partCode, Config.revision]

/-- Settles O40: each reading command in turn. -/
theorem readingCommandsReportAndKeepState : Obligations.ReadingCommandsReportAndKeepState := by
  intro s record reports
  refine ⟨fun runs => ?ident, fun n runs args => ⟨fun small => ?entry, fun large => ?noEntry⟩, fun runs => ?pool, fun runs => ?limits,
    fun runs args => ?counters, fun v runs args notNo notYes => ⟨?countersIllegal, ?clearIllegal⟩⟩
  case ident =>
    have answer : answerIdent record s = ⟨s, .done, _⟩ := congrArg (Answer.mk s .done) (identResult_eq s.classifier.unitAddr)
    exact runPlain_answers runs answer rfl rfl rfl rfl
  case entry =>
    have answer : answerClassRead record s =
        ⟨s, .done, s.classifier.table[n.toNat].toBytes (⟨n.toNat, small⟩ : EntryNo)⟩ := by
      have parsed : parseEntryNo (recordArgs record) = some ⟨n.toNat, small⟩ := by
        rw [parseEntryNo_of_args args, if_pos small]
        exact congrArg some (Fin.ext (Nat.mod_eq_of_lt small))
      rw [answerClassRead, parsed]
      rfl
    rw [ClassEntry.toBytes_eq, byteOf_toNat] at answer
    exact runPlain_answers runs answer rfl rfl rfl rfl
  case noEntry =>
    have answer : answerClassRead record s = refuse .badArgument s := by
      rw [answerClassRead, parseEntryNo_of_args args, if_neg (Nat.not_lt.mpr large)]
    exact runPlain_answers runs answer rfl rfl rfl rfl
  case pool =>
    have answer : answerPoolQuery record s = ⟨s, .done, _⟩ := congrArg (Answer.mk s .done) (poolResult_eq s.pool s.egress)
    exact runPlain_answers runs answer rfl rfl rfl rfl
  case limits =>
    have answer : answerLimitsRead record s = ⟨s, .done, _⟩ := congrArg (Answer.mk s .done) (Limits.toBytes_eq s.agent.limits)
    exact runPlain_answers runs answer rfl rfl rfl rfl
  case counters =>
    have no : clearOption record = some false := clearOption_of_args args
    have answer : answerCounters record s = ⟨s, .done, s.agent.counters.toBytes⟩ := by rw [answerCounters, no]
    obtain ⟨t, event, follows⟩ := runPlain_answers runs answer rfl rfl rfl rfl
    have own : clearOption record ≠ some true := by rw [no]; decide
    rw [← exec_countersRead runs own] at event
    exact ⟨⟨t, event, follows⟩, Counters.toBytes_length _⟩
  case countersIllegal =>
    have neither : clearOption record = none := by rw [clearOption_of_args args, boolArg, if_neg notNo, if_neg notYes]
    have answer : answerCounters record s = refuse .badArgument s := by rw [answerCounters, neither]
    obtain ⟨t, event, follows⟩ := runPlain_answers runs answer rfl rfl rfl rfl
    have own : clearOption record ≠ some true := by rw [neither]; decide
    rw [← exec_countersRead runs own] at event
    exact ⟨t, event, follows⟩
  case clearIllegal =>
    have neither : clearOption record = none := by rw [clearOption_of_args args, boolArg, if_neg notNo, if_neg notYes]
    have answer : answerCounters record s = refuse .badArgument s := by rw [answerCounters, neither]
    obtain ⟨t, event, follows⟩ := runPlain_answers runs answer rfl rfl rfl rfl
    have own : clearOption record ≠ some false := by rw [neither]; decide
    rw [← exec_countersReadClear runs own] at event
    exact ⟨t, event, follows⟩

theorem Counters.toBytes_eq_flatMap (c : Counters) : c.toBytes =
    [c.cellsSeen, c.checkErrors, c.cellsUnclaimed, c.cellsRefusedFull, c.cellsRefusedFormat, c.cellsAccepted, c.cellsDiscardClass,
      c.mgmtDropped, c.allocFailures, c.framesSent, c.stallDiscards, c.creditOverflows, c.noticesLost, c.linkResets,
      c.egressLinkResets].flatMap bytes32 := by
  simp only [Counters.toBytes, List.flatMap_cons, List.flatMap_nil, List.append_assoc, List.append_nil]

/-- Settles O41: an entry accepted and refused, the counters cleared, the mask written. -/
theorem writingCommandsReplaceTheirTarget : Obligations.WritingCommandsReplaceTheirTarget := by
  intro s record
  refine ⟨fun runs => ⟨fun n e parsed => ?written, fun refused => ?refused⟩, fun runs args => ?cleared, fun m runs args => ?mask⟩
  case written =>
    have answer : answerClassWrite record s = ⟨{ s with classifier.table := s.classifier.table.set n e }, .done, []⟩ := by
      rw [answerClassWrite, parsed]
    exact runPlain_answers runs answer rfl rfl rfl rfl
  case refused =>
    have answer : answerClassWrite record s = refuse .badArgument s := by rw [answerClassWrite, refused]
    exact runPlain_answers runs answer rfl rfl rfl rfl
  case cleared =>
    have yes : clearOption record = some true := clearOption_of_args args
    have answer : answerCounters record s = ⟨{ s with agent.counters := .zero }, .done, s.agent.counters.toBytes⟩ := by
      rw [answerCounters, yes]
    rw [Counters.toBytes_eq_flatMap] at answer
    obtain ⟨t, event, follows⟩ := runPlain_answers runs answer rfl rfl rfl rfl
    have own : clearOption record ≠ some false := by rw [yes]; decide
    rw [← exec_countersReadClear runs own] at event
    exact ⟨t, event, follows⟩
  case mask =>
    have answer : answerNoticeMask record s = ⟨{ s with notices.mask := m }, .done, [s.notices.mask]⟩ := by
      rw [answerNoticeMask, args]
      rfl
    exact runPlain_answers runs answer rfl rfl rfl rfl

/-! ### The victim of a fetch (R77) -/

/-- A search from the least recently used slot on finds the oldest that fits. -/
theorem find?_oldest {l : List SlotNo} {p : SlotNo → Bool} {i : SlotNo} (found : l.find? p = some i) :
    p i = true ∧ ∀ j, l.idxOf j < l.idxOf i → p j = false := by
  obtain ⟨fits, older, younger, rfl, none⟩ := List.find?_eq_some_iff_append.mp found
  refine ⟨fits, fun j before => ?_⟩
  have apart : i ∉ older := fun mem => by simpa [fits] using none i mem
  rw [List.idxOf_append (a := i), if_neg apart, List.idxOf_cons_self, Nat.zero_add] at before
  have mem : j ∈ older := by
    refine Classical.byContradiction fun out => ?_
    rw [List.idxOf_append, if_neg out] at before
    omega
  simpa using none j mem

theorem find?_isSome_of_all {l : List SlotNo} (all : ∀ i, i ∈ l) {p : SlotNo → Bool} {i : SlotNo} (fits : p i = true) :
    ∃ j, l.find? p = some j :=
  Option.isSome_iff_exists.mp (List.find?_isSome.mpr ⟨i, all i, fits⟩)

theorem victim_of_vacant {e : Engine} {i : SlotNo} (found : e.lru.find? (fun i => e.slots[i].state == .vacant) = some i) :
    victim e = some i := by
  rw [victim, found]

theorem victim_of_no_vacant {e : Engine} (none : e.lru.find? (fun i => e.slots[i].state == .vacant) = none) :
    victim e = e.lru.find? (fun i =>
      !e.slots[i].inUse && (e.slots[i].state == .clean || e.slots[i].state == .dirty) && e.dispWait != some i) := by
  rw [victim, none]

/-- Settles O18: the search for a VACANT slot, and where it finds none the search for an idle one. -/
theorem victimIsLeastRecentlyUsed : Obligations.VictimIsLeastRecentlyUsed := by
  intro e _ all vacant idle older
  have vacantIff (i : SlotNo) : (e.slots[i].state == .vacant) = true ↔ vacant i := by simp [vacant]
  have idleIff (i : SlotNo) : (!e.slots[i].inUse && (e.slots[i].state == .clean || e.slots[i].state == .dirty) &&
      e.dispWait != some i) = true ↔ idle i := by simp [idle, and_assoc]
  cases search : e.lru.find? (fun i => e.slots[i].state == .vacant) with
  | some v =>
    rw [victim_of_vacant search]
    obtain ⟨fits, oldest⟩ := find?_oldest search
    refine ⟨?_, fun _ => ⟨v, rfl⟩⟩
    rintro _ ⟨⟩
    exact .inl ⟨(vacantIff v).mp fits, fun j before => mt (vacantIff j).mpr (by rw [oldest j before]; decide)⟩
  | none =>
    have noVacant (j : SlotNo) : ¬ vacant j := fun fits => List.find?_eq_none.mp search j (all j) ((vacantIff j).mpr fits)
    rw [victim_of_no_vacant search]
    refine ⟨fun i found => ?_, ?_⟩
    · obtain ⟨fits, oldest⟩ := find?_oldest found
      exact .inr ⟨(idleIff i).mp fits, noVacant, fun j before => mt (idleIff j).mpr (by rw [oldest j before]; decide)⟩
    · rintro ⟨i, fits | fits⟩
      · exact absurd fits (noVacant i)
      · exact find?_isSome_of_all all ((idleIff i).mpr fits)

end Sys2Proof.Machine
end

section
/-!
SUPPORT. The bytes of a block in the page memory, and the bytes of a frame (R36, R40, R52, R138, R139, R179, R186).
-/
namespace Sys2Proof.Machine

open Sys2Proof

/-! ### Fill order (R36, R40) -/

/-- The number of a position in row-major order. -/
def Geometry.posOf (g : Geometry) (k : Nat) : Nat := g.rowOf k * g.cols + g.colOf k

theorem Geometry.byteAt_of_index (g : Geometry) (k : Nat) : g.byteAt (g.rowOf k) (g.colOf k) = g.w * g.posOf k := rfl

section
variable {g : Geometry} {k : Nat} (inside : k < g.rows * g.cols)
include inside

theorem Geometry.rowOf_lt : g.rowOf k < g.rows := by
  have rows : 0 < g.rows := Nat.pos_of_ne_zero fun none => Nat.not_lt_zero k (by rwa [none, Nat.zero_mul] at inside)
  rw [Geometry.rowOf]
  cases g.order with
  | rowFirst => exact Nat.div_lt_of_lt_mul (by rwa [Nat.mul_comm])
  | columnFirst => exact Nat.mod_lt _ rows

theorem Geometry.colOf_lt : g.colOf k < g.cols := by
  have cols : 0 < g.cols := Nat.pos_of_ne_zero fun none => Nat.not_lt_zero k (by rwa [none, Nat.mul_zero] at inside)
  rw [Geometry.colOf]
  cases g.order with
  | rowFirst => exact Nat.mod_lt _ cols
  | columnFirst => exact Nat.div_lt_of_lt_mul inside

theorem Geometry.posOf_lt : g.posOf k < g.rows * g.cols := by
  have row := g.rowOf_lt inside
  have col := g.colOf_lt inside
  calc g.posOf k < (g.rowOf k + 1) * g.cols := by rw [Geometry.posOf, Nat.add_mul, Nat.one_mul]; omega
    _ ≤ g.rows * g.cols := Nat.mul_le_mul_right _ row

end

theorem Geometry.indexAt_of_index (g : Geometry) (k : Nat) : g.indexAt (g.rowOf k) (g.colOf k) = k := by
  rw [Geometry.indexAt, Geometry.rowOf, Geometry.colOf]
  cases g.order with
  | rowFirst => exact Nat.div_add_mod' k g.cols
  | columnFirst => exact Nat.div_add_mod' k g.rows

/-- Two fill indices of a block do not share a position. -/
theorem Geometry.posOf_ne {g : Geometry} {j k : Nat} (insideJ : j < g.rows * g.cols) (insideK : k < g.rows * g.cols) (apart : j ≠ k) :
    g.posOf j ≠ g.posOf k := by
  intro same
  have colJ := g.colOf_lt insideJ
  have colK := g.colOf_lt insideK
  rw [Geometry.posOf, Geometry.posOf] at same
  have cols : g.colOf j = g.colOf k := by
    have mods := congrArg (· % g.cols) same
    simpa [Nat.mul_add_mod_of_lt, Nat.mod_eq_of_lt colJ, Nat.mod_eq_of_lt colK] using mods
  have rows : g.rowOf j = g.rowOf k := by
    rw [cols] at same
    exact Nat.eq_of_mul_eq_mul_right (Nat.zero_lt_of_lt colJ) (Nat.add_right_cancel same)
  apply apart
  rw [← g.indexAt_of_index j, rows, cols, g.indexAt_of_index k]

theorem mul_succ_le_of_lt {w p q : Nat} (before : p < q) : w * p + w ≤ w * q :=
  Nat.mul_succ w p ▸ Nat.mul_le_mul_left w before

/-! ### Page bytes (R36, R51, R52) -/

theorem pageAddress_eq_some {pages : List Page} {b addr : Nat} (at_ : pageAddress pages b = some addr) :
    ∃ p, pages[b / 512]? = some p ∧ addr = p.val * 512 + b % 512 := by
  obtain ⟨p, page, rfl⟩ := Option.map_eq_some_iff.mp at_
  exact ⟨p, page, rfl⟩

/-- In a page list without repetition every block byte has its own address. -/
theorem pageAddress_injective {pages : List Page} (once : pages.Nodup) {b c addr : Nat} (hb : pageAddress pages b = some addr)
    (hc : pageAddress pages c = some addr) : b = c := by
  obtain ⟨p, pageB, eqB⟩ := pageAddress_eq_some hb
  obtain ⟨q, pageC, eqC⟩ := pageAddress_eq_some hc
  have same : p = q := Fin.ext (by omega)
  subst same
  have index : b / 512 = c / 512 := by
    obtain ⟨ltB, getB⟩ := List.getElem?_eq_some_iff.mp pageB
    obtain ⟨ltC, getC⟩ := List.getElem?_eq_some_iff.mp pageC
    rw [← once.idxOf_getElem _ ltB, ← once.idxOf_getElem _ ltC, getB, getC]
  omega

theorem pageAddress_of_lt {pages : List Page} {b : Nat} (inside : b < 512 * pages.length) : ∃ addr, pageAddress pages b = some addr := by
  have lt : b / 512 < pages.length := Nat.div_lt_of_lt_mul inside
  rw [pageAddress, show b / Config.pageBytes = b / 512 from rfl, List.getElem?_eq_getElem lt]
  exact ⟨_, rfl⟩

theorem writeBlockBytes_cons {pages : List Page} {b addr : Nat} (m : Memory) (v : Byte) (vs : List Byte)
    (at_ : pageAddress pages b = some addr) :
    writeBlockBytes pages m b (v :: vs) = writeBlockBytes pages (m.write addr v) (b + 1) vs := by
  rw [writeBlockBytes, at_]

theorem writeBlockBytes_cons_none {pages : List Page} {b : Nat} (m : Memory) (v : Byte) (vs : List Byte)
    (none : pageAddress pages b = none) : writeBlockBytes pages m b (v :: vs) = writeBlockBytes pages m (b + 1) vs := by
  rw [writeBlockBytes, none]

theorem Memory.read_write_of_wf {m : Memory} (canonical : m.wf = true) (addr : Nat) (v : Byte) (a : Nat) :
    (m.write addr v).read a = if a = addr then v else m.read a := Memory.read_write addr v canonical a

/-- A write of block bytes leaves every address that none of them has. -/
theorem writeBlockBytes_read_of_outside (pages : List Page) {addr : Nat} (bytes : List Byte) : ∀ {m : Memory} {b : Nat},
    m.wf = true → (∀ c, b ≤ c → c < b + bytes.length → pageAddress pages c ≠ some addr) →
    (writeBlockBytes pages m b bytes).read addr = m.read addr := by
  induction bytes with
  | nil => exact fun _ _ => rfl
  | cons v vs ih =>
    intro m b canonical outside
    have later (c : Nat) (from_ : b + 1 ≤ c) (below : c < b + 1 + vs.length) : pageAddress pages c ≠ some addr :=
      outside c (by omega) (by rw [List.length_cons]; omega)
    cases at_ : pageAddress pages b with
    | none => rw [writeBlockBytes_cons_none m v vs at_, ih canonical later]
    | some a =>
      have apart : addr ≠ a := by
        rintro rfl
        exact outside b (Nat.le_refl b) (by rw [List.length_cons]; omega) at_
      rw [writeBlockBytes_cons m v vs at_, ih (Memory.wf_write a v canonical) later, Memory.read_write_of_wf canonical, if_neg apart]

/-- Two memories that agree on some block bytes are read there alike. -/
theorem readBlockBytes_congr {pages : List Page} {m m' : Memory} {n : Nat} : ∀ {c : Nat},
    (∀ i, c ≤ i → i < c + n → ∀ addr, pageAddress pages i = some addr → m'.read addr = m.read addr) →
    readBlockBytes pages m' c n = readBlockBytes pages m c n := by
  induction n with
  | zero => exact fun _ => rfl
  | succ n ih =>
    intro c agree
    have rest : readBlockBytes pages m' (c + 1) n = readBlockBytes pages m (c + 1) n :=
      ih fun i from_ below => agree i (by omega) (by omega)
    rw [readBlockBytes, readBlockBytes, rest]
    cases at_ : pageAddress pages c with
    | none => rfl
    | some addr => simp only [agree c (Nat.le_refl c) (by omega) addr at_]

theorem readBlockBytes_cons {pages : List Page} {b addr : Nat} (m : Memory) (n : Nat) (at_ : pageAddress pages b = some addr) :
    readBlockBytes pages m b (n + 1) = m.read addr :: readBlockBytes pages m (b + 1) n := by
  rw [readBlockBytes, at_]

section
variable {pages : List Page} (once : pages.Nodup)
include once

theorem readBlockBytes_of_written (bytes : List Byte) : ∀ {m : Memory} {b : Nat}, m.wf = true →
    b + bytes.length ≤ 512 * pages.length → readBlockBytes pages (writeBlockBytes pages m b bytes) b bytes.length = bytes := by
  induction bytes with
  | nil => exact fun _ _ => rfl
  | cons v vs ih =>
    intro m b canonical inside
    rw [List.length_cons] at inside ⊢
    obtain ⟨addr, at_⟩ := pageAddress_of_lt (pages := pages) (b := b) (by omega)
    have canonical' := Memory.wf_write addr v canonical
    have others (c : Nat) (from_ : b + 1 ≤ c) (_ : c < b + 1 + vs.length) : pageAddress pages c ≠ some addr := fun same => by
      have := pageAddress_injective once at_ same
      omega
    rw [writeBlockBytes_cons m v vs at_, readBlockBytes_cons _ _ at_, ih canonical' (by omega),
      writeBlockBytes_read_of_outside pages vs canonical' others, Memory.read_write_of_wf canonical, if_pos rfl]

theorem readBlockBytes_of_outside {bytes : List Byte} {m : Memory} {b c n : Nat} (canonical : m.wf = true)
    (apart : c + n ≤ b ∨ b + bytes.length ≤ c) :
    readBlockBytes pages (writeBlockBytes pages m b bytes) c n = readBlockBytes pages m c n :=
  readBlockBytes_congr fun i from_ below addr at_ =>
    writeBlockBytes_read_of_outside pages bytes canonical fun j fromJ belowJ same => by
      have := pageAddress_injective once at_ same
      omega

end

/-- Settles O25: positions first, then the bytes of a place. -/
theorem samplesLieApartAndReadBack : Obligations.SamplesLieApartAndReadBack := by
  refine ⟨fun g _ _ _ => ⟨fun k inside => ?position, fun j insideJ k insideK apart => ?apart⟩,
    fun pages m b bytes once canonical inside => ⟨?same, fun c n _ apart => ?other, fun addr outside => ?memory⟩⟩
  case position =>
    exact ⟨g.rowOf_lt inside, g.colOf_lt inside, g.indexAt_of_index k, mul_succ_le_of_lt (g.posOf_lt inside)⟩
  case apart =>
    simp only [Geometry.byteAt_of_index]
    exact (Nat.lt_or_gt_of_ne (Geometry.posOf_ne insideJ insideK apart)).imp mul_succ_le_of_lt mul_succ_le_of_lt
  case same => exact readBlockBytes_of_written once bytes canonical inside
  case other => exact readBlockBytes_of_outside once canonical apart
  case memory => exact writeBlockBytes_read_of_outside pages bytes canonical outside

/-! ### Frames (R138, R139, R179, R186) -/

/-- What the frame check covers: the common header and the body. -/
def covered (kind : Byte) (unitAddr : BitVec 3) (body : List Byte) : List Byte :=
  [kind, unitAddr.setWidth 8] ++ bytes16 (BitVec.ofNat 16 body.length) ++ body

theorem frameBytes_eq (kind : Byte) (unitAddr : BitVec 3) (body : List Byte) :
    frameBytes kind unitAddr body = covered kind unitAddr body ++ bytes32 (crc32 (covered kind unitAddr body)) := rfl

theorem covered_length (kind : Byte) (unitAddr : BitVec 3) (body : List Byte) :
    (covered kind unitAddr body).length = 4 + body.length := by
  simp [covered, bytes16]
  omega

theorem readBlockBytes_length (pages : List Page) (m : Memory) (n : Nat) : ∀ b, (readBlockBytes pages m b n).length = n := by
  induction n with
  | zero => exact fun _ => rfl
  | succ n ih =>
    intro b
    rw [readBlockBytes, List.length_cons, ih]

theorem positionBytes_length (m : Memory) (d : Desc) (pos : Nat) : (positionBytes m d pos).length = d.geom.w := by
  rw [positionBytes]
  split
  · exact readBlockBytes_length _ _ _ _
  · exact List.length_replicate

section
variable {α β : Type} {f : α → List β} {w : Nat} (uniform : ∀ x, (f x).length = w)
include uniform

theorem length_flatMap_uniform (l : List α) : (l.flatMap f).length = w * l.length := by
  induction l with
  | nil => rfl
  | cons x xs ih =>
    rw [List.flatMap_cons, List.length_append, uniform, ih, List.length_cons, Nat.mul_succ, Nat.add_comm]

/-- Pieces of one length lie in a row. -/
theorem take_drop_flatMap_uniform (l : List α) : ∀ {pos : Nat} (inside : pos < l.length),
    ((l.flatMap f).drop (w * pos)).take w = f l[pos] := by
  induction l with
  | nil => exact fun no => nomatch no
  | cons x xs ih =>
    intro pos inside
    rw [List.flatMap_cons]
    cases pos with
    | zero => rw [Nat.mul_zero, List.drop_zero, List.take_left' (uniform x)]; rfl
    | succ pos =>
      rw [Nat.mul_succ, Nat.add_comm, List.drop_append, uniform, List.drop_eq_nil_of_le (by rw [uniform]; omega), List.nil_append,
        Nat.add_sub_cancel_left, ih (Nat.lt_of_succ_lt_succ inside)]
      rfl

end

theorem blockPayload_length (m : Memory) (d : Desc) : (blockPayload m d).length = d.geom.w * (d.geom.rows * d.geom.cols) := by
  rw [blockPayload, length_flatMap_uniform (positionBytes_length m d), List.length_range]
  rfl

theorem blockBody_length (m : Memory) (d : Desc) : (blockBody m d).length = 10 + d.geom.w * (d.geom.rows * d.geom.cols) := by
  simp only [blockBody, bytes16, List.length_append, List.length_cons, List.length_nil, blockPayload_length]

theorem positionBytes_of_place (m : Memory) (d : Desc) {row col : Nat} (inside : col < d.geom.cols) :
    positionBytes m d (row * d.geom.cols + col) =
      if d.geom.indexAt row col < d.count then readBlockBytes d.pages m (d.geom.byteAt row col) d.geom.w
      else List.replicate d.geom.w 0 := by
  have rowOf : (row * d.geom.cols + col) / d.geom.cols = row := by
    rw [Nat.mul_comm, Nat.mul_add_div (Nat.zero_lt_of_lt inside), Nat.div_eq_of_lt inside, Nat.add_zero]
  have colOf : (row * d.geom.cols + col) % d.geom.cols = col := Nat.mul_add_mod_of_lt inside
  rw [positionBytes, rowOf, colOf]

/-- The bytes sent for a place of a block. -/
theorem blockPayload_place (m : Memory) (d : Desc) {row col : Nat} (insideRow : row < d.geom.rows) (insideCol : col < d.geom.cols) :
    ((blockPayload m d).drop (d.geom.w * (row * d.geom.cols + col))).take d.geom.w =
      if d.geom.indexAt row col < d.count then readBlockBytes d.pages m (d.geom.byteAt row col) d.geom.w
      else List.replicate d.geom.w 0 := by
  have inside : row * d.geom.cols + col < (List.range d.geom.samples).length := by
    rw [List.length_range]
    calc row * d.geom.cols + col < (row + 1) * d.geom.cols := by rw [Nat.add_mul, Nat.one_mul]; omega
      _ ≤ d.geom.rows * d.geom.cols := Nat.mul_le_mul_right _ insideRow
  rw [blockPayload, take_drop_flatMap_uniform (positionBytes_length m d) _ inside, List.getElem_range,
    positionBytes_of_place m d insideCol]

/-- The first 14 bytes of a block frame. -/
def blockFrameHead (unitAddr : BitVec 3) (d : Desc) : List Byte :=
  [1, unitAddr.setWidth 8] ++ bytes16 (BitVec.ofNat 16 (10 + d.geom.w * (d.geom.rows * d.geom.cols))) ++ [byteOf d.stream.val] ++
    bytes16 d.blockNo ++
    [byteOf ((if d.flags.short then 1 else 0) + (if d.flags.broken then 2 else 0) + (if d.flags.spliced then 4 else 0)),
     byteOf ((if d.geom.order = .columnFirst then 16 else 0) + d.geom.w), byteOf d.geom.rows] ++
    bytes16 (BitVec.ofNat 16 d.geom.cols) ++ bytes16 (BitVec.ofNat 16 d.count)

theorem blockFrameHead_length (unitAddr : BitVec 3) (d : Desc) : (blockFrameHead unitAddr d).length = 14 := rfl

theorem covered_block (unitAddr : BitVec 3) (m : Memory) (d : Desc) :
    covered 1 unitAddr (blockBody m d) = blockFrameHead unitAddr d ++ blockPayload m d := by
  rw [covered, blockBody_length]
  simp only [blockBody, blockFrameHead, BlockFlags.toByte, List.append_assoc]

theorem Reply.body_length (r : Reply) : r.body.length = 6 + r.result.length := by
  simp [Reply.body, bytes16]
  omega

/-- Settles O38: block, reply and notice, and the check value of the CRC-32. -/
theorem framesCarryBlockReplyAndNotice : Obligations.FramesCarryBlockReplyAndNotice := by
  refine ⟨fun unitAddr p h c m => ?block, fun unitAddr p r => ?reply, fun unitAddr p n lost taken => ?notice, by decide +kernel⟩
  case block =>
    intro d frame body
    have whole : frame = covered 1 unitAddr (blockBody p.mem d) ++ bytes32 (crc32 (covered 1 unitAddr (blockBody p.mem d))) := rfl
    have length : (covered 1 unitAddr (blockBody p.mem d)).length = 4 + body := by rw [covered_length, blockBody_length]
    have parts : frame = blockFrameHead unitAddr d ++
        (blockPayload p.mem d ++ bytes32 (crc32 (covered 1 unitAddr (blockBody p.mem d)))) := by
      rw [whole, covered_block, List.append_assoc]
    have check : frame.take (4 + body) = covered 1 unitAddr (blockBody p.mem d) := by rw [whole, List.take_left' length]
    refine ⟨?_, ?_, fun row insideRow col insideCol => ?_, ?_⟩
    · rw [whole, List.length_append, length, bytes32_length]
      omega
    · rw [parts, List.take_left' (blockFrameHead_length unitAddr d)]
      rfl
    · have fits : d.geom.w * (row * d.geom.cols + col) + d.geom.w ≤ (blockPayload p.mem d).length := by
        rw [blockPayload_length]
        refine mul_succ_le_of_lt ?_
        calc row * d.geom.cols + col < (row + 1) * d.geom.cols := by rw [Nat.add_mul, Nat.one_mul]; omega
          _ ≤ d.geom.rows * d.geom.cols := Nat.mul_le_mul_right _ insideRow
      rw [parts, ← blockFrameHead_length unitAddr d, List.drop_append, ← List.drop_drop, List.drop_length, List.drop_nil,
        List.nil_append, Nat.add_sub_cancel_left, List.drop_append_of_le_length (by omega),
        List.take_append_of_le_length (by rw [List.length_drop]; omega), blockPayload_place p.mem d insideRow insideCol]
    · rw [check, ← whole]
  case reply =>
    intro status covered
    have same : frameOf unitAddr p (.reply r) = frameBytes 2 unitAddr r.body := rfl
    rw [same, frameBytes_eq, Machine.covered, Reply.body_length]
    rfl
  case notice =>
    intro kind stream covered
    have body : n.body = [kind] ++ stream ++ [byteOf n.repeats, byteOf lost] := by
      have code : byteOf n.kind.code = kind := by cases named : n.kind <;> simp only [kind, named] <;> rfl
      rw [Notice.body, code, taken]
      cases named : n.stream with
      | none => simp only [stream, named]; rfl
      | some u => simp only [stream, named]; rfl
    have length : n.body.length = 5 := rfl
    have same : frameOf unitAddr p (.notice n) = frameBytes 3 unitAddr n.body := rfl
    rw [same, frameBytes_eq, Machine.covered, length, body]
    rfl

end Sys2Proof.Machine
end

section
/-!
SUPPORT. The argument blocks of the commands: what each byte spells, what the checks refuse, and that what is written back is read as
the same (R2, R10, R101–R103, R149, R152, R161, R163, R185).
-/
namespace Sys2Proof.Machine

open Sys2Proof

/-! ### Bytes -/

theorem byteOf_toNat_of_lt {n : Nat} (small : n < 256) : (byteOf n).toNat = n := by
  rw [byteOf, BitVec.toNat_ofNat, Nat.mod_eq_of_lt small]

theorem bytes16_append (a b : Byte) : bytes16 (a ++ b) = [a, b] := by
  rw [bytes16, extractLsb'_low_append, extractLsb'_high_append]

theorem bytes32_append (a b c d : Byte) : bytes32 (a ++ b ++ c ++ d) = [a, b, c, d] := by
  have byte (x : BitVec 32) (k : Nat) : (x.extractLsb' k 8).toNat = x.toNat / 2 ^ k % 256 := by
    rw [BitVec.extractLsb'_toNat, Nat.shiftRight_eq_div_pow]
  have whole : (a ++ b ++ c ++ d).toNat = ((a.toNat * 256 + b.toNat) * 256 + c.toNat) * 256 + d.toNat := by
    have append {n : Nat} (x : BitVec n) (y : Byte) : (x ++ y).toNat = x.toNat * 256 + y.toNat := by
      rw [BitVec.toNat_append, ← Nat.shiftLeft_add_eq_or_of_lt y.isLt, Nat.shiftLeft_eq]
    rw [append, append, append]
  have := a.isLt
  have := b.isLt
  have := c.isLt
  have := d.isLt
  simp only [bytes32, List.cons.injEq, and_true]
  refine ⟨?_, ?_, ?_, ?_⟩ <;> apply BitVec.eq_of_toNat_eq <;> rw [byte, whole] <;> omega

/-- Two bytes written and read again as a number. -/
theorem bytes16_toNat (v : BitVec 16) : 256 * (v.extractLsb' 8 8).toNat + (v.extractLsb' 0 8).toNat = v.toNat := by
  rw [← word16_toNat, word16_bytes16]

/-! ### The entry block (R101, R102) -/

theorem boolArg_eq_some_iff : ∀ {b : Byte} {v : Bool}, boolArg b = some v ↔ b.toNat = v.toNat := by
  decide +kernel

theorem boolArg_eq_none_iff : ∀ {b : Byte}, boolArg b = none ↔ 1 < b.toNat := by
  decide +kernel

theorem classActionOf_eq_some_iff {n : Nat} {a : ClassAction} : classActionOf n = some a ↔ n = a.code := by
  unfold classActionOf
  split <;> cases a <;> simp_all [ClassAction.code]

theorem classActionOf_eq_none_iff : ∀ {n : Nat}, classActionOf n = none ↔ 2 < n
  | 0 | 1 | 2 => by simp [classActionOf]
  | n + 3 => by simp [classActionOf]

/-- The fields that an entry block spells (R185). -/
def entryOfBytes (valid : Bool) (action : ClassAction) (b2 b3 b4 b5 b6 b7 : Byte) : ClassEntry :=
  ⟨valid, BitVec.ofNat 12 (256 * b2.toNat + b3.toNat), BitVec.ofNat 12 (256 * b4.toNat + b5.toNat), action, streamOf b7,
    b6.toNat % 16⟩

theorem highNibble_toNat (b : Byte) : (b.extractLsb' 4 4).toNat = b.toNat / 16 := returnLaneType_toNat b

theorem lowNibble_toNat (b : Byte) : (b.extractLsb' 0 4).toNat = b.toNat % 16 := by
  rw [BitVec.extractLsb'_toNat, Nat.shiftRight_zero]

theorem word16_low (hi lo : Byte) : (word16 hi lo).extractLsb' 0 12 = BitVec.ofNat 12 (256 * hi.toNat + lo.toNat) := by
  rw [BitVec.extractLsb', Nat.shiftRight_zero, word16_toNat]

theorem streamOf_val (b : Byte) : (streamOf b).val = b.toNat := Nat.mod_eq_of_lt b.isLt

section
variable {b0 b1 b2 b3 b4 b5 b6 b7 : Byte}

theorem parseEntry_of_fields {valid : Bool} {action : ClassAction} (option : boolArg b1 = some valid)
    (named : classActionOf (b6.toNat / 16) = some action) :
    parseEntry [b0, b1, b2, b3, b4, b5, b6, b7] =
      if b0.toNat < 64 ∧ 256 * b2.toNat + b3.toNat ≤ 4095 ∧ 256 * b4.toNat + b5.toNat ≤ 4095 ∧ b6.toNat % 16 ≤ 4 ∧
          (action = .spread → 1 ≤ b6.toNat % 16) ∧ (entryOfBytes valid action b2 b3 b4 b5 b6 b7).legal = true then
        some (Fin.ofNat 64 b0.toNat, entryOfBytes valid action b2 b3 b4 b5 b6 b7)
      else none := by
  have spread (w : Nat) : (action ≠ .spread ∨ 1 ≤ w) ↔ (action = .spread → 1 ≤ w) := Decidable.imp_iff_not_or.symm
  simp only [parseEntry, option, highNibble_toNat, named, lowNibble_toNat, word16_low, word16_toNat, Bool.and_eq_true,
    decide_eq_true_eq, Bool.or_eq_true, bne_iff_ne, spread, and_assoc]
  rfl

theorem parseEntry_of_no_option (none : boolArg b1 = none) : parseEntry [b0, b1, b2, b3, b4, b5, b6, b7] = .none := by
  simp only [parseEntry, none]

theorem parseEntry_of_no_action (none : classActionOf (b6.toNat / 16) = none) :
    parseEntry [b0, b1, b2, b3, b4, b5, b6, b7] = .none := by
  cases option : boolArg b1 <;> simp only [parseEntry, highNibble_toNat, none, option]

end

/-- A tag of the management range has a 1 in each of its eight high bits. -/
theorem high_bit_of_management {tag : BitVec 12} (high : 0xFF0 ≤ tag.toNat) {b : Nat} (from_ : 4 ≤ b) (below : b < 12) :
    tag.getLsbD b = true := by
  have := tag.isLt
  rw [BitVec.getLsbD, Nat.testBit_eq_decide_div_mod_eq, decide_eq_true_eq]
  have positions : b = 4 ∨ b = 5 ∨ b = 6 ∨ b = 7 ∨ b = 8 ∨ b = 9 ∨ b = 10 ∨ b = 11 := by omega
  obtain rfl | rfl | rfl | rfl | rfl | rfl | rfl | rfl := positions <;> omega

theorem management_bit : ∀ b < 12, (0xFF0#12).getLsbD b = decide (4 ≤ b) := by decide

/-- Check 4 of R101 asks whether some management tag agrees with the entry in every cared bit. -/
theorem reachesManagement_iff (e : ClassEntry) : e.reachesManagement = true ↔
    ∃ tag : BitVec 12, 0xFF0 ≤ tag.toNat ∧ ∀ b < 12, e.care.getLsbD b = true → tag.getLsbD b = e.value.getLsbD b := by
  have bits : e.reachesManagement = true ↔ ∀ b < 12, 4 ≤ b → e.care.getLsbD b = true → e.value.getLsbD b = true := by
    rw [ClassEntry.reachesManagement, decide_eq_true_iff]
    constructor
    · intro zero b below from_ cared
      have bit := congrArg (·.getLsbD b) zero
      simpa [management_bit b below, from_, cared, below] using bit
    · intro ones
      apply BitVec.eq_of_getLsbD_eq
      intro b below
      rw [BitVec.getLsbD_and, BitVec.getLsbD_and, management_bit b below, BitVec.getLsbD_not]
      by_cases cared : e.care.getLsbD b = true
      · by_cases from_ : 4 ≤ b
        · simp [ones b below from_ cared]
        · simp [from_]
      · simp [cared]
  rw [bits]
  constructor
  · refine fun ones => ⟨e.value ||| 0xFF0#12, Nat.right_le_or, fun b below cared => ?_⟩
    rw [BitVec.getLsbD_or, management_bit b below]
    by_cases from_ : 4 ≤ b
    · simp [ones b below from_ cared]
    · simp [from_]
  · rintro ⟨tag, high, agree⟩ b below from_ cared
    rw [← agree b below cared, high_bit_of_management high from_ below]

theorem ClassEntry.legal_iff (e : ClassEntry) : e.legal = true ↔
    (e.valid = true → (e.action = .spread → e.base.val + 2 ^ e.width - 1 ≤ 255) ∧ ¬ e.reachesManagement = true) := by
  have spread : (e.action ≠ .spread ∨ e.base.val + 2 ^ e.width - 1 ≤ 255) ↔
      (e.action = .spread → e.base.val + 2 ^ e.width - 1 ≤ 255) := Decidable.imp_iff_not_or.symm
  simp only [ClassEntry.legal, Bool.or_eq_true, Bool.not_eq_true', Bool.and_eq_true, bne_iff_ne, decide_eq_true_eq, spread,
    Bool.not_eq_true]
  cases e.valid <;> simp

/-- The refusals of CLASS_WRITE (R101). -/
theorem parseEntry_eq_none_iff (b0 b1 b2 b3 b4 b5 b6 b7 : Byte) :
    let value := 256 * b2.toNat + b3.toNat
    let care := 256 * b4.toNat + b5.toNat
    let reaches := ∃ tag : BitVec 12, 0xFF0 ≤ tag.toNat ∧
      ∀ b < 12, (BitVec.ofNat 12 care).getLsbD b = true → tag.getLsbD b = (BitVec.ofNat 12 value).getLsbD b
    parseEntry [b0, b1, b2, b3, b4, b5, b6, b7] = none ↔
      64 ≤ b0.toNat ∨ 1 < b1.toNat ∨ 4095 < value ∨ 4095 < care ∨ 2 < b6.toNat / 16 ∨ 4 < b6.toNat % 16 ∨
      (b6.toNat / 16 = 1 ∧ b6.toNat % 16 = 0) ∨ (b1 = 1 ∧ b6.toNat / 16 = 1 ∧ 255 < b7.toNat + 2 ^ (b6.toNat % 16) - 1) ∨
      (b1 = 1 ∧ reaches) := by
  intro value care reaches
  cases option : boolArg b1 with
  | none =>
    have wide := boolArg_eq_none_iff.mp option
    exact iff_of_true (parseEntry_of_no_option option) (.inr (.inl wide))
  | some valid =>
    cases named : classActionOf (b6.toNat / 16) with
    | none =>
      have wide := classActionOf_eq_none_iff.mp named
      exact iff_of_true (parseEntry_of_no_action named) (.inr (.inr (.inr (.inr (.inl wide)))))
    | some action =>
      have byte : b1.toNat = valid.toNat := boolArg_eq_some_iff.mp option
      have code : b6.toNat / 16 = action.code := classActionOf_eq_some_iff.mp named
      have isValid : valid = true ↔ b1 = 1 := by
        rw [BitVec.toNat_eq, byte]
        cases valid <;> decide
      have isSpread : action = .spread ↔ b6.toNat / 16 = 1 := by
        rw [code]
        cases action <;> decide
      have narrow : ¬ 1 < b1.toNat := by rw [byte]; cases valid <;> decide
      have small : ¬ 2 < b6.toNat / 16 := by rw [code]; cases action <;> decide
      have legal : (entryOfBytes valid action b2 b3 b4 b5 b6 b7).legal = true ↔
          (b1 = 1 → (b6.toNat / 16 = 1 → b7.toNat + 2 ^ (b6.toNat % 16) - 1 ≤ 255) ∧ ¬ reaches) := by
        rw [ClassEntry.legal_iff, reachesManagement_iff]
        simp only [entryOfBytes, isValid, isSpread, streamOf_val]
        rfl
      rw [parseEntry_of_fields option named, ite_eq_right_iff]
      simp only [reduceCtorEq, imp_false, isSpread, legal, Classical.not_and_iff_not_or_not, Classical.not_imp, Classical.not_not, Nat.not_le, Nat.not_lt,
        Nat.lt_one_iff, narrow, small, false_or, and_or_left]
      rfl

/-- What an accepted entry block spells. -/
theorem parseEntry_fields {b0 b1 b2 b3 b4 b5 b6 b7 : Byte} {n : EntryNo} {e : ClassEntry}
    (parsed : parseEntry [b0, b1, b2, b3, b4, b5, b6, b7] = some (n, e)) :
    ∃ valid action, b1.toNat = valid.toNat ∧ b6.toNat / 16 = action.code ∧ n.val = b0.toNat ∧
      256 * b2.toNat + b3.toNat ≤ 4095 ∧ 256 * b4.toNat + b5.toNat ≤ 4095 ∧ e = entryOfBytes valid action b2 b3 b4 b5 b6 b7 := by
  cases option : boolArg b1 with
  | none => rw [parseEntry_of_no_option option] at parsed; cases parsed
  | some valid =>
    cases named : classActionOf (b6.toNat / 16) with
    | none => rw [parseEntry_of_no_action named] at parsed; cases parsed
    | some action =>
      rw [parseEntry_of_fields option named] at parsed
      obtain ⟨⟨number, value, care, -⟩, entry⟩ := Option.ite_none_right_eq_some.mp parsed
      cases entry
      exact ⟨valid, action, boolArg_eq_some_iff.mp option, classActionOf_eq_some_iff.mp named, Nat.mod_eq_of_lt number, value, care, rfl⟩

/-- CLASS_READ writes an accepted entry so that it is read as the same (R103). -/
theorem parseEntry_toBytes {e : ClassEntry} (n : EntryNo) (accepted : EntryAccepted e) : parseEntry (e.toBytes n) = some (n, e) := by
  obtain ⟨legal, narrow, spread⟩ := accepted
  have tagBytes (v : BitVec 12) : 256 * ((v.setWidth 16).extractLsb' 8 8).toNat + ((v.setWidth 16).extractLsb' 0 8).toNat = v.toNat := by
    rw [bytes16_toNat, BitVec.toNat_setWidth]
    omega
  have option : boolArg (byteOfBool e.valid) = some e.valid := by cases e.valid <;> rfl
  have code : e.action.code ≤ 2 := by cases e.action <;> decide
  have act : (byteOf (16 * e.action.code + e.width)).toNat = 16 * e.action.code + e.width := byteOf_toNat_of_lt (by omega)
  have named : classActionOf ((byteOf (16 * e.action.code + e.width)).toNat / 16) = some e.action :=
    classActionOf_eq_some_iff.mpr (by rw [act]; omega)
  have width : (byteOf (16 * e.action.code + e.width)).toNat % 16 = e.width := by rw [act]; omega
  have base : streamOf (byteOf e.base.val) = e.base := Fin.ext (by rw [streamOf_val, byteOf_toNat_of_lt e.base.isLt])
  have number : (byteOf n.val).toNat = n.val := byteOf_toNat_of_lt (by omega)
  have entry : entryOfBytes e.valid e.action ((e.value.setWidth 16).extractLsb' 8 8) ((e.value.setWidth 16).extractLsb' 0 8)
      ((e.care.setWidth 16).extractLsb' 8 8) ((e.care.setWidth 16).extractLsb' 0 8) (byteOf (16 * e.action.code + e.width))
      (byteOf e.base.val) = e := by
    simp only [entryOfBytes, tagBytes, width, base, BitVec.ofNat_toNat, BitVec.setWidth_eq]
  have spelled : e.toBytes n = [byteOf n.val, byteOfBool e.valid, (e.value.setWidth 16).extractLsb' 8 8,
    (e.value.setWidth 16).extractLsb' 0 8, (e.care.setWidth 16).extractLsb' 8 8, (e.care.setWidth 16).extractLsb' 0 8,
    byteOf (16 * e.action.code + e.width), byteOf e.base.val] := rfl
  rw [spelled, parseEntry_of_fields option named, entry, width, tagBytes, tagBytes, number,
    if_pos ⟨n.isLt, by omega, by omega, narrow, spread, legal⟩]
  exact congrArg (fun m => some (m, e)) (Fin.ext (Nat.mod_eq_of_lt n.isLt))

/-! ### The configuration block (R2, R10) -/

/-- The fields that a configuration block spells (R185). -/
def cfgOfBytes (b0 b1 b2 b3 b4 b5 b6 : Byte) : StreamCfg where
  geom := ⟨b0.toNat, b1.toNat, 256 * b2.toNat + b3.toNat, if b6.getLsbD 0 then .columnFirst else .rowFirst⟩
  mode := if b6.getLsbD 1 then .held else .immediate
  cls := Fin.ofNat 4 b4.toNat
  heldLimit := b5.toNat
  gap := if b6.getLsbD 2 then .tolerate else .resync
  broken := if b6.getLsbD 3 then .discard else .emit
  overflow := if b6.getLsbD 4 then .fault else .dropOldest

theorem parseCfg_of_bytes (b0 b1 b2 b3 b4 b5 b6 : Byte) : parseCfg [b0, b1, b2, b3, b4, b5, b6] =
    if b4.toNat < 4 ∧ (cfgOfBytes b0 b1 b2 b3 b4 b5 b6).valid = true then some (cfgOfBytes b0 b1 b2 b3 b4 b5 b6) else none := by
  simp only [parseCfg, word16_toNat, Bool.and_eq_true, decide_eq_true_eq]
  rfl

theorem StreamCfg.valid_iff (c : StreamCfg) : c.valid = true ↔
    1 ≤ c.geom.w ∧ c.geom.w ≤ 4 ∧ 1 ≤ c.geom.rows ∧ c.geom.rows ≤ 64 ∧ 1 ≤ c.geom.cols ∧ c.geom.cols ≤ 1024 ∧
      1 ≤ c.heldLimit ∧ c.heldLimit ≤ 16 ∧ c.geom.w * (c.geom.rows * c.geom.cols) ≤ 4096 := decide_eq_true_iff

theorem cfgOfBytes_refused_iff (b0 b1 b2 b3 b4 b5 b6 : Byte) :
    ¬ (b4.toNat < 4 ∧ (cfgOfBytes b0 b1 b2 b3 b4 b5 b6).valid = true) ↔
      b0.toNat < 1 ∨ 4 < b0.toNat ∨ b1.toNat < 1 ∨ 64 < b1.toNat ∨ 256 * b2.toNat + b3.toNat < 1 ∨
      1024 < 256 * b2.toNat + b3.toNat ∨ 3 < b4.toNat ∨ b5.toNat < 1 ∨ 16 < b5.toNat ∨
      4096 < b0.toNat * (b1.toNat * (256 * b2.toNat + b3.toNat)) := by
  rw [StreamCfg.valid_iff]
  simp only [cfgOfBytes]
  omega

theorem policy_bits : ∀ order mode gap broken overflow : Bool,
    let p := byteOf ((if order then 1 else 0) + (if mode then 2 else 0) + (if gap then 4 else 0) + (if broken then 8 else 0) +
      (if overflow then 16 else 0))
    p.getLsbD 0 = order ∧ p.getLsbD 1 = mode ∧ p.getLsbD 2 = gap ∧ p.getLsbD 3 = broken ∧ p.getLsbD 4 = overflow := by
  decide

/-- STREAM_QUERY writes a valid configuration so that it is read as the same. -/
theorem parseCfg_toBytes {c : StreamCfg} (valid : c.valid = true) : parseCfg c.toBytes = some c := by
  obtain ⟨-, w, -, rows, -, cols, -, limit, -⟩ := c.valid_iff.mp valid
  have policies := policy_bits (decide (c.geom.order = .columnFirst)) (decide (c.mode = .held)) (decide (c.gap = .tolerate))
    (decide (c.broken = .discard)) (decide (c.overflow = .fault))
  simp only [decide_eq_true_eq] at policies
  obtain ⟨order, mode, gap, broken, overflow⟩ := policies
  have columns : (BitVec.ofNat 16 c.geom.cols).toNat = c.geom.cols := by rw [BitVec.toNat_ofNat]; omega
  have small : (byteOf c.cls.val).toNat = c.cls.val := byteOf_toNat_of_lt (by omega)
  have fields : c = cfgOfBytes (byteOf c.geom.w) (byteOf c.geom.rows) ((BitVec.ofNat 16 c.geom.cols).extractLsb' 8 8)
      ((BitVec.ofNat 16 c.geom.cols).extractLsb' 0 8) (byteOf c.cls.val) (byteOf c.heldLimit)
      (byteOf ((if c.geom.order = .columnFirst then 1 else 0) + (if c.mode = .held then 2 else 0) +
        (if c.gap = .tolerate then 4 else 0) + (if c.broken = .discard then 8 else 0) +
        (if c.overflow = .fault then 16 else 0))) := by
    rw [cfgOfBytes, order, mode, gap, broken, overflow, bytes16_toNat, columns, byteOf_toNat_of_lt (n := c.geom.w) (by omega),
      byteOf_toNat_of_lt (n := c.geom.rows) (by omega), byteOf_toNat_of_lt (n := c.heldLimit) (by omega), small]
    have cls : Fin.ofNat 4 c.cls.val = c.cls := Fin.ext (Nat.mod_eq_of_lt c.cls.isLt)
    have isOrder : c.geom.order = if decide (c.geom.order = .columnFirst) = true then .columnFirst else .rowFirst := by
      cases c.geom.order <;> rfl
    have isMode : c.mode = if decide (c.mode = .held) = true then .held else .immediate := by cases c.mode <;> rfl
    have isGap : c.gap = if decide (c.gap = .tolerate) = true then .tolerate else .resync := by cases c.gap <;> rfl
    have isBroken : c.broken = if decide (c.broken = .discard) = true then .discard else .emit := by cases c.broken <;> rfl
    have isOverflow : c.overflow = if decide (c.overflow = .fault) = true then .fault else .dropOldest := by
      cases c.overflow <;> rfl
    rw [← isOrder, ← isMode, ← isGap, ← isBroken, ← isOverflow, cls]
  have spelled : c.toBytes = [byteOf c.geom.w, byteOf c.geom.rows, (BitVec.ofNat 16 c.geom.cols).extractLsb' 8 8,
    (BitVec.ofNat 16 c.geom.cols).extractLsb' 0 8, byteOf c.cls.val, byteOf c.heldLimit,
    byteOf ((if c.geom.order = .columnFirst then 1 else 0) + (if c.mode = .held then 2 else 0) +
        (if c.gap = .tolerate then 4 else 0) + (if c.broken = .discard then 8 else 0) +
        (if c.overflow = .fault then 16 else 0))] := rfl
  rw [spelled, parseCfg_of_bytes, ← fields, small, if_pos ⟨c.cls.isLt, valid⟩]

/-! ### The limits block (R161, R163) -/

/-- LIMITS_READ writes a valid record so that it is read as the same. -/
theorem parseLimits_toBytes {l : Limits} (valid : l.valid = true) : parseLimits l.toBytes = some l := by
  obtain ⟨-, hold, release, reserve, weights⟩ := l.valid_iff.mp valid
  rw [vector4_toList] at weights
  simp only [List.mem_cons, List.not_mem_nil, or_false, forall_eq_or_imp, forall_eq] at weights
  obtain ⟨w0, w1, w2, w3⟩ := weights
  have wide : (BitVec.ofNat 16 l.reserve).toNat = l.reserve := by rw [BitVec.toNat_ofNat]; omega
  have fields : limitsOfBytes (byteOf l.holdMark) (byteOf l.releaseMark) ((BitVec.ofNat 16 l.reserve).extractLsb' 8 8)
      ((BitVec.ofNat 16 l.reserve).extractLsb' 0 8) (l.stallLimit.extractLsb' 8 8) (l.stallLimit.extractLsb' 0 8)
      (byteOf l.weights[0]) (byteOf l.weights[1]) (byteOf l.weights[2]) (byteOf l.weights[3]) (l.discardable.setWidth 8) = l := by
    have stall : l.stallLimit.extractLsb' 8 8 ++ l.stallLimit.extractLsb' 0 8 = l.stallLimit := word16_bytes16 _
    have set : BitVec.ofNat 4 (l.discardable.setWidth 8).toNat = l.discardable := by
      apply BitVec.eq_of_toNat_eq
      rw [BitVec.toNat_ofNat, BitVec.toNat_setWidth]
      omega
    have order : #v[l.weights[0], l.weights[1], l.weights[2], l.weights[3]] = l.weights := vector4_of_elements _
    rw [limitsOfBytes, bytes16_toNat, wide, stall, set, byteOf_toNat_of_lt (n := l.holdMark) (by omega),
      byteOf_toNat_of_lt (n := l.releaseMark) (by omega), byteOf_toNat_of_lt (n := l.weights[0]) (by omega),
      byteOf_toNat_of_lt (n := l.weights[1]) (by omega), byteOf_toNat_of_lt (n := l.weights[2]) (by omega),
      byteOf_toNat_of_lt (n := l.weights[3]) (by omega), order]
  have spelled : l.toBytes = [byteOf l.holdMark, byteOf l.releaseMark, (BitVec.ofNat 16 l.reserve).extractLsb' 8 8,
      (BitVec.ofNat 16 l.reserve).extractLsb' 0 8, l.stallLimit.extractLsb' 8 8, l.stallLimit.extractLsb' 0 8,
      byteOf l.weights[0], byteOf l.weights[1], byteOf l.weights[2], byteOf l.weights[3], l.discardable.setWidth 8] := by
    rw [Limits.toBytes_eq]
    rfl
  rw [spelled, parseLimits_of_bytes, fields, if_pos valid]

/-! ### The command record (R149, R152) -/

theorem commandOf_eq_none : ∀ code : Byte, code = 0 ∨ 0x11 < code.toNat → commandOf code = none := by
  decide +kernel

/-- Settles O14: the three argument blocks, their way back, and the record. -/
theorem argumentBlocksJudgedAndReadBack : Obligations.ArgumentBlocksJudgedAndReadBack := by
  refine ⟨fun b0 b1 b2 b3 b4 b5 b6 b7 => ⟨parseEntry_eq_none_iff b0 b1 b2 b3 b4 b5 b6 b7, fun n e parsed => ?entry⟩,
    fun b0 b1 b2 b3 b4 b5 b6 => ?cfg, fun a n e parsed => parseEntry_toBytes n (parseEntry_accepted parsed),
    fun a c parsed => parseCfg_toBytes (parseCfg_valid parsed), fun a l parsed => parseLimits_toBytes (parseLimits_valid parsed),
    fun a b c d => ⟨bytes16_append a b, bytes32_append a b c d⟩, fun code spare i1 i0 args => ?record,
    ⟨rfl, rfl, fun b no yes => ?noOption⟩, ?names, commandOf_eq_none⟩
  case entry =>
    obtain ⟨valid, action, byte, code, number, value, care, rfl⟩ := parseEntry_fields parsed
    have ofNat {n : Nat} (small : n ≤ 4095) : (BitVec.ofNat 12 n).toNat = n := by rw [BitVec.toNat_ofNat]; omega
    have option : valid = true ↔ b1 = 1 := by
      rw [BitVec.toNat_eq, byte]
      cases valid <;> decide
    have action_ (a : ClassAction) : (entryOfBytes valid action b2 b3 b4 b5 b6 b7).action = a ↔ b6.toNat / 16 = a.code := by
      rw [code, show (entryOfBytes valid action b2 b3 b4 b5 b6 b7).action = action from rfl]
      cases action <;> cases a <;> decide
    exact ⟨number, option, ofNat value, ofNat care, action_ .stream, action_ .spread, action_ .discard, rfl, streamOf_val b7⟩
  case cfg =>
    intro columns
    rw [parseCfg_of_bytes]
    by_cases taken : b4.toNat < 4 ∧ (cfgOfBytes b0 b1 b2 b3 b4 b5 b6).valid = true
    · rw [if_pos taken, if_neg (mt (cfgOfBytes_refused_iff b0 b1 b2 b3 b4 b5 b6).mpr (not_not_intro taken))]
      rfl
    · rw [if_neg taken, if_pos ((cfgOfBytes_refused_iff b0 b1 b2 b3 b4 b5 b6).mp taken)]
  case record =>
    intro record
    refine ⟨rfl, rfl, rfl, rfl, fun b rest spelled => ⟨?_, ?_, ?_⟩, fun b form rest spelled => ?_⟩
    · rw [recordStream, show recordArgs record = args from rfl, spelled]
      exact streamOf_val b
    · exact clearOption_of_args (show recordArgs record = b :: rest from spelled)
    · exact resetLevelArg_of_args (show recordArgs record = b :: rest from spelled)
    · rw [closeForm, show recordArgs record = args from rfl, spelled]
      rfl
  case noOption => rw [boolArg, if_neg no, if_neg yes]
  case names =>
    intro names
    refine ⟨?_, ?_, ?_, ?_, ?_, ?_, ?_, ?_, ?_, ?_, ?_, ?_, ?_, ?_, ?_, ?_, ?_⟩ <;> exact ⟨rfl, rfl, rfl⟩

end Sys2Proof.Machine
end

section
/-!
SUPPORT. The end of an operation on a slot: who takes its mark, and what it leaves alone (R73, R75, R87).
-/
namespace Sys2Proof.Machine

open Sys2Proof

/-! ### The first waiter of a slot (R75) -/

/-- The mark of slot `i` goes to a waiter; a cell takes it into a free assembler only. -/
def handToWaiter (i : SlotNo) (w : Waiter) (s : State) : State :=
  match w with
  | .parkedCell c =>
    if s.assembler = [] then takeMark i { s with engine.parked := s.engine.parked.tail, assembler := [⟨c, i, none⟩] } else s
  | .management t => setReq .management (.holds t i) (takeMark i s)
  | .drain t => setReq .drain (.holds t i) (takeMark i s)
  | .head c => if s.assembler = [] ∧ s.engine.readWaits = false then takeHead c i s else s
  | .nobody => s

theorem waiterOf_of_not_running {i : SlotNo} {s : State} (mode : s.engine.mode ≠ .running) : waiterOf i s = .nobody := by
  unfold waiterOf
  split
  · next running _ => exact absurd running mode
  · rfl

section
variable {i : SlotNo} {s : State}

theorem waiterOf_no_stream (none : s.engine.slots[i].stream = none) : waiterOf i s = .nobody := by
  rw [waiterOf, none]
  split
  · next no => cases no
  · rfl

variable (running : s.engine.mode = .running) {t : StreamId} (stream : s.engine.slots[i].stream = some t)
include running stream

theorem waiterOf_parked {c : StreamCell} {rest : List StreamCell} (parked : s.engine.parked = c :: rest) (same : c.stream = t) :
    waiterOf i s = .parkedCell c := by
  have head : s.engine.parked.head?.filter (fun c => decide (c.stream = t)) = some c := by simp [parked, same]
  simp only [waiterOf, running, stream, head]

omit running stream in
theorem parked_filter_of_not_waits (waits : parkedWaits t s.engine = false) :
    s.engine.parked.head?.filter (fun c => decide (c.stream = t)) = none := by
  unfold parkedWaits at waits
  cases parked : s.engine.parked with
  | nil => rfl
  | cons c rest =>
    rw [parked] at waits
    have apart : ¬ c.stream = t := by simpa using waits
    simp [apart]

theorem waiterOf_management (waits : parkedWaits t s.engine = false) (asked : s.engine.mgmt = .asked t) :
    waiterOf i s = .management t := by
  simp only [waiterOf, running, stream, parked_filter_of_not_waits waits, asked, if_true]

theorem waiterOf_drain (waits : parkedWaits t s.engine = false) (notAgent : s.engine.mgmt ≠ .asked t)
    (asked : s.engine.drainReq = .asked t) : waiterOf i s = .drain t := by
  simp only [waiterOf, running, stream, parked_filter_of_not_waits waits, if_neg notAgent, asked, if_true]

theorem waiterOf_cells (waits : parkedWaits t s.engine = false) (notAgent : s.engine.mgmt ≠ .asked t)
    (notDrain : s.engine.drainReq ≠ .asked t) : waiterOf i s =
      match s.ingress.fifo.head?.filter (fun c => c.stream = t ∧ s.engine.dispWait = some i) with
      | some c => .head c
      | none => .nobody := by
  simp only [waiterOf, running, stream, parked_filter_of_not_waits waits, if_neg notAgent, if_neg notDrain] <;> rfl

end

theorem handTo_of_asked {p : Party} {i : SlotNo} {t : StreamId} {s : State} (asked : reqOf p s = .asked t) :
    handTo p i t s = some (setReq p (.holds t i) (takeMark i s)) := by
  rw [handTo, asked]
  exact if_pos rfl

theorem handTo_of_not_asked {p : Party} {i : SlotNo} {t : StreamId} {s : State} (not : reqOf p s ≠ .asked t) :
    handTo p i t s = none := by
  unfold handTo
  split
  · next u asked =>
    refine if_neg ?_
    rintro rfl
    exact not asked
  all_goals rfl

/-- In RUNNING the mark goes to the first waiter. -/
theorem handOn_eq {i : SlotNo} {s : State} (running : s.engine.mode = .running) : handOn i s = handToWaiter i (waiterOf i s) s := by
  cases stream : s.engine.slots[i].stream with
  | none => rw [handOn, stream, waiterOf_no_stream stream, handToWaiter]
  | some t =>
    rw [handOn, stream]
    simp only
    cases waits : parkedWaits t s.engine with
    | true =>
      obtain ⟨c, rest, parked, same⟩ := parkedWaits_head waits
      rw [waiterOf_parked running stream parked same, if_pos rfl, handToParked, parked]
      simp [handToWaiter, parked]
    | false =>
      rw [if_neg (by decide)]
      by_cases agent : s.engine.mgmt = .asked t
      · rw [waiterOf_management running stream waits agent, handTo_of_asked (p := .management) agent, handToWaiter]
      · rw [handTo_of_not_asked (p := .management) agent]
        by_cases drain : s.engine.drainReq = .asked t
        · rw [waiterOf_drain running stream waits agent drain, handTo_of_asked (p := .drain) drain, handToWaiter]
        · rw [handTo_of_not_asked (p := .drain) drain, waiterOf_cells running stream waits agent drain, handToHead]
          cases fifo : s.ingress.fifo with
          | nil => rfl
          | cons c rest =>
            by_cases fits : c.stream = t ∧ s.engine.dispWait = some i
            · have found : (c :: rest).head?.filter (fun c => decide (c.stream = t ∧ s.engine.dispWait = some i)) = some c := by
                simp [fits]
              rw [found]
              exact ite_congr (propext (by simp [fits])) (fun _ => rfl) fun _ => rfl
            · have found : (c :: rest).head?.filter (fun c => decide (c.stream = t ∧ s.engine.dispWait = some i)) = none := by
                simpa using fits
              rw [found]
              exact if_neg fun ⟨wait, same, _⟩ => fits ⟨same, wait⟩

/-! ### What the waiter's take leaves alone -/

/-- A slot that has been handed to a waiter, or to none, is as it was but for its mark; the other slots, the fetch unit, the
dispatcher's request and the drain-completion list are untouched. -/
structure SlotHanded (i : SlotNo) (s t : State) : Prop where
  slots : ∀ j : SlotNo, j ≠ i → t.engine.slots[j] = s.engine.slots[j]
  slot : t.engine.slots[i] = s.engine.slots[i] ∨ t.engine.slots[i] = { s.engine.slots[i] with inUse := true }
  fetch : t.engine.fetch = s.engine.fetch
  dispReq : t.engine.dispReq = s.engine.dispReq
  drainList : t.engine.drainList = s.engine.drainList

theorem SlotHanded.refl (i : SlotNo) (s : State) : SlotHanded i s s := ⟨fun _ _ => rfl, .inl rfl, rfl, rfl, rfl⟩

theorem slotHanded_of_taken {i : SlotNo} {s t : State} (slots : t.engine.slots = s.engine.slots.set i { s.engine.slots[i] with inUse := true })
    (fetch : t.engine.fetch = s.engine.fetch) (dispReq : t.engine.dispReq = s.engine.dispReq)
    (drainList : t.engine.drainList = s.engine.drainList) : SlotHanded i s t :=
  ⟨fun _ apart => by rw [slots, getElem_set_fin_ne _ _ apart], .inr (by rw [slots, getElem_set_fin_self]), fetch, dispReq, drainList⟩

theorem SlotHanded.stream {i : SlotNo} {s t : State} (h : SlotHanded i s t) : t.engine.slots[i].stream = s.engine.slots[i].stream := by
  obtain same | taken := h.slot
  · rw [same]
  · rw [taken]

theorem SlotHanded.state {i : SlotNo} {s t : State} (h : SlotHanded i s t) : t.engine.slots[i].state = s.engine.slots[i].state := by
  obtain same | taken := h.slot
  · rw [same]
  · rw [taken]

theorem SlotHanded.copy {i : SlotNo} {s t : State} (h : SlotHanded i s t) : t.engine.slots[i].copy = s.engine.slots[i].copy := by
  obtain same | taken := h.slot
  · rw [same]
  · rw [taken]

theorem handToWaiter_handed (i : SlotNo) (w : Waiter) (s : State) : SlotHanded i s (handToWaiter i w s) := by
  unfold handToWaiter
  cases w with
  | parkedCell c =>
    simp only
    split
    · exact slotHanded_of_taken rfl rfl rfl rfl
    · exact .refl i s
  | management t => exact slotHanded_of_taken rfl rfl rfl rfl
  | drain t => exact slotHanded_of_taken rfl rfl rfl rfl
  | head c =>
    simp only
    split
    · exact slotHanded_of_taken rfl rfl rfl rfl
    · exact .refl i s
  | nobody => exact .refl i s

theorem handToWaiter_request (i : SlotNo) (w : Waiter) (s : State) : RequestEffect s (handToWaiter i w s) := by
  unfold handToWaiter
  cases w with
  | parkedCell c =>
    simp only
    split
    · exact .trans (.ofEngine { s.engine with parked := s.engine.parked.tail } [⟨c, i, none⟩] rfl rfl rfl fun _ => rfl)
        (takeMark_request i _)
    · exact .refl s
  | management t => exact (takeMark_request i s).trans (setReq_request .management _ _)
  | drain t => exact (takeMark_request i s).trans (setReq_request .drain _ _)
  | head c =>
    simp only
    split
    · exact takeHead_request c i s
    · exact .refl s
  | nobody => exact .refl s

/-! ### The hand-on in terms of the state in which the mark was held -/

/-- Two states with the same waiters of a slot, the slot's mark still held in the first and given up in the second. -/
structure AwaitsHandOn (i : SlotNo) (s g : State) : Prop where
  mode : g.engine.mode = s.engine.mode
  stream : g.engine.slots[i].stream = s.engine.slots[i].stream
  free : g.engine.slots[i].inUse = false
  lru : g.engine.lru = s.engine.lru
  parked : g.engine.parked = s.engine.parked
  mgmt : g.engine.mgmt = s.engine.mgmt
  drainReq : g.engine.drainReq = s.engine.drainReq
  dispWait : g.engine.dispWait = s.engine.dispWait
  readWaits : g.engine.readWaits = s.engine.readWaits
  assembler : g.assembler = s.assembler
  ingress : g.ingress = s.ingress
  pin : g.resetLow = s.resetLow
  low : g.pool.low = s.pool.low
  limits : g.agent.limits = s.agent.limits

theorem AwaitsHandOn.waiterOf_eq {i : SlotNo} {s g : State} (h : AwaitsHandOn i s g) : waiterOf i g = waiterOf i s := by
  obtain ⟨mode, stream, -, -, parked, mgmt, drainReq, dispWait, -, -, ingress, -, -, -⟩ := h
  simp only [waiterOf, mode, stream, parked, mgmt, drainReq, dispWait, ingress]

theorem takeMark_inUse (i : SlotNo) (s : State) : (takeMark i s).engine.slots[i].inUse = true := by
  rw [takeMark, setSlot, getElem_set_fin_self]

theorem AwaitsHandOn.handedOn {i : SlotNo} {s g : State} (h : AwaitsHandOn i s g) :
    MarkHandedOn i s (handToWaiter i (waiterOf i s) g) := by
  obtain ⟨mode, stream, free, lru, parked, mgmt, drainReq, dispWait, readWaits, assembler, ingress, pin, low, limits⟩ := h
  have touched : touch i g.engine.lru = s.engine.lru.erase i ++ [i] := by rw [lru]; rfl
  unfold MarkHandedOn
  cases waiterOf i s with
  | parkedCell c =>
    show s.assembler = [] → _
    intro empty
    rw [handToWaiter, if_pos (assembler.trans empty)]
    exact ⟨⟨takeMark_inUse i _, touched⟩, ⟨mgmt, drainReq⟩, dispWait, congrArg List.tail parked, rfl, ingress⟩
  | management u => exact ⟨⟨takeMark_inUse i _, touched⟩, ⟨parked, assembler, ingress⟩, dispWait, rfl, drainReq⟩
  | drain u => exact ⟨⟨takeMark_inUse i _, touched⟩, ⟨parked, assembler, ingress⟩, dispWait, mgmt, rfl⟩
  | head c =>
    by_cases ready : s.assembler = [] ∧ s.engine.readWaits = false
    · have readyG : g.assembler = [] ∧ g.engine.readWaits = false := by rwa [assembler, readWaits]
      simp only [if_pos ready]
      rw [handToWaiter, if_pos readyG]
      refine ⟨⟨takeMark_inUse i _, touched⟩, ⟨mgmt, drainReq⟩, rfl, parked, rfl, ?_⟩
      simp only [takeHead, takeMark, setSlot, fifoRemoval, judgeHold, holdDue, dropWait, holdFlagAtRemoval, ingress, pin, low, limits]
    · have busyG : ¬ (g.assembler = [] ∧ g.engine.readWaits = false) := by rwa [assembler, readWaits]
      simp only [if_neg ready]
      rw [handToWaiter, if_neg busyG]
      exact ⟨free, lru, ⟨parked, assembler, ingress⟩, ⟨mgmt, drainReq⟩, dispWait⟩
  | nobody => exact ⟨free, lru, ⟨parked, assembler, ingress⟩, ⟨mgmt, drainReq⟩, dispWait⟩

/-! ### The release of a mark that leaves the engine in its mode -/

theorem anyInUse_of_slot {e : Engine} {j : SlotNo} (used : e.slots[j].inUse = true) : anyInUse e = true := by
  cases free : anyInUse e with
  | true => rfl
  | false => rw [not_inUse_of_anyInUse free j] at used; cases used

/-- In RUNNING the first waiter takes the mark; in SWEEP_WAIT beside another operation or a fetch nobody does. -/
theorem release_of_modeStays {i : SlotNo} {s : State} (stays : ModeStays i s) (wrote : Bool) :
    release i wrote s = handToWaiter i (waiterOf i s) (givenUp i wrote s) := by
  have stream : (givenUp i wrote s).engine.slots[i].stream = s.engine.slots[i].stream := by
    rw [givenUp, setSlot, getElem_set_fin_self]
  obtain running | ⟨⟨k, mode⟩, busy⟩ := stays
  · have same : waiterOf i (givenUp i wrote s) = waiterOf i s := by
      simp only [waiterOf, stream]
      rfl
    have release : release i wrote s = handOn i (givenUp i wrote s) := by rw [release_eq, running]
    rw [release, handOn_eq (s := givenUp i wrote s) running, same]
  · have release : release i wrote s = leaveSweepWait (givenUp i wrote s) := by rw [release_eq, mode]
    have stays : leaveSweepWait (givenUp i wrote s) = givenUp i wrote s := by
      refine leaveSweepWait_stays (busy.symm.imp (fun ⟨j, apart, used⟩ => anyInUse_of_slot (j := j) ?_) id)
      rw [givenUp_used, if_neg (Ne.symm apart)]
      exact used
    rw [release, stays, waiterOf_of_not_running (by rw [mode]; exact fun no => nomatch no), handToWaiter]

theorem givenUp_awaits (i : SlotNo) (wrote : Bool) (s : State) : AwaitsHandOn i s (givenUp i wrote s) := by
  have slot : (givenUp i wrote s).engine.slots[i] = { s.engine.slots[i] with
      inUse := false
      state := if wrote then .dirty else s.engine.slots[i].state } := getElem_set_fin_self _ _ _
  exact ⟨rfl, by rw [slot], by rw [slot], rfl, rfl, rfl, rfl, rfl, rfl, rfl, rfl, rfl, rfl, rfl⟩

/-- What a release leaves of the slot beside its mark. -/
theorem givenUp_slot (i : SlotNo) (wrote : Bool) (s : State) : (givenUp i wrote s).engine.slots[i] =
    { s.engine.slots[i] with inUse := false, state := if wrote then .dirty else s.engine.slots[i].state } :=
  getElem_set_fin_self _ _ _

section
variable {i : SlotNo} {s : State} (stays : ModeStays i s) (wrote : Bool)
include stays

theorem release_handed : SlotHanded i (givenUp i wrote s) (release i wrote s) := by
  rw [release_of_modeStays stays]
  exact handToWaiter_handed i _ _

theorem release_request : RequestEffect (givenUp i wrote s) (release i wrote s) := by
  rw [release_of_modeStays stays]
  exact handToWaiter_request i _ _

theorem release_state : (release i wrote s).engine.slots[i].state = if wrote then .dirty else s.engine.slots[i].state := by
  rw [(release_handed stays wrote).state, givenUp_slot]

theorem release_copy : (release i wrote s).engine.slots[i].copy = s.engine.slots[i].copy := by
  rw [(release_handed stays wrote).copy, givenUp_slot]

/-- Seen from any state with the same waiters, the mark has been handed on. -/
theorem release_handedOn {r : State} (same : AwaitsHandOn i r (givenUp i wrote s)) : MarkHandedOn i r (release i wrote s) := by
  have waiter : waiterOf i s = waiterOf i r := by rw [← (givenUp_awaits i wrote s).waiterOf_eq, same.waiterOf_eq]
  rw [release_of_modeStays stays, waiter]
  exact same.handedOn

end

theorem LinkKeptByReply.of_eq {s t : State} (link : t.link = s.link) : LinkKeptByReply s t := fun _ => link

theorem release_keptByRelease {i : SlotNo} {s : State} (stays : ModeStays i s) (wrote : Bool) :
    KeptByRelease i s (release i wrote s) := by
  have r := release_request stays wrote
  have h := release_handed stays wrote
  exact ⟨⟨r.port, r.rsp⟩, release_handedOn stays wrote (givenUp_awaits i wrote s), r.classifier, r.store,
    fun j apart => (h.slots j apart).trans (getElem_set_fin_ne _ _ apart), by rw [h.stream, givenUp_slot],
    ⟨h.fetch, r.readWaits, h.dispReq, r.mode⟩, h.drainList, r.pool, by rw [r.egress]; rfl, by rw [r.egress]; exact ⟨rfl, rfl⟩,
    r.notices, .of_eq r.link, by rw [r.agent]; rfl, by rw [r.agent]; rfl, by rw [r.agent]; rfl, r.resetLow, r.pending⟩

end Sys2Proof.Machine
end

section
/-!
SUPPORT. The stream commands: what the effect of each leaves alone, the end that answers it, and the command of each row (R10–R23, R73,
R86, R151–R155).
-/
namespace Sys2Proof.Machine

open Sys2Proof

/-! ### What the effect of a stream command leaves to its answer -/

/-- From `s` to `t` no reply and no cache entry has come or gone, and the engine stays in a mode in which an operation ends. -/
structure EffectKept (s t : State) : Prop where
  owed : owedReplies t = owedReplies s
  cache : t.agent.cache = s.agent.cache
  pin : t.resetLow = s.resetLow
  stays : ∀ i, ModeStays i s → ModeStays i t

theorem EffectKept.refl (s : State) : EffectKept s s := ⟨rfl, rfl, rfl, fun _ => id⟩

theorem EffectKept.trans {s t u : State} (h : EffectKept s t) (k : EffectKept t u) : EffectKept s u :=
  ⟨k.owed.trans h.owed, k.cache.trans h.cache, k.pin.trans h.pin, fun i stays => k.stays i (h.stays i stays)⟩

theorem EffectKept.of_engine {s t : State} (owed : owedReplies t = owedReplies s) (cache : t.agent.cache = s.agent.cache)
    (pin : t.resetLow = s.resetLow) (engine : t.engine = s.engine) : EffectKept s t :=
  ⟨owed, cache, pin, fun i stays => by rw [ModeStays, engine]; exact stays⟩

theorem BlockEffect.kept {s t : State} (k : BlockEffect s t) (owed : owedReplies t = owedReplies s) : EffectKept s t :=
  .of_engine owed k.cache k.resetLow k.engine

theorem requestNotice_owedReplies (k : NoticeKind) (t : Option StreamId) (s : State) :
    owedReplies (requestNotice k t s) = owedReplies s := by
  unfold requestNotice
  split
  · split
    · rfl
    · split
      · exact (judgePort_owed _).replies
      · rfl
  · rfl

theorem requestNotice_kept (k : NoticeKind) (t : Option StreamId) (s : State) : EffectKept s (requestNotice k t s) :=
  (requestNotice_block k t s).kept (requestNotice_owedReplies k t s)

theorem judgePort_kept (s : State) : EffectKept s (judgePort s) := (judgePort_block s).kept (judgePort_owed s).replies

theorem freeBlock_kept (h : Handle) (s : State) : EffectKept s (freeBlock h s) := (freeBlock_block h s).kept rfl

theorem setDesc_kept (h : Handle) (d : Desc) (s : State) : EffectKept s (setDesc h d s) := (setDesc_block h d s).kept rfl

theorem setDrain_kept (t : StreamId) (e : DrainEntry) (s : State) : EffectKept s (setDrain t e s) := (setDrain_block t e s).kept rfl

theorem queueEntry_kept (t : StreamId) (c : EgressClass) (h : Handle) (s : State) : EffectKept s (queueEntry t c h s) := by
  unfold queueEntry
  split
  · exact (freeBlock_kept h s).trans ((count_block _ _).kept rfl)
  · have queued : EffectKept s (riseOutstanding t (setQueue c (s.egress.queues[c] ++ [h]) (setDescState h .queued s))) :=
      .of_engine rfl rfl rfl rfl
    exact queued.trans (judgePort_kept _)

theorem handOnBlocks_kept (t : StreamId) (c : EgressClass) (hs : List Handle) (s : State) : EffectKept s (handOnBlocks t c hs s) := by
  induction hs generalizing s with
  | nil => exact .refl s
  | cons h hs ih => exact (queueEntry_kept t c h s).trans (ih _)

theorem complete_kept (t : StreamId) (h : Handle) (n : Nat) (short broken spliced : Bool) (s : State) (x : Ctx) :
    EffectKept s (complete t h n short broken spliced s x).1 := by
  refine (setDesc_kept h { s.pool.desc[h] with count := n, flags := ⟨short, broken, spliced⟩ } s).trans ?_
  unfold complete placeCompleted
  split
  · exact queueEntry_kept t _ h _
  · split
    · exact setDesc_kept h _ _
    · split
      · unfold overflowDropOldest
        split
        · exact setDesc_kept h _ _
        · exact (freeBlock_kept _ _).trans <| (setDesc_kept h _ _).trans (requestNotice_kept _ _ _)
      · exact (freeBlock_kept h _).trans (requestNotice_kept _ _ _)

theorem cut_kept (t : StreamId) (s : State) (x : Ctx) : EffectKept s (cut t s x).1 := by
  unfold cut
  split
  · exact complete_kept ..
  all_goals exact .refl s

theorem releaseHeld_kept (t : StreamId) (s : State) (x : Ctx) : EffectKept s (releaseHeld t s x).1 := by
  unfold releaseHeld
  split
  · exact handOnBlocks_kept t _ _ s
  · exact .refl s

theorem closeBlocks_kept (t : StreamId) (s : State) (x : Ctx) : EffectKept s (closeBlocks t s x).1 :=
  (cut_kept t s x).trans (releaseHeld_kept t _ _)

theorem reconfigure_kept (cfg : StreamCfg) (t : StreamId) (s : State) (x : Ctx) : EffectKept s (reconfigure cfg t s x).1 := by
  unfold reconfigure
  split
  · exact handOnBlocks_kept t _ _ s
  all_goals exact .refl s

theorem freeAll_kept (hs : List Handle) (s : State) : EffectKept s (freeAll hs s) := by
  induction hs generalizing s with
  | nil => exact .refl s
  | cons h hs ih => exact (freeBlock_kept h s).trans (ih _)

/-- Outside RUNNING the drain service asks and waits (R87). -/
theorem serveDrain_of_not_running {s : State} (mode : s.engine.mode ≠ .running) :
    ∃ r, serveDrain s = { s with engine.drainReq := r } := by
  unfold serveDrain
  split
  · next t _ _ _ =>
    refine ⟨.asked t, ?_⟩
    unfold askEngage
    simp only [setReq]
    split
    · next running => exact absurd running mode
    all_goals rfl
  · exact ⟨s.engine.drainReq, rfl⟩

theorem raiseDrain_kept (t : StreamId) (s : State) : EffectKept s (raiseDrain t s) := by
  have request := (raiseDrain_request t s)
  refine ⟨by simp only [owedReplies, request.link, request.egress], by rw [request.agent], request.resetLow, fun i stays => ?_⟩
  by_cases running : s.engine.mode = .running
  · exact .inl (request.mode.trans running)
  · unfold raiseDrain
    split
    · exact stays
    · obtain ⟨r, eq⟩ := serveDrain_of_not_running (s := { s with engine.drainList := s.engine.drainList ++ [t] }) running
      rw [eq]
      exact stays

theorem fallOutstanding_kept (t : StreamId) (s : State) : EffectKept s (fallOutstanding t s) := by
  unfold fallOutstanding
  simp only
  split
  · exact (setDrain_kept t _ s).trans (raiseDrain_kept t _)
  · exact setDrain_kept t _ s

theorem freeQueued_kept (h : Handle) (s : State) : EffectKept s (freeQueued h s) := by
  refine EffectKept.trans (t := { s with egress.queues := withoutHandle h s.egress.queues }) (.of_engine rfl rfl rfl rfl) ?_
  exact (freeBlock_kept h _).trans (fallOutstanding_kept _ _)

theorem freeAllQueued_kept (hs : List Handle) (s : State) : EffectKept s (freeAllQueued hs s) := by
  induction hs generalizing s with
  | nil => exact .refl s
  | cons h hs ih => exact (freeQueued_kept h s).trans (ih _)

theorem markAbort_kept (t : StreamId) (s : State) : EffectKept s (markAbort t s) := by
  unfold markAbort
  split
  · next item =>
    split
    · exact .of_engine (by simp only [owedReplies, item]) rfl rfl rfl
    · exact .refl s
  all_goals exact .refl s

theorem tearDown_kept (t : StreamId) (s : State) (x : Ctx) : EffectKept s (tearDown t s x).1 :=
  (setDrain_kept t _ s).trans <| (freeAll_kept _ _).trans <| (freeAllQueued_kept _ _).trans <| (markAbort_kept t _).trans (judgePort_kept _)

/-! ### The end of a stream command (R73, R75, R151–R155) -/

theorem finish_owedReplies (record : List Byte) (status : Status) (result : List Byte) (next : AgentState) (u : State) :
    owedReplies (finish record status result next u) = owedReplies u ++ [executedReply record status result] := by
  rw [finish, appendReply, judgePort_owedReplies (by simp)]
  simp only [owedReplies, List.append_assoc]
  rfl

section
variable (record : List Byte) (status : Status) (result : List Byte) (i : SlotNo) (wrote : Bool) (x : Ctx) (u : State)

/-- The record is written, the reply appended, and the agent holds no slot any more. -/
def answered : State := finish record status result .idle { setCopy i x u with engine.mgmt := .idle }

theorem answered_engine : (answered record status result i x u).engine = { (setCopy i x u).engine with mgmt := .idle } :=
  (finish_engine ..).1

theorem answered_fields :
    (answered record status result i x u).engine.mode = u.engine.mode ∧ (answered record status result i x u).engine.lru = u.engine.lru ∧
    (answered record status result i x u).engine.parked = u.engine.parked ∧ (answered record status result i x u).engine.mgmt = .idle ∧
    (answered record status result i x u).engine.drainReq = u.engine.drainReq ∧
    (answered record status result i x u).engine.dispReq = u.engine.dispReq ∧
    (answered record status result i x u).engine.dispWait = u.engine.dispWait ∧
    (answered record status result i x u).engine.readWaits = u.engine.readWaits ∧
    (answered record status result i x u).engine.fetch = u.engine.fetch ∧
    (answered record status result i x u).engine.store = u.engine.store ∧
    (answered record status result i x u).engine.drainList = u.engine.drainList := by
  rw [answered_engine]
  exact ⟨rfl, rfl, rfl, rfl, rfl, rfl, rfl, rfl, rfl, rfl, rfl⟩

theorem answered_kept : KeptByReply { setCopy i x u with engine.mgmt := .idle } (answered record status result i x u) :=
  finish_keptByReply ..

variable {record status result i x u}

theorem answered_slot : (answered record status result i x u).engine.slots[i] = { u.engine.slots[i] with copy := x } := by
  rw [answered_engine]
  exact getElem_set_fin_self _ _ _

theorem answered_slot_ne {j : SlotNo} (apart : j ≠ i) : (answered record status result i x u).engine.slots[j] = u.engine.slots[j] := by
  rw [answered_engine]
  exact getElem_set_fin_ne _ _ apart

theorem answered_stays (stays : ModeStays i u) : ModeStays i (answered record status result i x u) := by
  obtain ⟨mode, -, -, -, -, -, -, -, fetch, -⟩ := answered_fields record status result i x u
  refine stays.imp mode.trans (And.imp (Exists.imp fun k => mode.trans) (Or.imp (fun busy => fetch ▸ busy) ?_))
  rintro ⟨j, apart, used⟩
  exact ⟨j, apart, by rw [answered_slot_ne apart]; exact used⟩

theorem answered_awaits : AwaitsHandOn i { u with engine.mgmt := .idle } (givenUp i wrote (answered record status result i x u)) := by
  have kept := answered_kept record status result i x u
  have own := givenUp_slot i wrote (answered record status result i x u)
  obtain ⟨mode, lru, parked, mgmt, drainReq, -, dispWait, readWaits, -⟩ := answered_fields record status result i x u
  exact ⟨mode, by rw [own, answered_slot], by rw [own], lru, parked, mgmt, drainReq, dispWait, readWaits,
    kept.assembler, kept.ingress, kept.pin, congrArg Pool.low kept.pool, kept.limits⟩

/-- Once the mark has been handed on, the command is answered and the rest is as its effect left it. -/
theorem release_answered {s : State} (effect : EffectKept s u) (stays : ModeStays i u) :
    StreamAnswered record i status result x s u (release i wrote (answered record status result i x u)) ∧
      (release i wrote (answered record status result i x u)).engine.slots[i].state =
        if wrote then .dirty else u.engine.slots[i].state := by
  have kept := answered_kept record status result i x u
  obtain ⟨mode, -, -, mgmt, -, dispReq, -, readWaits, fetch, store, drainList⟩ := answered_fields record status result i x u
  have still := answered_stays (record := record) (status := status) (result := result) (x := x) stays
  have handed := release_keptByRelease still wrote
  have request := release_request still wrote
  have agent : (release i wrote (answered record status result i x u)).agent = (answered record status result i x u).agent :=
    request.agent
  have owed : owedReplies (release i wrote (answered record status result i x u)) = owedReplies (answered record status result i x u) := by
    simp only [owedReplies, request.link, request.egress]
    rfl
  refine ⟨{
    reply := ?_
    cache := ?_
    port := ⟨handed.port.1.trans (congrArg Ingress.port kept.ingress), handed.port.2.trans (congrArg Ingress.rsp kept.ingress)⟩
    mark := release_handedOn still wrote (answered_awaits wrote)
    classifier := handed.classifier.trans kept.classifier
    store := handed.store.trans store
    slots := fun j apart => (handed.slots j apart).trans (answered_slot_ne apart)
    slotStream := by rw [handed.slotStream, answered_slot]
    fetch := ⟨handed.fetch.1.trans fetch, handed.fetch.2.1.trans readWaits, handed.fetch.2.2.1.trans dispReq,
      handed.fetch.2.2.2.trans mode⟩
    drainList := handed.drainList.trans drainList
    pool := handed.pool.trans kept.pool
    queues := handed.queues.trans kept.queues
    roundRobin := ⟨handed.roundRobin.1.trans kept.roundRobin.1, handed.roundRobin.2.trans kept.roundRobin.2⟩
    notices := handed.notices.trans kept.notices
    link := fun busy => request.link.trans (kept.link busy)
    commands := handed.commands.trans kept.commands
    limits := handed.limits.trans kept.limits
    counters := handed.counters.trans kept.counters
    pin := handed.pin.trans kept.pin
    pending := handed.pending.trans kept.pending
    released := release_mgmt_idle i wrote mgmt
    copy := by rw [release_copy still, answered_slot] }, ?_⟩
  · rw [owed, answered, finish_owedReplies, ← effect.owed]
    rfl
  · rw [agent, answered, finish_agent, ← effect.cache]
    rfl
  · rw [release_state still, answered_slot]

end

/-- A row of a stream command that holds its slot executes it, answers it and makes the take (R86, R151). -/
theorem runStream_answers {c : Command} {record : List Byte} {t : StreamId} {i : SlotNo} {s : State} {mine : List Byte → Bool}
    {f : List Byte → StreamId → State → Ctx → StreamAnswer} {a : StreamAnswer} (runs : RunsOn c record t i s)
    (taken : mine record = true) (answer : f record t s s.engine.slots[i].copy = a) (effect : EffectKept s a.state) :
    ∃ v, live (runStream c mine f) s = .next v ∧ TakeFollows (fun u => StreamAnswered record i a.status a.result a.ctx s a.state u ∧
      u.engine.slots[i].state = if a.wrote then .dirty else a.state.engine.slots[i].state) v := by
  have stays := effect.stays i runs.mode
  have event : live (runStream c mine f) s =
      .next (takeNext (release i a.wrote (answered record a.status a.result i a.ctx a.state))) := by
    simp only [live, runStream, runs.awake, runs.executing, runs.holds, runs.names, taken, answer, and_self, Bool.false_eq_true,
      if_true, if_false, answered]
  have ended := release_answered (record := record) (status := a.status) (result := a.result) (x := a.ctx) a.wrote effect stays
  have kept := answered_kept record a.status a.result i a.ctx a.state
  have request := release_request (answered_stays (record := record) (status := a.status) (result := a.result) (x := a.ctx) stays) a.wrote
  refine ⟨_, event, _, ended, ?_, exec_commandTake_of_awake ?_⟩
  · have agent : (release i a.wrote (answered record a.status a.result i a.ctx a.state)).agent =
        (answered record a.status a.result i a.ctx a.state).agent := request.agent
    rw [agent, answered, finish_agent]
  · exact (request.resetLow.trans kept.pin).trans (effect.pin.trans runs.awake)

/-! ### The rows (R10–R23) -/

/-- A command that writes its record leaves the slot DIRTY. -/
theorem runStream_writes {c : Command} {record : List Byte} {t : StreamId} {i : SlotNo} {s u : State} {x : Ctx} {status : Status}
    {mine : List Byte → Bool} {f : List Byte → StreamId → State → Ctx → StreamAnswer} (runs : RunsOn c record t i s)
    (taken : mine record = true) (answer : f record t s s.engine.slots[i].copy = wroteStream status (u, x)) (effect : EffectKept s u) :
    ∃ v, live (runStream c mine f) s = .next v ∧ TakeFollows (fun w => StreamAnswered record i status [] x s u w ∧
      w.engine.slots[i].state = .dirty) v :=
  runStream_answers runs taken answer effect

/-- A refused command changes nothing. -/
theorem runStream_refuses {c : Command} {record : List Byte} {t : StreamId} {i : SlotNo} {s : State} {status : Status}
    {mine : List Byte → Bool} {f : List Byte → StreamId → State → Ctx → StreamAnswer} (runs : RunsOn c record t i s)
    (taken : mine record = true)
    (answer : f record t s s.engine.slots[i].copy = refuseStream status s s.engine.slots[i].copy) :
    ∃ v, live (runStream c mine f) s = .next v ∧ TakeFollows (fun w =>
      StreamAnswered record i status [] s.engine.slots[i].copy s s w ∧ w.engine.slots[i].state = s.engine.slots[i].state) v :=
  runStream_answers runs taken answer (.refl s)

end Sys2Proof.Machine
end

section
/-!
SUPPORT. The stream commands, row by row (R10–R23, R68, R151–R155, R185).
-/
namespace Sys2Proof.Machine

open Sys2Proof

/-! ### Refusals (R6, R10) -/

section
variable {record : List Byte} (t : StreamId) (s : State) {x : Ctx}

theorem answerOpen_of_illegal (illegal : configArg record = none) : answerOpen record t s x = refuseStream .badArgument s x := by
  rw [answerOpen, illegal]

theorem answerOpen_of_legal {cfg : StreamCfg} (legal : configArg record = some cfg) : answerOpen record t s x =
    if x.state = .closed then wroteStream .done (s, openedCtx cfg x) else refuseStream .badState s x := by
  rw [answerOpen, legal]

theorem answerReconfigure_of_illegal (illegal : configArg record = none) :
    answerReconfigure record t s x = refuseStream .badArgument s x := by
  rw [answerReconfigure, illegal]

theorem answerReconfigure_of_legal {cfg : StreamCfg} (legal : configArg record = some cfg) : answerReconfigure record t s x =
    if mayReconfigure cfg t s x then wroteStream .done (reconfigure cfg t s x) else refuseStream .badState s x := by
  rw [answerReconfigure, legal]

theorem answerCloseGraceful_of_no_form (noForm : closeForm record = none) :
    answerCloseGraceful record t s x = refuseStream .badArgument s x := by
  rw [answerCloseGraceful, noForm]

theorem answerCloseGraceful_of_form {form : Bool} (named : closeForm record = some form) : answerCloseGraceful record t s x =
    if x.state = .opened ∨ x.state = .paused ∨ x.state = .faulted then drainOrClose t (closeBlocks t s x)
    else refuseStream .badState s x := by
  rw [answerCloseGraceful, named]

theorem answerCloseAbort_of_no_form (noForm : closeForm record = none) :
    answerCloseAbort record t s x = refuseStream .badArgument s x := by
  rw [answerCloseAbort, noForm]

theorem answerCloseAbort_of_form {form : Bool} (named : closeForm record = some form) : answerCloseAbort record t s x =
    if x.state = .closed then refuseStream .badState s x else wroteStream .done (tearDown t s x) := by
  rw [answerCloseAbort, named]

end

theorem mayReconfigure_paused {cfg : StreamCfg} {t : StreamId} {s : State} {x : Ctx} (may : mayReconfigure cfg t s x = true) :
    x.state = .paused := by
  simp only [mayReconfigure, Bool.and_eq_true, beq_iff_eq] at may
  exact may.1.1.1

theorem closeForm_ne {record : List Byte} {form other : Bool} (named : closeForm record = some form) (apart : form ≠ other) :
    (closeForm record != some other) = true := by
  rw [named, bne_iff_ne]
  exact fun same => apart (Option.some.inj same)

theorem closeForm_ne_of_none {record : List Byte} (noForm : closeForm record = none) (other : Bool) :
    (closeForm record != some other) = true := by
  rw [noForm]
  rfl

/-- Settles O43: the eight rows in turn. -/
theorem refusedStreamCommandsChangeNothing : Obligations.RefusedStreamCommandsChangeNothing := by
  intro s record t i row c legal named runs x refused
  have takes {st : StreamState} (not : takenIn row x.state = false) (taken : takenIn row st = true) : x.state ≠ st := fun same => by
    rw [same, taken] at not
    cases not
  cases row with
  | streamOpen =>
    obtain ⟨rfl, rfl⟩ := Prod.mk.inj (Option.some.inj named)
    refine ⟨fun legal not => ?_, fun _ illegal => ?_, fun close => nomatch close⟩
    · obtain ⟨cfg, parsed⟩ := Option.isSome_iff_exists.mp legal
      exact runStream_refuses runs rfl ((answerOpen_of_legal t s parsed).trans (if_neg (takes not rfl)))
    · exact runStream_refuses runs rfl (answerOpen_of_illegal t s (by simpa using illegal))
  | streamPause =>
    obtain ⟨rfl, rfl⟩ := Prod.mk.inj (Option.some.inj named)
    exact ⟨fun _ not => runStream_refuses (f := answerPause) runs rfl (if_neg (takes not rfl)), fun _ illegal => absurd trivial illegal,
      fun close => nomatch close⟩
  | streamResume =>
    obtain ⟨rfl, rfl⟩ := Prod.mk.inj (Option.some.inj named)
    exact ⟨fun _ not => runStream_refuses (f := answerResume) runs rfl (if_neg (takes not rfl)), fun _ illegal => absurd trivial illegal,
      fun close => nomatch close⟩
  | streamCut =>
    obtain ⟨rfl, rfl⟩ := Prod.mk.inj (Option.some.inj named)
    refine ⟨fun _ not => runStream_refuses (f := answerCut) runs rfl (if_neg ?_), fun _ illegal => absurd trivial illegal,
      fun close => nomatch close⟩
    exact not_or.mpr ⟨takes not rfl, takes not rfl⟩
  | streamRelease =>
    obtain ⟨rfl, rfl⟩ := Prod.mk.inj (Option.some.inj named)
    refine ⟨fun _ not => runStream_refuses (f := answerRelease) runs rfl (if_neg ?_), fun _ illegal => absurd trivial illegal,
      fun close => nomatch close⟩
    exact not_or.mpr ⟨takes not rfl, not_or.mpr ⟨takes not rfl, takes not rfl⟩⟩
  | streamReconfigure =>
    obtain ⟨rfl, rfl⟩ := Prod.mk.inj (Option.some.inj named)
    refine ⟨fun legal not => ?_, fun _ illegal => ?_, fun close => nomatch close⟩
    · obtain ⟨cfg, parsed⟩ := Option.isSome_iff_exists.mp legal
      refine runStream_refuses runs rfl ((answerReconfigure_of_legal t s parsed).trans (if_neg fun may => ?_))
      exact takes not rfl (mayReconfigure_paused may)
    · exact runStream_refuses runs rfl (answerReconfigure_of_illegal t s (by simpa using illegal))
  | streamCloseGraceful =>
    obtain ⟨rfl, rfl⟩ := Prod.mk.inj (Option.some.inj named)
    refine ⟨fun form not => ?_, fun no => absurd rfl no, fun _ noForm => ?_⟩
    · refine runStream_refuses runs (closeForm_ne form (by decide)) ((answerCloseGraceful_of_form t s form).trans (if_neg ?_))
      exact not_or.mpr ⟨takes not rfl, not_or.mpr ⟨takes not rfl, takes not rfl⟩⟩
    · exact runStream_refuses runs (closeForm_ne_of_none noForm true) (answerCloseGraceful_of_no_form t s noForm)
  | streamCloseAbort =>
    obtain ⟨rfl, rfl⟩ := Prod.mk.inj (Option.some.inj named)
    refine ⟨fun form not => ?_, fun no => absurd rfl no, fun _ noForm => ?_⟩
    · refine runStream_refuses runs (closeForm_ne form (by decide)) ((answerCloseAbort_of_form t s form).trans (if_pos ?_))
      refine Classical.byContradiction fun open_ => ?_
      cases state : x.state with
      | closed => exact open_ state
      | opened | paused | draining | faulted => rw [state] at not; cases not
    · exact runStream_refuses runs (closeForm_ne_of_none noForm false) (answerCloseAbort_of_no_form t s noForm)
  | _ => cases named

/-! ### STREAM_OPEN, STREAM_PAUSE, STREAM_RESUME, STREAM_QUERY (R3, R11–R13, R23) -/

/-- The bytes of a configuration, spelled out. -/
theorem StreamCfg.toBytes_eq (c : StreamCfg) : c.toBytes = [byteOf c.geom.w, byteOf c.geom.rows] ++
    bytes16 (BitVec.ofNat 16 c.geom.cols) ++ [byteOf c.cls.val, byteOf c.heldLimit,
      byteOf ((if c.geom.order = .columnFirst then 1 else 0) + (if c.mode = .held then 2 else 0) +
        (if c.gap = .tolerate then 4 else 0) + (if c.broken = .discard then 8 else 0) + (if c.overflow = .fault then 16 else 0))] := rfl

theorem queryResult_length (x : Ctx) (n : Nat) : (queryResult x n).length = 41 := by
  simp only [queryResult, StreamCfg.toBytes_eq, StreamCounters.toBytes, bytes16, bytes32_length, List.length_append, List.length_cons,
    List.length_nil]

/-- Sub-state code and fill index. -/
theorem fill_code_index (f : Fill) : (f.code, f.index) = (match f with
    | .empty => (0, 0) | .filling _ k _ => (1, k) | .hunting => (2, 0) : Byte × Nat) := by
  cases f <;> rfl

/-- Settles O44: the four commands in turn. -/
theorem openPauseResumeAndQueryAct : Obligations.OpenPauseResumeAndQueryAct := by
  intro s record t i x writes
  refine ⟨fun cfg runs closed parsed => ?opening, fun runs opened => ?pause, fun runs paused => ⟨fun h k spliced filling => ?filling,
    fun other => ?other⟩, fun runs => ?query⟩
  case opening =>
    exact runStream_writes runs rfl ((answerOpen_of_legal t s parsed).trans (if_pos closed)) (.refl s)
  case pause => exact runStream_writes (f := answerPause) runs rfl (if_pos opened) (.refl s)
  case filling =>
    have resumed : answerResume record t s x =
        wroteStream .done (s, { x with state := .opened, seqValid := false, fill := .filling h k true }) := by
      rw [answerResume, if_pos paused, resumedCtx, filling]
    exact runStream_writes runs rfl resumed (.refl s)
  case other =>
    have resumed : answerResume record t s x = wroteStream .done (s, { x with state := .opened, seqValid := false }) := by
      rw [answerResume, if_pos paused, resumedCtx]
      obtain empty | hunting := other
      · simp only [empty]
      · simp only [hunting]
    exact runStream_writes runs rfl resumed (.refl s)
  case query =>
    intro g state sub policies result
    have spelled : queryResult x (outstanding t s) = result := by
      have stateCode : x.state.code = state := by
        simp only [state]
        cases x.state <;> rfl
      have subCode : (x.fill.code, x.fill.index) = sub := fill_code_index x.fill
      have code : x.fill.code = sub.1 := congrArg Prod.fst subCode
      have index : x.fill.index = sub.2 := congrArg Prod.snd subCode
      clear_value sub state
      simp only [queryResult, stateCode, code, index, StreamCfg.toBytes_eq, StreamCounters.toBytes, byteOfBool, outstanding, result,
        policies, g, List.append_assoc, List.cons_append, List.nil_append]
    refine ⟨spelled ▸ queryResult_length x _, ?_⟩
    exact runStream_answers (f := answerQuery) (a := ⟨s, x, false, .done, result⟩) runs rfl
      (congrArg (StreamAnswer.mk s x false .done) spelled) (.refl s)

/-! ### STREAM_CUT, STREAM_RELEASE (R14, R15) -/

theorem isFilling_eq_false_iff (f : Fill) : f.isFilling = false ↔ f = .empty ∨ f = .hunting := by
  cases f <;> simp [Fill.isFilling]

theorem releasedCount_eq (x : Ctx) : releasedCount x = if x.cfg.mode = .held then x.held.length else 0 := by
  rw [releasedCount]
  cases x.cfg.mode <;> rfl

/-- Settles O45: both commands, with and without a write. -/
theorem cutAndReleaseCommandsAct : Obligations.CutAndReleaseCommandsAct := by
  intro s record t i x
  refine ⟨fun runs state => ?cut, fun runs state => ?release⟩
  case cut =>
    have answer : answerCut record t s x = ⟨(cut t s x).1, (cut t s x).2, x.fill.isFilling, .done, []⟩ := if_pos state
    obtain ⟨v, event, follows⟩ := runStream_answers (mine := anyRecord) runs rfl answer (cut_kept t s x)
    refine ⟨v, event, follows.imp fun u ⟨done, slot⟩ => ⟨done, slot.trans ?_⟩⟩
    simp only [(cut_block t s x).engine]
    cases filling : x.fill.isFilling with
    | false => rw [if_pos ((isFilling_eq_false_iff _).mp filling)]; rfl
    | true => rw [if_neg (mt (isFilling_eq_false_iff _).mpr (by rw [filling]; decide))]; rfl
  case release =>
    intro n
    have answer : answerRelease record t s x =
        ⟨(releaseHeld t s x).1, (releaseHeld t s x).2, decide (0 < n), .done, [byteOf n]⟩ := by
      rw [answerRelease, if_pos state, releasedCount_eq]
    obtain ⟨v, event, follows⟩ := runStream_answers (mine := anyRecord) runs rfl answer (releaseHeld_kept t s x)
    refine ⟨v, event, follows.imp fun u ⟨done, slot⟩ => ⟨done, slot.trans ?_⟩⟩
    simp only [(releaseHeld_block t s x).engine]
    by_cases none : n = 0
    · rw [if_pos none, none]; rfl
    · rw [if_neg none, if_pos (decide_eq_true (Nat.pos_of_ne_zero none))]

/-! ### STREAM_CLOSE GRACEFUL (R16, R68) -/

theorem drainOrClose_of_drained {t : StreamId} {w : Work} (drained : w.1.pool.drain[t].count = 0) :
    drainOrClose t w = wroteStream .done (w.1, { w.2 with state := .closed }) := if_pos drained

theorem drainOrClose_of_outstanding {t : StreamId} {w : Work} (left : 0 < w.1.pool.drain[t].count) :
    drainOrClose t w =
      wroteStream .draining (setDrain t ⟨w.1.pool.drain[t].count, true⟩ w.1, { w.2 with state := .draining }) :=
  if_neg (Nat.ne_of_gt left)

/-- Settles O46: nothing outstanding, or a drain. -/
theorem gracefulCloseDrainsOrCloses : Obligations.GracefulCloseDrainsOrCloses := by
  intro s record t i runs form x state afterCut w e
  have answer : answerCloseGraceful record t s x = drainOrClose t (closeBlocks t s x) :=
    (answerCloseGraceful_of_form t s form).trans (if_pos state)
  have own := closeForm_ne form (show false ≠ true by decide)
  have kept : EffectKept s w.1 := closeBlocks_kept t s x
  exact ⟨fun drained => runStream_writes runs own (answer.trans (drainOrClose_of_drained drained)) kept,
    fun left => runStream_writes runs own (answer.trans (drainOrClose_of_outstanding left)) (kept.trans (setDrain_kept t _ _))⟩

/-! ### STREAM_RECONFIGURE (R21, R22) -/

theorem mayReconfigure_iff (cfg : StreamCfg) (t : StreamId) (s : State) (x : Ctx) : mayReconfigure cfg t s x = true ↔
    x.state = .paused ∧ (x.fill = .empty ∨ x.fill = .hunting) ∧ (cfg.cls ≠ x.cfg.cls → s.pool.drain[t].count = 0) ∧
      (cfg.mode = .held → x.held.length ≤ cfg.heldLimit) := by
  have cls : (cfg.cls = x.cfg.cls ∨ s.pool.drain[t].count = 0) ↔ (cfg.cls ≠ x.cfg.cls → s.pool.drain[t].count = 0) :=
    Decidable.or_iff_not_imp_left
  have mode : (cfg.mode = .immediate ∨ x.held.length ≤ cfg.heldLimit) ↔ (cfg.mode = .held → x.held.length ≤ cfg.heldLimit) := by
    cases cfg.mode <;> simp
  simp only [mayReconfigure, outstanding, Bool.and_eq_true, Bool.or_eq_true, Bool.not_eq_true', beq_iff_eq, decide_eq_true_eq,
    isFilling_eq_false_iff, and_assoc, cls, mode]

theorem reconfigure_of_handOn {cfg : StreamCfg} (t : StreamId) (s : State) {x : Ctx} (held : x.cfg.mode = .held)
    (immediate : cfg.mode = .immediate) :
    reconfigure cfg t s x = (x.held.foldl (fun v h => queueEntry t cfg.cls h v) s, { x with cfg := cfg, held := [] }) := by
  rw [reconfigure, held, immediate, ← handOnBlocks_eq_foldl]

theorem reconfigure_of_keep {cfg : StreamCfg} (t : StreamId) (s : State) {x : Ctx}
    (keep : ¬ (x.cfg.mode = .held ∧ cfg.mode = .immediate)) : reconfigure cfg t s x = (s, { x with cfg := cfg }) := by
  unfold reconfigure
  split
  · next held immediate => exact absurd ⟨held, immediate⟩ keep
  all_goals rfl

/-- Settles O49: accepted with and without a hand-on, and refused. -/
theorem reconfigureChecksThenStores : Obligations.ReconfigureChecksThenStores := by
  intro s record t i cfg runs parsed x allowed
  have judged : answerReconfigure record t s x = _ := answerReconfigure_of_legal t s parsed
  have may : mayReconfigure cfg t s x = true ↔ allowed := mayReconfigure_iff cfg t s x
  refine ⟨fun ok held immediate => ?_, fun ok keep => ?_, fun no => ?_⟩
  · rw [if_pos (may.mpr ok), reconfigure_of_handOn t s held immediate] at judged
    exact runStream_writes runs rfl judged (handOnBlocks_eq_foldl t cfg.cls x.held s ▸ handOnBlocks_kept t cfg.cls x.held s)
  · rw [if_pos (may.mpr ok), reconfigure_of_keep t s keep] at judged
    exact runStream_writes runs rfl judged (.refl s)
  · rw [if_neg (mt may.mp no)] at judged
    exact runStream_refuses runs rfl judged

end Sys2Proof.Machine
end

section
/-!
SUPPORT. An engagement that is asked for, the fetch unit's next request, and the teardown of a stream (R18, R74, R78–R80, R85–R87, R170).
-/
namespace Sys2Proof.Machine

open Sys2Proof

/-! ### The judgements of a request (R74, R80) -/

theorem markTaken_eq (i : SlotNo) (s : State) : markTaken i s = takeMark i s := rfl

section
variable {p : Party} {s : State} {t : StreamId}

theorem setReq_setReq (r q : EngReq) (s : State) : setReq p r (setReq p q s) = setReq p r s := by
  cases p <;> rfl

theorem setReq_takeMark (r : EngReq) (i : SlotNo) (s : State) : setReq p r (takeMark i s) = takeMark i (setReq p r s) := by
  cases p <;> rfl

theorem setReq_engine (r : EngReq) (s : State) : (setReq p r s).engine.mode = s.engine.mode ∧
    (setReq p r s).engine.slots = s.engine.slots ∧ (setReq p r s).engine.fetch = s.engine.fetch := by
  cases p <;> exact ⟨rfl, rfl, rfl⟩

theorem engagedSlot_setReq (r : EngReq) (s : State) (t : StreamId) :
    engagedSlot (setReq p r s).engine t = engagedSlot s.engine t := by
  cases p <;> rfl

theorem judgeTake_of_free {i : SlotNo} (asked : reqOf p s = .asked t) (engaged : engagedSlot s.engine t = some i)
    (free : s.engine.slots[i].inUse = false) : judgeTake p s = takeMark i (setReq p (.holds t i) s) := by
  rw [judgeTake, asked]
  simp only [engaged, free, Bool.false_eq_true, if_false, setReq_takeMark]

theorem judgeTake_of_inUse {i : SlotNo} (asked : reqOf p s = .asked t) (engaged : engagedSlot s.engine t = some i)
    (used : s.engine.slots[i].inUse = true) : judgeTake p s = s := by
  rw [judgeTake, asked]
  simp only [engaged, used, if_true]

theorem judgeTake_of_not_engaged (asked : reqOf p s = .asked t) (engaged : engagedSlot s.engine t = none) : judgeTake p s = s := by
  rw [judgeTake, asked]
  simp only [engaged]

theorem judgeTake_of_not_asked (other : ∀ u, reqOf p s ≠ .asked u) : judgeTake p s = s := by
  unfold judgeTake
  split
  · next u asked => exact absurd asked (other u)
  all_goals rfl

theorem judgeLodge_of_engaged {i : SlotNo} (asked : reqOf p s = .asked t) (engaged : engagedSlot s.engine t = some i) :
    judgeLodge p s = s := by
  rw [judgeLodge, asked]
  simp only [engaged, Option.isSome_some, Bool.true_or, if_true]

theorem judgeLodge_of_fetched {f : Fetch} (asked : reqOf p s = .asked t) (fetch : s.engine.fetch = some f) (same : f.stream = t) :
    judgeLodge p s = s := by
  have being : beingFetched s.engine t = true := by rw [beingFetched, fetch]; exact beq_iff_eq.mpr same
  rw [judgeLodge, asked]
  simp only [being, Bool.or_true, if_true]

theorem judgeLodge_of_absent (asked : reqOf p s = .asked t) (engaged : engagedSlot s.engine t = none)
    (fetch : ∀ f, s.engine.fetch = some f → f.stream ≠ t) : judgeLodge p s = setReq p (.lodged t) s := by
  have being : beingFetched s.engine t = false := by
    rw [beingFetched]
    cases fetched : s.engine.fetch with
    | none => rfl
    | some f => exact beq_eq_false_iff_ne.mpr (fetch f fetched)
  rw [judgeLodge, asked]
  simp only [engaged, being, Option.isSome_none, Bool.or_self, Bool.false_eq_true, if_false]

theorem judgeLodge_of_not_asked (other : ∀ u, reqOf p s ≠ .asked u) : judgeLodge p s = s := by
  unfold judgeLodge
  split
  · next u asked => exact absurd asked (other u)
  all_goals rfl

theorem startRequest_of_busy (busy : s.engine.fetch ≠ none) : startRequest p s = s := by
  unfold startRequest
  split
  · next idle _ => exact absurd idle busy
  · rfl

theorem startRequest_of_not_lodged (other : ∀ u, reqOf p s ≠ .lodged u) : startRequest p s = s := by
  unfold startRequest
  split
  · next u _ lodged => exact absurd lodged (other u)
  · rfl

theorem startRequest_of_engaged {i : SlotNo} (idle : s.engine.fetch = none) (lodged : reqOf p s = .lodged t)
    (engaged : engagedSlot s.engine t = some i) : startRequest p s = judgeTake p (setReq p (.asked t) s) := by
  simp only [startRequest, idle, lodged, engaged]

theorem startRequest_of_victim {i : SlotNo} (idle : s.engine.fetch = none) (lodged : reqOf p s = .lodged t)
    (engaged : engagedSlot s.engine t = none) (found : victim s.engine = some i) :
    startRequest p s = setReq p (.fetching t) (beginFetch p t i s) := by
  simp only [startRequest, idle, lodged, engaged, found]

end

theorem startDispatcher_of_busy {s : State} (busy : s.engine.fetch ≠ none) : startDispatcher s = s := by
  unfold startDispatcher
  split
  · next idle _ => exact absurd idle busy
  · rfl

theorem startDispatcher_of_no_request {s : State} (none : s.engine.dispReq = none) : startDispatcher s = s := by
  unfold startDispatcher
  split
  · next some => rw [none] at some; cases some
  · rfl

theorem startNext_of_running {s : State} (running : s.engine.mode = .running) :
    startNext s = startDispatcher (startRequest .drain (startRequest .management s)) := by
  rw [startNext, running]

theorem startNext_of_not_running {s : State} (mode : s.engine.mode ≠ .running) : startNext s = s := by
  unfold startNext
  split
  · next running => exact absurd running mode
  all_goals rfl

/-- A unit that serves a fetch starts none. -/
theorem startNext_of_busy {s : State} (busy : s.engine.fetch ≠ none) : startNext s = s := by
  by_cases running : s.engine.mode = .running
  · rw [startNext_of_running running, startRequest_of_busy busy, startRequest_of_busy busy, startDispatcher_of_busy busy]
  · exact startNext_of_not_running running

/-! ### An engagement that is asked for (R74) -/

section
variable {p : Party} (own : p ≠ .dispatcher) {s : State} {t : StreamId}

theorem askEngage_of_not_running (mode : s.engine.mode ≠ .running) : askEngage p t s = setReq p (.asked t) s := by
  unfold askEngage
  simp only [(setReq_engine (p := p) (.asked t) s).1]
  split
  · next running => exact absurd running mode
  all_goals rfl

theorem askEngage_of_running (running : s.engine.mode = .running) :
    askEngage p t s = startNext (judgeLodge p (judgeTake p (setReq p (.asked t) s))) := by
  unfold askEngage
  simp only [(setReq_engine (p := p) (.asked t) s).1, running]

variable (running : s.engine.mode = .running)
include own running

theorem askEngage_of_free {i : SlotNo} (engaged : engagedSlot s.engine t = some i) (free : s.engine.slots[i].inUse = false) :
    askEngage p t s = startNext (markTaken i (setReq p (.holds t i) s)) := by
  have slots := (setReq_engine (p := p) (.asked t) s).2.1
  have take : judgeTake p (setReq p (.asked t) s) = takeMark i (setReq p (.holds t i) s) := by
    rw [judgeTake_of_free (reqOf_setReq own _ s) ((engagedSlot_setReq _ s t).trans engaged) (by rw [slots]; exact free), setReq_setReq]
  have holds : reqOf p (takeMark i (setReq p (.holds t i) s)) = .holds t i := by
    rw [← setReq_takeMark]
    exact reqOf_setReq own _ _
  rw [askEngage_of_running running, take, judgeLodge_of_not_asked fun u => by rw [holds]; exact fun no => nomatch no]
  rfl

theorem askEngage_of_inUse {i : SlotNo} (engaged : engagedSlot s.engine t = some i) (used : s.engine.slots[i].inUse = true) :
    askEngage p t s = startNext (setReq p (.asked t) s) := by
  have slots := (setReq_engine (p := p) (.asked t) s).2.1
  have still := (engagedSlot_setReq (p := p) (.asked t) s t).trans engaged
  rw [askEngage_of_running running, judgeTake_of_inUse (reqOf_setReq own _ s) still (by rw [slots]; exact used),
    judgeLodge_of_engaged (reqOf_setReq own _ s) still]

section
variable (engaged : engagedSlot s.engine t = none)
include engaged

theorem askEngage_of_fetched {f : Fetch} (fetch : s.engine.fetch = some f) (same : f.stream = t) :
    askEngage p t s = setReq p (.asked t) s := by
  have fetching := (setReq_engine (p := p) (.asked t) s).2.2.trans fetch
  have still := (engagedSlot_setReq (p := p) (.asked t) s t).trans engaged
  rw [askEngage_of_running running, judgeTake_of_not_engaged (reqOf_setReq own _ s) still,
    judgeLodge_of_fetched (reqOf_setReq own _ s) fetching same, startNext_of_busy (by rw [fetching]; exact fun no => nomatch no)]

theorem askEngage_of_absent (fetch : ∀ f, s.engine.fetch = some f → f.stream ≠ t) :
    askEngage p t s = startNext (setReq p (.lodged t) s) := by
  have still := (engagedSlot_setReq (p := p) (.asked t) s t).trans engaged
  rw [askEngage_of_running running, judgeTake_of_not_engaged (reqOf_setReq own _ s) still,
    judgeLodge_of_absent (reqOf_setReq own _ s) still (by rw [(setReq_engine (p := p) (.asked t) s).2.2]; exact fetch), setReq_setReq]

theorem askEngage_of_busy {f : Fetch} (fetch : s.engine.fetch = some f) (apart : f.stream ≠ t) :
    askEngage p t s = setReq p (.lodged t) s := by
  have busy : (setReq p (.lodged t) s).engine.fetch ≠ none := by
    rw [(setReq_engine (p := p) (.lodged t) s).2.2, fetch]
    exact fun no => nomatch no
  rw [askEngage_of_absent own running engaged, startNext_of_busy busy]
  intro g fetched
  rw [fetch] at fetched
  cases fetched
  exact apart

end

end

/-- What the agent's request comes to (R74). -/
theorem agentAsks (t : StreamId) (v : State) : AgentAsks t v (askEngage .management t v) where
  sweeping mode := askEngage_of_not_running mode
  free _ running engaged unused := askEngage_of_free (p := .management) (by decide) running engaged unused
  inUse _ running engaged used := askEngage_of_inUse (p := .management) (by decide) running engaged used
  fetched _ running engaged fetch same := askEngage_of_fetched (p := .management) (by decide) running engaged fetch same
  busy _ running engaged fetch apart := askEngage_of_busy (p := .management) (by decide) running engaged fetch apart
  idle running engaged none := askEngage_of_absent (p := .management) (by decide) running engaged
    (by rw [none]; exact fun _ no => nomatch no)

/-! ### What a teardown leaves alone (R18) -/

/-- The agent, the classifier and the store are as they were. -/
structure RestKept (s t : State) : Prop where
  agent : t.agent = s.agent
  classifier : t.classifier = s.classifier
  store : t.engine.store = s.engine.store

theorem RestKept.refl (s : State) : RestKept s s := ⟨rfl, rfl, rfl⟩

theorem RestKept.trans {s t u : State} (h : RestKept s t) (k : RestKept t u) : RestKept s u :=
  ⟨k.agent.trans h.agent, k.classifier.trans h.classifier, k.store.trans h.store⟩

theorem RequestEffect.restKept {s t : State} (h : RequestEffect s t) : RestKept s t := ⟨h.agent, h.classifier, h.store⟩

theorem fallOutstanding_restKept (t : StreamId) (s : State) : RestKept s (fallOutstanding t s) := by
  unfold fallOutstanding
  simp only
  split
  · have pending : RestKept s (setDrain t ⟨0, false⟩ s) := ⟨rfl, rfl, rfl⟩
    exact pending.trans (raiseDrain_request t _).restKept
  · exact ⟨rfl, rfl, rfl⟩

theorem freeAllQueued_restKept (hs : List Handle) (s : State) : RestKept s (freeAllQueued hs s) := by
  induction hs generalizing s with
  | nil => exact .refl s
  | cons h hs ih => exact RestKept.trans (RestKept.trans (t := freeBlock h { s with egress.queues := withoutHandle h s.egress.queues })
      ⟨rfl, rfl, rfl⟩ (fallOutstanding_restKept _ _)) (ih _)

theorem freeAll_restKept (hs : List Handle) (s : State) : RestKept s (freeAll hs s) := by
  induction hs generalizing s with
  | nil => exact .refl s
  | cons h hs ih => exact RestKept.trans (t := freeBlock h s) ⟨rfl, rfl, rfl⟩ (ih _)

theorem markAbort_restKept (t : StreamId) (s : State) : RestKept s (markAbort t s) := by
  unfold markAbort
  split
  · split <;> exact ⟨rfl, rfl, rfl⟩
  all_goals exact .refl s

theorem judgePort_restKept (s : State) : RestKept s (judgePort s) := by
  obtain ⟨-, classifier, engine, -, agent, -⟩ := judgePort_frame s
  exact ⟨agent, classifier, by rw [engine]⟩

theorem tearDown_restKept (t : StreamId) (s : State) (x : Ctx) : RestKept s (tearDown t s x).1 :=
  RestKept.trans (t := setDrainPending t false s) ⟨rfl, rfl, rfl⟩ <| (freeAll_restKept _ _).trans <| (freeAllQueued_restKept _ _).trans <|
    (markAbort_restKept t _).trans (judgePort_restKept _)

/-! ### The operation of a STREAMS reset (R86, R170) -/

/-- A record written in its slot, and its mark handed on. -/
theorem release_setCopy {i : SlotNo} {r : State} (x : Ctx) (wrote : Bool) (stays : ModeStays i r) :
    KeptByRelease i r (release i wrote (setCopy i x r)) ∧ (release i wrote (setCopy i x r)).engine.slots[i].copy = x ∧
      (release i wrote (setCopy i x r)).agent = r.agent ∧ (release i wrote (setCopy i x r)).egress = r.egress ∧
      (release i wrote (setCopy i x r)).link = r.link := by
  have own : (setCopy i x r).engine.slots[i] = { r.engine.slots[i] with copy := x } := getElem_set_fin_self _ _ _
  have other {j : SlotNo} (apart : j ≠ i) : (setCopy i x r).engine.slots[j] = r.engine.slots[j] := getElem_set_fin_ne _ _ apart
  have still : ModeStays i (setCopy i x r) :=
    stays.imp id (And.imp id (Or.imp id fun ⟨j, apart, used⟩ => ⟨j, apart, by rw [other apart]; exact used⟩))
  have handed := release_keptByRelease still wrote
  have slot := givenUp_slot i wrote (setCopy i x r)
  have request := release_request still wrote
  refine ⟨?_, by rw [release_copy still, own], request.agent, request.egress, request.link⟩
  exact { handed with
    mark := release_handedOn still wrote ⟨rfl, by rw [slot, own], by rw [slot], rfl, rfl, rfl, rfl, rfl, rfl, rfl, rfl, rfl, rfl, rfl⟩
    slots := fun j apart => (handed.slots j apart).trans (other apart)
    slotStream := by rw [handed.slotStream, own] }

theorem KeptByRelease.anyAgentState {i : SlotNo} {s t : State} (h : KeptByRelease i s t) (a : AgentState) :
    KeptByRelease i s { t with agent.state := a } := { h with }

theorem tearDownUnlessClosed_of_closed {t : StreamId} {s : State} {x : Ctx} (closed : x.state = .closed) :
    tearDownUnlessClosed t s x = (s, x) := if_pos closed

theorem tearDownUnlessClosed_of_open {t : StreamId} {s : State} {x : Ctx} (open_ : x.state ≠ .closed) :
    tearDownUnlessClosed t s x = tearDown t s x := if_neg open_

section
variable (t : StreamId) (s : State) (x : Ctx)

theorem tearDownUnlessClosed_kept : EffectKept s (tearDownUnlessClosed t s x).1 := by
  unfold tearDownUnlessClosed
  split
  · exact .refl s
  · exact tearDown_kept t s x

theorem tearDownUnlessClosed_restKept : RestKept s (tearDownUnlessClosed t s x).1 := by
  unfold tearDownUnlessClosed
  split
  · exact .refl s
  · exact tearDown_restKept t s x

end

/-- The state in which the operation on a stream has ended and the next one is still to be asked for. -/
def tornDown (t : StreamId) (i : SlotNo) (s : State) : State :=
  release i (decide (s.engine.slots[i].copy.state ≠ .closed))
    { setCopy i (tearDownUnlessClosed t s s.engine.slots[i].copy).2 (tearDownUnlessClosed t s s.engine.slots[i].copy).1 with
      engine.mgmt := .idle }

theorem teardownStep_eq {n t : StreamId} {i : SlotNo} {s : State} (tearing : s.agent.state = .tearing n) (holds : s.engine.mgmt = .holds t i) :
    teardownStep s =
      if h : n.val + 1 < 256 then askEngage .management ⟨n.val + 1, h⟩ { tornDown t i s with agent.state := .tearing ⟨n.val + 1, h⟩ }
      else takeNext { tornDown t i s with agent.state := .idle } := by
  simp only [teardownStep, tearing, holds]
  rfl

/-- Settles O48: the command, and the operation of the reset before and at stream 255. -/
theorem abortAndStreamsResetTearDown : Obligations.AbortAndStreamsResetTearDown := by
  refine ⟨fun s record t i runs form open_ => ?command, fun s n t i awake tearing holds stays => ?reset⟩
  case command =>
    exact runStream_writes runs (closeForm_ne form (by decide)) ((answerCloseAbort_of_form t s form).trans (if_neg open_))
      (tearDown_kept t s _)
  case reset =>
    intro x w
    have effect := tearDownUnlessClosed_kept t s x
    have rest := tearDownUnlessClosed_restKept t s x
    have base : (tearDownUnlessClosed t s x).1 = if x.state = .closed then s else w.1 := by
      rw [tearDownUnlessClosed]
      split <;> rfl
    obtain ⟨kept, copy, agent, egress, link⟩ := release_setCopy (i := i) (r := { (tearDownUnlessClosed t s x).1 with engine.mgmt := .idle })
      (tearDownUnlessClosed t s x).2 (decide (x.state ≠ .closed)) (effect.stays i stays)
    have idle : (tornDown t i s).engine.mgmt = .idle := release_mgmt_idle i _ rfl
    have event := exec_of_awake (c := .streamsTeardown) rfl awake
    rw [teardownStep_eq tearing holds] at event
    have torn : tornDown t i s = release i (decide (x.state ≠ .closed))
      (setCopy i (tearDownUnlessClosed t s x).2 { (tearDownUnlessClosed t s x).1 with engine.mgmt := .idle }) := rfl
    rw [← torn] at kept copy agent egress link
    have agentIs : (tornDown t i s).agent = s.agent := agent.trans rest.agent
    have common (a : AgentState) (u : State) (k : RequestEffect { tornDown t i s with agent.state := a } u) :
        (x.state = .closed → u.engine.slots[i].copy = x ∧ u.pool = s.pool ∧ u.egress = s.egress ∧ u.link = s.link ∧
          u.notices = s.notices) ∧
        (x.state ≠ .closed → u.engine.slots[i].copy = w.2 ∧ u.pool = w.1.pool ∧ u.egress = w.1.egress ∧ u.link = w.1.link ∧
          u.notices = w.1.notices) ∧
        u.engine.store = s.engine.store ∧ u.agent.counters = s.agent.counters ∧ u.agent.cache = s.agent.cache ∧
        u.agent.limits = s.agent.limits ∧ u.classifier = s.classifier := by
      have block : u.engine.slots[i].copy = (tearDownUnlessClosed t s x).2 ∧ u.pool = (tearDownUnlessClosed t s x).1.pool ∧
          u.egress = (tearDownUnlessClosed t s x).1.egress ∧ u.link = (tearDownUnlessClosed t s x).1.link ∧
          u.notices = (tearDownUnlessClosed t s x).1.notices :=
        ⟨(k.copies i).trans copy, k.pool.trans kept.pool, k.egress.trans egress, k.link.trans link, k.notices.trans kept.notices⟩
      refine ⟨fun closed => ?_, fun open_ => ?_, k.store.trans (kept.store.trans rest.store), ?_, ?_, ?_,
        k.classifier.trans (kept.classifier.trans rest.classifier)⟩
      · rwa [tearDownUnlessClosed_of_closed closed] at block
      · rwa [tearDownUnlessClosed_of_open open_] at block
      all_goals rw [k.agent, ← agentIs]
    by_cases more : n.val + 1 < 256
    · rw [dif_pos more] at event
      have request := askEngage_request .management ⟨n.val + 1, more⟩ { tornDown t i s with agent.state := .tearing ⟨n.val + 1, more⟩ }
      obtain ⟨closed, open_, store, counters, cache, limits, classifier⟩ := common _ _ request
      refine ⟨_, _, event, closed, open_, store, counters, cache, limits, classifier, fun _ => ⟨rfl, ?_, ?_⟩, ?_⟩
      · rw [request.agent]
      · exact ⟨_, agentAsks _ _, rfl, idle, by rw [← base]; exact kept.anyAgentState _⟩
      · rintro rfl
        exact absurd more (by decide)
    · rw [dif_neg more] at event
      obtain ⟨closed, open_, store, counters, cache, limits, classifier⟩ := common _ _ (.refl { tornDown t i s with agent.state := .idle })
      refine ⟨{ tornDown t i s with agent.state := .idle }, _, event, closed, open_, store, counters, cache, limits, classifier,
        fun no => absurd no more, fun _ => ⟨idle, kept.commands.trans (congrArg Agent.cmdq rest.agent), rfl, exec_commandTake_of_awake ?_⟩⟩
      exact (kept.pin.trans effect.pin).trans awake

end Sys2Proof.Machine
end

section
/-!
SUPPORT. What an operation on blocks does is the same whatever the context engine holds (R40–R67): it reads no part of the engine.
-/
namespace Sys2Proof.Machine

open Sys2Proof

/-- The state with another context engine. -/
def withEngine (e : Engine) (s : State) : State := { s with engine := e }

/-- The state beside the record with another context engine. -/
def Work.withEngine (e : Engine) (w : Work) : Work := (Machine.withEngine e w.1, w.2)

variable (e : Engine)

theorem takeNotice_withEngine (n : Notice) (rest : List Notice) (s : State) :
    takeNotice n rest (withEngine e s) = withEngine e (takeNotice n rest s) := by
  unfold takeNotice
  split <;> rfl

theorem takeBlock_withEngine (s : State) : takeBlock (withEngine e s) = withEngine e (takeBlock s) := by
  cases chosen : chooseClass s.egress s.agent.limits with
  | none => simp only [takeBlock, withEngine, chosen]
  | some choice =>
    obtain ⟨c, budget⟩ := choice
    cases queue : s.egress.queues[c] with
    | nil => simp only [takeBlock, withEngine, chosen, queue]
    | cons h rest => simp only [takeBlock, withEngine, chosen, queue, startFrame, setDescState, setDesc, setQueue]

theorem takeForSending_withEngine (s : State) : takeForSending (withEngine e s) = withEngine e (takeForSending s) := by
  have notice := takeNotice_withEngine e
  have block := takeBlock_withEngine e s
  simp only [withEngine] at notice block
  simp only [takeForSending, withEngine]
  split
  · rfl
  · split
    · exact notice _ _ s
    · exact block

theorem hasWaiting_withEngine (s : State) : hasWaiting (withEngine e s) = hasWaiting s := rfl

theorem judgePort_withEngine (s : State) : judgePort (withEngine e s) = withEngine e (judgePort s) := by
  have take := takeForSending_withEngine e s
  have same := hasWaiting_withEngine e s
  have fields : (withEngine e s).link = s.link ∧ (withEngine e s).agent = s.agent := ⟨rfl, rfl⟩
  cases item : s.link.inflight with
  | some _ => rw [judgePort_of_inflight (s := s) (by rw [item]; rfl), judgePort_of_inflight (by rw [fields.1, item]; rfl)]
  | none =>
    cases port : s.link.port with
    | stalled => rw [judgePort_of_stalled port, judgePort_of_stalled (by rw [fields.1, port])]
    | idle | sending | waiting =>
      simp only [judgePort, same, fields, item, port]
      cases hasWaiting s with
      | false => rfl
      | true =>
        by_cases credit : 0 < s.link.credit
        · simp only [credit, if_true, take]
        · simp only [credit, if_true, if_false, reduceCtorEq] <;> rfl

theorem requestNotice_withEngine (k : NoticeKind) (t : Option StreamId) (s : State) :
    requestNotice k t (withEngine e s) = withEngine e (requestNotice k t s) := by
  have places : noticePlaces (withEngine e s) = noticePlaces s := rfl
  have port (q : List Notice) := judgePort_withEngine e { s with notices.queue := q }
  simp only [withEngine] at places port
  simp only [requestNotice, withEngine, places]
  split
  · split
    · rfl
    · split
      · exact port _
      · rfl
  · rfl

theorem queueEntry_withEngine (t : StreamId) (c : EgressClass) (h : Handle) (s : State) :
    queueEntry t c h (withEngine e s) = withEngine e (queueEntry t c h s) := by
  have port := judgePort_withEngine e (riseOutstanding t (setQueue c (s.egress.queues[c] ++ [h]) (setDescState h .queued s)))
  simp only [queueEntry]
  split
  · next stalled => rw [if_pos (show s.link.port = .stalled ∧ isDiscardable s.agent.limits c = true from stalled)]; rfl
  · next other => rw [if_neg (show ¬ (s.link.port = .stalled ∧ isDiscardable s.agent.limits c = true) from other)]; exact port

theorem handOnBlocks_withEngine (t : StreamId) (c : EgressClass) (hs : List Handle) (s : State) :
    handOnBlocks t c hs (withEngine e s) = withEngine e (handOnBlocks t c hs s) := by
  induction hs generalizing s with
  | nil => rfl
  | cons h hs ih => rw [handOnBlocks, handOnBlocks, queueEntry_withEngine, ih]

theorem complete_withEngine (t : StreamId) (h : Handle) (n : Nat) (short broken spliced : Bool) (s : State) (x : Ctx) :
    complete t h n short broken spliced (withEngine e s) x = (complete t h n short broken spliced s x).withEngine e := by
  have place (v : State) (y : Ctx) : placeCompleted t h (withEngine e v) y = (placeCompleted t h v y).withEngine e := by
    unfold placeCompleted
    split
    · rw [queueEntry_withEngine]; rfl
    · split
      · rfl
      · split
        · unfold overflowDropOldest
          split
          · rfl
          · next oldest rest _ =>
            have request := requestNotice_withEngine e .heldOverflow (some t) (setDescState h .held (freeBlock oldest v))
            exact congrArg (fun u => (u, { y.dropBlock with held := rest ++ [h] })) request
        · have request := requestNotice_withEngine e .streamFault (some t) (freeBlock h v)
          exact congrArg (fun u => (u, { y.dropBlock with state := .faulted, fill := .empty })) request
  exact place (setDesc h { s.pool.desc[h] with count := n, flags := ⟨short, broken, spliced⟩ } s) _

theorem cut_withEngine (t : StreamId) (s : State) (x : Ctx) : cut t (withEngine e s) x = (cut t s x).withEngine e := by
  unfold cut
  split
  · exact complete_withEngine e t _ _ _ _ _ s x
  all_goals rfl

theorem releaseHeld_withEngine (t : StreamId) (s : State) (x : Ctx) :
    releaseHeld t (withEngine e s) x = (releaseHeld t s x).withEngine e := by
  unfold releaseHeld
  split
  · rw [handOnBlocks_withEngine]; rfl
  · rfl

theorem breakAndHunt_withEngine (t : StreamId) (s : State) (x : Ctx) :
    breakAndHunt t (withEngine e s) x = (breakAndHunt t s x).withEngine e := by
  unfold breakAndHunt
  split
  · split
    · next h k spliced _ _ _ =>
      rw [complete_withEngine]
      by_cases faulted : (complete t h k false true spliced s x).2.state = .faulted
      · simp only [Work.withEngine, faulted, if_true]
      · simp only [Work.withEngine, faulted, if_false]
    · rfl
  all_goals rfl

theorem placeSample_withEngine (t : StreamId) (h : Handle) (k : Nat) (spliced : Bool) (sample : List Byte) (s : State) (x : Ctx) :
    placeSample t h k spliced sample (withEngine e s) x = (placeSample t h k spliced sample s x).withEngine e := by
  have placed (m : Memory) := complete_withEngine e t h (k + 1) false false spliced { s with pool.mem := m } x
  have pool : (withEngine e s).pool = s.pool := rfl
  by_cases last : k + 1 = s.pool.desc[h].geom.samples
  · simp only [placeSample, pool, if_pos last]
    exact placed _
  · simp only [placeSample, pool, if_neg last]
    rfl

theorem startBlock_withEngine (t : StreamId) (sample : List Byte) (s : State) (x : Ctx) :
    startBlock t sample (withEngine e s) x = (startBlock t sample s x).withEngine e := by
  have taken : allocate t x.nextBlock x.cfg.geom (withEngine e s) =
      (allocate t x.nextBlock x.cfg.geom s).map (fun r => (r.1, withEngine e r.2)) := by
    have pool : (withEngine e s).pool = s.pool := rfl
    cases free : s.pool.freeDesc with
    | nil => simp only [allocate, pool, free, Option.map_none]
    | cons h rest =>
      by_cases fits : x.cfg.geom.pages ≤ s.pool.freePages.length
      · simp only [allocate, pool, free, if_pos fits, Option.map_some]
        rfl
      · simp only [allocate, pool, free, if_neg fits, Option.map_none]
  rw [startBlock, taken, startBlock]
  cases allocate t x.nextBlock x.cfg.geom s with
  | none =>
    have request := requestNotice_withEngine e .noBuffer (some t) (count .allocFailures s)
    exact congrArg (fun u => (u, { x.discardSamples 1 with fill := .hunting })) request
  | some r => exact placeSample_withEngine e t r.1 0 false sample r.2 _

theorem takeSample_withEngine (t : StreamId) (sample : List Byte) (w : Work) :
    takeSample t sample (w.withEngine e) = (takeSample t sample w).withEngine e := by
  by_cases opened : w.2.state = .opened
  · rw [takeSample, takeSample, if_pos opened, if_pos (show (w.withEngine e).2.state = .opened from opened)]
    simp only [Work.withEngine]
    split
    · exact startBlock_withEngine e t sample w.1 w.2
    · exact placeSample_withEngine e t _ _ _ sample w.1 w.2
    · rfl
  · rw [takeSample, takeSample, if_neg opened, if_neg (show ¬ (w.withEngine e).2.state = .opened from opened)]
    rfl

theorem takeSamples_withEngine (t : StreamId) (l : List (List Byte)) (w : Work) :
    takeSamples t l (w.withEngine e) = (takeSamples t l w).withEngine e := by
  induction l generalizing w with
  | nil => rfl
  | cons x xs ih => rw [takeSamples, takeSamples, takeSample_withEngine, ih]

theorem gapEffect_withEngine (t : StreamId) (s : State) (x : Ctx) :
    gapEffect t (withEngine e s) x = (gapEffect t s x).withEngine e := by
  rw [gapEffect, gapEffect, requestNotice_withEngine]
  unfold applyGapPolicy
  split
  · rfl
  · exact breakAndHunt_withEngine e t _ _

theorem syncStep_withEngine (t : StreamId) (sync : Bool) (s : State) (x : Ctx) :
    syncStep t sync (withEngine e s) x = (syncStep t sync s x).withEngine e := by
  unfold syncStep
  split
  · split
    · exact complete_withEngine e t _ _ _ _ _ s x
    all_goals rfl
  · rfl

theorem markEffect_withEngine (t : StreamId) (a : MarkAction) (s : State) (x : Ctx) :
    markEffect t a (withEngine e s) x = (markEffect t a s x).withEngine e := by
  cases a with
  | cut => exact cut_withEngine e t s x
  | release => exact releaseHeld_withEngine e t s x
  | cutAndRelease =>
    simp only [markEffect]
    rw [cut_withEngine]
    by_cases faulted : (cut t s x).2.state = .faulted
    · rw [if_pos faulted, if_pos (show ((cut t s x).withEngine e).2.state = .faulted from faulted)]
    · rw [if_neg faulted, if_neg (show ¬ ((cut t s x).withEngine e).2.state = .faulted from faulted)]
      exact releaseHeld_withEngine e t _ _

theorem laterStages_withEngine (t : StreamId) (c : StreamCell) (gap : Bool) (s : State) (x : Ctx) :
    laterStages t c gap (withEngine e s) x = (laterStages t c gap s x).withEngine e := by
  unfold laterStages
  simp only
  split
  · rfl
  · split
    · split
      · unfold misfitEffect
        split
        · rfl
        · exact gapEffect_withEngine e t s _
      · have step := syncStep_withEngine e t c.sync s x
        rw [step]
        exact takeSamples_withEngine e t _ _
    · split
      · exact markEffect_withEngine e t _ s x
      · rfl

/-- The assembly of a cell reads no part of the context engine (R25–R50). -/
theorem assembleCell_withEngine (c : StreamCell) (s : State) (x : Ctx) :
    assembleCell c (withEngine e s) x = (assembleCell c s x).withEngine e := by
  unfold assembleCell
  simp only
  split
  · unfold judgedCell
    simp only
    split
    · exact laterStages_withEngine e c.stream c _ s _
    · exact laterStages_withEngine e c.stream c _ s _
    · rfl
    · rw [gapEffect_withEngine]
      exact laterStages_withEngine e c.stream c _ _ _
  · rfl

theorem freeAll_withEngine (hs : List Handle) (s : State) : freeAll hs (withEngine e s) = withEngine e (freeAll hs s) := by
  induction hs generalizing s with
  | nil => rfl
  | cons h hs ih => exact ih (freeBlock h s)

theorem markAbort_withEngine (t : StreamId) (s : State) : markAbort t (withEngine e s) = withEngine e (markAbort t s) := by
  have fields : (withEngine e s).link = s.link ∧ (withEngine e s).pool = s.pool := ⟨rfl, rfl⟩
  unfold markAbort
  simp only [fields]
  split
  · next h c _ _ =>
    by_cases own : s.pool.desc[h].stream = t
    · rw [if_pos own, if_pos own]; rfl
    · rw [if_neg own, if_neg own]
  all_goals rfl

theorem closeBlocks_withEngine (t : StreamId) (s : State) (x : Ctx) :
    closeBlocks t (withEngine e s) x = (closeBlocks t s x).withEngine e := by
  unfold closeBlocks
  rw [cut_withEngine]
  exact releaseHeld_withEngine e t _ _

theorem finish_withEngine (record : List Byte) (status : Status) (result : List Byte) (next : AgentState) (s : State) :
    finish record status result next (withEngine e s) = withEngine e (finish record status result next s) :=
  judgePort_withEngine e { s with
    agent.state := next
    agent.cache := cacheAfter record (replyFor record status result) s.agent.cache
    egress.replies := s.egress.replies ++ [replyFor record status result] }

end Sys2Proof.Machine
end

section
/-!
SUPPORT. The completion of a frame and an egress link reset (R60, R67, R140, R143, R144).
-/
namespace Sys2Proof.Machine

open Sys2Proof

/-! ### Operations that do not see the agent's state -/

/-- The state with the agent in another state. -/
def inAgentState (a : AgentState) (s : State) : State := { s with agent.state := a }

section
variable (a : AgentState)

theorem inAgentState_fields (s : State) : (inAgentState a s).engine = s.engine ∧ (inAgentState a s).ingress = s.ingress ∧
    (inAgentState a s).assembler = s.assembler ∧ (inAgentState a s).link = s.link ∧ (inAgentState a s).pool = s.pool ∧
    (inAgentState a s).egress = s.egress ∧ (inAgentState a s).notices = s.notices ∧ (inAgentState a s).agent.limits = s.agent.limits :=
  ⟨rfl, rfl, rfl, rfl, rfl, rfl, rfl, rfl⟩

theorem reqOf_inAgentState (p : Party) (s : State) : reqOf p (inAgentState a s) = reqOf p s := by cases p <;> rfl

theorem setReq_inAgentState (p : Party) (r : EngReq) (s : State) :
    setReq p r (inAgentState a s) = inAgentState a (setReq p r s) := by cases p <;> rfl

theorem takeMark_inAgentState (i : SlotNo) (s : State) : takeMark i (inAgentState a s) = inAgentState a (takeMark i s) := rfl

theorem judgeTake_inAgentState (p : Party) (s : State) : judgeTake p (inAgentState a s) = inAgentState a (judgeTake p s) := by
  obtain ⟨engine, -⟩ := inAgentState_fields a s
  unfold judgeTake
  rw [reqOf_inAgentState, engine]
  cases reqOf p s with
  | asked t =>
    simp only
    cases engagedSlot s.engine t with
    | none => rfl
    | some i =>
      simp only
      by_cases used : s.engine.slots[i].inUse = true
      · rw [if_pos used, if_pos used]
      · rw [if_neg used, if_neg used, takeMark_inAgentState, setReq_inAgentState]
  | idle | lodged _ | fetching _ | fetched _ | holds _ _ => rfl

theorem judgeLodge_inAgentState (p : Party) (s : State) : judgeLodge p (inAgentState a s) = inAgentState a (judgeLodge p s) := by
  obtain ⟨engine, -⟩ := inAgentState_fields a s
  unfold judgeLodge
  rw [reqOf_inAgentState, engine]
  cases reqOf p s with
  | asked t =>
    simp only
    split
    · rfl
    · exact setReq_inAgentState a p _ s
  | idle | lodged _ | fetching _ | fetched _ | holds _ _ => rfl

theorem startRequest_inAgentState (p : Party) (s : State) :
    startRequest p (inAgentState a s) = inAgentState a (startRequest p s) := by
  obtain ⟨engine, -⟩ := inAgentState_fields a s
  unfold startRequest
  rw [reqOf_inAgentState, engine]
  cases s.engine.fetch with
  | some _ => rfl
  | none =>
    cases reqOf p s with
    | lodged t =>
      simp only
      cases engagedSlot s.engine t with
      | some _ => exact (congrArg (judgeTake p) (setReq_inAgentState a p _ s)).trans (judgeTake_inAgentState a p _)
      | none =>
        cases victim s.engine with
        | none => rfl
        | some i => exact setReq_inAgentState a p _ (beginFetch p t i s)
    | idle | asked _ | fetching _ | fetched _ | holds _ _ => rfl

theorem sendHead_inAgentState (c : StreamCell) (i : SlotNo) (s : State) :
    sendHead c i (inAgentState a s) = inAgentState a (sendHead c i s) := by
  obtain ⟨engine, -, assembler, -⟩ := inAgentState_fields a s
  unfold sendHead
  rw [engine, assembler]
  by_cases used : s.engine.slots[i].inUse = true
  · rw [if_pos used, if_pos used]; rfl
  · rw [if_neg used, if_neg used]
    by_cases free : s.assembler.isEmpty = true
    · rw [if_pos free, if_pos free]; rfl
    · rw [if_neg free, if_neg free]
      by_cases waits : s.engine.dispWait = some i
      · rw [if_pos waits, if_pos waits]
      · rw [if_neg waits, if_neg waits]; rfl

theorem dispatchHead_inAgentState (s : State) : dispatchHead (inAgentState a s) = inAgentState a (dispatchHead s) := by
  obtain ⟨engine, ingress, -⟩ := inAgentState_fields a s
  have dropped : dropWait (inAgentState a s) = inAgentState a (dropWait s) := rfl
  unfold dispatchHead
  rw [engine, ingress, dropped]
  cases s.engine.mode with
  | sweepWait _ | initSweep | busSweep _ _ => rfl
  | running =>
    cases s.ingress.fifo with
    | nil => rfl
    | cons c rest =>
      simp only
      cases dispatcherFetch s.engine with
      | some u =>
        simp only
        by_cases same : c.stream = u
        · rw [if_pos same, if_pos same]
          by_cases room : s.engine.parked.length < Config.parkedDepth
          · rw [if_pos room, if_pos room]; rfl
          · rw [if_neg room, if_neg room]
        · rw [if_neg same, if_neg same]
          cases engagedSlot s.engine c.stream with
          | some i => exact sendHead_inAgentState a c i s
          | none => rfl
      | none =>
        simp only
        by_cases parked : s.engine.parked.isEmpty = true
        · rw [if_pos parked, if_pos parked]
          cases engagedSlot s.engine c.stream with
          | some i => exact sendHead_inAgentState a c i s
          | none =>
            simp only
            have same : (inAgentState a (dropWait s)).engine = (dropWait s).engine := rfl
            rw [same]
            by_cases starts : ((dropWait s).engine.fetch.isNone && noRequestWaits (dropWait s).engine) = true
            · rw [if_pos starts, if_pos starts]
              cases victim (dropWait s).engine <;> rfl
            · rw [if_neg starts, if_neg starts]
              by_cases asks : (dropWait s).engine.dispReq.isNone = true
              · rw [if_pos asks, if_pos asks]; rfl
              · rw [if_neg asks, if_neg asks]
        · rw [if_neg parked, if_neg parked]

theorem startNext_inAgentState (s : State) : startNext (inAgentState a s) = inAgentState a (startNext s) := by
  have dispatcher (u : State) : startDispatcher (inAgentState a u) = inAgentState a (startDispatcher u) := by
    obtain ⟨engine, -⟩ := inAgentState_fields a u
    unfold startDispatcher
    rw [engine]
    cases u.engine.fetch with
    | some _ => rfl
    | none =>
      cases u.engine.dispReq with
      | none => rfl
      | some _ => exact dispatchHead_inAgentState a { u with engine.dispReq := none }
  obtain ⟨engine, -⟩ := inAgentState_fields a s
  unfold startNext
  rw [engine]
  cases s.engine.mode with
  | running => simp only [startRequest_inAgentState, dispatcher]
  | sweepWait _ | initSweep | busSweep _ _ => rfl

theorem askEngage_inAgentState (p : Party) (t : StreamId) (s : State) :
    askEngage p t (inAgentState a s) = inAgentState a (askEngage p t s) := by
  obtain ⟨engine, -⟩ := inAgentState_fields a (setReq p (.asked t) s)
  unfold askEngage
  simp only [setReq_inAgentState]
  rw [engine]
  cases (setReq p (.asked t) s).engine.mode with
  | running => simp only [judgeTake_inAgentState, judgeLodge_inAgentState, startNext_inAgentState]
  | sweepWait _ | initSweep | busSweep _ _ => rfl

theorem raiseDrain_inAgentState (t : StreamId) (s : State) : raiseDrain t (inAgentState a s) = inAgentState a (raiseDrain t s) := by
  have serve (u : State) : serveDrain (inAgentState a u) = inAgentState a (serveDrain u) := by
    obtain ⟨engine, -⟩ := inAgentState_fields a u
    unfold serveDrain
    rw [engine]
    cases u.engine.drainReq with
    | idle =>
      cases u.engine.drainList with
      | nil => rfl
      | cons t _ => exact askEngage_inAgentState a .drain t u
    | asked _ | lodged _ | fetching _ | fetched _ | holds _ _ => rfl
  obtain ⟨engine, -⟩ := inAgentState_fields a s
  unfold raiseDrain
  rw [engine]
  by_cases there : s.engine.drainList.contains t = true
  · rw [if_pos there, if_pos there]
  · rw [if_neg there, if_neg there]
    exact serve { s with engine.drainList := s.engine.drainList ++ [t] }

theorem fallOutstanding_inAgentState (t : StreamId) (s : State) :
    fallOutstanding t (inAgentState a s) = inAgentState a (fallOutstanding t s) := by
  obtain ⟨-, -, -, -, pool, -⟩ := inAgentState_fields a s
  unfold fallOutstanding
  rw [pool]
  simp only
  split
  · exact raiseDrain_inAgentState a t (setDrain t ⟨0, false⟩ s)
  · rfl

theorem takeBlock_inAgentState (s : State) : takeBlock (inAgentState a s) = inAgentState a (takeBlock s) := by
  cases chosen : chooseClass s.egress s.agent.limits with
  | none => simp only [takeBlock, inAgentState, chosen]
  | some choice =>
    obtain ⟨c, budget⟩ := choice
    cases queue : s.egress.queues[c] with
    | nil => simp only [takeBlock, inAgentState, chosen, queue]
    | cons h rest => simp only [takeBlock, inAgentState, chosen, queue, startFrame, setDescState, setDesc, setQueue]

theorem takeForSending_inAgentState (s : State) : takeForSending (inAgentState a s) = inAgentState a (takeForSending s) := by
  have notice (n : Notice) (rest : List Notice) : takeNotice n rest (inAgentState a s) = inAgentState a (takeNotice n rest s) := by
    unfold takeNotice
    split <;> rfl
  have block := takeBlock_inAgentState a s
  simp only [inAgentState] at notice block
  simp only [takeForSending, inAgentState]
  split
  · rfl
  · split
    · exact notice _ _
    · exact block

theorem judgePort_inAgentState (s : State) : judgePort (inAgentState a s) = inAgentState a (judgePort s) := by
  obtain ⟨-, -, -, link, -, -, -, limits⟩ := inAgentState_fields a s
  have waiting : hasWaiting (inAgentState a s) = hasWaiting s := rfl
  by_cases busy : s.link.inflight ≠ none ∨ s.link.port = .stalled
  · rw [judgePort_of_busy busy, judgePort_of_busy (by rw [link]; exact busy)]
  · rw [not_or, Classical.not_not] at busy
    obtain ⟨none, notStalled⟩ := busy
    rw [judgePort_selects none notStalled, judgePort_selects (by rw [link]; exact none) (by rw [link]; exact notStalled), waiting, link,
      limits, takeForSending_inAgentState]
    by_cases waits : hasWaiting s = true
    · rw [if_pos waits, if_pos waits]
      by_cases credit : 0 < s.link.credit
      · rw [if_pos credit, if_pos credit]
      · rw [if_neg credit, if_neg credit]
        by_cases waiting : s.link.port = .waiting
        · rw [if_pos waiting, if_pos waiting]
        · rw [if_neg waiting, if_neg waiting]; rfl
    · rw [if_neg waits, if_neg waits]; rfl

end

/-! ### The item of a frame that leaves (R60, R67, R140, R143) -/

/-- The registry entry of a stream that loses an outstanding block (R67). -/
def fallenEntry (e : DrainEntry) : DrainEntry :=
  if e.count - 1 = 0 ∧ e.pending = true then ⟨0, false⟩ else ⟨e.count - 1, e.pending⟩

/-- The fall of a count writes its entry, and then only makes a request of the engine. -/
theorem fallOutstanding_request (t : StreamId) (s : State) :
    RequestEffect (setDrain t (fallenEntry s.pool.drain[t]) s) (fallOutstanding t s) := by
  unfold fallOutstanding fallenEntry
  simp only [Bool.and_eq_true, decide_eq_true_eq]
  by_cases falls : s.pool.drain[t].count - 1 = 0 ∧ s.pool.drain[t].pending = true
  · rw [if_pos falls, if_pos falls]; exact raiseDrain_request t _
  · rw [if_neg falls, if_neg falls]; exact .refl _

/-- The state in which the SENDING block has been freed, before its stream's drain is checked. -/
def landedBlock (h : Handle) (s : State) : State :=
  setDrain s.pool.desc[h].stream (fallenEntry s.pool.drain[s.pool.desc[h].stream])
    (freeBlock h { s with link.inflight := none, link.frame := [] })

theorem freeSending_request (h : Handle) (s : State) : RequestEffect (landedBlock h s) (freeSending h s) :=
  fallOutstanding_request _ _

/-- From `s` to `t` the frame link, the egress side, the pool's lists and HOLD may have changed, and the engine's requests. -/
structure LinkEffect (s t : State) : Prop where
  agent : t.agent = s.agent
  classifier : t.classifier = s.classifier
  port : t.ingress.port = s.ingress.port
  records : RecordsKept s t
  mem : t.pool.mem = s.pool.mem
  resetLow : t.resetLow = s.resetLow
  curClass : t.egress.curClass = s.egress.curClass
  budget : t.egress.budget = s.egress.budget

theorem LinkEffect.refl (s : State) : LinkEffect s s := ⟨rfl, rfl, rfl, ⟨rfl, fun _ => rfl⟩, rfl, rfl, rfl, rfl⟩

/-- A block that is freed at the end of its flight. -/
theorem freeSending_link_effect (h : Handle) (s : State) : LinkEffect s (freeSending h s) := by
  have request := freeSending_request h s
  exact ⟨request.agent, request.classifier, request.port, ⟨request.store, request.copies⟩, by rw [request.pool]; rfl, request.resetLow,
    by rw [request.egress]; rfl, by rw [request.egress]; rfl⟩

/-- A block that is no longer queued is not taken for sending. -/
theorem judgePort_desc_of_not_queued {h : Handle} {s : State} (apart : ∀ d : EgressClass, h ∉ s.egress.queues[d]) :
    (judgePort s).pool.desc[h] = s.pool.desc[h] := by
  obtain ⟨-, eq⟩ | ⟨p, m, eq⟩ := judgePort_cases s
  · rw [eq]
    unfold takeForSending
    split
    · rfl
    · split
      · unfold takeNotice
        split <;> rfl
      · unfold takeBlock
        split
        · rfl
        · next c budget _ =>
          split
          · rfl
          · next first rest queue =>
            refine getElem_set_fin_ne _ _ ?_
            rintro rfl
            exact apart c (by rw [queue]; exact List.mem_cons_self)
  · rw [eq]

/-! ### Completion of a frame (R140) -/

/-- The state in which the item of the completed frame has been discarded and counted. -/
def landed (item : Item) (s : State) : State :=
  count .framesSent { discardItem item s with link.inflight := none, link.frame := [] }

theorem frameDone_of_item {item : Item} {s : State} (flies : s.link.inflight = some item) :
    frameDone s = serveAgent (judgePort (tellAgent item (landed item s))) := by
  rw [frameDone, flies]
  rfl

theorem frameDone_of_none {s : State} (none : s.link.inflight = none) : frameDone s = s := by rw [frameDone, none]

/-- No reset waits for this reply. -/
theorem tellAgent_of_not_pending {item : Item} {s : State} (apart : s.agent.state.isResetPending = false ∨ ∀ r, item ≠ .reply r) :
    tellAgent item s = s := by
  obtain ⟨h, c, m⟩ | r | n := item
  · rfl
  · have notPending : s.agent.state.isResetPending = false := apart.resolve_right fun other => other r rfl
    have effect : resetEffect s = s := by
      unfold resetEffect
      split
      · next state => rw [state] at notPending; cases notPending
      · next state => rw [state] at notPending; cases notPending
      all_goals rfl
    rw [tellAgent, resetAtReply, effect, ite_self]
  · rfl

theorem serveAgent_of_not_waiting {s : State} (busy : s.agent.state ≠ .waitingReplySpace) : serveAgent s = s := by
  unfold serveAgent
  split
  · next state => exact absurd state busy
  all_goals rfl

theorem discardItem_inAgentState (a : AgentState) (item : Item) (s : State) :
    discardItem item (inAgentState a s) = inAgentState a (discardItem item s) := by
  cases item with
  | block h _ _ =>
    exact fallOutstanding_inAgentState a s.pool.desc[h].stream (freeBlock h { s with link.inflight := none, link.frame := [] })
  | reply _ | notice _ => rfl

theorem landed_effect (item : Item) (s : State) : LinkEffect (count .framesSent s) (landed item s) := by
  cases item with
  | block h _ _ =>
    obtain ⟨agent, classifier, port, records, mem, low, cur, budget⟩ := freeSending_link_effect h s
    exact ⟨congrArg (fun a : Agent => { a with counters := a.counters.inc .framesSent }) agent, classifier, port, records, mem, low, cur,
      budget⟩
  | reply _ | notice _ => exact ⟨rfl, rfl, rfl, ⟨rfl, fun _ => rfl⟩, rfl, rfl, rfl, rfl⟩

theorem landed_waiting (item : Item) (s : State) : (landed item s).egress = s.egress ∧ (landed item s).notices = s.notices := by
  cases item with
  | block h _ _ => exact ⟨(freeSending_request h s).egress, (freeSending_request h s).notices⟩
  | reply _ | notice _ => exact ⟨rfl, rfl⟩

/-- Settles O34: the item is discarded and counted, and the port judged; an agent that waits for a reply place takes as from IDLE. -/
theorem frameCompletionEndsItem : Obligations.FrameCompletionEndsItem := by
  intro s awake
  have runs (u : State) (on : u.resetLow = false) : exec .frameCompletion u = .next (frameDone u) := exec_of_awake rfl on
  refine ⟨fun none => by rw [runs s awake, frameDone_of_none none], fun item flies notWaiting apart => ?ends,
    fun item flies waiting => ?serves⟩
  case ends =>
    obtain ⟨agent, classifier, port, records, mem, -⟩ := landed_effect item s
    obtain ⟨egress, notices⟩ := landed_waiting item s
    have state : (landed item s).agent.state = s.agent.state := by rw [agent]; rfl
    obtain ⟨ingress', classifier', engine', -, agent', -, -, mem', pages', free', drain', -⟩ := judgePort_frame (landed item s)
    have owed := judgePort_owed (landed item s)
    have done : frameDone s = judgePort (landed item s) := by
      rw [frameDone_of_item flies, tellAgent_of_not_pending (by rw [state]; exact apart),
        serveAgent_of_not_waiting (by rw [agent', state]; exact notWaiting)]
    rw [runs s awake, done]
    refine ⟨_, rfl, by rw [agent', agent]; rfl, by rw [agent', agent]; rfl, by rw [agent', agent]; rfl, by rw [agent', agent]; rfl,
      by rw [agent', agent]; rfl, by rw [classifier', classifier]; rfl, by rw [ingress', port]; rfl,
      ⟨by rw [engine']; exact records.1, by rw [engine']; exact records.2⟩, ?_, ?_, fun c => ?_, by rw [mem', mem]; rfl, ?placed, ?freed⟩
    · rw [owed.replies]
      exact congrArg Egress.replies egress
    · rw [owed.notices]
      exact congrArg (fun n : NoticeUnit => n.queue.map (fun n => (n.kind, n.stream, n.repeats))) notices
    · rw [owed.blocks]
      exact congrArg (fun e : Egress => e.queues[c]) egress
    case placed =>
      rw [pages', free', drain', engine', ingress']
      rintro (⟨r, rfl⟩ | ⟨n, rfl⟩) <;> exact ⟨rfl, rfl, rfl, rfl, rfl⟩
    case freed =>
      rintro h c m rfl notQueued
      have request := freeSending_request h s
      have pool : (landed (.block h c m) s).pool = (landedBlock h s).pool := request.pool
      rw [judgePort_desc_of_not_queued (by rw [egress]; exact notQueued), pages', free', drain', engine', pool]
      refine ⟨?_, rfl, rfl, rfl, fun zero pending => mem_fallOutstanding_drainList zero pending⟩
      exact congrArg Desc.state (getElem_set_fin_self s.pool.desc h .free)
  case serves =>
    have same : inAgentState .waitingReplySpace s = s := by rw [inAgentState, ← waiting]
    have landedIn (a : AgentState) : landed item (inAgentState a s) = inAgentState a (landed item s) := by
      unfold landed
      rw [discardItem_inAgentState]
      rfl
    have free (a : AgentState) (notPending : a.isResetPending = false) :
        frameDone (inAgentState a s) = serveAgent (inAgentState a (judgePort (landed item s))) := by
      rw [frameDone_of_item (s := inAgentState a s) flies, landedIn, tellAgent_of_not_pending (.inl notPending), judgePort_inAgentState]
    have idle : frameDone { s with agent.state := .idle } = _ := free .idle rfl
    have own := free .waitingReplySpace rfl
    rw [same] at own
    refine ⟨_, (runs { s with agent.state := .idle } awake).trans (congrArg Host.Outcome.next idle), ?_⟩
    have on : (judgePort (landed item s)).resetLow = false := by
      obtain ⟨-, -, -, -, -, resetLow, -⟩ := judgePort_frame (landed item s)
      rw [resetLow, (landed_effect item s).resetLow]; exact awake
    have takes : exec .commandTake (inAgentState .idle (judgePort (landed item s))) =
        .next (takeNext (inAgentState .idle (judgePort (landed item s)))) := exec_of_awake rfl on
    rw [runs s awake, own]
    exact takes.symm

end Sys2Proof.Machine
end

section
/-!
SUPPORT. An egress link reset, and the expiry of the stall timer (R60, R67, R134, R135, R143, R144, R180).
-/
namespace Sys2Proof.Machine

open Sys2Proof

/-! ### The abandoned frame (R143, R144, R180) -/

theorem abandon_of_none {s : State} (none : s.link.inflight = none) : abandon s = s := by rw [abandon, none]

theorem abandon_of_item {item : Item} {s : State} (flies : s.link.inflight = some item) :
    abandon s = { abandonItem item s with link.inflight := none, link.frame := [] } := by rw [abandon, flies]

theorem abandon_fields {item : Item} {s : State} (flies : s.link.inflight = some item) :
    (abandon s).pool = (abandonItem item s).pool ∧ (abandon s).egress = (abandonItem item s).egress ∧
    (abandon s).notices = (abandonItem item s).notices ∧ (abandon s).engine = (abandonItem item s).engine := by
  rw [abandon_of_item flies]
  exact ⟨rfl, rfl, rfl, rfl⟩

theorem abandonItem_effect (item : Item) (s : State) : LinkEffect s (abandonItem item s) := by
  obtain ⟨h, c, _ | _⟩ | r | n := item
  case block.true => exact freeSending_link_effect h s
  all_goals exact ⟨rfl, rfl, rfl, ⟨rfl, fun _ => rfl⟩, rfl, rfl, rfl, rfl⟩

theorem abandon_effect (s : State) : LinkEffect s (abandon s) := by
  cases flies : s.link.inflight with
  | none => rw [abandon_of_none flies]; exact .refl s
  | some item =>
    rw [abandon_of_item flies]
    obtain ⟨agent, classifier, port, records, mem, low, cur, budget⟩ := abandonItem_effect item s
    exact ⟨agent, classifier, port, records, mem, low, cur, budget⟩

/-- After an egress link reset the port waits if an item waits, with the stall timer loaded (R144). -/
theorem linkReset_eq (s : State) : linkReset s = { count .egressLinkResets (abandon s) with link := { (abandon s).link with
    credit := 0
    port := if hasWaiting (abandon s) then .waiting else .idle
    timer := if hasWaiting (abandon s) then loadedTimer (abandon s).agent.limits else none } } := by
  have same (u : State) (waits : hasWaiting u = hasWaiting (abandon s)) (none : u.link.inflight = none) (port : u.link.port = .idle)
      (credit : u.link.credit = 0) : judgePort u = { u with link := { u.link with
        port := if hasWaiting (abandon s) then .waiting else .idle
        timer := if hasWaiting (abandon s) then loadedTimer u.agent.limits else .none } } := by
    rw [judgePort_selects none (by rw [port]; decide), waits]
    by_cases some : hasWaiting (abandon s) = true
    · rw [if_pos some, if_pos some, if_pos some, credit, if_neg (by decide), port, if_neg (by decide)]
    · rw [if_neg some, if_neg some, if_neg some]
  exact same { count .egressLinkResets (abandon s) with
    link := { (abandon s).link with credit := 0, port := .idle, timer := none } } rfl (abandon_inflight s) rfl rfl

theorem returnNotice_of_alone {n : Notice} {queue : List Notice} (alone : ∀ m ∈ queue, ¬ (m.kind = n.kind ∧ m.stream = n.stream)) :
    returnNotice n queue = n :: queue := by
  have nobody : queue.find? (fun m => m.isFor n.kind n.stream) = none := by
    rw [List.find?_eq_none]
    intro m mem same
    simp only [Notice.isFor, Bool.and_eq_true, beq_iff_eq] at same
    exact alone m mem same
  rw [returnNotice, nobody]

theorem returnNotice_of_younger {n m : Notice} {before after : List Notice} (kind : m.kind = n.kind) (stream : m.stream = n.stream)
    (first : ∀ k ∈ before, ¬ (k.kind = n.kind ∧ k.stream = n.stream)) :
    returnNotice n (before ++ m :: after) = { n with repeats := min 255 (n.repeats + m.repeats) } :: (before ++ after) := by
  have found : (before ++ m :: after).find? (fun k => k.isFor n.kind n.stream) = some m := by
    rw [List.find?_append, List.find?_eq_none.mpr, Option.none_or, List.find?_cons_of_pos]
    · simp [Notice.isFor, kind, stream]
    · intro k mem same
      simp only [Notice.isFor, Bool.and_eq_true, beq_iff_eq] at same
      exact first k mem same
  have absent : m ∉ before := fun mem => first m mem ⟨kind, stream⟩
  rw [returnNotice, found]
  simp only
  rw [List.erase_append_right _ absent, List.erase_cons_head]
  rfl

/-- Settles O35: the item of the frame by its kind, then the port. -/
theorem egressLinkResetAbandonsFrame : Obligations.EgressLinkResetAbandonsFrame := by
  intro spare s awake
  have runs : exec (.egressLinkReset spare) s = .next (linkReset s) := exec_of_awake rfl awake
  obtain ⟨agent, classifier, port, records, mem, -, cur, budget⟩ := abandon_effect s
  rw [runs, linkReset_eq]
  refine ⟨_, rfl, ?_, classifier, port, records, rfl, abandon_inflight s, rfl, ?timer, mem, cur, budget, fun none => ?none,
    fun h c flies => ?queued, fun h c flies => ?marked, fun r flies => ?reply, fun n flies => ?notice⟩
  · exact congrArg (fun a : Agent => { a with counters := a.counters.inc .egressLinkResets }) agent
  case timer =>
    show (if hasWaiting (abandon s) then loadedTimer (abandon s).agent.limits else none) =
      if hasWaiting (abandon s) = true ∧ s.agent.limits.stallLimit ≠ 0 then _ else _
    rw [agent, loadedTimer]
    by_cases waits : hasWaiting (abandon s) = true <;> by_cases zero : s.agent.limits.stallLimit = 0 <;> simp [waits, zero]
  case none =>
    have fields : (abandon s).pool = s.pool ∧ (abandon s).egress = s.egress ∧ (abandon s).notices = s.notices := by
      rw [abandon_of_none none]; exact ⟨rfl, rfl, rfl⟩
    exact fields
  case queued =>
    obtain ⟨pool, egress, notices, -⟩ := abandon_fields flies
    exact ⟨egress, pool, notices⟩
  case marked =>
    obtain ⟨freed, egress, notices, engine⟩ := abandon_fields flies
    have request := freeSending_request h s
    have pool : (abandon s).pool = (landedBlock h s).pool := freed.trans request.pool
    refine ⟨egress.trans request.egress, congrArg Pool.desc pool, congrArg Pool.freePages pool, congrArg Pool.freeDesc pool,
      notices.trans request.notices, congrArg Pool.drain pool, fun zero pending => ?_⟩
    show s.pool.desc[h].stream ∈ (abandon s).engine.drainList
    rw [engine]
    exact mem_fallOutstanding_drainList zero pending
  case reply =>
    obtain ⟨pool, egress, notices, -⟩ := abandon_fields flies
    exact ⟨egress, pool, notices⟩
  case notice =>
    obtain ⟨pool, egress, notices, -⟩ := abandon_fields flies
    have notices : (abandon s).notices = { s.notices with queue := returnNotice n s.notices.queue } := notices
    refine ⟨egress, pool, fun alone => ?_, fun before m after queue kind stream first => ?_⟩
    · exact notices.trans (by rw [returnNotice_of_alone alone])
    · exact notices.trans (by rw [queue, returnNotice_of_younger kind stream first])

end Sys2Proof.Machine
end

section
/-!
SUPPORT. The expiry of the stall timer: the purge of the discardable classes (R60, R67, R134, R135, R168).
-/
namespace Sys2Proof.Machine

open Sys2Proof

/-! ### A registry entry that loses several blocks (R67) -/

/-- The registry entry of a stream that loses `n` outstanding blocks, one after the other. -/
def fallenBy (n : Nat) (e : DrainEntry) : DrainEntry :=
  if n = 0 then e else if e.count - n = 0 ∧ e.pending = true then ⟨0, false⟩ else ⟨e.count - n, e.pending⟩

theorem fallenBy_one (e : DrainEntry) : fallenBy 1 e = fallenEntry e := rfl

theorem fallenBy_add (n m : Nat) (e : DrainEntry) : fallenBy m (fallenBy n e) = fallenBy (n + m) e := by
  unfold fallenBy
  by_cases noneFirst : n = 0
  · subst noneFirst; simp only [if_true, Nat.zero_add]
  by_cases noneSecond : m = 0
  · subst noneSecond; simp only [if_true, Nat.add_zero]
  have some : ¬ n + m = 0 := by omega
  rw [if_neg noneFirst, if_neg noneSecond, if_neg some]
  by_cases drained : e.count - n = 0 ∧ e.pending = true
  · have drainedAfter : e.count - (n + m) = 0 ∧ e.pending = true := ⟨by have := drained.1; omega, drained.2⟩
    rw [if_pos drained, if_pos drainedAfter]
    simp
  · rw [if_neg drained]
    simp only [Nat.sub_sub]

/-- An entry that falls to 0 with drain pending does so in the first part or in the second. -/
theorem fallenBy_drains {n m : Nat} {e : DrainEntry} (some : n + m ≠ 0) (zero : e.count - (n + m) = 0) (pending : e.pending = true) :
    (n ≠ 0 ∧ e.count - n = 0) ∨ (m ≠ 0 ∧ (fallenBy n e).count - m = 0 ∧ (fallenBy n e).pending = true) := by
  unfold fallenBy
  by_cases noneFirst : n = 0
  · subst noneFirst
    exact .inr ⟨by omega, by simpa using zero, by simpa using pending⟩
  by_cases drained : e.count - n = 0
  · exact .inl ⟨noneFirst, drained⟩
  · rw [if_neg noneFirst, if_neg (fun both => drained both.1)]
    exact .inr ⟨by omega, by simp only; omega, pending⟩

theorem fallenBy_pending {n : Nat} {e : DrainEntry} (none : e.pending = false) : fallenBy n e = ⟨e.count - n, false⟩ := by
  unfold fallenBy
  by_cases zero : n = 0
  · subst zero
    rw [if_pos rfl, Nat.sub_zero, ← none]
  · rw [if_neg zero, if_neg (fun both => by rw [none] at both; exact Bool.noConfusion both.2), none]

/-! ### QUEUED blocks that are freed (R60, R61, R67) -/

/-- How many of the blocks are of stream `u`. -/
def goneOf (u : StreamId) (hs : List Handle) (s : State) : Nat := hs.countP (fun h => s.pool.desc[h].stream == u)

/-- From `s` to `t` the QUEUED blocks `hs` have been freed, in their order; the agent may have counted them. -/
structure QueuedFreed (hs : List Handle) (s t : State) : Prop where
  queues : ∀ c : EgressClass, t.egress.queues[c] = s.egress.queues[c].filter (fun h => h ∉ hs)
  replies : t.egress.replies = s.egress.replies
  roundRobin : t.egress.curClass = s.egress.curClass ∧ t.egress.budget = s.egress.budget
  freePages : t.pool.freePages = s.pool.freePages ++ hs.flatMap (fun h => s.pool.desc[h].pages)
  freeDesc : t.pool.freeDesc = s.pool.freeDesc ++ hs
  mem : t.pool.mem = s.pool.mem
  desc : ∀ h : Handle, t.pool.desc[h] = if h ∈ hs then .free else s.pool.desc[h]
  drain : ∀ u : StreamId, t.pool.drain[u] = fallenBy (goneOf u hs s) s.pool.drain[u]
  raised : ∀ u : StreamId, goneOf u hs s ≠ 0 → s.pool.drain[u].count - goneOf u hs s = 0 → s.pool.drain[u].pending = true →
    u ∈ t.engine.drainList
  listed : ∀ u ∈ s.engine.drainList, u ∈ t.engine.drainList
  quiet : (∀ u : StreamId, goneOf u hs s ≠ 0 → s.pool.drain[u].pending = false) → t.engine = s.engine
  agent : t.agent.state = s.agent.state ∧ t.agent.cmdq = s.agent.cmdq ∧ t.agent.limits = s.agent.limits
  classifier : t.classifier = s.classifier
  port : t.ingress.port = s.ingress.port
  records : RecordsKept s t
  link : t.link = s.link
  notices : t.notices = s.notices

/-- Pieces alike member by member give the same list. -/
theorem flatMap_congr_of_mem {α β : Type} {l : List α} {f g : α → List β} (same : ∀ a ∈ l, f a = g a) : l.flatMap f = l.flatMap g := by
  rw [List.flatMap_def, List.flatMap_def, List.map_congr_left same]

theorem QueuedFreed.refl (s : State) : QueuedFreed [] s s where
  queues c := (List.filter_eq_self.mpr fun _ _ => decide_eq_true List.not_mem_nil).symm
  replies := rfl
  roundRobin := ⟨rfl, rfl⟩
  freePages := (List.append_nil _).symm
  freeDesc := (List.append_nil _).symm
  mem := rfl
  desc h := by simp
  drain u := rfl
  raised u some := absurd rfl some
  listed u there := there
  quiet _ := rfl
  agent := ⟨rfl, rfl, rfl⟩
  classifier := rfl
  port := rfl
  records := ⟨rfl, fun _ => rfl⟩
  link := rfl
  notices := rfl

section
variable {hs ks : List Handle} {s t u : State}

theorem QueuedFreed.desc_of_apart (h : QueuedFreed hs s t) (apart : ∀ k ∈ ks, k ∉ hs) {k : Handle} (mem : k ∈ ks) :
    t.pool.desc[k] = s.pool.desc[k] := by rw [h.desc, if_neg (apart k mem)]

theorem QueuedFreed.goneOf_of_apart (h : QueuedFreed hs s t) (apart : ∀ k ∈ ks, k ∉ hs) (r : StreamId) : goneOf r ks t = goneOf r ks s :=
  List.countP_congr fun k mem => by rw [h.desc_of_apart apart mem]

theorem QueuedFreed.trans (h : QueuedFreed hs s t) (k : QueuedFreed ks t u) (apart : ∀ k ∈ ks, k ∉ hs) : QueuedFreed (hs ++ ks) s u where
  queues c := by
    rw [k.queues, h.queues, List.filter_filter]
    refine List.filter_congr fun b _ => ?_
    simp only [List.mem_append, not_or, Bool.decide_and]
    exact Bool.and_comm _ _
  replies := k.replies.trans h.replies
  roundRobin := ⟨k.roundRobin.1.trans h.roundRobin.1, k.roundRobin.2.trans h.roundRobin.2⟩
  freePages := by
    rw [k.freePages, h.freePages, List.flatMap_append, List.append_assoc]
    congr 2
    exact flatMap_congr_of_mem fun b mem => by rw [h.desc_of_apart apart mem]
  freeDesc := by rw [k.freeDesc, h.freeDesc, List.append_assoc]
  mem := k.mem.trans h.mem
  desc b := by
    rw [k.desc, h.desc]
    by_cases late : b ∈ ks <;> by_cases early : b ∈ hs <;> simp [late, early]
  drain r := by
    have gone : goneOf r (hs ++ ks) s = goneOf r hs s + goneOf r ks s := List.countP_append
    rw [k.drain, h.drain, h.goneOf_of_apart apart, fallenBy_add, gone]
  raised r some zero pending := by
    have gone : goneOf r (hs ++ ks) s = goneOf r hs s + goneOf r ks s := List.countP_append
    rw [gone] at some zero
    obtain ⟨someFirst, drained⟩ | ⟨someSecond, drained, still⟩ := fallenBy_drains some zero pending
    · exact k.listed r (h.raised r someFirst drained pending)
    · rw [← h.drain] at drained still
      rw [← h.goneOf_of_apart apart] at drained someSecond
      exact k.raised r someSecond drained still
  listed r there := k.listed r (h.listed r there)
  quiet none := by
    have gone (r : StreamId) : goneOf r (hs ++ ks) s = goneOf r hs s + goneOf r ks s := List.countP_append
    have first (r : StreamId) (some : goneOf r hs s ≠ 0) : s.pool.drain[r].pending = false := none r (by rw [gone]; omega)
    have second (r : StreamId) (some : goneOf r ks t ≠ 0) : t.pool.drain[r].pending = false := by
      rw [h.goneOf_of_apart apart] at some
      rw [h.drain, fallenBy_pending (none r (by rw [gone]; omega))]
    exact (k.quiet second).trans (h.quiet first)
  agent := ⟨k.agent.1.trans h.agent.1, k.agent.2.1.trans h.agent.2.1, k.agent.2.2.trans h.agent.2.2⟩
  classifier := k.classifier.trans h.classifier
  port := k.port.trans h.port
  records := ⟨k.records.1.trans h.records.1, fun i => (k.records.2 i).trans (h.records.2 i)⟩
  link := k.link.trans h.link
  notices := k.notices.trans h.notices

/-- A counter of the agent that advances. -/
theorem QueuedFreed.counted (h : QueuedFreed hs s t) (c : CounterName) : QueuedFreed hs s (count c t) :=
  ⟨h.queues, h.replies, h.roundRobin, h.freePages, h.freeDesc, h.mem, h.desc, h.drain, h.raised, h.listed, h.quiet, h.agent,
    h.classifier, h.port, h.records, h.link, h.notices⟩

end

theorem mem_fallOutstanding_of_mem {t u : StreamId} {s : State} (there : u ∈ s.engine.drainList) :
    u ∈ (fallOutstanding t s).engine.drainList := by
  unfold fallOutstanding
  simp only
  split
  · exact mem_raiseDrain_of_mem _ there
  · exact there

/-- One QUEUED block that is freed. -/
theorem freeQueued_freed (h : Handle) {s : State} (nodup : ∀ c : EgressClass, s.egress.queues[c].Nodup) :
    QueuedFreed [h] s (freeQueued h s) := by
  have request : RequestEffect _ (freeQueued h s) := fallOutstanding_request s.pool.desc[h].stream
    (freeBlock h { s with egress.queues := withoutHandle h s.egress.queues })
  obtain ⟨⟨classifier, pool, egress, link, agent, notices, -, -, port, -⟩, -, -, store, copies⟩ := request
  have gone (u : StreamId) : goneOf u [h] s = if s.pool.desc[h].stream = u then 1 else 0 := by
    simp only [goneOf, List.countP_singleton, beq_iff_eq]
  exact {
    queues := fun c => by
      rw [egress]
      refine (withoutHandle_getElem h s.egress.queues c).trans ?_
      rw [(nodup c).erase_eq_filter]
      refine List.filter_congr fun b _ => ?_
      rw [Bool.eq_iff_iff, bne_iff_ne, decide_eq_true_iff, List.mem_singleton]
    replies := (congrArg Egress.replies egress :)
    roundRobin := ⟨(congrArg Egress.curClass egress :), (congrArg Egress.budget egress :)⟩
    freePages := by
      rw [List.flatMap_singleton]
      exact (congrArg Pool.freePages pool :)
    freeDesc := (congrArg Pool.freeDesc pool :)
    mem := (congrArg Pool.mem pool :)
    desc := fun b => by
      refine (congrArg (fun p : Pool => p.desc[b]) pool :).trans ?_
      refine (getElem_set_fin s.pool.desc h b .free).trans ?_
      simp only [List.mem_singleton, eq_comm]
    drain := fun u => by
      refine (congrArg (fun p : Pool => p.drain[u]) pool :).trans ?_
      refine (getElem_set_fin s.pool.drain s.pool.desc[h].stream u (fallenEntry s.pool.drain[s.pool.desc[h].stream])).trans ?_
      rw [gone]
      by_cases same : s.pool.desc[h].stream = u
      · rw [if_pos same, if_pos same, fallenBy_one]
        exact congrArg (fun r : StreamId => fallenEntry s.pool.drain[r]) same
      · rw [if_neg same, if_neg same]; rfl
    raised := fun u some zero pending => by
      rw [gone] at some zero
      by_cases same : s.pool.desc[h].stream = u
      · rw [if_pos same] at zero
        rw [← same] at zero pending ⊢
        exact mem_fallOutstanding_drainList zero pending
      · exact absurd (if_neg same) some
    listed := fun u there => mem_fallOutstanding_of_mem (s := freeBlock h { s with egress.queues := withoutHandle h s.egress.queues }) there
    quiet := fun none => by
      have pending := none s.pool.desc[h].stream (by rw [gone, if_pos rfl]; decide)
      refine (fallOutstanding_engine (s := freeBlock h { s with egress.queues := withoutHandle h s.egress.queues }) fun both => ?_)
      exact Bool.noConfusion (pending.symm.trans both.2)
    agent := ⟨(congrArg Agent.state agent :), (congrArg Agent.cmdq agent :), (congrArg Agent.limits agent :)⟩
    classifier := classifier
    port := port
    records := ⟨store, copies⟩
    link := link
    notices := notices }

theorem freeAllQueued_freed {hs : List Handle} (each : hs.Nodup) {s : State} (nodup : ∀ c : EgressClass, s.egress.queues[c].Nodup) :
    QueuedFreed hs s (freeAllQueued hs s) := by
  induction hs generalizing s with
  | nil => exact .refl s
  | cons h hs ih =>
    have first := freeQueued_freed h nodup
    have rest := ih (List.nodup_cons.mp each).2 (s := freeQueued h s) fun c => by
      rw [first.queues]; exact (nodup c).filter _
    refine first.trans rest fun k mem => ?_
    rw [List.mem_singleton]
    rintro rfl
    exact (List.nodup_cons.mp each).1 mem

/-! ### The purge (R134) -/

/-- From `s` to `t` the QUEUED blocks `hs` have been purged by a stall, each counted in stall_discards. -/
structure Purged (hs : List Handle) (s t : State) : Prop extends QueuedFreed hs s t where
  discards : t.agent.counters.stallDiscards = s.agent.counters.stallDiscards + BitVec.ofNat 32 hs.length

theorem Purged.refl (s : State) : Purged [] s s where
  toQueuedFreed := .refl s
  discards := by simp

theorem Purged.trans {hs ks : List Handle} {s t u : State} (h : Purged hs s t) (k : Purged ks t u) (apart : ∀ k ∈ ks, k ∉ hs) :
    Purged (hs ++ ks) s u where
  toQueuedFreed := h.toQueuedFreed.trans k.toQueuedFreed apart
  discards := by
    rw [k.discards, h.discards, List.length_append, BitVec.ofNat_add, BitVec.add_assoc]

theorem freeQueued_purged (h : Handle) {s : State} (nodup : ∀ c : EgressClass, s.egress.queues[c].Nodup) :
    Purged [h] s (count .stallDiscards (freeQueued h s)) where
  toQueuedFreed := (freeQueued_freed h nodup).counted _
  discards := by
    have agent : (freeQueued h s).agent = s.agent := (fallOutstanding_restKept _ _).agent
    exact (congrArg (fun a : Agent => a.counters.stallDiscards + 1) agent :)

theorem purgeStalled_purged {hs : List Handle} (each : hs.Nodup) {s : State} (nodup : ∀ c : EgressClass, s.egress.queues[c].Nodup) :
    Purged hs s (purgeStalled hs s) := by
  induction hs generalizing s with
  | nil => exact .refl s
  | cons h hs ih =>
    have first := freeQueued_purged h nodup
    have rest := ih (List.nodup_cons.mp each).2 (s := count .stallDiscards (freeQueued h s)) fun c => by
      rw [first.queues]; exact (nodup c).filter _
    refine first.trans rest fun k mem => ?_
    rw [List.mem_singleton]
    rintro rfl
    exact (List.nodup_cons.mp each).1 mem

/-- The blocks of a class that a stall purges (R134, R135). -/
def purgedOf (s : State) (c : EgressClass) : List Handle :=
  if s.agent.limits.discardable.getLsbD c.val = true then s.egress.queues[c] else []

/-- The purge of one class, after the purge of blocks that stand in other queues. -/
theorem Purged.thenClass {hs : List Handle} {s t : State} (h : Purged hs s t) (nodup : ∀ c : EgressClass, s.egress.queues[c].Nodup)
    {c : EgressClass} (apart : ∀ k ∈ s.egress.queues[c], k ∉ hs) : Purged (hs ++ purgedOf s c) s (purgeClass c t) := by
  have queue : t.egress.queues[c] = s.egress.queues[c] := by
    rw [h.queues, List.filter_eq_self]
    intro k mem
    exact decide_eq_true (apart k mem)
  unfold purgeClass isDiscardable purgedOf
  rw [h.agent.2.2]
  by_cases discardable : s.agent.limits.discardable.getLsbD c.val = true
  · rw [if_pos discardable, if_pos discardable, queue]
    exact h.trans (purgeStalled_purged (nodup c) fun d => by rw [h.queues]; exact (nodup d).filter _) apart
  · rw [if_neg discardable, if_neg discardable, List.append_nil]
    exact h

theorem mem_purgedOf {s : State} {c : EgressClass} {h : Handle} (mem : h ∈ purgedOf s c) : h ∈ s.egress.queues[c] := by
  unfold purgedOf at mem
  split at mem
  · exact mem
  · cases mem

theorem QueuesDisjoint.class_unique {s : State} (disjoint : QueuesDisjoint s) {c d : EgressClass} {k : Handle}
    (here : k ∈ s.egress.queues[c]) (there : k ∈ s.egress.queues[d]) : c = d := by
  unfold QueuesDisjoint at disjoint
  simp only [List.nodup_append, List.mem_append] at disjoint
  obtain ⟨⟨⟨-, -, one⟩, -, two⟩, -, three⟩ := disjoint
  match c, d with
  | 0, 0 | 1, 1 | 2, 2 | 3, 3 => rfl
  | 0, 1 => exact (one k here k there rfl).elim
  | 1, 0 => exact (one k there k here rfl).elim
  | 0, 2 => exact (two k (.inl here) k there rfl).elim
  | 2, 0 => exact (two k (.inl there) k here rfl).elim
  | 1, 2 => exact (two k (.inr here) k there rfl).elim
  | 2, 1 => exact (two k (.inr there) k here rfl).elim
  | 0, 3 => exact (three k (.inl (.inl here)) k there rfl).elim
  | 3, 0 => exact (three k (.inl (.inl there)) k here rfl).elim
  | 1, 3 => exact (three k (.inl (.inr here)) k there rfl).elim
  | 3, 1 => exact (three k (.inl (.inr there)) k here rfl).elim
  | 2, 3 => exact (three k (.inr here) k there rfl).elim
  | 3, 2 => exact (three k (.inr there) k here rfl).elim

/-- The blocks of all classes that a stall purges, in the order of the purge. -/
def allPurged (s : State) : List Handle := purgedOf s 0 ++ purgedOf s 1 ++ purgedOf s 2 ++ purgedOf s 3

theorem mem_allPurged {s : State} {k : Handle} : k ∈ allPurged s ↔ ∃ c, k ∈ purgedOf s c := by
  simp only [allPurged, List.mem_append]
  constructor
  · rintro (((h | h) | h) | h)
    · exact ⟨0, h⟩
    · exact ⟨1, h⟩
    · exact ⟨2, h⟩
    · exact ⟨3, h⟩
  · rintro ⟨c, h⟩
    match c with
    | 0 => exact .inl (.inl (.inl h))
    | 1 => exact .inl (.inl (.inr h))
    | 2 => exact .inl (.inr h)
    | 3 => exact .inr h

/-- What the purge leaves of a class queue. -/
theorem queue_after_purge {s : State} (disjoint : QueuesDisjoint s) (c : EgressClass) :
    s.egress.queues[c].filter (fun h => h ∉ allPurged s) =
      if s.agent.limits.discardable.getLsbD c.val = true then [] else s.egress.queues[c] := by
  by_cases discardable : s.agent.limits.discardable.getLsbD c.val = true
  · rw [if_pos discardable, List.filter_eq_nil_iff]
    intro k there kept
    have gone : k ∈ purgedOf s c := by rw [purgedOf, if_pos discardable]; exact there
    exact of_decide_eq_true kept (mem_allPurged.mpr ⟨c, gone⟩)
  · rw [if_neg discardable, List.filter_eq_self]
    intro k there
    refine decide_eq_true fun gone => ?_
    obtain ⟨d, gone⟩ := mem_allPurged.mp gone
    rw [← disjoint.class_unique there (mem_purgedOf gone), purgedOf, if_neg discardable] at gone
    cases gone

/-- The whole purge of a stall. -/
theorem stallPurge_purged {s : State} (disjoint : QueuesDisjoint s) :
    Purged (allPurged s) s (stallPurge s) := by
  have nodup := disjoint.nodup
  unfold QueuesDisjoint at disjoint
  simp only [List.nodup_append, List.mem_append] at disjoint
  obtain ⟨⟨⟨-, -, one⟩, -, two⟩, -, three⟩ := disjoint
  have p0 := (Purged.refl s).thenClass nodup (c := 0) fun k _ => List.not_mem_nil
  have p1 := p0.thenClass nodup (c := 1) fun k there => by
    rw [List.nil_append]
    exact fun early => one k (mem_purgedOf early) k there rfl
  have p2 := p1.thenClass nodup (c := 2) fun k there => by
    simp only [List.nil_append, List.mem_append, not_or]
    exact ⟨fun early => two k (.inl (mem_purgedOf early)) k there rfl, fun early => two k (.inr (mem_purgedOf early)) k there rfl⟩
  have p3 := p2.thenClass nodup (c := 3) fun k there => by
    simp only [List.nil_append, List.mem_append, not_or]
    exact ⟨⟨fun early => three k (.inl (.inl (mem_purgedOf early))) k there rfl,
      fun early => three k (.inl (.inr (mem_purgedOf early))) k there rfl⟩, fun early => three k (.inr (mem_purgedOf early)) k there rfl⟩
  exact p3

/-! ### The notice and the report to the agent (R134, R168) -/

/-- While STALLED a notice request writes the notices and the counters alone. -/
theorem requestNotice_of_stalled (k : NoticeKind) (t : Option StreamId) {s : State} (stalled : s.link.port = .stalled) :
    ∃ n c, requestNotice k t s = { s with notices := n, agent.counters := c } ∧
      c.stallDiscards = s.agent.counters.stallDiscards := by
  unfold requestNotice
  split
  · split
    · exact ⟨_, _, rfl, rfl⟩
    · split
      · rw [judgePort_of_stalled (by exact stalled)]
        exact ⟨_, _, rfl, rfl⟩
      · exact ⟨_, _, rfl, rfl⟩
  · exact ⟨_, _, rfl, rfl⟩

/-- What it writes into the notices depends on the notices and on the frame in flight. -/
theorem requestNotice_notices_congr (k : NoticeKind) (t : Option StreamId) {s u : State} (stalled : s.link.port = .stalled)
    (stalled' : u.link.port = .stalled) (notices : u.notices = s.notices) (inflight : u.link.inflight = s.link.inflight) :
    (requestNotice k t u).notices = (requestNotice k t s).notices := by
  have places : noticePlaces u = noticePlaces s := by rw [noticePlaces, notices, inflight]; rfl
  unfold requestNotice
  rw [notices, places]
  by_cases enabled : noticeEnabled s.notices.mask k = true
  · rw [if_pos enabled, if_pos enabled]
    cases coalesce k t s.notices.queue with
    | some q => rfl
    | none =>
      simp only
      by_cases room : noticePlaces s < Config.noticeDepth
      · rw [if_pos room, if_pos room, judgePort_of_stalled (by exact stalled'), judgePort_of_stalled (by exact stalled)]
      · rw [if_neg room, if_neg room]
        simp only [count_frame]
  · rw [if_neg enabled, if_neg enabled, notices]

/-- Unless a FULL reset waits, the report of an expiry makes a request of the engine at most, and a STREAMS reset whose reply waits is
under way. -/
theorem resetAtExpiry_request {s : State} (notFull : s.agent.state ≠ .resetPending .full) :
    ∃ a, RequestEffect (inAgentState a s) (resetAtExpiry s) ∧ (resetAtExpiry s).engine.drainList = s.engine.drainList ∧
      (s.agent.state.isResetPending = false → a = s.agent.state) ∧
      (s.agent.state = .resetPending .streams → a = if s.egress.replies = [] then s.agent.state else .tearing 0) := by
  have own : inAgentState s.agent.state s = s := rfl
  by_cases replies : s.egress.replies = []
  · have rests : resetAtExpiry s = s := if_pos (by rw [replies]; rfl)
    rw [rests]
    exact ⟨s.agent.state, .refl s, rfl, fun _ => rfl, fun _ => (if_pos replies).symm⟩
  · have effect : resetAtExpiry s = resetEffect s := if_neg (by simpa using replies)
    rw [effect]
    unfold resetEffect
    split
    · next state => exact absurd state notFull
    · next state =>
      refine ⟨.tearing 0, askEngage_request .management 0 (inAgentState (.tearing 0) s), askEngage_drainList _ _ _, fun no => ?_,
        fun _ => (if_neg replies).symm⟩
      rw [state] at no
      cases no
    all_goals
      next state => exact ⟨s.agent.state, .refl s, rfl, fun _ => rfl, fun pending => by rw [state] at pending; cases pending⟩

/-- The link after an expiry, whatever reset waits. -/
theorem expire_link (s : State) : (expire s).link = { s.link with port := .stalled, timer := none } := by
  obtain ⟨-, link, -⟩ := stallPurge_keeps { s with link.port := .stalled, link.timer := none }
  have noted := requestNotice_link .egressStall none
    (s := stallPurge { s with link.port := .stalled, link.timer := none }) (by rw [link])
  unfold expire resetAtExpiry
  split
  · exact noted.trans link
  · exact (resetEffect_link _).trans (noted.trans link)

theorem stallExpiry_of_running {n : Nat} {s : State} (waiting : s.link.port = .waiting) (timer : s.link.timer = some n) :
    stallExpiry s = expire s := by rw [stallExpiry, waiting, timer]

theorem stallExpiry_of_idle {s : State} (idle : s.link.port ≠ .waiting ∨ s.link.timer = none) : stallExpiry s = s := by
  unfold stallExpiry
  split
  · next port timer =>
    obtain other | none := idle
    · exact absurd port other
    · rw [none] at timer; cases timer
  · rfl

/-- Settles O36: the purge, then the notice, then the report; and the µs in which a timer runs out. -/
theorem stallExpiryPurgesDiscardableClasses : Obligations.StallExpiryPurgesDiscardableClasses := by
  have runs (s : State) (awake : s.resetLow = false) : exec .stallExpiry s = .next (stallExpiry s) := exec_of_awake rfl awake
  refine ⟨fun s awake => ⟨fun n waiting timer notFull disjoint => ?expires, fun idle => ?idle⟩,
    fun s empty awake => ⟨fun none => ?stops, fun n timer more => ?counts, fun n timer last waiting => ?runsOut⟩⟩
  case idle => rw [runs s awake, stallExpiry_of_idle idle]
  case expires =>
    rw [runs s awake, stallExpiry_of_running waiting timer]
    have purged := stallPurge_purged (s := { s with link.port := .stalled, link.timer := none }) disjoint
    generalize purge : stallPurge { s with link.port := .stalled, link.timer := none } = u at purged
    have stalled : u.link.port = .stalled := by rw [purged.link]
    obtain ⟨n, c, noted, discards⟩ := requestNotice_of_stalled .egressStall none stalled
    have notices := requestNotice_notices_congr .egressStall none (s := { s with link.port := .stalled }) rfl stalled purged.notices
      (by rw [purged.link])
    obtain ⟨state, cmdq, limits⟩ := purged.agent
    have waits : (requestNotice .egressStall none u).agent.state = s.agent.state ∧
        (requestNotice .egressStall none u).egress.replies = s.egress.replies := by rw [noted]; exact ⟨state, purged.replies⟩
    obtain ⟨a, request, drainList, same, taken⟩ := resetAtExpiry_request (s := requestNotice .egressStall none u)
      (by rw [waits.1]; exact notFull)
    rw [waits.1] at same taken
    rw [waits.2] at taken
    have expired : expire s = resetAtExpiry (requestNotice .egressStall none u) := by rw [expire, purge]
    rw [← expired] at request drainList
    obtain ⟨⟨classifier, pool, egress, link, agent, told, -, -, port, -⟩, -, -, store, copies⟩ := request
    have pool : (expire s).pool = u.pool := by rw [pool, noted]; rfl
    have egress : (expire s).egress = u.egress := by rw [egress, noted]; rfl
    have agent : (expire s).agent = { u.agent with state := a, counters := c } := by rw [agent, noted]; rfl
    have listed : (expire s).engine.drainList = u.engine.drainList := by rw [drainList, noted]
    refine ⟨_, rfl, expire_link s, fun c => ?_, ?_, ?_, ?_, ?_, ?_, ?_, fun h => ?_, fun r => ?_, ?_, fun no => ?_, fun pending => ?_, ?_,
      ?_, ?_, ⟨?_, fun i => ?_⟩, told.trans notices⟩
    · rw [egress, purged.queues]; exact queue_after_purge disjoint c
    · rw [egress]; exact purged.replies
    · rw [egress]; exact purged.roundRobin.1
    · rw [egress]; exact purged.roundRobin.2
    · rw [pool]; exact purged.freePages
    · rw [pool]; exact purged.freeDesc
    · rw [pool]; exact purged.mem
    · rw [pool, purged.desc]; exact apply_ite Desc.state _ _ _
    · rw [pool, listed, purged.drain]
      exact ⟨fun none => if_pos none, fun some zero pending => ⟨(if_neg some).trans (if_pos ⟨zero, pending⟩),
        purged.raised r some zero pending⟩, fun some stays => (if_neg some).trans (if_neg stays)⟩
    · rw [agent]; exact discards.trans purged.discards
    · rw [agent]; exact same no
    · rw [agent]; exact taken pending
    · rw [agent]; exact cmdq
    · rw [classifier, noted]; exact purged.classifier
    · rw [port, noted]; exact purged.port
    · rw [store, noted]; exact purged.records.1
    · rw [copies, noted]; exact purged.records.2 i
  all_goals
    have passes : step s = .next (passMicrosecond s) := by rw [step, empty]; exact live_of_awake _ awake
    rw [passes]
  case stops => rw [passMicrosecond, none]
  case counts =>
    rw [passMicrosecond, timer]
    exact congrArg Host.Outcome.next (if_neg (Nat.not_le.mpr more))
  case runsOut =>
    have expires : passMicrosecond s = expire s := by
      rw [passMicrosecond, timer]
      exact (if_pos last).trans (stallExpiry_of_running waiting timer)
    rw [runs s awake, stallExpiry_of_running waiting timer, expires]
    exact ⟨rfl, _, rfl, by rw [expire_link], by rw [expire_link], by rw [expire_link]⟩

end Sys2Proof.Machine
end

section
/-!
SUPPORT. The teardown of a stream: the blocks that it frees (R18, R60, R61, R141, R143).
-/
namespace Sys2Proof.Machine

open Sys2Proof

/-! ### FILLING and HELD blocks that are freed (R61) -/

/-- From `s` to `t` the FILLING or HELD blocks `hs` have been freed, in their order. -/
structure BlocksFreed (hs : List Handle) (s t : State) : Prop where
  freeDesc : t.pool.freeDesc = s.pool.freeDesc ++ hs
  freePages : hs.Nodup → t.pool.freePages = s.pool.freePages ++ hs.flatMap (fun h => s.pool.desc[h].pages)
  desc : ∀ h : Handle, h ∉ hs → t.pool.desc[h] = s.pool.desc[h]
  drain : t.pool.drain = s.pool.drain
  mem : t.pool.mem = s.pool.mem
  egress : t.egress = s.egress
  link : t.link = s.link
  notices : t.notices = s.notices
  engine : t.engine = s.engine

theorem freeAll_freed (hs : List Handle) (s : State) : BlocksFreed hs s (freeAll hs s) := by
  induction hs generalizing s with
  | nil => exact ⟨(List.append_nil _).symm, fun _ => (List.append_nil _).symm, fun _ _ => rfl, rfl, rfl, rfl, rfl, rfl, rfl⟩
  | cons h hs ih =>
    obtain ⟨freeDesc, freePages, desc, drain, mem, egress, link, notices, engine⟩ := ih (freeBlock h s)
    have others (k : Handle) (other : k ≠ h) : (freeBlock h s).pool.desc[k] = s.pool.desc[k] := getElem_set_fin_ne _ _ other
    refine ⟨?_, fun nodup => ?_, fun k apart => ?_, drain, mem, egress, link, notices, engine⟩
    · exact freeDesc.trans (List.append_assoc _ _ _)
    · obtain ⟨absent, rest⟩ := List.nodup_cons.mp nodup
      refine (freePages rest).trans ((List.append_assoc _ _ _).trans ?_)
      rw [List.flatMap_cons]
      congr 2
      exact flatMap_congr_of_mem fun k mem => by rw [others k fun same => absent (same ▸ mem)]
    · rw [List.mem_cons, not_or] at apart
      exact (desc k apart.2).trans (others k apart.1)

/-! ### The port after blocks have gone (R133) -/

/-- A judgement that finds nothing to take writes port state and timer alone. -/
theorem judgePort_of_nothing_taken {s : State}
    (rests : s.link.inflight = none → s.link.port ≠ .stalled → s.link.credit = 0 ∨ hasWaiting s = false) :
    ∃ p m, judgePort s = { s with link := { s.link with port := p, timer := m } } := by
  by_cases busy : s.link.inflight ≠ none ∨ s.link.port = .stalled
  · exact ⟨_, _, judgePort_of_busy busy⟩
  · rw [not_or, Classical.not_not] at busy
    obtain ⟨none, notStalled⟩ := busy
    rw [judgePort_selects none notStalled]
    obtain noCredit | nothing := rests none notStalled
    · have empty : ¬ 0 < s.link.credit := by omega
      rw [if_neg empty]
      split
      · split
        · exact ⟨_, _, rfl⟩
        · exact ⟨_, _, rfl⟩
      · exact ⟨_, _, rfl⟩
    · rw [nothing]
      exact ⟨_, _, rfl⟩

theorem markAbort_cases (t : StreamId) (s : State) : (∀ h c m, s.link.inflight = some (.block h c m) → s.pool.desc[h].stream = t →
      markAbort t s = { s with link.inflight := some (.block h c true) }) ∧
    ((∀ h c m, s.link.inflight = some (.block h c m) → s.pool.desc[h].stream ≠ t) → markAbort t s = s) := by
  unfold markAbort
  refine ⟨fun h c m flies same => ?_, fun apart => ?_⟩
  · rw [flies]
    exact if_pos same
  · split
    · next h c m flies => exact if_neg (apart h c m flies)
    all_goals rfl

/-- The mark touches the item in flight alone. -/
theorem markAbort_only_item (t : StreamId) (s : State) : ∃ i, markAbort t s = { s with link.inflight := i } ∧
    (i = none ↔ s.link.inflight = none) := by
  obtain ⟨marked, same⟩ := markAbort_cases t s
  by_cases own : ∃ h c m, s.link.inflight = some (.block h c m) ∧ s.pool.desc[h].stream = t
  · obtain ⟨h, c, m, flies, stream⟩ := own
    exact ⟨_, marked h c m flies stream, by rw [flies]; simp⟩
  · refine ⟨s.link.inflight, same fun h c m flies stream => own ⟨h, c, m, flies, stream⟩, Iff.rfl⟩

theorem hasWaiting_of_fewer {s t : State} (nothing : hasWaiting s = false) (replies : t.egress.replies = s.egress.replies)
    (notices : t.notices = s.notices) (queues : ∀ c : EgressClass, s.egress.queues[c] = [] → t.egress.queues[c] = []) :
    hasWaiting t = false := by
  simp only [hasWaiting, Bool.or_eq_false_iff] at nothing ⊢
  obtain ⟨⟨noReply, noNotice⟩, noBlock⟩ := nothing
  refine ⟨⟨by rw [replies]; exact noReply, by rw [notices]; exact noNotice⟩, ?_⟩
  rw [← Bool.not_eq_true, hasBlocks_iff] at noBlock ⊢
  rintro ⟨c, some⟩
  exact noBlock ⟨c, fun none => some (queues c none)⟩

/-! ### The teardown (R18) -/

/-- The state of a teardown after the current block, the held list and the queued blocks of the stream have been freed. -/
def blocksTornDown (t : StreamId) (s : State) (x : Ctx) : State :=
  freeAllQueued (queuedOf t (freeAll (ownedBlocks x) (setDrainPending t false s)))
    (freeAll (ownedBlocks x) (setDrainPending t false s))

/-- The QUEUED handles of a stream, queue by queue. -/
def queuedHandles (t : StreamId) (s : State) : List Handle :=
  (s.egress.queues[0] ++ s.egress.queues[1] ++ s.egress.queues[2] ++ s.egress.queues[3]).filter (fun h => s.pool.desc[h].stream == t)

theorem queuedOf_eq (t : StreamId) (s : State) : queuedOf t s = queuedHandles t s := by
  unfold queuedOf queuedHandles
  rw [vector4_toList]
  simp only [List.flatten_cons, List.flatten_nil, List.append_nil, List.append_assoc] <;> rfl

theorem mem_queuedHandles {t : StreamId} {s : State} {h : Handle} :
    h ∈ queuedHandles t s ↔ (∃ c : EgressClass, h ∈ s.egress.queues[c]) ∧ s.pool.desc[h].stream = t := by
  have queued : h ∈ s.egress.queues[0] ++ s.egress.queues[1] ++ s.egress.queues[2] ++ s.egress.queues[3] ↔
      ∃ c : EgressClass, h ∈ s.egress.queues[c] := by
    simp only [List.mem_append]
    constructor
    · rintro (((h | h) | h) | h)
      · exact ⟨0, h⟩
      · exact ⟨1, h⟩
      · exact ⟨2, h⟩
      · exact ⟨3, h⟩
    · rintro ⟨c, h⟩
      match c with
      | 0 => exact .inl (.inl (.inl h))
      | 1 => exact .inl (.inl (.inr h))
      | 2 => exact .inl (.inr h)
      | 3 => exact .inr h
  rw [queuedHandles, List.mem_filter, queued, beq_iff_eq]

section
variable {t : StreamId} {s : State} {x : Ctx} (disjoint : QueuesDisjoint s)
  (owned : ∀ h ∈ ownedBlocks x, ∀ c : EgressClass, h ∉ s.egress.queues[c])
include owned

theorem queuedOf_after_owned : queuedOf t (freeAll (ownedBlocks x) (setDrainPending t false s)) = queuedHandles t s := by
  obtain ⟨-, -, desc, -, -, egress, -⟩ := freeAll_freed (ownedBlocks x) (setDrainPending t false s)
  rw [queuedOf_eq, queuedHandles, egress]
  refine List.filter_congr fun h mem => ?_
  have apart : h ∉ ownedBlocks x := by
    intro own
    simp only [List.mem_append] at mem
    obtain ((mem | mem) | mem) | mem := mem
    · exact owned h own 0 mem
    · exact owned h own 1 mem
    · exact owned h own 2 mem
    · exact owned h own 3 mem
  rw [desc h apart]
  rfl

include disjoint

/-- The queued blocks leave after the owned ones. -/
theorem blocksTornDown_freed : QueuedFreed (queuedHandles t s) (freeAll (ownedBlocks x) (setDrainPending t false s)) (blocksTornDown t s x) := by
  obtain ⟨-, -, -, -, -, egress, -⟩ := freeAll_freed (ownedBlocks x) (setDrainPending t false s)
  have freed := freeAllQueued_freed (hs := queuedHandles t s) (List.Pairwise.filter _ disjoint)
    (s := freeAll (ownedBlocks x) (setDrainPending t false s)) fun c => by rw [egress]; exact disjoint.nodup c
  rw [← queuedOf_after_owned owned] at freed ⊢
  exact freed

omit disjoint in
theorem desc_of_queued {h : Handle} (mem : h ∈ queuedHandles t s) :
    (freeAll (ownedBlocks x) (setDrainPending t false s)).pool.desc[h] = s.pool.desc[h] := by
  obtain ⟨⟨c, there⟩, -⟩ := mem_queuedHandles.mp mem
  exact (freeAll_freed (ownedBlocks x) (setDrainPending t false s)).desc h fun own => owned h own c there

omit disjoint in
/-- The queued blocks that go are of the one stream. -/
theorem goneOf_queuedHandles (u : StreamId) : goneOf u (queuedHandles t s) (freeAll (ownedBlocks x) (setDrainPending t false s)) =
    if u = t then (queuedHandles t s).length else 0 := by
  have stream (h : Handle) (mem : h ∈ queuedHandles t s) :
      (freeAll (ownedBlocks x) (setDrainPending t false s)).pool.desc[h].stream = t := by
    rw [desc_of_queued owned mem]; exact (mem_queuedHandles.mp mem).2
  by_cases same : u = t
  · rw [if_pos same, goneOf, List.countP_eq_length]
    intro h mem
    rw [stream h mem, same]
    exact beq_self_eq_true t
  · rw [if_neg same, goneOf, List.countP_eq_zero]
    intro h mem own
    rw [stream h mem, beq_iff_eq] at own
    exact same own.symm

/-- With drain pending cleared first no drain completion is raised (R18, R67). -/
theorem blocksTornDown_engine : (blocksTornDown t s x).engine = s.engine := by
  have first := freeAll_freed (ownedBlocks x) (setDrainPending t false s)
  refine ((blocksTornDown_freed disjoint owned).quiet fun u some => ?_).trans first.engine
  rw [goneOf_queuedHandles owned] at some
  have same : u = t := by
    refine Classical.byContradiction fun other => ?_
    exact some (if_neg other)
  rw [first.drain, same]
  exact congrArg DrainEntry.pending (getElem_set_fin_self s.pool.drain t _)

theorem blocksTornDown_drain : (blocksTornDown t s x).pool.drain =
    s.pool.drain.set t ⟨s.pool.drain[t].count - (queuedHandles t s).length, false⟩ := by
  have first := freeAll_freed (ownedBlocks x) (setDrainPending t false s)
  refine Vector.ext fun n lt => ?_
  have fell := (blocksTornDown_freed (t := t) disjoint owned).drain ⟨n, lt⟩
  rw [goneOf_queuedHandles owned, first.drain] at fell
  refine fell.trans ?_
  have before : (setDrainPending t false s).pool.drain[(⟨n, lt⟩ : StreamId)] = _ := getElem_set_fin s.pool.drain t ⟨n, lt⟩ _
  have after := getElem_set_fin s.pool.drain t ⟨n, lt⟩ ⟨s.pool.drain[t].count - (queuedHandles t s).length, false⟩
  refine Eq.trans ?_ after.symm
  rw [before]
  by_cases same : (⟨n, lt⟩ : StreamId) = t
  · rw [if_pos same, if_pos same.symm, if_pos same.symm]
    exact fallenBy_pending rfl
  · rw [if_neg same, if_neg (Ne.symm same), if_neg (Ne.symm same)]
    rfl

theorem blocksTornDown_queues (c : EgressClass) : (blocksTornDown t s x).egress.queues[c] =
    s.egress.queues[c].filter (fun h => s.pool.desc[h].stream != t) := by
  have first := freeAll_freed (ownedBlocks x) (setDrainPending t false s)
  rw [(blocksTornDown_freed disjoint owned).queues, first.egress]
  refine List.filter_congr fun h mem => ?_
  have queued : h ∈ queuedHandles t s ↔ s.pool.desc[h].stream = t := by
    rw [mem_queuedHandles]
    exact ⟨And.right, fun stream => ⟨⟨c, mem⟩, stream⟩⟩
  rw [Bool.eq_iff_iff, decide_eq_true_iff, queued, bne_iff_ne]

/-- The port has nothing to take after a teardown that it had not before. -/
theorem tearDown_judged (agrees : LinkAgrees s) : ∃ p m, (tearDown t s x).1 =
    { markAbort t (blocksTornDown t s x) with link := { (markAbort t (blocksTornDown t s x)).link with port := p, timer := m } } := by
  obtain ⟨-, -, -, -, -, egress, link, notices, -⟩ := freeAll_freed (ownedBlocks x) (setDrainPending t false s)
  have freed := blocksTornDown_freed (t := t) disjoint owned
  obtain ⟨i, marked, same⟩ := markAbort_only_item t (blocksTornDown t s x)
  have link : (blocksTornDown t s x).link = s.link := freed.link.trans link
  refine judgePort_of_nothing_taken (s := markAbort t (blocksTornDown t s x)) fun none notStalled => ?_
  rw [marked] at none notStalled ⊢
  have landed : s.link.inflight = .none := by rw [← link]; exact same.mp none
  simp only [link] at notStalled ⊢
  cases port : s.link.port with
  | sending =>
    have flies := agrees.sending.mp port
    rw [landed] at flies
    cases flies
  | waiting => exact .inl (agrees.waiting port).1
  | stalled => exact absurd port notStalled
  | idle =>
    refine .inr (hasWaiting_of_fewer (agrees.idle port) ?_ ?_ fun c empty => ?_)
    · exact freed.replies.trans (congrArg Egress.replies egress)
    · exact freed.notices.trans notices
    · refine (blocksTornDown_queues disjoint owned c).trans ?_
      rw [empty]
      rfl

end

/-- Settles O47: the owned blocks, then the queued ones, then the mark; the port finds nothing to take. -/
theorem teardownFreesBlocksInOrder : Obligations.TeardownFreesBlocksInOrder := by
  intro t s x disjoint agrees owned flying
  have first := freeAll_freed (ownedBlocks x) (setDrainPending t false s)
  have freed := blocksTornDown_freed (t := t) disjoint owned
  have queued := queuedOf_after_owned (t := t) owned
  have engine := blocksTornDown_engine (t := t) disjoint owned
  have drain := blocksTornDown_drain (t := t) disjoint owned
  have queues := blocksTornDown_queues (t := t) disjoint owned
  obtain ⟨p, m, judged⟩ := tearDown_judged (t := t) disjoint owned agrees
  obtain ⟨i, marked, -⟩ := markAbort_only_item t (blocksTornDown t s x)
  have agent := (tearDown_restKept t s x).agent
  have link : (blocksTornDown t s x).link = s.link := freed.link.trans first.link
  rw [marked] at judged
  intro w list
  have whole : w.1 = _ := judged
  have handles : list = queuedHandles t s := rfl
  refine ⟨?record, ?_, fun nodup => ?_, ?_, fun c => ?_, ?_, ?_, ?_, agent, ?_, ?_, ?_, fun h c m flies => ?flies⟩
  case record =>
    rw [handles, ← queued]
    rfl
  case flies =>
    obtain ⟨notOwned, notQueued⟩ := flying h c m flies
    have apart : h ∉ queuedHandles t s := fun mem => by
      obtain ⟨⟨c, there⟩, -⟩ := mem_queuedHandles.mp mem
      exact notQueued c there
    have desc : (blocksTornDown t s x).pool.desc[h] = s.pool.desc[h] := by
      rw [freed.desc, if_neg apart]
      exact first.desc h notOwned
    have item : (blocksTornDown t s x).link.inflight = some (.block h c m) := by rw [link]; exact flies
    obtain ⟨own, other⟩ := markAbort_cases t (blocksTornDown t s x)
    have result : w.1 = judgePort (markAbort t (blocksTornDown t s x)) := rfl
    by_cases stream : s.pool.desc[h].stream = t
    · rw [result, own h c m item (by rw [desc]; exact stream), judgePort_of_inflight rfl, if_pos stream]
      exact ⟨congrArg (fun l : Link => { l with inflight := some (.block h c true) }) link, desc⟩
    · have others : ∀ h' c' m', (blocksTornDown t s x).link.inflight = some (.block h' c' m') →
          (blocksTornDown t s x).pool.desc[h'].stream ≠ t := by
        intro h' c' m' flies'
        rw [item] at flies'
        cases flies'
        rw [desc]
        exact stream
      rw [result, other others, judgePort_of_inflight (by rw [item]; rfl), if_neg stream]
      exact ⟨link, desc⟩
  all_goals rw [whole]
  · rw [handles]
    exact freed.freeDesc.trans (congrArg (· ++ queuedHandles t s) first.freeDesc)
  · rw [handles, List.flatMap_append, ← List.append_assoc]
    refine freed.freePages.trans ?_
    rw [first.freePages nodup]
    congr 1
    exact flatMap_congr_of_mem fun h mem => by rw [desc_of_queued owned mem]
  · exact drain
  · exact queues c
  · exact freed.mem.trans first.mem
  · exact engine
  · exact freed.notices.trans first.notices
  · exact freed.replies.trans (congrArg Egress.replies first.egress)
  · exact freed.roundRobin.1.trans (congrArg Egress.curClass first.egress)
  · exact freed.roundRobin.2.trans (congrArg Egress.budget first.egress)

end Sys2Proof.Machine
end

section
/-!
SUPPORT. The effect of a pending unit reset: at the completion of its reply, and at a stall expiry (R168–R173).
-/
namespace Sys2Proof.Machine

open Sys2Proof

/-! ### A FULL reset (R171, Table 8-8) -/

/-- The state whose blocks but the context engine have taken the reset values. -/
def blocksReset (s : State) : State := judgeHold { s with
  ingress := ⟨.init, [], false, true, s.ingress.rsp⟩
  classifier := .reset s.classifier.unitAddr
  assembler := s.assembler.map (fun a => a.overtake s)
  pool := .reset s.pool.mem
  egress := .reset
  agent := .reset
  notices := .reset }

theorem fullReset_eq (s : State) : fullReset s = requestSweep .init (blocksReset s) := rfl

/-- In RUNNING with nothing in progress the init sweep begins at once (R87, R88). -/
theorem requestSweep_init_atOnce {s : State} (running : s.engine.mode = .running) (free : anyInUse s.engine = false)
    (idle : s.engine.fetch = none) : requestSweep .init s = startInitSweep s := by
  have request : requestSweep .init s = leaveSweepWait { s with engine.mode := .sweepWait .init } := by
    simp only [requestSweep, running]
  have begun : (!anyInUse s.engine && s.engine.fetch.isNone) = true := by rw [free, idle]; rfl
  rw [request]
  exact if_pos begun

/-- Otherwise the request changes the mode alone (R87). -/
theorem requestSweep_init_waits {s : State} (waits : s.engine.mode ≠ .running ∨ anyInUse s.engine = true ∨ s.engine.fetch ≠ none) :
    requestSweep .init s = { s with engine.mode := match s.engine.mode with
      | .running | .sweepWait _ => .sweepWait .init
      | .initSweep => .initSweep
      | .busSweep n _ => .busSweep n true } := by
  cases mode : s.engine.mode with
  | running =>
    have request : requestSweep .init s = leaveSweepWait { s with engine.mode := .sweepWait .init } := by
      simp only [requestSweep, mode]
    rw [request]
    exact leaveSweepWait_stays (s := { s with engine.mode := .sweepWait .init }) (waits.resolve_left fun other => other mode)
  | sweepWait k =>
    cases k with
    | init => simp only [requestSweep, mode]; rw [← mode]
    | bus => simp only [requestSweep, mode]
  | initSweep => simp only [requestSweep, mode]; rw [← mode]
  | busSweep n b => simp only [requestSweep, mode]

/-- The request of an init sweep writes the engine and the assembler alone. -/
theorem requestSweep_init_rest (s : State) : requestSweep .init s =
    { s with engine := (requestSweep .init s).engine, assembler := (requestSweep .init s).assembler } := by
  by_cases atOnce : s.engine.mode = .running ∧ anyInUse s.engine = false ∧ s.engine.fetch = none
  · obtain ⟨running, free, idle⟩ := atOnce
    rw [requestSweep_init_atOnce running free idle]
    rfl
  · rw [requestSweep_init_waits]
    by_cases running : s.engine.mode = .running
    · by_cases free : anyInUse s.engine = false
      · exact .inr (.inr fun idle => atOnce ⟨running, free, idle⟩)
      · exact .inr (.inl (Bool.not_eq_false _ ▸ free))
    · exact .inl running

theorem fullReset_engine (s : State) : EngineAtFullReset s (fullReset s) where
  atOnce running free idle := by
    rw [fullReset_eq, requestSweep_init_atOnce (s := blocksReset s) running free idle]
    exact ⟨engineReset_atReset, rfl⟩
  waits waits := by
    rw [fullReset_eq, requestSweep_init_waits (s := blocksReset s) waits]
    refine ⟨rfl, List.map_congr_left fun a _ => ?_⟩
    unfold Assembly.overtake
    cases s.engine.slots[a.slot].copy.fill <;> rfl

/-- The values of Table 8-8, beside a link that keeps its credit with nothing in flight. -/
theorem fullReset_taken {s u : State} (l : Link) (rsp : u.ingress.rsp = s.ingress.rsp)
    (unit : u.classifier.unitAddr = s.classifier.unitAddr) (mem : u.pool.mem = s.pool.mem) (pending : u.pending = s.pending)
    (credit : l.credit = s.link.credit) (none : l.inflight = none) (stopped : l.timer = .none) :
    FullResetTaken s { fullReset u with link := l } := by
  have rest := requestSweep_init_rest (blocksReset u)
  rw [← fullReset_eq] at rest
  have sweep : (fullReset u).engine.mode = .initSweep ∨ (fullReset u).engine.mode = .sweepWait .init ∨
      ∃ n, (fullReset u).engine.mode = .busSweep n true := by
    by_cases atOnce : u.engine.mode = .running ∧ anyInUse u.engine = false ∧ u.engine.fetch = .none
    · obtain ⟨running, free, idle⟩ := atOnce
      exact .inl ((fullReset_engine u).atOnce running free idle).1.mode
    · have waits : u.engine.mode ≠ .running ∨ anyInUse u.engine = true ∨ u.engine.fetch ≠ .none := by
        rwa [Classical.not_and_iff_not_or_not, Classical.not_and_iff_not_or_not, Bool.not_eq_false] at atOnce
      rw [((fullReset_engine u).waits waits).1]
      cases mode : u.engine.mode with
      | running | sweepWait _ => exact .inr (.inl rfl)
      | initSweep => exact .inl rfl
      | busSweep n _ => exact .inr (.inr ⟨n, rfl⟩)
  generalize fullReset u = t at rest sweep
  obtain ⟨e, a, eq⟩ : ∃ e a, t = { blocksReset u with engine := e, assembler := a } := ⟨_, _, rest⟩
  subst eq
  have on := powerOn_atPowerOn u.classifier.unitAddr u.pool.mem []
  have ingress : (blocksReset u).ingress = ⟨.init, [], false, true, s.ingress.rsp⟩ := by
    rw [← rsp, blocksReset, judgeHold, holdDue]
    simp
  exact ⟨ingress, on.table, unit, on.descriptors, on.freeLists, on.registry, mem, on.egress, on.agent, on.notices, sweep,
    ⟨credit, none, stopped⟩, pending⟩

/-! ### At the completion of the reply (R140, R168) -/

/-- The effect of a FULL reset leaves nothing to send. -/
theorem fullReset_nothing_waits (s : State) : hasWaiting (fullReset s) = false ∧ (fullReset s).link = s.link ∧
    (fullReset s).agent.state = .idle ∧ (fullReset s).agent.cmdq = [] := by
  have rest := requestSweep_init_rest (blocksReset s)
  rw [← fullReset_eq] at rest
  rw [rest]
  exact ⟨rfl, rfl, rfl, rfl⟩

theorem frameCompletion_fullReset {s : State} {r : Reply} (flies : s.link.inflight = some (.reply r)) (port : s.link.port ≠ .stalled)
    (last : s.egress.replies = []) (pending : s.agent.state = .resetPending .full) : frameDone s =
    { fullReset (landed (.reply r) s) with link := { (landed (.reply r) s).link with port := .idle, timer := none } } := by
  have told : tellAgent (.reply r) (landed (.reply r) s) = fullReset (landed (.reply r) s) := by
    have empty : (landed (.reply r) s).egress.replies.isEmpty = true := by
      rw [(landed_waiting _ s).1, last]; rfl
    have state : (landed (.reply r) s).agent.state = .resetPending .full := by rw [(landed_effect _ s).agent]; exact pending
    rw [tellAgent, resetAtReply, if_pos empty, resetEffect, state]
  obtain ⟨nothing, link, idle, -⟩ := fullReset_nothing_waits (landed (.reply r) s)
  rw [frameDone_of_item flies, told, judgePort_selects (by rw [link]; rfl) (by rw [link]; exact port), nothing]
  refine (serveAgent_of_not_waiting (by rw [if_neg (by decide)]; exact idle ▸ by decide)).trans ?_
  rw [if_neg (by decide), link]

/-! ### At a stall expiry (R134, R168) -/

section
variable (a : AgentState)

theorem requestNotice_inAgentState (k : NoticeKind) (t : Option StreamId) (s : State) :
    requestNotice k t (inAgentState a s) = inAgentState a (requestNotice k t s) := by
  obtain ⟨-, -, -, -, -, -, notices, -⟩ := inAgentState_fields a s
  have places : noticePlaces (inAgentState a s) = noticePlaces s := rfl
  unfold requestNotice
  rw [notices, places]
  by_cases enabled : noticeEnabled s.notices.mask k = true
  · rw [if_pos enabled, if_pos enabled]
    cases coalesce k t s.notices.queue with
    | some q => rfl
    | none =>
      simp only
      by_cases room : noticePlaces s < Config.noticeDepth
      · rw [if_pos room, if_pos room]
        exact judgePort_inAgentState a { s with notices.queue := s.notices.queue ++ [⟨k, t, 1, none⟩] }
      · rw [if_neg room, if_neg room]; rfl
  · rw [if_neg enabled, if_neg enabled]

theorem freeQueued_inAgentState (h : Handle) (s : State) : freeQueued h (inAgentState a s) = inAgentState a (freeQueued h s) :=
  fallOutstanding_inAgentState a _ (freeBlock h { s with egress.queues := withoutHandle h s.egress.queues })

theorem purgeClass_inAgentState (c : EgressClass) (s : State) : purgeClass c (inAgentState a s) = inAgentState a (purgeClass c s) := by
  have purge (hs : List Handle) (u : State) : purgeStalled hs (inAgentState a u) = inAgentState a (purgeStalled hs u) := by
    induction hs generalizing u with
    | nil => rfl
    | cons h hs ih =>
      rw [purgeStalled, freeQueued_inAgentState]
      exact ih (count .stallDiscards (freeQueued h u))
  obtain ⟨-, -, -, -, -, egress, -, limits⟩ := inAgentState_fields a s
  unfold purgeClass
  rw [egress, limits]
  by_cases discardable : isDiscardable s.agent.limits c = true
  · rw [if_pos discardable, if_pos discardable]; exact purge _ s
  · rw [if_neg discardable, if_neg discardable]

theorem stallPurge_inAgentState (s : State) : stallPurge (inAgentState a s) = inAgentState a (stallPurge s) := by
  unfold stallPurge
  simp only [purgeClass_inAgentState]

end

/-- What a purge leaves alone whatever stands in the queues. -/
structure PurgeFrame (s t : State) : Prop where
  rsp : t.ingress.rsp = s.ingress.rsp
  unit : t.classifier.unitAddr = s.classifier.unitAddr
  mem : t.pool.mem = s.pool.mem
  pending : t.pending = s.pending
  replies : t.egress.replies = s.egress.replies
  link : t.link = s.link
  agent : t.agent.state = s.agent.state

theorem PurgeFrame.refl (s : State) : PurgeFrame s s := ⟨rfl, rfl, rfl, rfl, rfl, rfl, rfl⟩

theorem PurgeFrame.trans {s t u : State} (h : PurgeFrame s t) (k : PurgeFrame t u) : PurgeFrame s u :=
  ⟨k.rsp.trans h.rsp, k.unit.trans h.unit, k.mem.trans h.mem, k.pending.trans h.pending, k.replies.trans h.replies,
    k.link.trans h.link, k.agent.trans h.agent⟩

theorem freeQueued_purgeFrame (h : Handle) (s : State) : PurgeFrame s (freeQueued h s) := by
  have request := fallOutstanding_request s.pool.desc[h].stream (freeBlock h { s with egress.queues := withoutHandle h s.egress.queues })
  exact ⟨request.rsp, (congrArg Classifier.unitAddr request.classifier :), (congrArg Pool.mem request.pool :), request.pending,
    (congrArg Egress.replies request.egress :), request.link, (congrArg Agent.state request.agent :)⟩

theorem purgeClass_purgeFrame (c : EgressClass) (s : State) : PurgeFrame s (purgeClass c s) := by
  have purge (hs : List Handle) (u : State) : PurgeFrame u (purgeStalled hs u) := by
    induction hs generalizing u with
    | nil => exact .refl u
    | cons h hs ih =>
      obtain ⟨rsp, unit, mem, pending, replies, link, agent⟩ := ih (count .stallDiscards (freeQueued h u))
      exact (freeQueued_purgeFrame h u).trans ⟨rsp, unit, mem, pending, replies, link, agent⟩
  unfold purgeClass
  split
  · exact purge _ s
  · exact .refl s

/-- The state after an expiry, before the report to the agent. -/
def stalledAndPurged (s : State) : State :=
  requestNotice .egressStall none (stallPurge { s with link.port := .stalled, link.timer := none })

theorem stalledAndPurged_inAgentState (a : AgentState) (s : State) :
    stalledAndPurged (inAgentState a s) = inAgentState a (stalledAndPurged s) := by
  have purge := stallPurge_inAgentState a { s with link.port := .stalled, link.timer := none }
  unfold stalledAndPurged
  rw [← requestNotice_inAgentState, ← purge]
  rfl

theorem stalledAndPurged_frame (s : State) :
    PurgeFrame { s with link.port := .stalled, link.timer := none } (stalledAndPurged s) := by
  have purged : PurgeFrame _ (stallPurge { s with link.port := .stalled, link.timer := none }) :=
    (purgeClass_purgeFrame 0 _).trans <| (purgeClass_purgeFrame 1 _).trans <| (purgeClass_purgeFrame 2 _).trans
      (purgeClass_purgeFrame 3 _)
  refine purged.trans ?_
  obtain ⟨n, c, noted, -⟩ := requestNotice_of_stalled .egressStall none
    (s := stallPurge { s with link.port := .stalled, link.timer := none }) (by rw [purged.link])
  unfold stalledAndPurged
  rw [noted]
  exact ⟨rfl, rfl, rfl, rfl, rfl, rfl, rfl⟩

/-- While a reply waits, an expiry reports to the agent. -/
theorem expire_of_reply {s : State} (waits : s.egress.replies ≠ []) : expire s = resetEffect (stalledAndPurged s) := by
  have some : ¬ (stalledAndPurged s).egress.replies.isEmpty = true := by
    rw [(stalledAndPurged_frame s).replies]; simpa using waits
  exact if_neg some

/-- Settles O51: FULL by the values that it writes, STREAMS by what the agent asks for. -/
theorem pendingResetTakesEffect : Obligations.PendingResetTakesEffect := by
  have completes (u : State) (on : u.resetLow = false) : exec .frameCompletion u = .next (frameDone u) := exec_of_awake rfl on
  refine ⟨fun s r awake flies port stopped last => ⟨fun pending => ?full, fun pending => ?streams⟩,
    fun s r level awake flies more pending => ?earlier, fun s n awake landed waiting timer replies => ?expiry⟩
  case full =>
    rw [completes s awake, frameCompletion_fullReset flies (by rw [port]; decide) last pending]
    have engine := fullReset_engine (landed (.reply r) s)
    exact ⟨_, rfl, fullReset_taken _ rfl rfl rfl rfl rfl rfl rfl, ⟨engine.atOnce, engine.waits⟩, rfl⟩
  case streams =>
    have told : tellAgent (.reply r) (landed (.reply r) s) = askEngage .management 0 (inAgentState (.tearing 0) (landed (.reply r) s)) := by
      have empty : (landed (.reply r) s).egress.replies.isEmpty = true := by
        rw [(landed_waiting _ s).1, last]; rfl
      have state : (landed (.reply r) s).agent.state = .resetPending .streams := by rw [(landed_effect _ s).agent]; exact pending
      rw [tellAgent, resetAtReply, if_pos empty, resetEffect, state]
      rfl
    obtain ⟨-, -, -, -, agent, -⟩ := judgePort_frame (askEngage .management 0 (inAgentState (.tearing 0) (landed (.reply r) s)))
    have tearing := agent.trans (askEngage_request .management 0 (inAgentState (.tearing 0) (landed (.reply r) s))).agent
    rw [completes s awake, frameDone_of_item flies, told,
      serveAgent_of_not_waiting (by rw [tearing]; exact fun no => nomatch no)]
    refine ⟨_, rfl, by rw [tearing]; rfl, by rw [tearing]; rfl, _, rfl, agentAsks 0 _⟩
  case earlier =>
    have told : tellAgent (.reply r) (landed (.reply r) s) = landed (.reply r) s := by
      have some : ¬ (landed (.reply r) s).egress.replies.isEmpty = true := by
        rw [(landed_waiting _ s).1]; simpa using more
      rw [tellAgent, resetAtReply, if_neg some]
    obtain ⟨-, -, -, -, agent, -⟩ := judgePort_frame (landed (.reply r) s)
    have state : (judgePort (landed (.reply r) s)).agent.state = .resetPending level := by rw [agent]; exact pending
    rw [completes s awake, frameDone_of_item flies, told, serveAgent_of_not_waiting (by rw [state]; exact fun no => nomatch no)]
    exact ⟨_, rfl, state⟩
  case expiry =>
    have expires (u : State) (on : u.resetLow = false) (waiting : u.link.port = .waiting) (timer : u.link.timer = some n)
        (replies : u.egress.replies ≠ []) : exec .stallExpiry u = .next (resetEffect (stalledAndPurged u)) := by
      rw [← expire_of_reply replies, ← stallExpiry_of_running waiting timer]
      exact exec_of_awake rfl on
    obtain ⟨rsp, unit, mem, queue, kept, link, state⟩ := stalledAndPurged_frame s
    have idle : resetEffect (stalledAndPurged (inAgentState .idle s)) = inAgentState .idle (stalledAndPurged s) := by
      rw [stalledAndPurged_inAgentState]; rfl
    refine ⟨_, (expires { s with agent.state := .idle } awake waiting timer replies).trans (congrArg Host.Outcome.next idle),
      fun pending => ?_, fun pending => ?_⟩
    · have effect : resetEffect (stalledAndPurged s) = fullReset (stalledAndPurged s) := by
        rw [resetEffect, state.trans pending]
      have engine := fullReset_engine (stalledAndPurged s)
      have taken := fullReset_taken (s := s) (u := stalledAndPurged s) (stalledAndPurged s).link rsp unit mem queue
        (by rw [link]) (by rw [link]; exact landed) (by rw [link])
      have whole : (fullReset (stalledAndPurged s)).link = (stalledAndPurged s).link := (fullReset_nothing_waits _).2.1
      rw [← whole] at taken
      rw [expires s awake waiting timer replies, effect]
      exact ⟨_, rfl, taken, ⟨engine.atOnce, engine.waits⟩, by rw [whole, link]⟩
    · have effect : resetEffect (stalledAndPurged s) = askEngage .management 0 (inAgentState (.tearing 0) (stalledAndPurged s)) := by
        rw [resetEffect, state.trans pending]; rfl
      have request := askEngage_request .management 0 (inAgentState (.tearing 0) (stalledAndPurged s))
      rw [expires s awake waiting timer replies, effect]
      exact ⟨_, rfl, by rw [request.agent]; rfl, by rw [request.link]; exact congrArg Link.port link,
        by rw [request.egress]; exact kept, agentAsks 0 _⟩

end Sys2Proof.Machine
end

section
/-!
SUPPORT. The take of a command (R74, R79, R151, R152, R153, R156).
-/
namespace Sys2Proof.Machine

open Sys2Proof

/-! ### A slot in use while the fetch unit starts a request (R73, R77) -/

section
variable {i : SlotNo} {s : State} (used : s.engine.slots[i].inUse = true)
include used

theorem takeMark_slot_of_free {j : SlotNo} (free : s.engine.slots[j].inUse = false) :
    (takeMark j s).engine.slots[i] = s.engine.slots[i] := by
  refine getElem_set_fin_ne _ _ ?_
  rintro rfl
  rw [used] at free
  cases free

theorem judgeTake_slot (p : Party) : (judgeTake p s).engine.slots[i] = s.engine.slots[i] := by
  unfold judgeTake
  split
  · split
    · next j _ =>
      split
      · rfl
      · next free =>
        have kept := takeMark_slot_of_free used (Bool.not_eq_true _ ▸ free : s.engine.slots[j].inUse = false)
        cases p <;> exact kept
    · rfl
  all_goals rfl

theorem sendHead_slot (c : StreamCell) (j : SlotNo) : (sendHead c j s).engine.slots[i] = s.engine.slots[i] := by
  unfold sendHead
  split
  · rfl
  · next free =>
    split
    · exact takeMark_slot_of_free (s := fifoRemoval { dropWait s with assembler := [⟨c, j, none⟩] }) used
        (Bool.not_eq_true _ ▸ free : s.engine.slots[j].inUse = false)
    · split <;> rfl

variable (occupied : s.engine.slots[i].state ≠ .vacant)
include occupied

theorem beginFetch_slot {j : SlotNo} (found : victim s.engine = some j) (p : Party) (t : StreamId) :
    (beginFetch p t j s).engine.slots[i] = s.engine.slots[i] := by
  refine getElem_set_fin_ne _ _ ?_
  rintro rfl
  obtain vacant | ⟨free, -⟩ := victim_idle found
  · exact occupied vacant
  · rw [used] at free; cases free

theorem dispatchHead_slot : (dispatchHead s).engine.slots[i] = s.engine.slots[i] := by
  unfold dispatchHead
  split
  · split
    · split
      · split <;> rfl
      · split
        · exact sendHead_slot used _ _
        · rfl
    · split
      · split
        · exact sendHead_slot used _ _
        · simp only
          split
          · have begun (c : StreamCell) (v : Option SlotNo) (found : victim (dropWait s).engine = v) :
                (match v with
                  | some j => parkHead c (beginFetch .dispatcher c.stream j (dropWait s))
                  | none => dropWait s).engine.slots[i] = s.engine.slots[i] := by
              cases v with
              | some j => exact beginFetch_slot (s := dropWait s) used occupied found _ _
              | none => rfl
            exact begun _ _ rfl
          · split <;> rfl
      · rfl
  · rfl

theorem startRequest_slot (p : Party) : (startRequest p s).engine.slots[i] = s.engine.slots[i] := by
  unfold startRequest
  split
  · next t _ _ =>
    split
    · have slots : (setReq p (.asked t) s).engine.slots = s.engine.slots := (setReq_engine _ s).2.1
      rw [judgeTake_slot (by rw [slots]; exact used), slots]
    · split
      · next found =>
        rw [(setReq_engine _ _).2.1]
        exact beginFetch_slot used occupied found _ _
      · rfl
  · rfl

/-- A slot in use is left alone when the fetch unit starts the next request. -/
theorem startNext_slot : (startNext s).engine.slots[i] = s.engine.slots[i] := by
  by_cases running : s.engine.mode = .running
  · have first := startRequest_slot used occupied .management
    have second := startRequest_slot (s := startRequest .management s) (by rw [first]; exact used) (by rw [first]; exact occupied) .drain
    rw [startNext_of_running running]
    unfold startDispatcher
    split
    · exact (dispatchHead_slot (s := { startRequest .drain (startRequest .management s) with engine.dispReq := none })
        (by rw [second, first]; exact used) (by rw [second, first]; exact occupied)).trans (second.trans first)
    · exact second.trans first
  · rw [startNext_of_not_running running]

end

/-! ### The agent's own engagement while the fetch unit starts a request (R79) -/

theorem sendHead_mgmt (c : StreamCell) (i : SlotNo) (s : State) : (sendHead c i s).engine.mgmt = s.engine.mgmt := by
  unfold sendHead
  split
  · rfl
  · split
    · rfl
    · split <;> rfl

theorem dispatchHead_mgmt (s : State) : (dispatchHead s).engine.mgmt = s.engine.mgmt := by
  unfold dispatchHead
  split
  · split
    · split
      · split <;> rfl
      · split
        · exact sendHead_mgmt _ _ s
        · rfl
    · split
      · split
        · exact sendHead_mgmt _ _ s
        · simp only
          split
          · split <;> rfl
          · split <;> rfl
      · rfl
  · rfl

theorem startRequest_drain_mgmt (s : State) : (startRequest .drain s).engine.mgmt = s.engine.mgmt := by
  unfold startRequest
  split
  · split
    · unfold judgeTake
      split
      · split
        · split <;> rfl
        · rfl
      all_goals rfl
    · split <;> rfl
  · rfl

/-- An agent that has lodged no request keeps its engagement. -/
theorem startNext_mgmt {s : State} (other : ∀ t, s.engine.mgmt ≠ .lodged t) : (startNext s).engine.mgmt = s.engine.mgmt := by
  by_cases running : s.engine.mode = .running
  · rw [startNext_of_running running, startRequest_of_not_lodged (p := .management) other]
    unfold startDispatcher
    split
    · exact (dispatchHead_mgmt _).trans (startRequest_drain_mgmt s)
    · exact startRequest_drain_mgmt s
  · rw [startNext_of_not_running running]

/-! ### One take (R151–R156) -/

theorem appendReply_kept (r : Reply) (s : State) : KeptByReply s (appendReply r s) := by
  obtain ⟨q, l, writes, link⟩ := judgePort_writes (s := { s with egress.replies := s.egress.replies ++ [r] }) (by simp)
  rw [appendReply, writes]
  exact ⟨rfl, rfl, rfl, rfl, rfl, rfl, ⟨rfl, rfl⟩, rfl, link, rfl, rfl, rfl, rfl, rfl⟩

theorem appendReply_agent (r : Reply) (s : State) : (appendReply r s).agent = s.agent := by
  obtain ⟨-, -, -, -, agent, -⟩ := judgePort_frame { s with egress.replies := s.egress.replies ++ [r] }
  exact agent

theorem appendReply_owed (r : Reply) (s : State) : owedReplies (appendReply r s) = owedReplies s ++ [r] := by
  rw [appendReply, judgePort_owedReplies (by simp)]
  exact (List.append_assoc _ _ _).symm

theorem replayOf_of_replay {record : List Byte} {cache : Option CacheEntry} {e : CacheEntry} (entry : cache = some e)
    (id : recordId record ≠ 0) (sameId : recordId record = e.id) (sameCode : recordCode record = e.code) :
    replayOf record cache = some { e.reply with replayed := true } := by
  subst entry
  exact if_pos ⟨id, sameId, sameCode⟩

theorem replayOf_of_none {record : List Byte} {cache : Option CacheEntry}
    (none : ∀ e, ¬ (cache = some e ∧ recordId record ≠ 0 ∧ recordId record = e.id ∧ recordCode record = e.code)) :
    replayOf record cache = .none := by
  unfold replayOf
  split
  · rfl
  · next e => exact if_neg fun replay => none e ⟨rfl, replay⟩

/-- The agent executes the record that it took from its queue. -/
def recordTaken (record : List Byte) (rest : List (List Byte)) (s : State) : State :=
  { s with agent.cmdq := rest, agent.state := .executing record }

section
variable {record : List Byte} {s : State} (rest : List (List Byte))

theorem takeOne_of_replay {r : Reply} (replay : replayOf record s.agent.cache = some r) :
    takeOne record rest s = appendReply r { s with agent.cmdq := rest } := by
  rw [takeOne]
  simp only [replay]

variable (fresh : replayOf record s.agent.cache = none)
include fresh

theorem takeOne_of_fresh : takeOne record rest s = beginExecution record { s with agent.cmdq := rest } := by
  rw [takeOne]
  simp only [fresh]

theorem takeOne_of_fault {status : Status} (fault : judgeRecord record = some status) :
    takeOne record rest s = finish record status [] .idle { s with agent.cmdq := rest } := by
  rw [takeOne_of_fresh rest fresh, beginExecution, fault]

variable {c : Command} (names : recordCommand record = some c) (length : (recordArgs record).length = c.argLength)
include names length

omit fresh in
theorem judgeRecord_of_legal : judgeRecord record = none := by
  rw [judgeRecord, names]
  exact if_pos length

theorem takeOne_of_plain (plain : c.onStream = false) :
    takeOne record rest s = { s with agent.cmdq := rest, agent.state := .executing record } := by
  rw [takeOne_of_fresh rest fresh, beginExecution, judgeRecord_of_legal names length]
  simp only [names, plain, Bool.false_eq_true, if_false]

theorem takeOne_of_stream (stream : c.onStream = true) : takeOne record rest s =
    askEngage .management (recordStream record) (recordTaken record rest s) := by
  rw [takeOne_of_fresh rest fresh, beginExecution, judgeRecord_of_legal names length]
  simp only [names, stream, if_true]
  rfl

end

/-! ### The takes of one event (R151) -/

theorem takeCommands_of_busy {s : State} (busy : s.agent.state ≠ .idle) (n : Nat) : takeCommands n s = s := by
  cases n with
  | zero => rfl
  | succ n =>
    unfold takeCommands
    split
    · next idle _ => exact absurd idle busy
    · rfl

/-- The first take, and then those that the event leaves room for. -/
theorem takeNext_takes {s : State} {record : List Byte} {rest : List (List Byte)} (idle : s.agent.state = .idle)
    (queue : s.agent.cmdq = record :: rest) (room : replyOccupancy s < 4) :
    takeNext s = takeCommands rest.length (takeOne record rest s) := by
  rw [takeNext, queue, List.length_cons, takeCommands, idle, queue]
  exact if_pos room

/-- From `s` to `t` replies may have joined those owed, and pool and notices are the same. -/
structure RepliesGrow (s t : State) : Prop where
  owed : ∃ more, owedReplies t = owedReplies s ++ more
  pool : t.pool = s.pool
  notices : t.notices = s.notices

theorem RepliesGrow.refl (s : State) : RepliesGrow s s := ⟨⟨[], (List.append_nil _).symm⟩, rfl, rfl⟩

theorem RepliesGrow.trans {s t u : State} (h : RepliesGrow s t) (k : RepliesGrow t u) : RepliesGrow s u := by
  obtain ⟨⟨more, owed⟩, pool, notices⟩ := h
  obtain ⟨⟨more', owed'⟩, pool', notices'⟩ := k
  exact ⟨⟨more ++ more', by rw [owed', owed, List.append_assoc]⟩, pool'.trans pool, notices'.trans notices⟩

theorem KeptByReply.grow {s t : State} (h : KeptByReply s t) {r : Reply} (owed : owedReplies t = owedReplies s ++ [r]) : RepliesGrow s t :=
  ⟨⟨[r], owed⟩, h.pool, h.notices⟩

theorem takeOne_grows (record : List Byte) (rest : List (List Byte)) (s : State) : RepliesGrow s (takeOne record rest s) := by
  have left : RepliesGrow s { s with agent.cmdq := rest } := ⟨⟨[], (List.append_nil _).symm⟩, rfl, rfl⟩
  cases replay : replayOf record s.agent.cache with
  | some r =>
    rw [takeOne_of_replay rest replay]
    exact left.trans ((appendReply_kept r _).grow (appendReply_owed r _))
  | none =>
    rw [takeOne_of_fresh rest replay, beginExecution]
    split
    · next status _ => exact left.trans ((finish_keptByReply ..).grow (finish_owedReplies record status [] .idle _))
    · have executing : RepliesGrow s { s with agent.cmdq := rest, agent.state := .executing record } :=
        ⟨⟨[], (List.append_nil _).symm⟩, rfl, rfl⟩
      simp only
      split
      · split
        · refine executing.trans ?_
          obtain ⟨⟨-, pool, egress, link, -, notices, -, -, -, -⟩, -⟩ :=
            askEngage_request .management (recordStream record) { s with agent.cmdq := rest, agent.state := .executing record }
          exact ⟨⟨[], by rw [owedReplies, owedReplies, link, egress, List.append_nil]⟩, pool, notices⟩
        · exact executing
      · exact executing

theorem takeCommands_grows (n : Nat) (s : State) : RepliesGrow s (takeCommands n s) := by
  induction n generalizing s with
  | zero => exact .refl s
  | succ n ih =>
    unfold takeCommands
    split
    · split
      · exact (takeOne_grows _ _ s).trans (ih _)
      · exact ⟨⟨[], (List.append_nil _).symm⟩, rfl, rfl⟩
    · exact .refl s

/-- A take that ends at once leaves the agent IDLE, and the takes that follow are those of that state. -/
theorem takeNext_ends {s u : State} {record : List Byte} {rest : List (List Byte)} (idle : s.agent.state = .idle)
    (queue : s.agent.cmdq = record :: rest) (room : replyOccupancy s < 4) (ends : takeOne record rest s = u)
    (left : u.agent.cmdq = rest) : takeNext s = takeNext u := by
  rw [takeNext_takes idle queue room, ends, takeNext, left]

/-- Settles O39: the head by its reply from the cache, its fault, or its command; then the agent that does not take. -/
theorem commandTakeReplaysRefusesOrBegins : Obligations.CommandTakeReplaysRefusesOrBegins := by
  intro s awake
  have runs : exec .commandTake s = .next (takeNext s) := exec_commandTake_of_awake awake
  refine ⟨fun record rest idle queue room => ⟨fun e replay => ?replays, fun noReplay => ⟨fun unnamed => ?badCommand,
    fun c names wrong => ?badArgument, fun c names length plain => ?plain, fun c names length stream => ?stream,
    fun c i names length stream running engaged free => ?free,
    fun c i names length stream running engaged unit found => ?fetches⟩⟩, fun idle waits full => ?full, fun rests => ?rests⟩
  case full => rw [runs, takeNext_full s idle waits full]
  case rests =>
    obtain busy | empty := rests
    · rw [runs, takeNext_busy s busy]
    · rw [runs, takeNext_empty s empty]
  case replays =>
    obtain ⟨entry, id, sameId, sameCode⟩ := replay
    have ends := takeOne_of_replay (s := s) rest (replayOf_of_replay entry id sameId sameCode)
    have kept := appendReply_kept { e.reply with replayed := true } { s with agent.cmdq := rest }
    have owed := appendReply_owed { e.reply with replayed := true } { s with agent.cmdq := rest }
    have agent := appendReply_agent { e.reply with replayed := true } { s with agent.cmdq := rest }
    generalize appendReply { e.reply with replayed := true } { s with agent.cmdq := rest } = u at ends kept owed agent
    have follows := takeNext_ends idle queue room ends kept.commands
    have on : u.resetLow = false := kept.pin.trans awake
    obtain ⟨⟨more, grown⟩, pool, notices⟩ := takeCommands_grows u.agent.cmdq.length u
    rw [← takeNext] at grown pool notices
    rw [runs, follows]
    refine ⟨_, more, rfl, ?_, pool.trans kept.pool, notices.trans kept.notices, fun last => ?_, u, owed, by rw [agent], by rw [agent]; exact idle,
      kept, (exec_commandTake_of_awake on).symm⟩
    · rw [grown, owed]
      exact List.append_assoc _ _ _
    · have empty : takeNext u = u := takeNext_empty u (kept.commands.trans last)
      rw [empty] at grown ⊢
      exact ⟨List.self_eq_append_right.mp grown, by rw [agent]; exact idle, by rw [agent], kept.engine⟩
  all_goals
    have fresh : replayOf record s.agent.cache = none := replayOf_of_none noReplay
    have fails (status : Status) (fault : judgeRecord record = some status) : ∃ t more, exec .commandTake s = .next t ∧
        owedReplies t = owedReplies s ++ executedReply record status [] :: more ∧ t.pool = s.pool ∧ t.notices = s.notices ∧
        ∃ u, Answered record status [] s u ∧ u.agent.state = .idle ∧ KeptByReply { s with agent.cmdq := rest } u ∧
          exec .commandTake s = exec .commandTake u := by
      have ends := takeOne_of_fault (s := s) rest fresh fault
      obtain ⟨answered, kept, state⟩ := finish_ends record status [] .idle { s with agent.cmdq := rest }
      generalize finish record status [] .idle { s with agent.cmdq := rest } = u at ends answered kept state
      have on : u.resetLow = false := kept.pin.trans awake
      obtain ⟨⟨more, grown⟩, pool, notices⟩ := takeCommands_grows u.agent.cmdq.length u
      rw [← takeNext] at grown pool notices
      rw [runs, takeNext_ends idle queue room ends kept.commands]
      refine ⟨_, more, rfl, ?_, pool.trans kept.pool, notices.trans kept.notices, u, ⟨answered.reply, answered.cache⟩, state, kept,
        (exec_commandTake_of_awake on).symm⟩
      rw [grown, answered.reply]
      exact List.append_assoc _ _ _
  case badCommand => exact fails .badCommand (by rw [judgeRecord, unnamed])
  case badArgument =>
    refine fails .badArgument ?_
    rw [judgeRecord, names]
    exact if_neg wrong
  case plain =>
    rw [runs, takeNext_takes idle queue room, takeOne_of_plain rest fresh names length plain,
      takeCommands_of_busy (by exact fun no => nomatch no)]
  all_goals
    have asks : takeNext s = askEngage .management (recordStream record) (recordTaken record rest s) := by
      rw [takeNext_takes idle queue room, takeOne_of_stream rest fresh names length stream]
      refine takeCommands_of_busy ?_ _
      rw [(askEngage_request ..).agent]
      exact fun no => nomatch no
    rw [runs, asks]
  case stream => exact ⟨_, rfl, agentAsks _ _⟩
  case free =>
    have took := (agentAsks (recordStream record) (recordTaken record rest s)).free i running engaged free
    have marked : (markTaken i { recordTaken record rest s with engine.mgmt := .holds (recordStream record) i }).engine.slots[i] =
        { s.engine.slots[i] with inUse := true } := getElem_set_fin_self _ _ _
    have occupied : s.engine.slots[i].state ≠ .vacant := by
      intro vacant
      have engages := engagedSlot_engages engaged
      rw [engages_iff, vacant] at engages
      simp at engages
    have request := startNext_request (markTaken i { recordTaken record rest s with engine.mgmt := .holds (recordStream record) i })
    rw [took]
    refine ⟨_, rfl, by rw [request.agent]; rfl, ?_, ?_, by rw [request.pool]; rfl, by rw [request.link]; rfl⟩
    · exact startNext_mgmt fun t no => nomatch no
    · exact (startNext_slot (by rw [marked]) (by rw [marked]; exact occupied)).trans marked
  case fetches =>
    have asked := (agentAsks (recordStream record) (recordTaken record rest s)).idle running engaged unit
    have begun := startRequest_of_victim (p := .management)
      (s := { recordTaken record rest s with engine.mgmt := .lodged (recordStream record) }) unit rfl engaged found
    have mode : { recordTaken record rest s with engine.mgmt := .lodged (recordStream record) }.engine.mode = .running := running
    rw [asked, startNext_of_running mode, begun, startRequest_of_busy (by exact fun no => nomatch no),
      startDispatcher_of_busy (by exact fun no => nomatch no)]
    exact ⟨_, rfl, rfl, rfl, rfl, rfl, rfl⟩

end Sys2Proof.Machine
end

section
/-!
SUPPORT. The drain completion, and the service that turns to the next stream (R17, R73–R75, R85, R87, R172).
-/
namespace Sys2Proof.Machine

open Sys2Proof

/-! ### A fetch unit without requests (R79) -/

theorem noRequestWaits_iff (e : Engine) : noRequestWaits e = true ↔
    (∀ t, e.mgmt ≠ .lodged t) ∧ (∀ t, e.drainReq ≠ .lodged t) ∧ e.dispReq = none := by
  have lodged (r : EngReq) : (match r with
      | .lodged _ => false
      | .idle | .asked _ | .fetching _ | .fetched _ | .holds _ _ => true) = true ↔ ∀ t, r ≠ .lodged t := by
    cases r <;> simp
  rw [noRequestWaits, Bool.and_eq_true, Bool.and_eq_true, Option.isNone_iff_eq_none, and_assoc]
  exact and_congr (lodged e.mgmt) (and_congr_left' (lodged e.drainReq))

theorem startNext_of_no_requests {s : State} (mgmt : ∀ t, s.engine.mgmt ≠ .lodged t) (drain : ∀ t, s.engine.drainReq ≠ .lodged t)
    (dispatcher : s.engine.dispReq = none) : startNext s = s := by
  by_cases running : s.engine.mode = .running
  · rw [startNext_of_running running, startRequest_of_not_lodged (p := .management) mgmt, startRequest_of_not_lodged (p := .drain) drain,
      startDispatcher_of_no_request dispatcher]
  · exact startNext_of_not_running running

/-! ### The service turns to the next stream (R85) -/

theorem serveDrain_of_empty {s : State} (empty : s.engine.drainList = []) : serveDrain s = s := by
  unfold serveDrain
  split
  · next some => rw [empty] at some; cases some
  · rfl

theorem serveDrain_asks {s : State} {d : StreamId} {rest : List StreamId} (idle : s.engine.drainReq = .idle)
    (list : s.engine.drainList = d :: rest) : serveDrain s = askEngage .drain d s := by
  rw [serveDrain, idle, list]

section
variable {v : State} {d : StreamId} {rest : List StreamId} (idle : v.engine.drainReq = .idle) (list : v.engine.drainList = d :: rest)
  (running : v.engine.mode = .running) (mgmt : ∀ t, v.engine.mgmt ≠ .lodged t) (dispatcher : v.engine.dispReq = none)
include idle list running mgmt dispatcher

theorem serveDrain_takes {j : SlotNo} (engaged : engagedSlot v.engine d = some j) (free : v.engine.slots[j].inUse = false) :
    serveDrain v = { v with
      engine.drainReq := .holds d j
      engine.slots := v.engine.slots.set j { v.engine.slots[j] with inUse := true }
      engine.lru := v.engine.lru.erase j ++ [j] } := by
  rw [serveDrain_asks idle list, askEngage_of_free (p := .drain) (by decide) running engaged free]
  exact startNext_of_no_requests (s := markTaken j (setReq .drain (.holds d j) v)) mgmt (fun _ no => nomatch no) dispatcher

theorem serveDrain_waits {j : SlotNo} (engaged : engagedSlot v.engine d = some j) (used : v.engine.slots[j].inUse = true) :
    serveDrain v = { v with engine.drainReq := .asked d } := by
  rw [serveDrain_asks idle list, askEngage_of_inUse (p := .drain) (by decide) running engaged used]
  exact startNext_of_no_requests (s := setReq .drain (.asked d) v) mgmt (fun _ no => nomatch no) dispatcher

variable (apart : engagedSlot v.engine d = none)
include apart

omit dispatcher in
theorem serveDrain_fetches {j : SlotNo} (unit : v.engine.fetch = none) (found : victim v.engine = some j) :
    serveDrain v = { v with
      engine.drainReq := .fetching d
      engine.fetch := some ⟨.drain, d, j⟩
      engine.slots := v.engine.slots.set j (if v.engine.slots[j].state = .dirty then { v.engine.slots[j] with state := .evicting }
        else { v.engine.slots[j] with state := .fetching, stream := some d }) } := by
  have mode : { v with engine.drainReq := .lodged d }.engine.mode = .running := running
  have begun := startRequest_of_victim (p := .drain) (s := { v with engine.drainReq := .lodged d }) unit rfl apart found
  have passes : startRequest .management { v with engine.drainReq := .lodged d } = { v with engine.drainReq := .lodged d } :=
    startRequest_of_not_lodged (p := .management) mgmt
  rw [serveDrain_asks idle list, askEngage_of_absent (p := .drain) (by decide) running apart (by rw [unit]; exact fun _ no => nomatch no)]
  refine (startNext_of_running mode).trans ?_
  rw [passes, begun, startDispatcher_of_busy (by exact fun no => nomatch no)]
  rfl

omit mgmt dispatcher in
theorem serveDrain_beside {f : Fetch} (fetch : v.engine.fetch = some f) :
    serveDrain v = { v with engine.drainReq := if f.stream = d then .asked d else .lodged d } := by
  rw [serveDrain_asks idle list]
  by_cases same : f.stream = d
  · rw [askEngage_of_fetched (p := .drain) (by decide) running apart fetch same, if_pos same]; rfl
  · rw [askEngage_of_busy (p := .drain) (by decide) running apart fetch same, if_neg same]; rfl

end

/-! ### The closing notice (R17, R174) -/

/-- A port that agrees with what waits takes no block and no reply for a notice. -/
theorem requestNotice_of_agrees (k : NoticeKind) (t : Option StreamId) {s : State} (agrees : LinkAgrees s) :
    (requestNotice k t s).pool = s.pool ∧ (requestNotice k t s).egress = s.egress := by
  have judged (q : List Notice) (n : Notice) : s.notices.queue ++ [n] = q →
      (judgePort { s with notices.queue := q }).pool = s.pool ∧ (judgePort { s with notices.queue := q }).egress = s.egress := by
    intro joined
    by_cases nothing : s.link.port = .idle
    · have idle := agrees.idle nothing
      simp only [hasWaiting, Bool.or_eq_false_iff, Bool.not_eq_false'] at idle
      obtain ⟨⟨replies, notices⟩, -⟩ := idle
      have empty : s.egress.replies = [] := List.isEmpty_iff.mp replies
      have alone : q = [n] := by rw [← joined, List.isEmpty_iff.mp notices]; rfl
      obtain ⟨-, eq⟩ | ⟨p, m, eq⟩ := judgePort_cases { s with notices.queue := q }
      · rw [eq, takeForSending]
        simp only [empty, alone]
        unfold takeNotice
        split <;> exact ⟨rfl, rfl⟩
      · rw [eq]; exact ⟨rfl, rfl⟩
    · obtain ⟨p, m, eq⟩ := judgePort_of_nothing_taken (s := { s with notices.queue := q }) fun none notStalled => .inl (by
        cases port : s.link.port with
        | idle => exact absurd port nothing
        | waiting => exact (agrees.waiting port).1
        | stalled => exact agrees.stalled port
        | sending =>
          have flies := agrees.sending.mp port
          rw [show s.link.inflight = .none from none] at flies
          cases flies)
      rw [eq]
      exact ⟨rfl, rfl⟩
  unfold requestNotice
  split
  · split
    · exact ⟨rfl, rfl⟩
    · split
      · exact judged _ _ rfl
      · exact ⟨rfl, rfl⟩
  · exact ⟨rfl, rfl⟩

/-! ### The completion (R17, R75, R172) -/

theorem handToWaiter_drainReq {i : SlotNo} {w : Waiter} (s : State) (other : ∀ u, w ≠ .drain u) :
    (handToWaiter i w s).engine.drainReq = s.engine.drainReq := by
  unfold handToWaiter
  cases w with
  | parkedCell c => simp only; split <;> rfl
  | management u => rfl
  | drain u => exact absurd rfl (other u)
  | head c => simp only; split <;> rfl
  | nobody => rfl

theorem waiterOf_ne_drain {i : SlotNo} {s : State} (idle : s.engine.drainReq = .idle) (u : StreamId) : waiterOf i s ≠ .drain u := by
  unfold waiterOf
  split
  · split
    · exact fun no => nomatch no
    · split
      · exact fun no => nomatch no
      · split
        · next asked => rw [idle] at asked; cases asked
        · split <;> exact fun no => nomatch no
  · exact fun no => nomatch no

theorem drainDue_iff (s : State) (t : StreamId) (x : Ctx) : (drainDue s.pool.drain[t] x && !overtaken s) = true ↔
    x.state = .draining ∧ s.pool.drain[t] = ⟨0, false⟩ ∧ s.engine.mode ≠ .sweepWait .init := by
  obtain ⟨count, pending⟩ := s.pool.drain[t]
  simp only [drainDue, overtaken, Bool.and_eq_true, beq_iff_eq, Bool.not_eq_true', beq_eq_false_iff_ne, DrainEntry.mk.injEq, and_assoc]

/-- The state in which the stream is off the list and the engagement given up. -/
def drainEnded (t : StreamId) (w : State) : State :=
  { w with engine.drainReq := .idle, engine.drainList := w.engine.drainList.erase t }

/-- What a drain completion writes of the record. -/
def drainedCtx (due : Bool) (x : Ctx) : Ctx := if due then { x with state := .closed } else x

/-- What it requests. -/
def drainNotice (due : Bool) (t : StreamId) (s : State) : State := if due then requestNotice .streamClosed (some t) s else s

theorem setCopy_own (i : SlotNo) (s : State) : setCopy i s.engine.slots[i].copy s = s := by
  have same : s.engine.slots.set i s.engine.slots[i] = s.engine.slots := Vector.set_getElem_self _
  exact congrArg (fun v => withEngine { s.engine with slots := v } s) same

theorem drainDone_eq {s : State} {t : StreamId} {i : SlotNo} (holds : s.engine.drainReq = .holds t i) :
    let due := drainDue s.pool.drain[t] s.engine.slots[i].copy && !overtaken s
    drainDone s = serveDrain (release i due (setCopy i (drainedCtx due s.engine.slots[i].copy) (drainEnded t (drainNotice due t s)))) := by
  intro due
  rw [drainDone, holds]
  simp only
  cases closes : due with
  | true =>
    have closes : (drainDue s.pool.drain[t] s.engine.slots[i].copy && !overtaken s) = true := closes
    rw [closes, if_pos rfl]
    have noted := requestNotice_withEngine (setCopy i { s.engine.slots[i].copy with state := .closed } s).engine .streamClosed (some t) s
    have engine := (requestNotice_block .streamClosed (some t) s).engine
    have same : { withEngine (setCopy i { s.engine.slots[i].copy with state := .closed } s).engine (requestNotice .streamClosed (some t) s) with
          engine.drainReq := .idle
          engine.drainList := s.engine.drainList.erase t } =
        setCopy i { s.engine.slots[i].copy with state := .closed } (drainEnded t (requestNotice .streamClosed (some t) s)) := by
      generalize requestNotice .streamClosed (some t) s = n at engine
      obtain ⟨ingress, classifier, e, assembler, pool, egress, link, agent, notices, resetLow, pending⟩ := n
      obtain rfl : e = s.engine := engine
      rfl
    rw [show setCopy i { s.engine.slots[i].copy with state := .closed } s =
      withEngine (setCopy i { s.engine.slots[i].copy with state := .closed } s).engine s from rfl, noted]
    exact congrArg (fun u => serveDrain (release i true u)) same
  | false =>
    have closes : (drainDue s.pool.drain[t] s.engine.slots[i].copy && !overtaken s) = false := closes
    rw [closes]
    exact congrArg (fun u => serveDrain (release i false u)) (setCopy_own i (drainEnded t s)).symm

theorem ModeStays.setCopy {i : SlotNo} {s : State} (h : ModeStays i s) (x : Ctx) : ModeStays i (Machine.setCopy i x s) :=
  h.imp id (And.imp id (Or.imp id fun ⟨j, apart, used⟩ =>
    ⟨j, apart, (congrArg Slot.inUse (getElem_set_fin_ne _ _ apart)).trans used⟩))

/-- Settles O20: the completion, and the service that follows it. -/
theorem drainCompletionClosesDrainedStream : Obligations.DrainCompletionClosesDrainedStream := by
  refine ⟨fun s t i awake holds stays => ?completes, fun v idle => ⟨serveDrain_of_empty, fun d rest list notRunning => ?outside,
    fun d rest list running none => ?serves⟩⟩
  case outside => rw [serveDrain_asks idle list, askEngage_of_not_running notRunning]; rfl
  case serves =>
    obtain ⟨mgmt, -, dispatcher⟩ := (noRequestWaits_iff _).mp none
    exact ⟨fun j engaged free => serveDrain_takes idle list running mgmt dispatcher engaged free,
      fun j engaged used => serveDrain_waits idle list running mgmt dispatcher engaged used,
      fun j apart unit found => serveDrain_fetches idle list running mgmt apart unit found,
      fun f apart fetch => serveDrain_beside idle list running apart fetch⟩
  case completes =>
    have runs : exec .drainCompletion s = .next (drainDone s) := exec_of_awake rfl awake
    have ends := drainDone_eq holds
    have closes := drainDue_iff s t s.engine.slots[i].copy
    generalize (drainDue s.pool.drain[t] s.engine.slots[i].copy && !overtaken s) = due at ends closes
    simp only at ends
    -- what the notice leaves alone
    have noted : BlockEffect s (drainNotice due t s) ∧ (drainNotice due t s).pool.low = s.pool.low ∧
        (drainNotice due t s).ingress = s.ingress ∧
        (LinkAgrees s → (drainNotice due t s).pool = s.pool ∧ (drainNotice due t s).egress = s.egress) := by
      cases due with
      | true =>
        obtain ⟨ingress, -, -, -, -, -, -, -, -, -, -, -, -, -, low, -⟩ := requestNotice_frame .streamClosed (some t) s
        exact ⟨requestNotice_block _ _ s, low, ingress, requestNotice_of_agrees _ _⟩
      | false => exact ⟨.refl s, rfl, rfl, fun _ => ⟨rfl, rfl⟩⟩
    obtain ⟨block, low, ingress, agrees⟩ := noted
    have own : (drainNotice due t s) = if s.engine.slots[i].copy.state = .draining ∧ s.pool.drain[t] = ⟨0, false⟩ ∧
        s.engine.mode ≠ .sweepWait .init then requestNotice .streamClosed (some t) s else s := by
      cases due with
      | true => rw [if_pos (closes.mp rfl)]; rfl
      | false => rw [if_neg fun drained => Bool.noConfusion (closes.mpr drained)]; rfl
    rw [runs, ends]
    generalize drainNotice due t s = n at own block low ingress agrees
    obtain ⟨cells, classifier, e, assembler, pool, egress, link, agent, notices, resetLow, pending⟩ := n
    obtain rfl : cells = s.ingress := ingress
    obtain rfl : e = s.engine := block.engine
    obtain rfl : assembler = s.assembler := block.assembler
    have still : ModeStays i (drainEnded t ⟨s.ingress, classifier, s.engine, s.assembler, pool, egress, link, agent, notices, resetLow,
      pending⟩) := stays
    obtain ⟨kept, copy, sameAgent, sameEgress, sameLink⟩ := release_setCopy (drainedCtx due s.engine.slots[i].copy) due still
    generalize written : setCopy i (drainedCtx due s.engine.slots[i].copy) (drainEnded t ⟨s.ingress, classifier, s.engine, s.assembler,
      pool, egress, link, agent, notices, resetLow, pending⟩) = u at kept copy sameAgent sameEgress sameLink
    have ownSlot : u.engine.slots[i] = { s.engine.slots[i] with copy := drainedCtx due s.engine.slots[i].copy } := by
      rw [← written]; exact getElem_set_fin_self _ _ _
    have stillWritten : ModeStays i u := by
      rw [← written]
      exact still.setCopy _
    have rests : (release i due u).engine.drainReq = .idle := by
      rw [release_of_modeStays stillWritten, handToWaiter_drainReq _ fun w => waiterOf_ne_drain (by rw [← written]; rfl) w, ← written]
      rfl
    have state := release_state stillWritten due
    have handed : MarkHandedOn i { s with engine.drainReq := .idle } (release i due u) := by
      have slot := givenUp_slot i due u
      refine release_handedOn stillWritten due ?_
      rw [ownSlot] at slot
      subst written
      exact ⟨rfl, by rw [slot], by rw [slot], rfl, rfl, rfl, rfl, rfl, rfl, rfl, rfl, block.resetLow, low, block.limits⟩
    rw [ownSlot] at state
    refine ⟨_, rfl, rests, kept.drainList, kept.store, kept.classifier.trans block.classifier, fun ok => ?_, ?_, ?_, kept.slotStream,
      kept.slots, handed, ?_, fun drained => ?_, fun kept => ?_⟩
    · exact ⟨kept.pool.trans (agrees ok).1, sameEgress.trans (agrees ok).2⟩
    · rw [sameAgent]; exact block.agentState
    · rw [sameAgent]; exact block.cmdq
    · intro w
      have same : w = _ := own.symm
      rw [same]
      exact ⟨kept.notices, sameLink, sameAgent, kept.pool, sameEgress⟩
    · rw [copy, state, closes.mpr drained]
      exact ⟨rfl, rfl⟩
    · have open_ : due = false := Bool.eq_false_iff.mpr fun due => kept (closes.mp due)
      rw [copy, state, open_]
      exact ⟨rfl, rfl⟩

end Sys2Proof.Machine
end

section
/-!
SUPPORT. The dispatcher (R73, R75, R81, R82, Table 4-4).
-/
namespace Sys2Proof.Machine

open Sys2Proof

/-! ### The branches of Table 4-4 -/

section
variable {s : State} {c : StreamCell} {rest : List StreamCell} (running : s.engine.mode = .running) (fifo : s.ingress.fifo = c :: rest)
include running fifo

/-- A head of the stream that the dispatcher is fetching. -/
theorem dispatchHead_of_own (own : dispatcherFetch s.engine = some c.stream) : dispatchHead s =
    if s.engine.parked.length < 8 then parkHead c (dropWait s) else dropWait s := by
  simp only [dispatchHead, running, fifo, own, if_true] <;> rfl

/-- A head that no parked cell precedes and whose stream is engaged. -/
theorem dispatchHead_of_engaged {i : SlotNo} (other : dispatcherFetch s.engine ≠ some c.stream)
    (first : dispatcherFetch s.engine = none → s.engine.parked = []) (engaged : engagedSlot s.engine c.stream = some i) :
    dispatchHead s = sendHead c i s := by
  cases fetches : dispatcherFetch s.engine with
  | some u =>
    have apart : ¬ c.stream = u := fun same => other (by rw [fetches, same])
    simp only [dispatchHead, running, fifo, fetches, if_neg apart, engaged]
  | none =>
    simp only [dispatchHead, running, fifo, fetches, first fetches, List.isEmpty_nil, if_true, engaged]

/-- A head of a stream that is not engaged, while the dispatcher fetches another. -/
theorem dispatchHead_of_other {u : StreamId} (fetches : dispatcherFetch s.engine = some u) (other : c.stream ≠ u)
    (apart : engagedSlot s.engine c.stream = none) : dispatchHead s = dropWait s := by
  simp only [dispatchHead, running, fifo, fetches, if_neg other, apart]

theorem dispatchHead_of_parked (fetches : dispatcherFetch s.engine = none) (parked : s.engine.parked ≠ []) : dispatchHead s = s := by
  have some : s.engine.parked.isEmpty = false := by simpa using parked
  simp only [dispatchHead, running, fifo, fetches, some, Bool.false_eq_true, if_false]

/-- A head of a stream that is not engaged, with no dispatcher's fetch and no parked cell. -/
theorem dispatchHead_of_absent (fetches : dispatcherFetch s.engine = none) (parked : s.engine.parked = [])
    (apart : engagedSlot s.engine c.stream = none) : dispatchHead s =
      if (dropWait s).engine.fetch.isNone && noRequestWaits (dropWait s).engine then
        match victim (dropWait s).engine with
        | some i => parkHead c (beginFetch .dispatcher c.stream i (dropWait s))
        | none => dropWait s
      else if (dropWait s).engine.dispReq.isNone then { dropWait s with engine.dispReq := some c.stream }
      else dropWait s := by
  simp only [dispatchHead, running, fifo, fetches, parked, List.isEmpty_nil, if_true, apart] <;> rfl

end

theorem dispatchHead_of_idle {s : State} (idle : s.engine.mode ≠ .running ∨ s.ingress.fifo = []) : dispatchHead s = s := by
  unfold dispatchHead
  split
  · next running fifo =>
    obtain other | empty := idle
    · exact absurd running other
    · rw [empty] at fifo; cases fifo
  · rfl

section
variable {s : State} {c : StreamCell} {i : SlotNo}

theorem sendHead_of_used (used : s.engine.slots[i].inUse = true) : sendHead c i s = { s with engine.dispWait := some i } := by
  rw [sendHead, if_pos used]

variable (free : s.engine.slots[i].inUse = false)
include free

theorem sendHead_of_free (empty : s.assembler = []) : sendHead c i s = takeHead c i s := by
  rw [sendHead, if_neg (by rw [free]; decide), if_pos (by rw [empty]; rfl)]

theorem sendHead_of_busy (busy : s.assembler ≠ []) : sendHead c i s = if s.engine.dispWait = some i then s else dropWait s := by
  rw [sendHead, if_neg (by rw [free]; decide), if_neg (by simpa using busy)]

end

/-- Settles O16: each row by its branch of the table. -/
theorem dispatchSendsFetchesOrParksHead : Obligations.DispatchSendsFetchesOrParksHead := by
  have runs (s : State) (awake : s.resetLow = false) : exec .dispatch s = .next (dispatchHead s) := exec_of_awake rfl awake
  refine ⟨fun s c rest awake running fifo => ?_, fun s awake idle => by rw [runs s awake, dispatchHead_of_idle idle]⟩
  have removed : s.ingress.fifo.tail = rest := by rw [fifo]; rfl
  intro passes stays
  have drops (same : dispatchHead s = dropWait s) : stays := (runs s awake).trans (congrArg _ same)
  rw [runs s awake]
  refine ⟨fun i other first empty engaged free => ?sends, fun i idle none parked apart found => ?fetches, fun own room => ?parks,
    fun i ⟨other, first⟩ engaged used => ?used, fun i ⟨other, first⟩ engaged free busy => ⟨fun waits => ?stays, fun waits => ?drops⟩,
    fun fetches parked apart busy => ⟨fun unasked => ?lodges, fun asked => ?lodged⟩, fun own full => ?full,
    fun u fetches other apart => drops (dispatchHead_of_other running fifo fetches other apart),
    fun fetches parked => by rw [dispatchHead_of_parked running fifo fetches parked]⟩
  case sends =>
    rw [dispatchHead_of_engaged running fifo other first engaged, sendHead_of_free free empty]
    exact ⟨_, rfl, removed, rfl, rfl, getElem_set_fin_self _ _ _, rfl, rfl, rfl, rfl, rfl, rfl, rfl⟩
  case fetches =>
    have unfetched : dispatcherFetch s.engine = .none := by rw [dispatcherFetch, idle]
    have starts : ((dropWait s).engine.fetch.isNone && noRequestWaits (dropWait s).engine) = true := by
      rw [show (dropWait s).engine.fetch = .none from idle, show noRequestWaits (dropWait s).engine = true from none]
      rfl
    rw [dispatchHead_of_absent running fifo unfetched parked apart, if_pos starts, show victim (dropWait s).engine = some i from found]
    exact ⟨_, rfl, removed, congrArg (· ++ [c]) parked, rfl, rfl, getElem_set_fin_self _ _ _, rfl, rfl, rfl, rfl, rfl⟩
  case parks =>
    rw [dispatchHead_of_own running fifo own, if_pos room]
    exact ⟨_, rfl, removed, rfl, rfl, rfl, rfl, rfl, rfl, rfl, rfl, rfl⟩
  case used => rw [dispatchHead_of_engaged running fifo other first engaged, sendHead_of_used used]
  case stays => rw [dispatchHead_of_engaged running fifo other first engaged, sendHead_of_busy free busy, if_pos waits]
  case drops => exact drops (by rw [dispatchHead_of_engaged running fifo other first engaged, sendHead_of_busy free busy, if_neg waits])
  case full => exact drops (by rw [dispatchHead_of_own running fifo own, if_neg (Nat.not_lt.mpr full)])
  all_goals
    have waits : ¬ ((dropWait s).engine.fetch.isNone && noRequestWaits (dropWait s).engine) = true := by
      rw [Bool.and_eq_true, Option.isNone_iff_eq_none]
      rintro ⟨idle, none⟩
      obtain some | requests := busy
      · exact some idle
      · exact Bool.noConfusion (requests.symm.trans none)
  case lodges =>
    rw [dispatchHead_of_absent running fifo fetches parked apart, if_neg waits,
      if_pos (by rw [show (dropWait s).engine.dispReq = none from unasked]; rfl)]
    rfl
  case lodged =>
    refine drops ?_
    rw [dispatchHead_of_absent running fifo fetches parked apart, if_neg waits, if_neg]
    rw [Option.isNone_iff_eq_none]
    exact asked

end Sys2Proof.Machine
end

section
/-!
SUPPORT. The fetch unit: a write-back, a read that completes, and the next request (R74, R76, R79–R83, R87, R89).
-/
namespace Sys2Proof.Machine

open Sys2Proof

/-! ### The marks of an engine (R73) -/

theorem anyInUse_eq_false_iff {e : Engine} : anyInUse e = false ↔ ∀ i : SlotNo, e.slots[i].inUse = false := by
  refine ⟨fun free i => not_inUse_of_anyInUse free i, fun free => ?_⟩
  rw [anyInUse, List.any_eq_false]
  intro x mem
  obtain ⟨n, lt, rfl⟩ := List.mem_iff_getElem.mp mem
  have at' := free ⟨n, by simpa using lt⟩
  simpa using at'

/-- The marks alone decide. -/
theorem anyInUse_congr {e f : Engine} (same : ∀ i : SlotNo, f.slots[i].inUse = e.slots[i].inUse) : anyInUse f = anyInUse e := by
  cases free : anyInUse e with
  | false => exact anyInUse_eq_false_iff.mpr fun i => (same i).trans (not_inUse_of_anyInUse free i)
  | true =>
    refine Classical.byContradiction fun other => ?_
    have none := anyInUse_eq_false_iff.mp (Bool.not_eq_true _ ▸ other : anyInUse f = false)
    have : anyInUse e = false := anyInUse_eq_false_iff.mpr fun i => (same i).symm.trans (none i)
    rw [free] at this
    cases this

/-! ### The read (R76, R83, R87) -/

/-- The state in which the read has made the slot CLEAN and left the unit IDLE. -/
def readCompleted (f : Fetch) (s : State) : State :=
  setSlot f.slot { s.engine.slots[f.slot] with state := .clean, copy := s.engine.store[f.stream] }
    { s with engine.fetch := none, engine.readWaits := false }

theorem completeRead_eq (f : Fetch) (s : State) :
    completeRead f s = leaveSweepWait (startNext (handRequester f (readCompleted f s))) := rfl

theorem leaveSweepWait_of_running {s : State} (running : s.engine.mode = .running) : leaveSweepWait s = s := by
  rw [leaveSweepWait, running]

/-- In RUNNING the requester takes the mark, and the unit starts the next request. -/
theorem fetchDone_of_running {s : State} {f : Fetch} (fetch : s.engine.fetch = some f)
    (reading : s.engine.slots[f.slot].state = .fetching) (running : s.engine.mode = .running)
    (ready : f.party = .dispatcher → s.assembler = []) : fetchDone s = startNext (handRequester f (readCompleted f s)) := by
  have goesOn : readMustWait f s = false := by
    rw [readMustWait]
    by_cases own : f.party = .dispatcher
    · rw [ready own]; simp
    · simp [own]
  have mode : (startNext (handRequester f (readCompleted f s))).engine.mode = .running :=
    (startNext_request _).mode.trans ((handRequester_request f _).mode.trans running)
  rw [fetchDone_of_reading fetch reading, goesOn, completeRead_eq, leaveSweepWait_of_running mode]
  rfl

section
variable {s : State} {f : Fetch} (running : s.engine.mode = .running)
include running

theorem handRequester_management (party : f.party = .management) : handRequester f (readCompleted f s) =
    { markTaken f.slot (readCompleted f s) with engine.mgmt := .holds f.stream f.slot } := by
  have mode : (readCompleted f s).engine.mode = .running := running
  rw [handRequester, mode, party]
  rfl

theorem handRequester_drain (party : f.party = .drain) : handRequester f (readCompleted f s) =
    { markTaken f.slot (readCompleted f s) with engine.drainReq := .holds f.stream f.slot } := by
  have mode : (readCompleted f s).engine.mode = .running := running
  rw [handRequester, mode, party]
  rfl

theorem handRequester_dispatcher (party : f.party = .dispatcher) {c : StreamCell} {rest : List StreamCell}
    (parked : s.engine.parked = c :: rest) (empty : s.assembler = []) : handRequester f (readCompleted f s) =
      { markTaken f.slot (readCompleted f s) with engine.parked := rest, assembler := [⟨c, f.slot, none⟩] } := by
  have mode : (readCompleted f s).engine.mode = .running := running
  have cells : (readCompleted f s).engine.parked = c :: rest := parked
  have free : (readCompleted f s).assembler.isEmpty = true := by rw [show (readCompleted f s).assembler = [] from empty]; rfl
  rw [handRequester, mode, party]
  simp only
  rw [handToParked, cells]
  simp only
  rw [if_pos free]
  rfl

/-- Whoever it is, the requester finds the slot CLEAN with the store copy, and holds its mark. -/
theorem handRequester_slot (stream : s.engine.slots[f.slot].stream = some f.stream)
    (ready : f.party = .dispatcher → s.engine.parked ≠ [] ∧ s.assembler = []) :
    (handRequester f (readCompleted f s)).engine.slots[f.slot] = ⟨.clean, some f.stream, s.engine.store[f.stream], true⟩ := by
  have read : (readCompleted f s).engine.slots[f.slot] =
      { s.engine.slots[f.slot] with state := .clean, copy := s.engine.store[f.stream] } := getElem_set_fin_self _ _ _
  have marked : (markTaken f.slot (readCompleted f s)).engine.slots[f.slot] = ⟨.clean, some f.stream, s.engine.store[f.stream], true⟩ := by
    rw [markTaken]
    refine (getElem_set_fin_self _ _ _).trans ?_
    rw [read, ← stream]
  cases party : f.party with
  | management => rw [handRequester_management running party]; exact marked
  | drain => rw [handRequester_drain running party]; exact marked
  | dispatcher =>
    obtain ⟨some, empty⟩ := ready party
    obtain ⟨c, rest, parked⟩ := List.exists_cons_of_ne_nil some
    rw [handRequester_dispatcher running party parked empty]
    exact marked

end

/-- The agent and the drain service lodge nothing in the event that hands a slot over. -/
theorem handRequester_requests (f : Fetch) {s : State} (running : s.engine.mode = .running)
    (ready : f.party = .dispatcher → s.engine.parked ≠ [] ∧ s.assembler = []) :
    ((∀ r, s.engine.mgmt ≠ .lodged r) → ∀ r, (handRequester f (readCompleted f s)).engine.mgmt ≠ .lodged r) ∧
    ((∀ r, s.engine.drainReq ≠ .lodged r) → ∀ r, (handRequester f (readCompleted f s)).engine.drainReq ≠ .lodged r) ∧
    (handRequester f (readCompleted f s)).engine.dispReq = s.engine.dispReq ∧
    (handRequester f (readCompleted f s)).engine.fetch = none := by
  cases party : f.party with
  | management =>
    rw [handRequester_management running party]
    exact ⟨fun _ _ no => (nomatch no), id, rfl, rfl⟩
  | drain =>
    rw [handRequester_drain running party]
    exact ⟨id, fun _ _ no => (nomatch no), rfl, rfl⟩
  | dispatcher =>
    obtain ⟨some, empty⟩ := ready party
    obtain ⟨c, rest, parked⟩ := List.exists_cons_of_ne_nil some
    rw [handRequester_dispatcher running party parked empty]
    exact ⟨id, id, rfl, rfl⟩

/-! ### The next request (R79, R80) -/

/-- The requests of the agent and of the drain service move no cell. -/
theorem startRequest_cells (p : Party) (s : State) : (startRequest p s).assembler = s.assembler ∧
    (startRequest p s).engine.parked = s.engine.parked ∧ (startRequest p s).engine.dispReq = s.engine.dispReq := by
  have take (u : State) : (judgeTake p u).assembler = u.assembler ∧ (judgeTake p u).engine.parked = u.engine.parked ∧
      (judgeTake p u).engine.dispReq = u.engine.dispReq := by
    unfold judgeTake
    split
    · split
      · split
        · exact ⟨rfl, rfl, rfl⟩
        · cases p <;> exact ⟨rfl, rfl, rfl⟩
      · exact ⟨rfl, rfl, rfl⟩
    all_goals exact ⟨rfl, rfl, rfl⟩
  unfold startRequest
  split
  · next t _ _ =>
    split
    · obtain ⟨assembler, parked, dispReq⟩ := take (setReq p (.asked t) s)
      rw [assembler, parked, dispReq]
      cases p <;> exact ⟨rfl, rfl, rfl⟩
    · split
      · cases p <;> exact ⟨rfl, rfl, rfl⟩
      · exact ⟨rfl, rfl, rfl⟩
  · exact ⟨rfl, rfl, rfl⟩

theorem startNext_cells {s : State} (none : s.engine.dispReq = none) :
    (startNext s).assembler = s.assembler ∧ (startNext s).engine.parked = s.engine.parked := by
  by_cases running : s.engine.mode = .running
  · obtain ⟨assembler, parked, dispReq⟩ := startRequest_cells .management s
    obtain ⟨assembler', parked', dispReq'⟩ := startRequest_cells .drain (startRequest .management s)
    rw [startNext_of_running running, startDispatcher_of_no_request (dispReq'.trans (dispReq.trans none))]
    exact ⟨assembler'.trans assembler, parked'.trans parked⟩
  · rw [startNext_of_not_running running]
    exact ⟨rfl, rfl⟩

theorem startRequest_management_drainReq (s : State) : (startRequest .management s).engine.drainReq = s.engine.drainReq := by
  unfold startRequest
  split
  · split
    · unfold judgeTake
      split
      · split
        · split <;> rfl
        · rfl
      all_goals rfl
    · split <;> rfl
  · rfl

/-- With no request of the dispatcher a drain service that has lodged none keeps its engagement. -/
theorem startNext_drainReq {s : State} (other : ∀ t, s.engine.drainReq ≠ .lodged t) (none : s.engine.dispReq = none) :
    (startNext s).engine.drainReq = s.engine.drainReq := by
  by_cases running : s.engine.mode = .running
  · have kept := startRequest_management_drainReq s
    obtain ⟨-, -, dispReq⟩ := startRequest_cells .management s
    rw [startNext_of_running running, startRequest_of_not_lodged (p := .drain) (fun t => by rw [reqOf, kept]; exact other t),
      startDispatcher_of_no_request (dispReq.trans none), kept]
  · rw [startNext_of_not_running running]

section
variable {v : State} (running : v.engine.mode = .running) (unit : v.engine.fetch = none)
include running unit

section
variable {t : StreamId} {i : SlotNo} (lodged : v.engine.mgmt = .lodged t)
include lodged

theorem startNext_agent_fetches (apart : engagedSlot v.engine t = none) (found : victim v.engine = some i) : startNext v = { v with
    engine.mgmt := .fetching t
    engine.fetch := some ⟨.management, t, i⟩
    engine.slots := v.engine.slots.set i (fetchInto i t v) } := by
  rw [startNext_of_running running, startRequest_of_victim (p := .management) unit lodged apart found,
    startRequest_of_busy (by exact fun no => nomatch no), startDispatcher_of_busy (by exact fun no => nomatch no)]
  rfl

theorem startNext_agent_takes (engaged : engagedSlot v.engine t = some i) (free : v.engine.slots[i].inUse = false) :
    startNext v = startNext (markTaken i { v with engine.mgmt := .holds t i }) := by
  have taken : startRequest .management v = markTaken i { v with engine.mgmt := .holds t i } := by
    rw [startRequest_of_engaged (p := .management) unit lodged engaged]
    exact judgeTake_of_free (p := .management) (s := setReq .management (.asked t) v) rfl engaged free
  have still : (markTaken i { v with engine.mgmt := .holds t i }).engine.mode = .running := running
  rw [startNext_of_running running, startNext_of_running still, taken,
    startRequest_of_not_lodged (p := .management) (s := markTaken i { v with engine.mgmt := .holds t i }) fun u no => nomatch no]

theorem startNext_agent_waits (engaged : engagedSlot v.engine t = some i) (used : v.engine.slots[i].inUse = true) :
    startNext v = startNext { v with engine.mgmt := .asked t } := by
  have waits : startRequest .management v = { v with engine.mgmt := .asked t } := by
    rw [startRequest_of_engaged (p := .management) unit lodged engaged]
    exact judgeTake_of_inUse (p := .management) (s := setReq .management (.asked t) v) rfl engaged used
  have still : { v with engine.mgmt := .asked t }.engine.mode = .running := running
  rw [startNext_of_running running, startNext_of_running still, waits,
    startRequest_of_not_lodged (p := .management) (s := { v with engine.mgmt := .asked t }) fun u no => nomatch no]

end

variable (agent : ∀ u, v.engine.mgmt ≠ .lodged u)
include agent

section
variable {t : StreamId} {i : SlotNo} (lodged : v.engine.drainReq = .lodged t)
include lodged

theorem startNext_drain_fetches (apart : engagedSlot v.engine t = none) (found : victim v.engine = some i) : startNext v = { v with
    engine.drainReq := .fetching t
    engine.fetch := some ⟨.drain, t, i⟩
    engine.slots := v.engine.slots.set i (fetchInto i t v) } := by
  rw [startNext_of_running running, startRequest_of_not_lodged (p := .management) agent,
    startRequest_of_victim (p := .drain) unit lodged apart found, startDispatcher_of_busy (by exact fun no => nomatch no)]
  rfl

theorem startNext_drain_takes (engaged : engagedSlot v.engine t = some i) (free : v.engine.slots[i].inUse = false) :
    startNext v = startNext (markTaken i { v with engine.drainReq := .holds t i }) := by
  have taken : startRequest .drain v = markTaken i { v with engine.drainReq := .holds t i } := by
    rw [startRequest_of_engaged (p := .drain) unit lodged engaged]
    exact judgeTake_of_free (p := .drain) (s := setReq .drain (.asked t) v) rfl engaged free
  have still : (markTaken i { v with engine.drainReq := .holds t i }).engine.mode = .running := running
  rw [startNext_of_running running, startNext_of_running still, startRequest_of_not_lodged (p := .management) agent, taken,
    startRequest_of_not_lodged (p := .management) (s := markTaken i { v with engine.drainReq := .holds t i }) agent,
    startRequest_of_not_lodged (p := .drain) (s := markTaken i { v with engine.drainReq := .holds t i }) fun u no => nomatch no]

theorem startNext_drain_waits (engaged : engagedSlot v.engine t = some i) (used : v.engine.slots[i].inUse = true) :
    startNext v = startNext { v with engine.drainReq := .asked t } := by
  have waits : startRequest .drain v = { v with engine.drainReq := .asked t } := by
    rw [startRequest_of_engaged (p := .drain) unit lodged engaged]
    exact judgeTake_of_inUse (p := .drain) (s := setReq .drain (.asked t) v) rfl engaged used
  have still : { v with engine.drainReq := .asked t }.engine.mode = .running := running
  rw [startNext_of_running running, startNext_of_running still, startRequest_of_not_lodged (p := .management) agent, waits,
    startRequest_of_not_lodged (p := .management) (s := { v with engine.drainReq := .asked t }) agent,
    startRequest_of_not_lodged (p := .drain) (s := { v with engine.drainReq := .asked t }) fun u no => nomatch no]

end

/-- With no request of the agent or of the drain service the dispatcher's turn comes. -/
theorem startNext_dispatches (drain : ∀ u, v.engine.drainReq ≠ .lodged u) {u : StreamId} (asked : v.engine.dispReq = some u) :
    startNext v = dispatchHead { v with engine.dispReq := none } := by
  rw [startNext_of_running running, startRequest_of_not_lodged (p := .management) agent, startRequest_of_not_lodged (p := .drain) drain,
    startDispatcher, unit, asked]

end

end Sys2Proof.Machine
end

section
/-!
SUPPORT. A write-back and a read as events of their own (R74, R76, R79–R83, R87, R89).
-/
namespace Sys2Proof.Machine

open Sys2Proof

theorem writeBackDone_of_evicting {s : State} {f : Fetch} {old : StreamId} (fetch : s.engine.fetch = some f)
    (evicting : s.engine.slots[f.slot].state = .evicting) (stream : s.engine.slots[f.slot].stream = some old) :
    writeBackDone s = { s with
      engine.store := s.engine.store.set old s.engine.slots[f.slot].copy
      engine.slots := s.engine.slots.set f.slot { s.engine.slots[f.slot] with state := .fetching, stream := some f.stream } } := by
  rw [writeBackDone, fetch]
  simp only
  rw [evicting, stream]
  rfl

theorem fetchDone_of_waiting {s : State} {f : Fetch} (fetch : s.engine.fetch = some f)
    (reading : s.engine.slots[f.slot].state = .fetching) (running : s.engine.mode = .running) (party : f.party = .dispatcher)
    (busy : s.assembler ≠ []) : fetchDone s = { s with engine.readWaits := true } := by
  have waits : readMustWait f s = true := by
    have some : s.assembler.isEmpty = false := by simpa using busy
    rw [readMustWait, running, party, some]
    rfl
  rw [fetchDone_of_reading fetch reading, waits]
  rfl

/-- In SWEEP_WAIT the requester keeps waiting. -/
theorem fetchDone_of_sweepWait {s : State} {f : Fetch} {k : SweepKind} (fetch : s.engine.fetch = some f)
    (reading : s.engine.slots[f.slot].state = .fetching) (mode : s.engine.mode = .sweepWait k) :
    fetchDone s = leaveSweepWait (setReq f.party (.fetched f.stream) (readCompleted f s)) := by
  have goesOn : readMustWait f s = false := by rw [readMustWait, mode]; rfl
  have still : (readCompleted f s).engine.mode = .sweepWait k := mode
  have waits : handRequester f (readCompleted f s) = setReq f.party (.fetched f.stream) (readCompleted f s) := by
    rw [handRequester, still]
  have there : (setReq f.party (.fetched f.stream) (readCompleted f s)).engine.mode ≠ .running := by
    rw [(setReq_engine _ _).1, still]
    exact fun no => nomatch no
  rw [fetchDone_of_reading fetch reading, goesOn, completeRead_eq, waits, startNext_of_not_running there]
  rfl

/-- Settles O17: the write-back, the read in RUNNING, the read that waits, the next request, and the read in SWEEP_WAIT. -/
theorem fetchWritesBackReadsAndHandsOver : Obligations.FetchWritesBackReadsAndHandsOver := by
  have reads (s : State) (awake : s.resetLow = false) : exec .fetchCompletion s = .next (fetchDone s) := exec_of_awake rfl awake
  have dispatches (s : State) (awake : s.resetLow = false) : exec .dispatch s = .next (dispatchHead s) := exec_of_awake rfl awake
  refine ⟨fun s f old awake fetch evicting stream => ?writeBack, fun s f awake fetch reading stream running ready => ?read,
    fun s f awake fetch reading running party busy => ?waits, fun v awake => ⟨fun still => ?none, fun running unit => ?next⟩,
    fun s f k awake fetch reading mode free => ?sweep⟩
  case writeBack =>
    have runs : exec .writeBackCompletion s = .next (writeBackDone s) := exec_of_awake rfl awake
    rw [runs, writeBackDone_of_evicting fetch evicting stream]
  case waits => rw [reads s awake, fetchDone_of_waiting fetch reading running party busy]
  case none =>
    obtain sweeps | busy := still
    · exact startNext_of_not_running sweeps
    · exact startNext_of_busy busy
  case next =>
    refine ⟨fun t lodged => ⟨fun i apart found => startNext_agent_fetches running unit lodged apart found,
      fun i engaged free => startNext_agent_takes running unit lodged engaged free,
      fun i engaged used => startNext_agent_waits running unit lodged engaged used⟩,
      fun agent => ⟨fun t lodged => ⟨fun i apart found => startNext_drain_fetches running unit agent lodged apart found,
        fun i engaged free => startNext_drain_takes running unit agent lodged engaged free,
        fun i engaged used => startNext_drain_waits running unit agent lodged engaged used⟩,
        fun drain => ⟨fun u asked => ?_, fun none => startNext_of_no_requests agent drain none⟩⟩⟩
    rw [dispatches { v with engine.dispReq := none } awake, startNext_dispatches running unit agent drain asked]
  case read =>
    have done := fetchDone_of_running fetch reading running fun party => (ready party).2
    have slot := handRequester_slot running stream ready
    have request := handRequester_request f (readCompleted f s)
    obtain ⟨agent, drain, dispReq, unit⟩ := handRequester_requests f running ready
    have mode : (handRequester f (readCompleted f s)).engine.mode = .running := request.mode.trans running
    rw [reads s awake, done]
    refine ⟨fun none => ?first, ⟨_, rfl, fun party => ?_, fun party => ?_, fun c rest party parked => ?_⟩, fun u asked noAgent noDrain => ?turn⟩
    case first =>
      have unasked := dispReq.trans none
      have next := startNext_request (handRequester f (readCompleted f s))
      obtain ⟨assembler, parked⟩ := startNext_cells unasked
      refine ⟨_, rfl, ?_, next.store.trans request.store, next.pool.trans request.pool, next.link.trans request.link,
        next.agent.trans request.agent, fun party => ?_, fun party => ?_, fun c rest party cells => ?_⟩
      · rw [startNext_slot (by rw [slot]) (by rw [slot]; exact fun no => nomatch no)]
        exact slot
      · rw [assembler, parked]
        rw [handRequester_management running party]
        refine ⟨?_, rfl, rfl⟩
        exact startNext_mgmt fun t no => nomatch no
      · rw [assembler, parked]
        rw [handRequester_drain running party] at unasked ⊢
        refine ⟨?_, rfl, rfl⟩
        exact startNext_drainReq (fun t no => nomatch no) unasked
      · rw [assembler, parked, handRequester_dispatcher running party cells (ready party).2]
        exact ⟨rfl, rfl⟩
    case turn =>
      have unasked : handRequester f (readCompleted f { s with engine.dispReq := none }) =
          { handRequester f (readCompleted f s) with engine.dispReq := none } := by
        cases party : f.party with
        | management =>
          rw [handRequester_management running party, handRequester_management (s := { s with engine.dispReq := none }) running party]
          rfl
        | drain =>
          rw [handRequester_drain running party, handRequester_drain (s := { s with engine.dispReq := none }) running party]
          rfl
        | dispatcher =>
          obtain ⟨some, empty⟩ := ready party
          obtain ⟨c, rest, parked⟩ := List.exists_cons_of_ne_nil some
          rw [handRequester_dispatcher running party parked empty,
            handRequester_dispatcher (s := { s with engine.dispReq := none }) running party parked empty]
          rfl
      have alone : fetchDone { s with engine.dispReq := none } = { handRequester f (readCompleted f s) with engine.dispReq := none } := by
        rw [fetchDone_of_running (s := { s with engine.dispReq := none }) fetch reading running fun party => (ready party).2, unasked]
        exact startNext_of_no_requests (s := { handRequester f (readCompleted f s) with engine.dispReq := none })
          (agent noAgent) (drain noDrain) rfl
      refine ⟨_, (reads { s with engine.dispReq := none } awake).trans (congrArg _ alone), ?_⟩
      rw [dispatches _ (by exact request.resetLow.trans awake)]
      exact congrArg _ (startNext_dispatches mode unit (agent noAgent) (drain noDrain) (dispReq.trans asked))
    · exact handRequester_management running party
    · exact handRequester_drain running party
    · exact handRequester_dispatcher running party parked (ready party).2
  case sweep =>
    intro v
    have waits : setReq f.party (.fetched f.stream) (readCompleted f s) = v := by
      obtain ⟨party, stream, slot⟩ := f
      cases party <;> rfl
    have marks : anyInUse v.engine = anyInUse s.engine := by
      refine anyInUse_congr fun i => ?_
      have slot : v.engine.slots[i] = _ := getElem_set_fin s.engine.slots f.slot i _
      rw [slot]
      by_cases same : f.slot = i
      · subst same; rw [if_pos rfl]
      · rw [if_neg same]
    rw [reads s awake, fetchDone_of_sweepWait fetch reading mode, waits]
    refine ⟨fun used => ?_, fun none => ?_⟩
    · rw [leaveSweepWait_stays (.inl (marks.trans used))]
    · exact ⟨_, rfl, leaveSweepWait_begins mode (marks.trans none) rfl⟩

end Sys2Proof.Machine
end

section
/-!
SUPPORT. The bus-reset sweep: one step, and the users that its end serves (R71, R73, R74, R87, R88, R90, R91).
-/
namespace Sys2Proof.Machine

open Sys2Proof

/-! ### The record of one stream (R90) -/

theorem sweepCtx_withEngine (e : Engine) (t : StreamId) (s : State) (x : Ctx) :
    sweepCtx t (withEngine e s) x = (sweepCtx t s x).withEngine e := by
  unfold sweepCtx
  cases x.state with
  | opened | paused => exact breakAndHunt_withEngine e t s _
  | closed | draining | faulted => rfl

theorem sweepCtx_of_swept {t : StreamId} {s : State} {x : Ctx} (swept : x.state = .opened ∨ x.state = .paused) :
    sweepCtx t s x = breakAndHunt t s { x with seqValid := false } := by
  obtain opened | paused := swept
  · rw [sweepCtx, opened]
  · rw [sweepCtx, paused]

theorem sweepCtx_of_kept {t : StreamId} {s : State} {x : Ctx} (kept : x.state = .closed ∨ x.state = .draining ∨ x.state = .faulted) :
    sweepCtx t s x = (s, x) := by
  obtain closed | draining | faulted := kept
  · rw [sweepCtx, closed]
  · rw [sweepCtx, draining]
  · rw [sweepCtx, faulted]

theorem sweepWrites_iff (x : Ctx) : sweepWrites x = true ↔ x.state = .opened ∨ x.state = .paused := by
  rw [sweepWrites]
  cases x.state <;> simp

/-- The engine after a step of the sweep that leaves `x` of the record of stream `t`. -/
def sweptEngine (t : StreamId) (x : Ctx) (e : Engine) : Engine :=
  match engagedSlot e t with
  | some i => { e with
      lru := touch i e.lru
      slots := e.slots.set i { e.slots[i] with
        copy := x
        state := if sweepWrites e.slots[i].copy then .dirty else e.slots[i].state } }
  | none => { e with store := e.store.set t x }

/-- A step of the sweep acts on the current copy; the rest of the state does not see which one it is. -/
theorem sweepStream_eq (t : StreamId) (s : State) : sweepStream t s =
    withEngine (sweptEngine t (sweepCtx t s (currentCopy t s)).2 s.engine) (sweepCtx t s (currentCopy t s)).1 := by
  cases engaged : engagedSlot s.engine t with
  | some i =>
    have current : currentCopy t s = s.engine.slots[i].copy := by rw [currentCopy, engaged]
    have blind := sweepCtx_withEngine { s.engine with lru := touch i s.engine.lru } t s s.engine.slots[i].copy
    rw [current, sweptEngine, engaged, sweepStream, engaged]
    simp only
    rw [show { s with engine.lru := touch i s.engine.lru } = withEngine { s.engine with lru := touch i s.engine.lru } s from rfl, blind]
    rfl
  | none =>
    have current : currentCopy t s = s.engine.store[t] := by rw [currentCopy, engaged]
    have engine := (sweepCtx_block t s s.engine.store[t]).engine
    rw [current, sweptEngine, engaged, sweepStream, engaged]
    simp only
    rw [setStore, engine]
    rfl

/-! ### The copies of the other records -/

theorem engagedSlot_congr {e f : Engine} (t : StreamId) (same : ∀ i : SlotNo, f.slots[i].engages t = e.slots[i].engages t) :
    engagedSlot f t = engagedSlot e t := by
  rw [engagedSlot, engagedSlot]
  congr 1
  funext i
  exact same i

/-- No step of the sweep engages a stream or ends an engagement. -/
theorem sweptEngine_engagedSlot (t u : StreamId) (x : Ctx) (e : Engine) : engagedSlot (sweptEngine t x e) u = engagedSlot e u := by
  refine engagedSlot_congr u fun j => ?_
  unfold sweptEngine
  split
  · next i engaged =>
    have engages := engagedSlot_engages engaged
    have slot := getElem_set_fin e.slots i j { e.slots[i] with
      copy := x
      state := if sweepWrites e.slots[i].copy then .dirty else e.slots[i].state }
    refine (congrArg (Slot.engages u) slot).trans ?_
    by_cases same : i = j
    · subst same
      rw [if_pos rfl]
      rw [engages_iff] at engages
      obtain ⟨stream, state⟩ := engages
      rw [Bool.eq_iff_iff, engages_iff, engages_iff]
      by_cases writes : sweepWrites e.slots[i].copy = true
      · rw [if_pos writes]
        exact ⟨fun both => ⟨both.1, state⟩, fun both => ⟨both.1, .inr rfl⟩⟩
      · rw [if_neg writes]
    · rw [if_neg same]
  · rfl

theorem currentCopy_swept (t : StreamId) (x : Ctx) (s w : State) : currentCopy t (withEngine (sweptEngine t x s.engine) w) = x := by
  have still := sweptEngine_engagedSlot t t x s.engine
  unfold currentCopy
  rw [show (withEngine (sweptEngine t x s.engine) w).engine = sweptEngine t x s.engine from rfl, still]
  cases engaged : engagedSlot s.engine t with
  | some i =>
    simp only [sweptEngine, engaged]
    rw [getElem_set_fin_self]
  | none =>
    simp only [sweptEngine, engaged]
    exact getElem_set_fin_self _ _ _

theorem currentCopy_unswept {t u : StreamId} (apart : u ≠ t) (x : Ctx) (s w : State) :
    currentCopy u (withEngine (sweptEngine t x s.engine) w) = currentCopy u s := by
  have still := sweptEngine_engagedSlot t u x s.engine
  unfold currentCopy
  rw [show (withEngine (sweptEngine t x s.engine) w).engine = sweptEngine t x s.engine from rfl, still]
  cases engaged : engagedSlot s.engine t with
  | some i =>
    simp only [sweptEngine, engaged]
    cases own : engagedSlot s.engine u with
    | some j =>
      simp only
      rw [getElem_set_fin_ne]
      rintro rfl
      have first := (engages_iff.mp (engagedSlot_engages own)).1
      have second := (engages_iff.mp (engagedSlot_engages engaged)).1
      rw [first] at second
      exact apart (Option.some.inj second)
    | none => rfl
  | none =>
    simp only [sweptEngine, engaged]
    cases engagedSlot s.engine u with
    | some j => rfl
    | none => exact getElem_set_fin_ne _ _ apart

/-! ### The waiting users (R74, R91) -/

section
variable {v : State} {t : StreamId} {i : SlotNo}

theorem handFetched_of_not_fetched {p : Party} {s : State} (other : ∀ u, reqOf p s ≠ .fetched u) : handFetched p s = s := by
  unfold handFetched
  split
  · next u fetched => exact absurd fetched (other u)
  all_goals rfl

/-- A party whose fetch completed in SWEEP_WAIT takes its slot. -/
theorem handFetched_takes {p : Party} (own : p ≠ .dispatcher) (fetched : reqOf p v = .fetched t) (engaged : engagedSlot v.engine t = some i)
    (free : v.engine.slots[i].inUse = false) : handFetched p v = markTaken i (setReq p (.holds t i) v) := by
  rw [handFetched, fetched]
  simp only
  rw [judgeTake_of_free (reqOf_setReq own _ v) ((engagedSlot_setReq _ v t).trans engaged) (by rw [(setReq_engine _ v).2.1]; exact free),
    setReq_setReq]
  rfl

theorem judgeTake_takes {p : Party} (asked : reqOf p v = .asked t) (engaged : engagedSlot v.engine t = some i)
    (free : v.engine.slots[i].inUse = false) : judgeTake p v = markTaken i (setReq p (.holds t i) v) := by
  rw [judgeTake_of_free asked engaged free]
  rfl

/-- A party that cannot take waits on. -/
theorem judgeTake_of_not_due {p : Party} {s : State}
    (notDue : ∀ t i, reqOf p s = .asked t → engagedSlot s.engine t = some i → s.engine.slots[i].inUse = true) : judgeTake p s = s := by
  by_cases asks : ∃ t, reqOf p s = .asked t
  · obtain ⟨t, asked⟩ := asks
    cases engaged : engagedSlot s.engine t with
    | some i => exact judgeTake_of_inUse asked engaged (notDue t i asked engaged)
    | none => exact judgeTake_of_not_engaged asked engaged
  · exact judgeTake_of_not_asked fun u asked => asks ⟨u, asked⟩

/-- What the agent's engagement is once it has lodged the request that it must. -/
def agentLodges (e : Engine) : EngReq :=
  match e.mgmt with
  | .asked t => if (engagedSlot e t).isSome || beingFetched e t then .asked t else .lodged t
  | .idle => .idle
  | .lodged t => .lodged t
  | .fetching t => .fetching t
  | .fetched t => .fetched t
  | .holds t i => .holds t i

theorem judgeLodge_management_eq (s : State) : judgeLodge .management s = { s with engine.mgmt := agentLodges s.engine } := by
  cases req : s.engine.mgmt with
  | asked t =>
    rw [judgeLodge, show reqOf .management s = .asked t from req, agentLodges, req]
    simp only
    split
    · rw [← req]
    · rfl
  | idle | lodged _ | fetching _ | fetched _ | holds _ _ =>
    rw [judgeLodge, show reqOf .management s = _ from req, agentLodges, req]
    simp only
    rw [← req]

end

section
variable {v : State} (unit : v.engine.fetch = none)
include unit

theorem beingFetched_of_idle (t : StreamId) : beingFetched v.engine t = false := by rw [beingFetched, unit]

theorem judgeLodge_of_apart {p : Party} {t : StreamId} (asked : reqOf p v = .asked t) (apart : engagedSlot v.engine t = none) :
    judgeLodge p v = setReq p (.lodged t) v :=
  judgeLodge_of_absent asked apart (by rw [unit]; exact fun _ no => nomatch no)

end

/-- A party whose stream is engaged lodges nothing. -/
theorem judgeLodge_of_all_engaged {p : Party} {s : State} (engaged : ∀ t, reqOf p s = .asked t → engagedSlot s.engine t ≠ none) :
    judgeLodge p s = s := by
  by_cases asks : ∃ t, reqOf p s = .asked t
  · obtain ⟨t, asked⟩ := asks
    obtain ⟨i, found⟩ := Option.ne_none_iff_exists'.mp (engaged t asked)
    exact judgeLodge_of_engaged asked found
  · exact judgeLodge_of_not_asked fun u asked => asks ⟨u, asked⟩

/-- A mark that is taken leaves the other marks, and engages nothing. -/
theorem markTaken_slot (i j : SlotNo) (s : State) : (markTaken i s).engine.slots[j] =
    if i = j then { s.engine.slots[i] with inUse := true } else s.engine.slots[j] := getElem_set_fin _ _ _ _

theorem markTaken_engagedSlot (i : SlotNo) (s : State) (t : StreamId) : engagedSlot (markTaken i s).engine t = engagedSlot s.engine t := by
  refine engagedSlot_congr t fun j => ?_
  rw [markTaken_slot]
  by_cases same : i = j
  · subst same; rw [if_pos rfl]; rfl
  · rw [if_neg same]

theorem markTaken_used {i j : SlotNo} {s : State} (used : s.engine.slots[j].inUse = true) :
    (markTaken i s).engine.slots[j].inUse = true := by
  rw [markTaken_slot]
  by_cases same : i = j
  · rw [if_pos same]
  · rw [if_neg same]; exact used

/-- No requester's fetch completed in SWEEP_WAIT. -/
theorem serveWaiting_of_not_fetched {v : State} (agent : ∀ u, v.engine.mgmt ≠ .fetched u) (drain : ∀ u, v.engine.drainReq ≠ .fetched u) :
    serveWaiting v = startNext (judgeLodge .drain (judgeLodge .management (judgeTake .drain (judgeTake .management v)))) := by
  rw [serveWaiting, handFetched_of_not_fetched (p := .management) agent, handFetched_of_not_fetched (p := .drain) drain]

/-- Nor has either party a slot to take. -/
theorem serveWaiting_of_not_due {v : State} (agent : ∀ u, v.engine.mgmt ≠ .fetched u) (drain : ∀ u, v.engine.drainReq ≠ .fetched u)
    (agentWaits : ∀ t i, v.engine.mgmt = .asked t → engagedSlot v.engine t = some i → v.engine.slots[i].inUse = true)
    (drainWaits : ∀ t i, v.engine.drainReq = .asked t → engagedSlot v.engine t = some i → v.engine.slots[i].inUse = true) :
    serveWaiting v = startNext (judgeLodge .drain (judgeLodge .management v)) := by
  rw [serveWaiting_of_not_fetched agent drain, judgeTake_of_not_due (p := .management) agentWaits, judgeTake_of_not_due (p := .drain) drainWaits]

section
variable {v : State} {t : StreamId} {i : SlotNo}

theorem serveWaiting_agent_fetched (fetched : v.engine.mgmt = .fetched t) (engaged : engagedSlot v.engine t = some i)
    (free : v.engine.slots[i].inUse = false) : serveWaiting v = serveWaiting (markTaken i { v with engine.mgmt := .holds t i }) := by
  rw [serveWaiting, serveWaiting, handFetched_takes (p := .management) (by decide) fetched engaged free]
  rw [handFetched_of_not_fetched (p := .management) (s := markTaken i { v with engine.mgmt := .holds t i }) fun u no => nomatch no]
  rfl

theorem serveWaiting_drain_fetched (agent : ∀ u, v.engine.mgmt ≠ .fetched u) (fetched : v.engine.drainReq = .fetched t)
    (engaged : engagedSlot v.engine t = some i) (free : v.engine.slots[i].inUse = false) :
    serveWaiting v = serveWaiting (markTaken i { v with engine.drainReq := .holds t i }) := by
  rw [serveWaiting, serveWaiting, handFetched_of_not_fetched (p := .management) agent,
    handFetched_takes (p := .drain) (by decide) fetched engaged free]
  rw [handFetched_of_not_fetched (p := .management) (s := markTaken i { v with engine.drainReq := .holds t i }) agent,
    handFetched_of_not_fetched (p := .drain) (s := markTaken i { v with engine.drainReq := .holds t i }) fun u no => nomatch no]
  rfl

variable (agent : ∀ u, v.engine.mgmt ≠ .fetched u) (drain : ∀ u, v.engine.drainReq ≠ .fetched u)
include agent drain

theorem serveWaiting_agent_takes (asked : v.engine.mgmt = .asked t) (engaged : engagedSlot v.engine t = some i)
    (free : v.engine.slots[i].inUse = false) : serveWaiting v = serveWaiting (markTaken i { v with engine.mgmt := .holds t i }) := by
  rw [serveWaiting_of_not_fetched agent drain, judgeTake_takes (p := .management) asked engaged free,
    serveWaiting_of_not_fetched (v := markTaken i { v with engine.mgmt := .holds t i }) (fun u no => nomatch no) drain,
    judgeTake_of_not_asked (p := .management) (s := markTaken i { v with engine.mgmt := .holds t i }) fun u no => nomatch no]
  rfl

variable (agentWaits : ∀ t i, v.engine.mgmt = .asked t → engagedSlot v.engine t = some i → v.engine.slots[i].inUse = true)
include agentWaits

theorem serveWaiting_drain_takes (asked : v.engine.drainReq = .asked t) (engaged : engagedSlot v.engine t = some i)
    (free : v.engine.slots[i].inUse = false) : serveWaiting v = serveWaiting (markTaken i { v with engine.drainReq := .holds t i }) := by
  have still : judgeTake .management (markTaken i { v with engine.drainReq := .holds t i }) =
      markTaken i { v with engine.drainReq := .holds t i } :=
    judgeTake_of_not_due (p := .management) fun u j waits there =>
      markTaken_used (s := { v with engine.drainReq := .holds t i })
        (agentWaits u j waits ((markTaken_engagedSlot i { v with engine.drainReq := .holds t i } u).symm.trans there))
  have served : serveWaiting (markTaken i { v with engine.drainReq := .holds t i }) =
      startNext (judgeLodge .drain (judgeLodge .management (markTaken i { v with engine.drainReq := .holds t i }))) := by
    rw [serveWaiting_of_not_fetched (v := markTaken i { v with engine.drainReq := .holds t i }) agent (fun u no => nomatch no), still,
      judgeTake_of_not_asked (p := .drain) (s := markTaken i { v with engine.drainReq := .holds t i }) fun u no => nomatch no]
  rw [serveWaiting_of_not_fetched agent drain, judgeTake_of_not_due (p := .management) agentWaits,
    judgeTake_takes (p := .drain) asked engaged free, served]
  rfl

variable (drainWaits : ∀ t i, v.engine.drainReq = .asked t → engagedSlot v.engine t = some i → v.engine.slots[i].inUse = true)
  (unit : v.engine.fetch = none)
include drainWaits unit

theorem serveWaiting_agent_lodges (asked : v.engine.mgmt = .asked t) (apart : engagedSlot v.engine t = none) :
    serveWaiting v = serveWaiting { v with engine.mgmt := .lodged t } := by
  rw [serveWaiting_of_not_due agent drain agentWaits drainWaits,
    serveWaiting_of_not_due (v := { v with engine.mgmt := .lodged t }) (fun u no => nomatch no) drain (fun u j no => nomatch no) drainWaits,
    judgeLodge_of_apart (p := .management) unit asked apart,
    judgeLodge_of_not_asked (p := .management) (s := { v with engine.mgmt := .lodged t }) fun u no => nomatch no]
  rfl

theorem serveWaiting_drain_lodges (asked : v.engine.drainReq = .asked t) (apart : engagedSlot v.engine t = none) :
    serveWaiting v = serveWaiting { v with engine.drainReq := .lodged t } := by
  have lodges : judgeLodge .drain { v with engine.mgmt := agentLodges v.engine } =
      { v with engine.mgmt := agentLodges v.engine, engine.drainReq := .lodged t } :=
    judgeLodge_of_apart (v := { v with engine.mgmt := agentLodges v.engine }) (p := .drain) unit asked apart
  have lodged : judgeLodge .drain { v with engine.mgmt := agentLodges v.engine, engine.drainReq := .lodged t } =
      { v with engine.mgmt := agentLodges v.engine, engine.drainReq := .lodged t } :=
    judgeLodge_of_not_asked (p := .drain) fun u no => nomatch no
  rw [serveWaiting_of_not_due agent drain agentWaits drainWaits,
    serveWaiting_of_not_due (v := { v with engine.drainReq := .lodged t }) agent (fun u no => nomatch no) agentWaits
      (fun u j no => nomatch no), judgeLodge_management_eq, judgeLodge_management_eq, lodges]
  exact congrArg startNext lodged.symm

omit unit in
theorem serveWaiting_starts (agentEngaged : ∀ t, v.engine.mgmt = .asked t → engagedSlot v.engine t ≠ none)
    (drainEngaged : ∀ t, v.engine.drainReq = .asked t → engagedSlot v.engine t ≠ none) : serveWaiting v = startNext v := by
  rw [serveWaiting_of_not_due agent drain agentWaits drainWaits, judgeLodge_of_all_engaged (p := .management) agentEngaged,
    judgeLodge_of_all_engaged (p := .drain) drainEngaged]

end

/-! ### The step (R87, R90, R91) -/

theorem sweepStep_of_more {s : State} {n : StreamId} (mode : s.engine.mode = .busSweep n false) (more : n.val + 1 < 256) :
    sweepStep s = { sweepStream n s with engine.mode := .busSweep ⟨n.val + 1, more⟩ false } := by
  simp only [sweepStep, mode, more, dif_pos]

theorem sweepStep_of_last {s : State} {n : StreamId} (mode : s.engine.mode = .busSweep n false) (last : n = 255) :
    sweepStep s = busSweepDone (sweepStream n s) := by
  subst last
  simp only [sweepStep, mode]
  rfl

theorem sweepStep_of_overtaken {s : State} {n : StreamId} (mode : s.engine.mode = .busSweep n true) : sweepStep s = startInitSweep s := by
  simp only [sweepStep, mode]

/-- Settles O15: the step on the current copy, the waiting users after the last one, and the step that a FULL reset overtook. -/
theorem sweepStepBreaksOneStream : Obligations.SweepStepBreaksOneStream := by
  have runs (s : State) (awake : s.resetLow = false) : exec .busSweepStep s = .next (sweepStep s) := exec_of_awake rfl awake
  refine ⟨fun s n awake mode => ?step, fun v running unit => ?served, fun s n awake mode => ?overtaken⟩
  case overtaken =>
    rw [runs s awake, sweepStep_of_overtaken mode]
    exact ⟨_, rfl, engineReset_atReset, rfl⟩
  case served =>
    intro free agentTakes drainTakes fetched agentDue drainDue
    refine ⟨fun t i own ⟨engaged, unused⟩ => serveWaiting_agent_fetched own engaged unused,
      fun t i agent own ⟨engaged, unused⟩ => serveWaiting_drain_fetched agent own engaged unused, fun none => ?_⟩
    have agent (u : StreamId) (own : v.engine.mgmt = .fetched u) : False := none (.inl ⟨u, own⟩)
    have drain (u : StreamId) (own : v.engine.drainReq = .fetched u) : False := none (.inr ⟨u, own⟩)
    have used (t : StreamId) (i : SlotNo) (engaged : engagedSlot v.engine t = some i) (notFree : ¬ free t i) :
        v.engine.slots[i].inUse = true := Bool.of_not_eq_false fun unused => notFree ⟨engaged, unused⟩
    refine ⟨fun t i asked ⟨engaged, unused⟩ => serveWaiting_agent_takes agent drain asked engaged unused, fun noAgent => ?_,
      fun noAgent noDrain => ?_⟩
    all_goals
      have agentWaits (t : StreamId) (i : SlotNo) (asked : v.engine.mgmt = .asked t) (engaged : engagedSlot v.engine t = some i) :
          v.engine.slots[i].inUse = true := used t i engaged fun due => noAgent ⟨t, i, asked, due⟩
    · exact fun t i asked ⟨engaged, unused⟩ => serveWaiting_drain_takes agent drain agentWaits asked engaged unused
    · have drainWaits (t : StreamId) (i : SlotNo) (asked : v.engine.drainReq = .asked t) (engaged : engagedSlot v.engine t = some i) :
          v.engine.slots[i].inUse = true := used t i engaged fun due => noDrain ⟨t, i, asked, due⟩
      exact ⟨fun t asked apart => serveWaiting_agent_lodges agent drain agentWaits drainWaits unit asked apart,
        fun t asked apart => serveWaiting_drain_lodges agent drain agentWaits drainWaits unit asked apart,
        fun agentEngaged drainEngaged => serveWaiting_starts agent drain agentWaits drainWaits agentEngaged drainEngaged⟩
  case step =>
    intro x y
    have block := sweepCtx_block n s x
    have swept : sweepStream n s = withEngine (sweptEngine n (sweepCtx n s x).2 s.engine) (sweepCtx n s x).1 := sweepStream_eq n s
    have own : currentCopy n (sweepStream n s) = (sweepCtx n s x).2 := by rw [swept]; exact currentCopy_swept n _ s _
    have fields : (sweepStream n s).pool = (sweepCtx n s x).1.pool ∧ (sweepStream n s).egress = (sweepCtx n s x).1.egress ∧
        (sweepStream n s).link = (sweepCtx n s x).1.link ∧ (sweepStream n s).notices = (sweepCtx n s x).1.notices := by
      rw [swept]; exact ⟨rfl, rfl, rfl, rfl⟩
    have engine : (sweepStream n s).engine = sweptEngine n (sweepCtx n s x).2 s.engine := by rw [swept]; rfl
    have kept : (sweepStream n s).resetLow = s.resetLow ∧ (sweepStream n s).ingress.fifo = s.ingress.fifo ∧
        (sweepStream n s).agent.cmdq = s.agent.cmdq := by
      rw [swept]; exact ⟨block.resetLow, block.fifo, block.cmdq⟩
    have others (u : StreamId) (apart : u ≠ n) : currentCopy u (sweepStream n s) = currentCopy u s := by
      rw [swept]; exact currentCopy_unswept apart _ s _
    have parked : (sweptEngine n (sweepCtx n s x).2 s.engine).parked = s.engine.parked := by
      unfold sweptEngine
      split <;> rfl
    obtain ⟨pool, egress, link, notices⟩ := fields
    obtain ⟨low, fifo, cmdq⟩ := kept
    refine ⟨sweepStream n s, fun more => ?_, fun last => ?_, fifo, by rw [engine, parked], cmdq, fun apart => ?absent, fun i engaged => ?engaged,
      others, fun still => ?still, fun broken => ⟨fun fill => ?empty, fun h k spliced fill => ⟨fun discard => ?discard, fun emit => ?emit⟩⟩⟩
    · rw [runs s awake, sweepStep_of_more mode more]
    · rw [runs s awake, sweepStep_of_last mode last, busSweepDone, answerPort, judgeHold, holdDue]
      simp only [low, awake, Bool.false_or]
      rfl
    case absent =>
      rw [engine, sweptEngine, apart]
      exact ⟨rfl, rfl⟩
    case engaged =>
      have current : x = s.engine.slots[i].copy := by
        show currentCopy n s = _
        rw [currentCopy, engaged]
      have stream := (engages_iff.mp (engagedSlot_engages engaged)).1
      rw [engine, sweptEngine, engaged]
      simp only
      rw [getElem_set_fin_self]
      refine ⟨?_, stream, rfl, rfl, trivial, fun j apart => getElem_set_fin_ne _ _ apart⟩
      rw [current]
      exact ite_congr (propext (sweepWrites_iff _)) (fun _ => rfl) fun _ => rfl
    case still =>
      rw [own, pool, egress, sweepCtx_of_kept still]
      exact ⟨rfl, rfl, rfl⟩
    case empty =>
      rw [own, pool, egress, sweepCtx_of_swept broken, breakAndHunt_of_not_filling n s (x := { x with seqValid := false }) fill]
      exact ⟨rfl, rfl, rfl⟩
    case discard =>
      rw [own, pool, sweepCtx_of_swept broken, breakAndHunt_discard (x := { x with seqValid := false }) n s fill discard]
      exact ⟨rfl, rfl⟩
    case emit =>
      rw [own, pool, egress, link, notices, sweepCtx_of_swept broken, breakAndHunt_emit (x := { x with seqValid := false }) n s fill emit]
      exact ⟨rfl, rfl, rfl, rfl, rfl⟩

end Sys2Proof.Machine
end

section
/-!
SUPPORT. The end of a cell's assembly: the cells counter, the free assembler, and an engine that does not run (R25, R75, R81, R87).
-/
namespace Sys2Proof.Machine

open Sys2Proof

/-! ### The cells counter (R25) -/

/-- The work leaves the number of cells counted. -/
def CellsKept (x : Ctx) (w : Work) : Prop := w.2.counters.cells = x.counters.cells

theorem CellsKept.trans {x : Ctx} {w v : Work} (h : CellsKept x w) (k : CellsKept w.2 v) : CellsKept x v := Eq.trans k h

section
variable (t : StreamId) (s : State) (x : Ctx)

theorem placeCompleted_cellsKept (h : Handle) : CellsKept x (placeCompleted t h s x) := by
  unfold placeCompleted
  split
  · rfl
  · split
    · rfl
    · split
      · unfold overflowDropOldest
        split <;> rfl
      · rfl

theorem complete_cellsKept (h : Handle) (n : Nat) (short broken spliced : Bool) : CellsKept x (complete t h n short broken spliced s x) :=
  placeCompleted_cellsKept t _ { x.completeBlock with fill := .empty } h

theorem cut_cellsKept : CellsKept x (cut t s x) := by
  unfold cut
  split
  · exact complete_cellsKept ..
  all_goals rfl

theorem breakAndHunt_cellsKept : CellsKept x (breakAndHunt t s x) := by
  cases fill : x.fill with
  | filling h k spliced =>
    cases policy : x.cfg.broken with
    | emit =>
      have kept := complete_cellsKept t s x h k false true spliced
      rw [breakAndHunt_emit t s fill policy]
      by_cases faulted : (complete t h k false true spliced s x).2.state = .faulted
      · rw [if_pos faulted]; exact kept
      · rw [if_neg faulted]; exact kept
    | discard => rw [breakAndHunt_discard t s fill policy]; rfl
  | empty => rw [breakAndHunt_of_not_filling t s (.inl fill)]; rfl
  | hunting => rw [breakAndHunt_of_not_filling t s (.inr fill)]; rfl

theorem releaseHeld_cellsKept : CellsKept x (releaseHeld t s x) := by
  unfold releaseHeld
  split <;> rfl

theorem placeSample_cellsKept (h : Handle) (k : Nat) (spliced : Bool) (sample : List Byte) :
    CellsKept x (placeSample t h k spliced sample s x) := by
  unfold placeSample
  simp only
  split
  · exact complete_cellsKept ..
  · rfl

theorem takeSample_cellsKept (sample : List Byte) : CellsKept x (takeSample t sample (s, x)) := by
  unfold takeSample
  simp only
  split
  · split
    · unfold startBlock
      split
      · exact placeSample_cellsKept t _ { x with nextBlock := x.nextBlock + 1 } ..
      · rfl
    · exact placeSample_cellsKept ..
    · rfl
  · rfl

end

theorem takeSamples_cellsKept (t : StreamId) (samples : List (List Byte)) (w : Work) : CellsKept w.2 (takeSamples t samples w) := by
  induction samples generalizing w with
  | nil => rfl
  | cons sample later ih => exact (takeSample_cellsKept t w.1 w.2 sample).trans (ih _)

section
variable (t : StreamId) (s : State) (x : Ctx)

theorem gapEffect_cellsKept : CellsKept x (gapEffect t s x) := by
  unfold gapEffect applyGapPolicy
  split
  · unfold Ctx.markSpliced
    split <;> rfl
  · exact breakAndHunt_cellsKept t _ x.countGap

theorem syncStep_cellsKept (sync : Bool) : CellsKept x (syncStep t sync s x) := by
  unfold syncStep
  split
  · split
    · exact complete_cellsKept ..
    all_goals rfl
  · rfl

theorem markEffect_cellsKept (a : MarkAction) : CellsKept x (markEffect t a s x) := by
  cases a with
  | cut => exact cut_cellsKept t s x
  | release => exact releaseHeld_cellsKept t s x
  | cutAndRelease =>
    unfold markEffect
    simp only
    split
    · exact cut_cellsKept t s x
    · exact (cut_cellsKept t s x).trans (releaseHeld_cellsKept t _ _)

theorem laterStages_cellsKept (c : StreamCell) (gap : Bool) : CellsKept x (laterStages t c gap s x) := by
  unfold laterStages
  simp only
  split
  · rfl
  · split
    · split
      · unfold misfitEffect
        split
        · rfl
        · exact gapEffect_cellsKept t s (x.discardSamples _)
      · exact (syncStep_cellsKept t s x c.sync).trans (takeSamples_cellsKept t _ _)
    · split
      · exact markEffect_cellsKept ..
      · rfl

theorem afterSeq_cells (j : SeqJudgement) (seq : BitVec 8) : (afterSeq j seq x).counters.cells = x.counters.cells := by
  cases j <;> rfl

/-- The assembly of a cell counts it, once. -/
theorem assembleCell_cells (c : StreamCell) : (assembleCell c s x).2.counters.cells = x.counters.cells + 1 := by
  unfold assembleCell
  simp only
  split
  · have counted := afterSeq_cells x.countCell (judgeSeq x.countCell c.seq) c.seq
    refine Eq.trans ?_ counted
    unfold judgedCell
    simp only
    split
    · exact laterStages_cellsKept ..
    · exact laterStages_cellsKept ..
    · rfl
    · exact (gapEffect_cellsKept ..).trans (laterStages_cellsKept ..)
  · rfl

end

theorem assembleCell_of_not_opened {x : Ctx} (c : StreamCell) (s : State) (left : x.state ≠ .opened) :
    assembleCell c s x = (s, x.countCell.discardSamples (c.samples x.cfg.geom.w)) := if_neg left

/-! ### The free assembler (R75, R81) -/

theorem serveHead_of_not_running {s : State} (mode : s.engine.mode ≠ .running) : serveHead s = s := by
  unfold serveHead
  split
  · next running _ => exact absurd running mode
  · rfl

theorem serveHead_of_no_wait {s : State} (none : s.engine.dispWait = none) : serveHead s = s := by
  unfold serveHead
  split
  · next wait => rw [none] at wait; cases wait
  · rfl

theorem serveHead_of_inUse {s : State} {i : SlotNo} (wait : s.engine.dispWait = some i) (used : s.engine.slots[i].inUse = true) :
    serveHead s = s :=
  serveHead_rests s fun j waits => by
    obtain rfl : i = j := Option.some.inj (wait.symm.trans waits)
    exact used

theorem handToHead_of_busy {i : SlotNo} {t : StreamId} {s : State} (busy : s.assembler ≠ []) : handToHead i t s = s := by
  unfold handToHead
  split
  · exact if_neg fun ⟨_, _, empty, _⟩ => busy (List.isEmpty_iff.mp empty)
  · rfl

theorem serveHead_of_busy {s : State} (busy : s.assembler ≠ []) : serveHead s = s := by
  unfold serveHead
  split
  · split
    · split
      · rfl
      · exact handToHead_of_busy busy
    · rfl
  · rfl

/-- The FIFO head takes the free slot on which it waited. -/
theorem serveHead_takes {s : State} {i : SlotNo} {c : StreamCell} {rest : List StreamCell} (running : s.engine.mode = .running)
    (wait : s.engine.dispWait = some i) (free : s.engine.slots[i].inUse = false) (stream : s.engine.slots[i].stream = some c.stream)
    (fifo : s.ingress.fifo = c :: rest) (empty : s.assembler = []) (ready : s.engine.readWaits = false) :
    serveHead s = takeHead c i s := by
  have serves : serveHead s = handToHead i c.stream s := by
    simp only [serveHead, running, wait, stream, free, Bool.false_eq_true, if_false]
  have gate : s.engine.dispWait = some i ∧ c.stream = c.stream ∧ s.assembler.isEmpty ∧ s.engine.readWaits = false :=
    ⟨wait, rfl, by rw [empty]; rfl, ready⟩
  rw [serves, handToHead, fifo]
  exact if_pos gate

theorem takeHead_eq {s : State} {c : StreamCell} {rest : List StreamCell} (i : SlotNo) (fifo : s.ingress.fifo = c :: rest) :
    let flag := if rest.length ≤ s.agent.limits.releaseMark then false else s.ingress.holdFlag
    takeHead c i s = markTaken i { s with
      assembler := [⟨c, i, none⟩]
      engine.dispWait := none
      ingress := { s.ingress with
        fifo := rest
        holdFlag := flag
        hold := s.resetLow || s.ingress.port != .ready || flag || s.pool.low } } := by
  simp only [takeHead, takeMark, setSlot, fifoRemoval, judgeHold, holdDue, dropWait, holdFlagAtRemoval, fifo, List.tail_cons, markTaken,
    touch]

/-! ### A read that waited, outside RUNNING (R76, R87) -/

theorem resumeRead_of_none {s : State} (none : s.engine.readWaits = false) : resumeRead s = s := by
  rw [resumeRead, none]
  rfl

theorem resumeRead_of_waits {s : State} (waits : s.engine.readWaits = true) : resumeRead s = fetchDone s := if_pos waits

theorem leaveSweepWait_not_running {s : State} (mode : s.engine.mode ≠ .running) : (leaveSweepWait s).engine.mode ≠ .running := by
  unfold leaveSweepWait
  split
  · split
    · split
      · exact fun no => nomatch no
      · exact fun no => nomatch no
    · exact mode
  all_goals exact mode

/-- The end of a read does not start the engine. -/
theorem fetchDone_not_running {s : State} (mode : s.engine.mode ≠ .running) : (fetchDone s).engine.mode ≠ .running := by
  unfold fetchDone
  split
  · exact mode
  · next f _ =>
    split
    · split
      · exact mode
      · rw [completeRead_eq]
        refine leaveSweepWait_not_running ?_
        rw [(startNext_request _).mode, (handRequester_request f _).mode]
        exact mode
    all_goals exact mode

/-- What follows the end of an assembly outside RUNNING: a read that waited completes. -/
theorem serveHead_resumeRead_of_not_running {s : State} (mode : s.engine.mode ≠ .running) :
    serveHead (resumeRead s) = if s.engine.readWaits then fetchDone s else s := by
  cases waits : s.engine.readWaits with
  | true => rw [resumeRead_of_waits waits, serveHead_of_not_running (fetchDone_not_running mode)]; rfl
  | false => rw [resumeRead_of_none waits, serveHead_of_not_running mode]; rfl

end Sys2Proof.Machine
end

section
/-!
SUPPORT. The end of a cell's assembly, also of one that a FULL reset overtook: there its samples go into the pages of the block it was
filling, and nowhere else (R25, R172).
-/
namespace Sys2Proof.Machine

open Sys2Proof

/-! ### Writes into the block being filled only (R172) -/

theorem requestNotice_pages (k : NoticeKind) (t : Option StreamId) (s : State) (b : Handle) :
    (requestNotice k t s).pool.desc[b].pages = s.pool.desc[b].pages := by
  unfold requestNotice
  split
  · split
    · rfl
    · split
      · obtain same | sent := (judgePort_owed { s with notices.queue := s.notices.queue ++ [⟨k, t, 1, .none⟩] }).desc b
        · rw [same]
        · rw [sent]
      · rfl
  · rfl

/-- The work so far began no block, and wrote page bytes of block `h` only, whose page list is `pages`; should the block complete, it
is held, and nothing is freed. -/
structure FillsOnly (h : Handle) (pages : List Page) (m : Memory) (w : Work) : Prop where
  canonical : Memory.wf w.1.pool.mem = true
  outside : ∀ addr : Nat, (∀ b, pageAddress pages b ≠ some addr) → Memory.read w.1.pool.mem addr = Memory.read m addr
  list : w.1.pool.desc[h].pages = pages
  noneFree : w.1.pool.freeDesc = []
  held : w.2.cfg.mode = .held
  emits : w.2.cfg.broken = .emit
  fills : ∀ b k spliced, w.2.fill = .filling b k spliced → b = h ∧ w.2.held.length < w.2.cfg.heldLimit

section
variable {h : Handle} {pages : List Page} {m : Memory} {s : State} {x : Ctx}

theorem FillsOnly.notice (f : FillsOnly h pages m (s, x)) (k : NoticeKind) (t : Option StreamId) :
    FillsOnly h pages m (requestNotice k t s, x) := by
  obtain ⟨-, -, -, -, -, -, -, -, -, -, mem, -, free, -, -, -⟩ := requestNotice_frame k t s
  exact { f with
    canonical := mem ▸ f.canonical
    outside := mem ▸ f.outside
    list := (requestNotice_pages k t s h).trans f.list
    noneFree := free.trans f.noneFree }

/-- A change of the record beside its configuration and its held list leaves the work as it is, if no block begins. -/
theorem FillsOnly.record (f : FillsOnly h pages m (s, x)) {y : Ctx} (cfg : y.cfg = x.cfg) (held : y.held = x.held)
    (fill : ∀ b k spliced, y.fill = .filling b k spliced → ∃ k' spliced', x.fill = .filling b k' spliced') :
    FillsOnly h pages m (s, y) where
  canonical := f.canonical
  outside := f.outside
  list := f.list
  noneFree := f.noneFree
  held := cfg ▸ f.held
  emits := cfg ▸ f.emits
  fills b k spliced filling := by
    obtain ⟨k', spliced', before⟩ := fill b k spliced filling
    obtain ⟨same, room⟩ := f.fills b k' spliced' before
    rw [cfg, held]
    exact ⟨same, room⟩

theorem FillsOnly.counted (f : FillsOnly h pages m (s, x)) {y : Ctx} (cfg : y.cfg = x.cfg) (held : y.held = x.held)
    (fill : y.fill = x.fill) : FillsOnly h pages m (s, y) :=
  f.record cfg held fun _ k spliced filling => ⟨k, spliced, fill ▸ filling⟩

theorem FillsOnly.hunt (f : FillsOnly h pages m (s, x)) {y : Ctx} (cfg : y.cfg = x.cfg) (held : y.held = x.held)
    (fill : y.fill = .hunting ∨ y.fill = .empty) : FillsOnly h pages m (s, y) :=
  f.record cfg held fun b k spliced filling => by
    obtain fill | fill := fill <;> rw [fill] at filling <;> cases filling

theorem complete_of_room (t : StreamId) (n : Nat) (short broken spliced : Bool) (mode : x.cfg.mode = .held)
    (room : x.held.length < x.cfg.heldLimit) : complete t h n short broken spliced s x =
      (setDescState h .held (setDesc h { s.pool.desc[h] with count := n, flags := ⟨short, broken, spliced⟩ } s),
        { x.completeBlock with fill := .empty, held := x.held ++ [h] }) := by
  simp only [complete, placeCompleted, Ctx.completeBlock, mode, room, if_true]

theorem FillsOnly.complete (f : FillsOnly h pages m (s, x)) (t : StreamId) (n : Nat) (short broken spliced : Bool)
    (room : x.held.length < x.cfg.heldLimit) : FillsOnly h pages m (Machine.complete t h n short broken spliced s x) := by
  rw [complete_of_room t n short broken spliced f.held room]
  refine { f with list := ?_, fills := fun _ _ _ no => nomatch no }
  have first : (s.pool.desc.set h { s.pool.desc[h] with count := n, flags := ⟨short, broken, spliced⟩ })[h] = _ :=
    getElem_set_fin_self _ _ _
  have second := getElem_set_fin_self (s.pool.desc.set h { s.pool.desc[h] with count := n, flags := ⟨short, broken, spliced⟩ }) h
    { (s.pool.desc.set h { s.pool.desc[h] with count := n, flags := ⟨short, broken, spliced⟩ })[h] with state := DescState.held }
  refine (congrArg Desc.pages second).trans ?_
  rw [first]
  exact f.list

theorem FillsOnly.place (f : FillsOnly h pages m (s, x)) (t : StreamId) (k : Nat) (spliced : Bool) (sample : List Byte)
    (room : x.held.length < x.cfg.heldLimit) : FillsOnly h pages m (placeSample t h k spliced sample s x) := by
  have written (y : Ctx) (cfg : y.cfg = x.cfg) (held : y.held = x.held)
      (fill : ∀ b k spliced, y.fill = .filling b k spliced → b = h ∧ y.held.length < y.cfg.heldLimit) : FillsOnly h pages m ({ s with
        pool.mem := writeBlockBytes s.pool.desc[h].pages s.pool.mem
          (s.pool.desc[h].geom.byteAt (s.pool.desc[h].geom.rowOf k) (s.pool.desc[h].geom.colOf k)) sample }, y) := by
    refine ⟨wf_writeBlockBytes _ _ _ _ f.canonical, fun addr apart => ?_, f.list, f.noneFree, cfg ▸ f.held, cfg ▸ f.emits, fill⟩
    rw [← f.outside addr apart]
    refine writeBlockBytes_read_of_outside _ _ f.canonical fun c _ _ => ?_
    rw [show s.pool.desc[h].pages = pages from f.list]
    exact apart c
  unfold placeSample
  simp only
  split
  · exact (written x rfl rfl f.fills).complete t _ _ _ _ room
  · exact written _ rfl rfl fun b _ _ filling => by
      cases filling
      exact ⟨rfl, room⟩

theorem FillsOnly.takeSample (f : FillsOnly h pages m (s, x)) (t : StreamId) (sample : List Byte) :
    FillsOnly h pages m (Machine.takeSample t sample (s, x)) := by
  by_cases opened : x.state = .opened
  · cases fill : x.fill with
    | filling b k spliced =>
      obtain ⟨rfl, room⟩ := f.fills b k spliced fill
      rw [takeSample_of_filling opened fill]
      exact f.place t k spliced sample room
    | empty =>
      have fails : allocate t x.nextBlock x.cfg.geom s = none := allocate_eq_none_iff.mpr (.inl f.noneFree)
      have counted : FillsOnly h pages m (count .allocFailures s, x) := { f with }
      rw [takeSample_of_empty opened fill, startBlock, fails]
      exact (counted.notice _ _).hunt rfl rfl (.inl rfl)
    | hunting =>
      rw [takeSample_discards (.inr fill)]
      exact f.counted rfl rfl rfl
  · rw [takeSample_discards (.inl opened)]
    exact f.counted rfl rfl rfl

theorem FillsOnly.takeSamples {w : Work} (f : FillsOnly h pages m w) (t : StreamId) (samples : List (List Byte)) :
    FillsOnly h pages m (Machine.takeSamples t samples w) := by
  induction samples generalizing w with
  | nil => exact f
  | cons sample later ih => exact ih (FillsOnly.takeSample (s := w.1) (x := w.2) f t sample)

theorem FillsOnly.breakAndHunt (f : FillsOnly h pages m (s, x)) (t : StreamId) :
    FillsOnly h pages m (Machine.breakAndHunt t s x) := by
  cases fill : x.fill with
  | filling b k spliced =>
    obtain ⟨rfl, room⟩ := f.fills b k spliced fill
    have ended := f.complete t k false true spliced room
    rw [breakAndHunt_emit t s fill f.emits]
    split
    · exact ended
    · exact ended.hunt rfl rfl (.inl rfl)
  | empty => rw [breakAndHunt_of_not_filling t s (.inl fill)]; exact f.hunt rfl rfl (.inl rfl)
  | hunting => rw [breakAndHunt_of_not_filling t s (.inr fill)]; exact f.hunt rfl rfl (.inl rfl)

theorem FillsOnly.gap (f : FillsOnly h pages m (s, x)) (t : StreamId) : FillsOnly h pages m (gapEffect t s x) := by
  have noted : FillsOnly h pages m (requestNotice .seqGap (some t) s, x.countGap) := (f.notice _ _).counted rfl rfl rfl
  unfold gapEffect applyGapPolicy
  split
  · unfold Ctx.markSpliced
    split
    · next b k spliced fill =>
      refine noted.record rfl rfl fun b' k' s' filling => ?_
      cases filling
      exact ⟨k, spliced, fill⟩
    · exact noted
    · exact noted
  · exact noted.breakAndHunt t

theorem FillsOnly.cut (f : FillsOnly h pages m (s, x)) (t : StreamId) : FillsOnly h pages m (Machine.cut t s x) := by
  cases fill : x.fill with
  | filling b k spliced =>
    obtain ⟨rfl, room⟩ := f.fills b k spliced fill
    rw [cut_of_filling t s fill]
    exact f.complete t k true false spliced room
  | empty => rw [cut_of_not_filling t s (.inl fill)]; exact f
  | hunting => rw [cut_of_not_filling t s (.inr fill)]; exact f

theorem FillsOnly.sync (f : FillsOnly h pages m (s, x)) (t : StreamId) (sync : Bool) : FillsOnly h pages m (syncStep t sync s x) := by
  cases sync with
  | false => exact f
  | true =>
    cases fill : x.fill with
    | filling b k spliced =>
      obtain ⟨rfl, room⟩ := f.fills b k spliced fill
      rw [syncStep_of_filling t s fill]
      exact f.complete t k true false spliced room
    | empty => rw [syncStep_of_not_filling t s (.inl fill)]; exact f.hunt rfl rfl (.inr rfl)
    | hunting => rw [syncStep_of_not_filling t s (.inr fill)]; exact f.hunt rfl rfl (.inr rfl)

/-! A release writes no page byte, so the writes of a cell stay in the block whatever its action. -/

/-- What is left of `FillsOnly` when the cell has ended. -/
def WritesOnly (pages : List Page) (m n : Memory) : Prop :=
  ∀ addr : Nat, (∀ b, pageAddress pages b ≠ some addr) → Memory.read n addr = Memory.read m addr

theorem queueEntry_mem (t : StreamId) (c : EgressClass) (b : Handle) (s : State) : (queueEntry t c b s).pool.mem = s.pool.mem := by
  unfold queueEntry
  split
  · rfl
  · obtain ⟨-, -, -, -, -, -, -, mem, -⟩ :=
      judgePort_frame (riseOutstanding t (setQueue c (s.egress.queues[c] ++ [b]) (setDescState b .queued s)))
    exact mem

theorem handOnBlocks_mem (t : StreamId) (c : EgressClass) (l : List Handle) (s : State) :
    (handOnBlocks t c l s).pool.mem = s.pool.mem := by
  induction l generalizing s with
  | nil => rfl
  | cons b rest ih => exact (ih _).trans (queueEntry_mem t c b s)

theorem releaseHeld_mem (t : StreamId) (s : State) (x : Ctx) : (releaseHeld t s x).1.pool.mem = s.pool.mem := by
  unfold releaseHeld
  split
  · exact handOnBlocks_mem ..
  · rfl

theorem FillsOnly.mark (f : FillsOnly h pages m (s, x)) (t : StreamId) (a : MarkAction) :
    WritesOnly pages m (markEffect t a s x).1.pool.mem := by
  cases a with
  | cut => exact (f.cut t).outside
  | release =>
    have mem : (markEffect t .release s x).1.pool.mem = s.pool.mem := releaseHeld_mem t s x
    rw [mem]
    exact f.outside
  | cutAndRelease =>
    have cuts := (f.cut t).outside
    unfold markEffect
    simp only
    split
    · exact cuts
    · rw [releaseHeld_mem]; exact cuts

theorem FillsOnly.stages (f : FillsOnly h pages m (s, x)) (t : StreamId) (c : StreamCell) (gap : Bool) :
    WritesOnly pages m (laterStages t c gap s x).1.pool.mem := by
  unfold laterStages
  simp only
  split
  · exact f.outside
  · split
    · split
      · unfold misfitEffect
        split
        · exact f.outside
        · exact (FillsOnly.gap (f.counted (y := x.discardSamples _) rfl rfl rfl) t).outside
      · exact ((f.sync t c.sync).takeSamples t _).outside
    · split
      · exact f.mark t _
      · exact f.outside

theorem FillsOnly.assembly (f : FillsOnly h pages m (s, x)) (c : StreamCell) :
    WritesOnly pages m (assembleCell c s x).1.pool.mem := by
  have judged : FillsOnly h pages m (s, { x.countCell with expected := c.seq + 1, seqValid := true }) := f.counted rfl rfl rfl
  by_cases opened : x.state = .opened
  · rw [assembleCell_of_opened c s opened]
    cases seq : judgeSeq x.countCell c.seq with
    | first => rw [judgedCell_of_inOrder (.inl seq)]; exact judged.stages _ _ _
    | inOrder => rw [judgedCell_of_inOrder (.inr seq)]; exact judged.stages _ _ _
    | duplicate => rw [judgedCell_of_duplicate _ s seq]; exact f.outside
    | gap => rw [judgedCell_of_gap seq]; exact FillsOnly.stages (judged.gap c.stream) _ _ _
  · rw [assembleCell_of_not_opened c s opened]
    exact f.outside

/-! ### The bytes of a cell that fits its block (R36) -/

/-- Sample `j` of a payload. -/
theorem splitSamples_succ (w n : Nat) (bytes : List Byte) :
    splitSamples w (n + 1) bytes = bytes.take w :: splitSamples w n (bytes.drop w) := rfl

/-- The page bytes after `n` samples of width `w` have been placed at fill index `k` onward. -/
def samplesWritten (d : Desc) (w k : Nat) (bytes : List Byte) (n : Nat) (m : Memory) : Memory :=
  (List.range n).foldl (fun m j =>
    writeBlockBytes d.pages m (d.geom.byteAt (d.geom.rowOf (k + j)) (d.geom.colOf (k + j))) ((bytes.drop (w * j)).take w)) m

theorem samplesWritten_succ (d : Desc) (w k : Nat) (bytes : List Byte) (n : Nat) (m : Memory) :
    samplesWritten d w k bytes (n + 1) m = samplesWritten d w (k + 1) (bytes.drop w) n
      (writeBlockBytes d.pages m (d.geom.byteAt (d.geom.rowOf k) (d.geom.colOf k)) (bytes.take w)) := by
  rw [samplesWritten, List.range_succ_eq_map, List.foldl_cons, List.foldl_map, Nat.add_zero, Nat.mul_zero, List.drop_zero]
  refine congrArg (fun f => List.foldl f _ (List.range n)) (funext fun m => funext fun j => ?_)
  have index : k + j.succ = k + 1 + j := by omega
  have start : w * j.succ = w + w * j := by rw [Nat.mul_succ, Nat.add_comm]
  rw [index, start, List.drop_drop]

theorem takeSamples_mem {t : StreamId} {d : Desc} {w : Nat} (n : Nat) : ∀ {bytes : List Byte} {k : Nat} {spliced : Bool} {s : State}
    {x : Ctx}, x.state = .opened → x.fill = .filling h k spliced → s.pool.desc[h].pages = d.pages → s.pool.desc[h].geom = d.geom →
    x.cfg.mode = .held → x.held.length < x.cfg.heldLimit → k + n ≤ d.geom.rows * d.geom.cols →
    (takeSamples t (splitSamples w n bytes) (s, x)).1.pool.mem = samplesWritten d w k bytes n s.pool.mem := by
  induction n with
  | zero => exact fun _ _ _ _ _ _ _ => rfl
  | succ n ih =>
    intro bytes k spliced s x opened fill pages geom mode room fits
    rw [splitSamples_succ, Machine.takeSamples, takeSample_of_filling opened fill, placeSample, pages, geom, samplesWritten_succ]
    simp only
    by_cases last : k + 1 = d.geom.samples
    · have none : n = 0 := by
        have samples : d.geom.samples = d.geom.rows * d.geom.cols := rfl
        omega
      subst none
      rw [if_pos last, complete_of_room t _ _ _ _ mode room]
      rfl
    · rw [if_neg last]
      exact ih opened rfl pages geom mode room (by omega)

/-! ### The assembly that a FULL reset overtook (R172) -/

/-- The state on which an overtaken assembly is followed. -/
def withoutStorage (h : Handle) (d : Desc) (s : State) : State := setDesc h d { s with pool.freeDesc := [], pool.freePages := [] }

/-- The record on which it is followed. -/
def heldCopy (x : Ctx) : Ctx := { x with cfg := x.cfg.freesNothing x.held.length }

theorem overtakenWrites_of_stale {a : Assembly} {d : Desc} (s : State) (stale : a.stale = some (h, d)) :
    overtakenWrites a s = (assembleCell a.cell (withoutStorage h d s) (heldCopy s.engine.slots[a.slot].copy)).1.pool.mem := by
  rw [overtakenWrites, stale]
  rfl

theorem overtakenWrites_of_fresh {a : Assembly} (s : State) (none : a.stale = none) : overtakenWrites a s = s.pool.mem := by
  rw [overtakenWrites, none]

theorem withoutStorage_desc (h : Handle) (d : Desc) (s : State) : (withoutStorage h d s).pool.desc[h] = d := getElem_set_fin_self _ _ _

theorem withoutStorage_fillsOnly {d : Desc} {k : Nat} {spliced : Bool} (canonical : MemoryCanonical s)
    (fill : x.fill = .filling h k spliced) : FillsOnly h d.pages s.pool.mem (withoutStorage h d s, heldCopy x) where
  canonical := canonical
  outside _ _ := rfl
  list := congrArg Desc.pages (withoutStorage_desc h d s)
  noneFree := rfl
  held := rfl
  emits := rfl
  fills b k' spliced' filling := by
    obtain ⟨rfl, -, -⟩ : b = h ∧ k' = k ∧ spliced' = spliced := by
      have same := filling.symm.trans fill
      cases same
      exact ⟨rfl, rfl, rfl⟩
    exact ⟨rfl, Nat.lt_succ_self _⟩

/-- The cell's samples all go into the block. -/
theorem assembleCell_mem_of_fits {c : StreamCell} {d : Desc} {k : Nat} {spliced : Bool} (opened : x.state = .opened)
    (fill : x.fill = .filling h k spliced) (judged : judgeSeq x c.seq = .first ∨ judgeSeq x c.seq = .inOrder) (data : c.kind = .data)
    (sync : c.sync = false) (whole : c.payload.length % x.cfg.geom.w = 0)
    (fits : k + c.payload.length / x.cfg.geom.w ≤ d.geom.rows * d.geom.cols) :
    (assembleCell c (withoutStorage h d s) (heldCopy x)).1.pool.mem =
      samplesWritten d x.cfg.geom.w k c.payload (c.payload.length / x.cfg.geom.w) s.pool.mem := by
  have going : x.state ≠ .faulted := by rw [opened]; exact fun no => nomatch no
  have desc := withoutStorage_desc h d s
  rw [assembleCell_of_opened (x := heldCopy x) c _ opened, judgedCell_of_inOrder (x := (heldCopy x).countCell) judged,
    laterStages_of_fit (x := { (heldCopy x).countCell with expected := c.seq + 1, seqValid := true }) false going data whole, sync]
  exact takeSamples_mem (s := withoutStorage h d s) (d := d) _ opened fill (congrArg Desc.pages desc) (congrArg Desc.geom desc) rfl
    (Nat.lt_succ_self _) fits

end

/-! ### The end of an assembly (R25, R75, R81, R172) -/

theorem assemblyDone_of_running_on {s : State} {a : Assembly} {rest : List Assembly} (cell : s.assembler = a :: rest)
    (current : s.engine.mode ≠ .sweepWait .init) :
    let r := assembleCell a.cell { s with assembler := rest } s.engine.slots[a.slot].copy
    assemblyDone s = serveHead (resumeRead (release a.slot true (setCopy a.slot r.2 r.1))) := by
  have ahead : overtaken { s with assembler := rest } = false := by
    rw [overtaken, beq_eq_false_iff_ne]
    exact current
  rw [assemblyDone, cell]
  simp only [ahead, Bool.false_eq_true, if_false]

theorem assemblyDone_of_overtaken {s : State} {a : Assembly} {rest : List Assembly} (cell : s.assembler = a :: rest)
    (mode : s.engine.mode = .sweepWait .init) : assemblyDone s = serveHead (resumeRead (release a.slot false
      { s with assembler := rest, pool.mem := overtakenWrites a { s with assembler := rest } })) := by
  have behind : overtaken { s with assembler := rest } = true := by
    rw [overtaken, beq_iff_eq]
    exact mode
  rw [assemblyDone, cell]
  simp only [behind, if_true]

/-- Outside RUNNING the mark of a slot beside another operation goes to nobody. -/
theorem release_of_not_running {i : SlotNo} {s : State} (stays : ModeStays i s) (mode : s.engine.mode ≠ .running) (wrote : Bool) :
    release i wrote s = givenUp i wrote s := by
  rw [release_of_modeStays stays, waiterOf_of_not_running mode, handToWaiter]

/-- Settles O21: the assembly, the free assembler, and the overtaken assembly. -/
theorem assemblyCountsCellAndGateDiscards : Obligations.AssemblyCountsCellAndGateDiscards := by
  refine ⟨fun s a rest awake stays current cell => ?assembles, fun v => ⟨fun c rest i running wait free stream fifo empty ready => ?head,
    fun waits => ?rests⟩, fun s a rest canonical awake stays mode cell => ?overtaken⟩
  case head => exact (serveHead_takes running wait free stream fifo empty ready).trans (takeHead_eq i fifo)
  case rests =>
    obtain mode | busy | none | ⟨i, wait, used⟩ := waits
    · exact serveHead_of_not_running mode
    · exact serveHead_of_busy busy
    · exact serveHead_of_no_wait none
    · exact serveHead_of_inUse wait used
  case assembles =>
    intro x r
    have runs : exec .cellAssembly s = .next (assemblyDone s) := exec_of_awake rfl awake
    have block : BlockEffect { s with assembler := rest } r.1 := assembleCell_block a.cell _ x
    have engine : r.1.engine = s.engine := block.engine
    have still : ModeStays a.slot r.1 := by rw [ModeStays, engine]; exact stays
    obtain ⟨kept, copy, agent, egress, link⟩ := release_setCopy r.2 true still
    have state := release_state (still.setCopy r.2) true
    refine ⟨_, release a.slot true (setCopy a.slot r.2 r.1), runs.trans (congrArg _ (assemblyDone_of_running_on cell current)), fun none => ?_,
      fun waits => ⟨_, exec_of_awake (f := fetchDone) rfl (kept.pin.trans (block.resetLow.trans awake)), ?_⟩, state, copy, kept.pool, egress,
      link, kept.notices, agent, kept.fetch.1, kept.fetch.2.1.trans (by rw [engine]), kept.mark, ?_, kept.store.trans (by rw [engine]),
      fun j apart => ?_, fun left => ?_⟩
    · rw [resumeRead_of_none (kept.fetch.2.1.trans (by rw [engine]; exact none))]
    · rw [resumeRead_of_waits (kept.fetch.2.1.trans (by rw [engine]; exact waits))]
    · rw [copy]
      exact assembleCell_cells _ x a.cell
    · rw [kept.slots j apart, engine]
    · have gate : r = ({ s with assembler := rest }, x.countCell.discardSamples (a.cell.samples x.cfg.geom.w)) :=
        assembleCell_of_not_opened a.cell _ left
      rw [copy, kept.pool, egress, link, kept.notices, agent, gate, StreamCell.samples_eq]
      exact ⟨rfl, rfl, rfl, rfl, rfl, rfl⟩
  case overtaken =>
    intro x
    have sweeps : s.engine.mode ≠ .running := by rw [mode]; exact fun no => nomatch no
    have runs : exec .cellAssembly s = .next (assemblyDone s) := exec_of_awake rfl awake
    have ends := assemblyDone_of_overtaken cell mode
    rw [release_of_not_running (s := { s with assembler := rest, pool.mem := overtakenWrites a { s with assembler := rest } }) stays sweeps,
      serveHead_resumeRead_of_not_running (by exact sweeps)] at ends
    refine ⟨overtakenWrites a { s with assembler := rest }, _, rfl, fun none => ?_, fun waits => ?_, overtakenWrites_of_fresh _,
      fun h d k spliced stale fill => ?_⟩
    · rw [runs, ends]
      exact congrArg _ (if_neg (by rw [givenUp]; exact fun no => Bool.noConfusion (none.symm.trans no)))
    · rw [runs, ends]
      refine (congrArg _ (if_pos ?_)).trans (exec_of_awake (f := fetchDone) rfl ?_).symm
      · exact waits
      · exact awake
    · rw [overtakenWrites_of_stale _ stale]
      refine ⟨((withoutStorage_fillsOnly (s := { s with assembler := rest }) canonical fill).assembly a.cell), ?_⟩
      exact fun opened judged data sync whole fits =>
        assembleCell_mem_of_fits (s := { s with assembler := rest }) opened fill judged data sync whole fits

end Sys2Proof.Machine
end

section
/-!
SUPPORT. Changes of the context engine that no operation outside RUNNING sees: a fetch in flight, and the begin of the bus-reset sweep
(R87–R90).
-/
namespace Sys2Proof.Machine

open Sys2Proof

/-! ### Changes of the engine that an operation outside RUNNING does not see (R87) -/

/-- The state with its engine changed. -/
def mapEngine (ψ : Engine → Engine) (s : State) : State := withEngine (ψ s.engine) s

/-- A change of an engine in mode `m` that touches neither the agent's request, nor the drain service, nor leads to RUNNING. -/
structure Neutral (m : EngineMode) (ψ : Engine → Engine) : Prop where
  mode : ∀ e : Engine, e.mode = m → (ψ e).mode ≠ .running
  mgmt : ∀ (e : Engine) (r : EngReq), ψ { e with mgmt := r } = { ψ e with mgmt := r }
  drain : ∀ (e : Engine) (r : EngReq) (l : List StreamId),
    ψ { e with drainReq := r, drainList := l } = { ψ e with drainReq := r, drainList := l }

section
variable {m : EngineMode} {ψ : Engine → Engine} (h : Neutral m ψ) (e : Engine)
include h

theorem Neutral.drainReq_eq : (ψ e).drainReq = e.drainReq := by
  have eq : ψ e = { ψ e with drainReq := e.drainReq, drainList := e.drainList } := h.drain e e.drainReq e.drainList
  rw [eq]

theorem Neutral.drainList_eq : (ψ e).drainList = e.drainList := by
  have eq : ψ e = { ψ e with drainReq := e.drainReq, drainList := e.drainList } := h.drain e e.drainReq e.drainList
  rw [eq]

theorem Neutral.setDrainReq (r : EngReq) : ψ { e with drainReq := r } = { ψ e with drainReq := r } := by
  have eq : ψ { e with drainReq := r } = { ψ e with drainReq := r, drainList := e.drainList } := h.drain e r e.drainList
  rw [eq, ← h.drainList_eq e]

theorem Neutral.setDrainList (l : List StreamId) : ψ { e with drainList := l } = { ψ e with drainList := l } := by
  have eq : ψ { e with drainList := l } = { ψ e with drainReq := e.drainReq, drainList := l } := h.drain e e.drainReq l
  rw [eq, ← h.drainReq_eq e]

end

/-- The change that fills or empties the fetch unit. -/
def withFetch (f : Option Fetch) (e : Engine) : Engine := { e with fetch := f }

theorem withFetch_neutral (f : Option Fetch) {m : EngineMode} (mode : m ≠ .running) : Neutral m (withFetch f) :=
  ⟨fun _ same => same ▸ mode, fun _ _ => rfl, fun _ _ _ => rfl⟩

/-- The slots once the samples of the parked cells have been counted in the record of their stream (R89). -/
def slotsAfterDiscard (e : Engine) : Vector Slot 8 :=
  match e.parked.head?.bind (fun c => engagedSlot e c.stream) with
  | none => e.slots
  | some i =>
    let n := (e.parked.map (fun c => c.samples e.slots[i].copy.cfg.geom.w)).sum
    e.slots.set i { e.slots[i] with
      copy := e.slots[i].copy.discardSamples n
      state := if n = 0 then e.slots[i].state else .dirty }

/-- The change that begins the bus-reset sweep. -/
def busSwept (e : Engine) : Engine :=
  { e with slots := slotsAfterDiscard e, parked := [], dispReq := none, dispWait := none, mode := .busSweep 0 false }

theorem startBusSweep_mapEngine (s : State) : startBusSweep s = mapEngine busSwept s := by
  have slots : (discardParked s) = { s with engine.slots := slotsAfterDiscard s.engine, engine.parked := [] } := by
    unfold discardParked slotsAfterDiscard
    split
    · next parked =>
      rw [parked]
      simp only [List.head?_nil, Option.bind_none]
      rw [← parked]
    · next c rest parked =>
      simp only [parked, List.head?_cons, Option.bind_some]
      cases engagedSlot s.engine c.stream <;> rfl
  rw [startBusSweep, slots]
  rfl

theorem busSwept_neutral (m : EngineMode) : Neutral m busSwept :=
  ⟨fun _ _ no => (nomatch no), fun _ _ => rfl, fun _ _ _ => rfl⟩

/-! ### Operations that do not see such a change -/

/-- In mode `m`, which it keeps, the operation sees no neutral change of the engine. -/
structure Blind (m : EngineMode) (op : State → State) : Prop where
  commutes : ∀ {ψ : Engine → Engine}, Neutral m ψ → ∀ {s : State}, s.engine.mode = m → op (mapEngine ψ s) = mapEngine ψ (op s)
  mode : ∀ {s : State}, s.engine.mode = m → (op s).engine.mode = m

section
variable {m : EngineMode}

theorem Blind.comp {f g : State → State} (outer : Blind m f) (inner : Blind m g) : Blind m (fun s => f (g s)) where
  commutes neutral _ mode := (congrArg f (inner.commutes neutral mode)).trans (outer.commutes neutral (inner.mode mode))
  mode mode := outer.mode (inner.mode mode)

/-- An operation on blocks sees no change of the engine. -/
theorem mapEngine_of_block {op : State → State} (blind : ∀ e s, op (withEngine e s) = withEngine e (op s))
    (kept : ∀ s, (op s).engine = s.engine) (ψ : Engine → Engine) (s : State) : op (mapEngine ψ s) = mapEngine ψ (op s) := by
  rw [mapEngine, mapEngine, blind, kept]

theorem mapEngine_work_of_block {op : State → Work} (blind : ∀ e s, op (withEngine e s) = (op s).withEngine e)
    (kept : ∀ s, (op s).1.engine = s.engine) (ψ : Engine → Engine) (s : State) :
    op (mapEngine ψ s) = (mapEngine ψ (op s).1, (op s).2) := by
  rw [mapEngine, mapEngine, blind, kept]
  rfl

theorem Blind.ofBlock {op : State → State} (blind : ∀ e s, op (withEngine e s) = withEngine e (op s))
    (kept : ∀ s, (op s).engine = s.engine) : Blind m op where
  commutes _ s _ := mapEngine_of_block blind kept _ s
  mode {s} mode := by rw [kept s]; exact mode

/-- An operation that leaves the engine, and does the same to the rest whatever the engine. -/
theorem Blind.ofRest {op : State → State} (blind : ∀ e s, op (withEngine e s) = withEngine e (op s)) : Blind m op :=
  .ofBlock blind fun s => (congrArg State.engine (blind s.engine s) :)

variable (waits : m ≠ .running)
include waits

theorem askEngage_management_blind (t : StreamId) : Blind m (askEngage .management t) where
  commutes {ψ} neutral {s} mode := by
    have there : (mapEngine ψ s).engine.mode ≠ .running := neutral.mode _ mode
    rw [askEngage_of_not_running there, askEngage_of_not_running (by rw [mode]; exact waits)]
    exact congrArg (fun e => withEngine e s) (neutral.mgmt s.engine _).symm
  mode {s} mode := by
    rw [askEngage_of_not_running (by rw [mode]; exact waits)]
    exact mode

theorem serveDrain_blind : Blind m serveDrain where
  commutes {ψ} neutral {s} mode := by
    have there : (mapEngine ψ s).engine.mode ≠ .running := neutral.mode _ mode
    have req : (mapEngine ψ s).engine.drainReq = s.engine.drainReq := neutral.drainReq_eq _
    have list : (mapEngine ψ s).engine.drainList = s.engine.drainList := neutral.drainList_eq _
    unfold serveDrain
    rw [req, list]
    split
    · next t _ _ _ =>
      rw [askEngage_of_not_running there, askEngage_of_not_running (by rw [mode]; exact waits)]
      exact congrArg (fun e => withEngine e s) (neutral.setDrainReq s.engine (.asked t)).symm
    · rfl
  mode {s} mode := by rw [(serveDrain_request s).mode]; exact mode

theorem raiseDrain_blind (t : StreamId) : Blind m (raiseDrain t) where
  commutes {ψ} neutral {s} mode := by
    have list : (mapEngine ψ s).engine.drainList = s.engine.drainList := neutral.drainList_eq _
    have joined : mapEngine ψ { s with engine.drainList := s.engine.drainList ++ [t] } =
        { mapEngine ψ s with engine.drainList := s.engine.drainList ++ [t] } :=
      congrArg (fun e => withEngine e s) (neutral.setDrainList s.engine _)
    unfold raiseDrain
    rw [list]
    split
    · rfl
    · rw [← joined]
      exact (serveDrain_blind waits).commutes neutral mode
  mode {s} mode := by rw [(raiseDrain_request t s).mode]; exact mode

theorem fallOutstanding_blind (t : StreamId) : Blind m (fallOutstanding t) where
  commutes {ψ} neutral {s} mode := by
    have pool : (mapEngine ψ s).pool = s.pool := rfl
    unfold fallOutstanding
    simp only [pool]
    split
    · exact (raiseDrain_blind waits t).commutes neutral (s := setDrain t ⟨0, false⟩ s) mode
    · rfl
  mode {s} mode := by
    unfold fallOutstanding
    simp only
    split
    · exact (raiseDrain_blind waits t).mode (s := setDrain t ⟨0, false⟩ s) mode
    · exact mode

theorem freeQueued_blind (b : Handle) : Blind m (freeQueued b) where
  commutes neutral s mode :=
    (fallOutstanding_blind waits s.pool.desc[b].stream).commutes neutral
      (s := freeBlock b { s with egress.queues := withoutHandle b s.egress.queues }) mode
  mode {s} mode := (fallOutstanding_blind waits s.pool.desc[b].stream).mode
    (s := freeBlock b { s with egress.queues := withoutHandle b s.egress.queues }) mode

theorem freeAllQueued_blind (bs : List Handle) : Blind m (freeAllQueued bs) := by
  induction bs with
  | nil => exact ⟨fun _ _ _ => rfl, id⟩
  | cons b bs ih => exact ih.comp (freeQueued_blind waits b)

/-! ### The agent's next take (R151) -/

omit waits in
theorem appendReply_blind (r : Reply) : Blind m (appendReply r) :=
  .ofRest fun e s => judgePort_withEngine e { s with egress.replies := s.egress.replies ++ [r] }

theorem beginExecution_blind (record : List Byte) : Blind m (beginExecution record) := by
  cases judged : judgeRecord record with
  | some status =>
    have begins : beginExecution record = finish record status [] .idle := funext fun s => by rw [beginExecution, judged]
    rw [begins]
    exact .ofRest fun e s => finish_withEngine e record status [] .idle s
  | none =>
    have executing : Blind m (fun s => { s with agent.state := .executing record }) := .ofRest fun _ _ => rfl
    cases command : recordCommand record with
    | none =>
      have begins : beginExecution record = fun s => { s with agent.state := .executing record } :=
        funext fun s => by simp only [beginExecution, judged, command]
      rw [begins]
      exact executing
    | some c =>
      cases own : c.onStream with
      | true =>
        have begins : beginExecution record = fun s => askEngage .management (recordStream record) { s with agent.state := .executing record } :=
          funext fun s => by simp only [beginExecution, judged, command, own, if_true]
        rw [begins]
        exact (askEngage_management_blind waits (recordStream record)).comp executing
      | false =>
        have begins : beginExecution record = fun s => { s with agent.state := .executing record } :=
          funext fun s => by simp only [beginExecution, judged, command, own, Bool.false_eq_true, if_false]
        rw [begins]
        exact executing

theorem takeOne_blind (record : List Byte) (rest : List (List Byte)) : Blind m (takeOne record rest) where
  commutes {ψ} neutral {s} mode := by
    have agent : (mapEngine ψ s).agent = s.agent := rfl
    rw [takeOne, takeOne]
    simp only [agent]
    split
    · exact (appendReply_blind _).commutes neutral (s := { s with agent.cmdq := rest }) mode
    · exact (beginExecution_blind waits record).commutes neutral (s := { s with agent.cmdq := rest }) mode
  mode {s} mode := by
    rw [takeOne]
    simp only
    split
    · exact (appendReply_blind _).mode (s := { s with agent.cmdq := rest }) mode
    · exact (beginExecution_blind waits record).mode (s := { s with agent.cmdq := rest }) mode

theorem takeCommands_mapEngine {ψ : Engine → Engine} (neutral : Neutral m ψ) (n : Nat) : ∀ {s : State}, s.engine.mode = m →
    takeCommands n (mapEngine ψ s) = mapEngine ψ (takeCommands n s) := by
  induction n with
  | zero => exact fun _ => rfl
  | succ n ih =>
    intro s mode
    have agent : (mapEngine ψ s).agent = s.agent := rfl
    have places : replyOccupancy (mapEngine ψ s) = replyOccupancy s := rfl
    rw [takeCommands, takeCommands]
    simp only [agent, places]
    split
    · next record rest _ _ =>
      by_cases room : replyOccupancy s < Config.replyDepth
      · rw [if_pos room, if_pos room, (takeOne_blind waits record rest).commutes neutral mode,
          ih ((takeOne_blind waits record rest).mode mode)]
      · rw [if_neg room, if_neg room]
        rfl
    · rfl

theorem takeNext_blind : Blind m takeNext where
  commutes neutral s mode := takeCommands_mapEngine waits neutral s.agent.cmdq.length mode
  mode {s} mode := (takeNext_keeps s).modes.2.trans mode

end

end Sys2Proof.Machine
end

section
/-!
SUPPORT. The last operation in progress in SWEEP_WAIT: what it leaves is what it leaves beside a fetch in flight, with the sweep then
begun (R73, R75, R87–R89).
-/
namespace Sys2Proof.Machine

open Sys2Proof

/-! ### The release that ends SWEEP_WAIT (R87) -/

theorem release_of_sweepWait {i : SlotNo} {k : SweepKind} {s : State} (wrote : Bool) (mode : s.engine.mode = .sweepWait k) :
    release i wrote s = leaveSweepWait (givenUp i wrote s) := by
  rw [release_eq, mode]

theorem givenUp_free {i : SlotNo} (wrote : Bool) {s : State} (free : ∀ j : SlotNo, j ≠ i → s.engine.slots[j].inUse = false) :
    anyInUse (givenUp i wrote s).engine = false := by
  refine anyInUse_eq_false_iff.mpr fun j => ?_
  rw [givenUp_used]
  split
  · rfl
  · next apart => exact free j (Ne.symm apart)

/-- An operation outside RUNNING leaves the slots and the fetch unit. -/
theorem Blind.unmoved {m : EngineMode} {op : State → State} (blind : Blind m op) (waits : m ≠ .running) {s : State}
    (mode : s.engine.mode = m) : (op s).engine.slots = s.engine.slots ∧ (op s).engine.fetch = s.engine.fetch := by
  have neutral : Neutral m (fun e => { e with slots := s.engine.slots, fetch := s.engine.fetch }) :=
    ⟨fun _ same => same ▸ waits, fun _ _ => rfl, fun _ _ _ => rfl⟩
  have same : op s = _ := blind.commutes neutral mode
  exact ⟨congrArg (fun u => u.engine.slots) same, congrArg (fun u => u.engine.fetch) same⟩

theorem mapEngine_withFetch_own {s : State} {f : Option Fetch} (fetch : s.engine.fetch = f) : mapEngine (withFetch f) s = s :=
  congrArg (fun f => mapEngine (withFetch f) s) fetch.symm

/-- The sweep that SWEEP_WAIT has recorded. -/
def beginSweep (k : SweepKind) (s : State) : State :=
  match k with
  | .init => startInitSweep s
  | .bus => startBusSweep s

theorem leaveSweepWait_of_quiet {k : SweepKind} {s : State} (mode : s.engine.mode = .sweepWait k) (free : anyInUse s.engine = false)
    (idle : s.engine.fetch = none) : leaveSweepWait s = beginSweep k s := by
  rw [leaveSweepWait, mode]
  simp only [free, idle, Bool.not_false, Option.isNone_none, Bool.and_self, if_true]
  rfl

theorem beginSweep_begun (k : SweepKind) (s : State) : SweepBegun k s (beginSweep k s) := by
  cases k with
  | init => rfl
  | bus => exact ⟨startBusSweep_eq s, startBusSweep_begun s⟩

/-- What follows the release of the last mark goes on beside the sweep that the release begins as beside a fetch in flight. -/
theorem sweepBegun_of_release {i : SlotNo} {k : SweepKind} {post : State → State} (f : Fetch) (wrote : Bool) {u : State}
    (blind : Blind (.sweepWait k) post)
    (init : k = .init → ∀ g, g.engine.mode = .sweepWait .init → post (startInitSweep g) = startInitSweep (post g))
    (mode : u.engine.mode = .sweepWait k) (idle : u.engine.fetch = none)
    (free : ∀ j : SlotNo, j ≠ i → u.engine.slots[j].inUse = false) :
    SweepBegun k { post (release i wrote (mapEngine (withFetch (some f)) u)) with
      engine.fetch := none } (post (release i wrote u)) := by
  have waits : EngineMode.sweepWait k ≠ .running := fun no => nomatch no
  have given : (givenUp i wrote u).engine.mode = .sweepWait k := mode
  have fetching : release i wrote (mapEngine (withFetch (some f)) u) = mapEngine (withFetch (some f)) (givenUp i wrote u) :=
    release_of_not_running (s := mapEngine (withFetch (some f)) u) (.inr ⟨⟨k, mode⟩, .inl fun no => nomatch no⟩)
      (by rw [show (mapEngine (withFetch (some f)) u).engine.mode = _ from mode]; exact waits) wrote
  have beside : ({ post (mapEngine (withFetch (some f)) (givenUp i wrote u)) with engine.fetch := none } : State) =
      post (givenUp i wrote u) := by
    rw [blind.commutes (withFetch_neutral (some f) waits) given]
    refine Eq.trans (b := mapEngine (withFetch none) (post (givenUp i wrote u))) rfl ?_
    rw [← blind.commutes (withFetch_neutral none waits) given, mapEngine_withFetch_own (s := givenUp i wrote u) idle]
  have later : post (beginSweep k (givenUp i wrote u)) = beginSweep k (post (givenUp i wrote u)) := by
    cases k with
    | init => exact init rfl _ given
    | bus =>
      simp only [beginSweep, startBusSweep_mapEngine]
      exact blind.commutes (busSwept_neutral _) given
  rw [fetching, beside, release_of_sweepWait wrote mode, leaveSweepWait_of_quiet given (givenUp_free wrote free) idle, later]
  exact beginSweep_begun k _

theorem sweepBegun_of_row {row : Instr} {i : SlotNo} {k : SweepKind} {post : State → State} {f : Fetch} {wrote : Bool} {s u : State}
    (alone : exec row s = .next (post (release i wrote u)))
    (beside : exec row (mapEngine (withFetch (some f)) s) = .next (post (release i wrote (mapEngine (withFetch (some f)) u))))
    (blind : Blind (.sweepWait k) post)
    (init : k = .init → ∀ g, g.engine.mode = .sweepWait .init → post (startInitSweep g) = startInitSweep (post g))
    (mode : u.engine.mode = .sweepWait k) (idle : u.engine.fetch = none)
    (free : ∀ j : SlotNo, j ≠ i → u.engine.slots[j].inUse = false) :
    ∃ v t, exec row { s with engine.fetch := some f } = .next v ∧ exec row s = .next t ∧
      SweepBegun k { v with engine.fetch := none } t :=
  ⟨_, _, beside, alone, sweepBegun_of_release f wrote blind init mode idle free⟩

/-! ### Cells and drain completions (R25, R85, R172) -/

theorem leaveSweepWait_readWaits {s : State} (none : s.engine.readWaits = false) : (leaveSweepWait s).engine.readWaits = false := by
  unfold leaveSweepWait
  split
  · split
    · split
      · rfl
      · rw [startBusSweep_mapEngine]; exact none
    · exact none
  all_goals exact none

/-- An assembly whose slot is given up in SWEEP_WAIT is over. -/
theorem serveHead_resumeRead_of_release {i : SlotNo} {k : SweepKind} {u : State} (wrote : Bool) (mode : u.engine.mode = .sweepWait k)
    (none : u.engine.readWaits = false) : serveHead (resumeRead (release i wrote u)) = release i wrote u := by
  rw [release_of_sweepWait wrote mode]
  have sweeps : (leaveSweepWait (givenUp i wrote u)).engine.mode ≠ .running :=
    leaveSweepWait_not_running (by rw [show (givenUp i wrote u).engine.mode = _ from mode]; exact fun no => nomatch no)
  rw [serveHead_resumeRead_of_not_running sweeps,
    leaveSweepWait_readWaits (s := givenUp i wrote u) none]
  rfl

/-- The service of an engine that does not run is lost in the init sweep, which finds no drain completion to serve. -/
theorem serveDrain_startInitSweep {s : State} (mode : s.engine.mode ≠ .running) :
    serveDrain (startInitSweep s) = startInitSweep (serveDrain s) := by
  have served : startInitSweep (serveDrain s) = startInitSweep s := by
    unfold serveDrain
    split
    · rw [askEngage_of_not_running mode]
      rfl
    · rfl
  rw [served]
  exact serveDrain_of_empty (s := startInitSweep s) rfl

theorem blind_id (m : EngineMode) : Blind m id := ⟨fun _ _ _ => rfl, id⟩

section
variable {s : State} {i : SlotNo} {k : SweepKind} (f : Fetch) (awake : s.resetLow = false) (mode : s.engine.mode = .sweepWait k)
  (idle : s.engine.fetch = none) (ready : s.engine.readWaits = false) (free : ∀ j : SlotNo, j ≠ i → s.engine.slots[j].inUse = false)
include awake mode idle free

theorem drainCompletion_begins {t : StreamId} (holds : s.engine.drainReq = .holds t i) :
    ∃ v u, exec .drainCompletion { s with engine.fetch := some f } = .next v ∧ exec .drainCompletion s = .next u ∧
      SweepBegun k { v with engine.fetch := none } u := by
  have ends := drainDone_eq holds
  have endsBeside := drainDone_eq (s := mapEngine (withFetch (some f)) s) holds
  have same : (drainDue (mapEngine (withFetch (some f)) s).pool.drain[t] (mapEngine (withFetch (some f)) s).engine.slots[i].copy &&
      !overtaken (mapEngine (withFetch (some f)) s)) = (drainDue s.pool.drain[t] s.engine.slots[i].copy && !overtaken s) := rfl
  rw [same] at endsBeside
  generalize (drainDue s.pool.drain[t] s.engine.slots[i].copy && !overtaken s) = due at ends endsBeside
  simp only at ends endsBeside
  have noted : drainNotice due t (mapEngine (withFetch (some f)) s) = mapEngine (withFetch (some f)) (drainNotice due t s) := by
    cases due with
    | true =>
      exact mapEngine_of_block (fun e s => requestNotice_withEngine e .streamClosed (some t) s)
        (fun s => (requestNotice_block .streamClosed (some t) s).engine) _ s
    | false => rfl
  have engine : (drainNotice due t s).engine = s.engine := by
    cases due with
    | true => exact (requestNotice_block .streamClosed (some t) s).engine
    | false => rfl
  rw [noted] at endsBeside
  refine sweepBegun_of_row (post := serveDrain)
    (u := setCopy i (drainedCtx due s.engine.slots[i].copy) (drainEnded t (drainNotice due t s)))
    ((exec_of_awake (f := drainDone) rfl awake).trans (congrArg _ ends))
    ((exec_of_awake (f := drainDone) (s := mapEngine (withFetch (some f)) s) rfl awake).trans (congrArg _ endsBeside))
    (serveDrain_blind fun no => nomatch no)
    (fun _ g sweeps => ?_) ?_ ?_ fun j apart => ?_
  · exact serveDrain_startInitSweep (by rw [sweeps]; exact fun no => nomatch no)
  · exact (congrArg Engine.mode engine).trans mode
  · exact (congrArg Engine.fetch engine).trans idle
  · refine (congrArg Slot.inUse (getElem_set_fin_ne _ _ apart)).trans ?_
    have slots : (drainEnded t (drainNotice due t s)).engine.slots = s.engine.slots := (congrArg Engine.slots engine :)
    rw [slots]
    exact free j apart

include ready

theorem cellAssembly_begins {a : Assembly} {rest : List Assembly} (cell : s.assembler = a :: rest) (own : a.slot = i) :
    ∃ v u, exec .cellAssembly { s with engine.fetch := some f } = .next v ∧ exec .cellAssembly s = .next u ∧
      SweepBegun k { v with engine.fetch := none } u := by
  subst own
  have runs (u : State) (awake : u.resetLow = false) : exec .cellAssembly u = .next (assemblyDone u) := exec_of_awake rfl awake
  cases k with
  | init =>
    have ended (u : State) (cell : u.assembler = a :: rest) (mode : u.engine.mode = .sweepWait .init)
        (ready : u.engine.readWaits = false) := (assemblyDone_of_overtaken cell mode).trans
      (serveHead_resumeRead_of_release (u := { u with assembler := rest, pool.mem := overtakenWrites a { u with assembler := rest } })
        false mode ready)
    have mem : overtakenWrites a (mapEngine (withFetch (some f)) { s with assembler := rest }) =
        overtakenWrites a { s with assembler := rest } := by
      cases stale : a.stale with
      | none => rw [overtakenWrites_of_fresh _ stale, overtakenWrites_of_fresh _ stale]; rfl
      | some b =>
        rw [overtakenWrites_of_stale _ stale, overtakenWrites_of_stale _ stale]
        have same := assembleCell_withEngine (withFetch (some f) s.engine) a.cell (withoutStorage b.1 b.2 { s with assembler := rest })
          (heldCopy s.engine.slots[a.slot].copy)
        exact (congrArg (fun w : Work => w.1.pool.mem) same :)
    have beside := ended (mapEngine (withFetch (some f)) s) cell mode ready
    rw [show ({ mapEngine (withFetch (some f)) s with assembler := rest } : State) =
      mapEngine (withFetch (some f)) { s with assembler := rest } from rfl, mem] at beside
    exact sweepBegun_of_row (post := id)
      (u := { s with assembler := rest, pool.mem := overtakenWrites a { s with assembler := rest } })
      ((runs s awake).trans (congrArg _ (ended s cell mode ready)))
      ((runs (mapEngine (withFetch (some f)) s) awake).trans (congrArg _ beside)) (blind_id _)
      (fun _ _ _ => rfl) mode idle free
  | bus =>
    have current (u : State) (mode : u.engine.mode = .sweepWait .bus) : u.engine.mode ≠ .sweepWait .init := by
      rw [mode]
      exact fun no => nomatch no
    have block := assembleCell_block a.cell { s with assembler := rest } s.engine.slots[a.slot].copy
    have engine : (assembleCell a.cell { s with assembler := rest } s.engine.slots[a.slot].copy).1.engine = s.engine := block.engine
    have apart := mapEngine_work_of_block (fun e u => assembleCell_withEngine e a.cell u s.engine.slots[a.slot].copy)
      (fun u => (assembleCell_block a.cell u s.engine.slots[a.slot].copy).engine) (withFetch (some f)) { s with assembler := rest }
    have alone := assemblyDone_of_running_on cell (current s mode)
    have beside := assemblyDone_of_running_on (s := mapEngine (withFetch (some f)) s) cell (current _ mode)
    simp only at alone beside
    rw [show ({ mapEngine (withFetch (some f)) s with assembler := rest } : State) =
        mapEngine (withFetch (some f)) { s with assembler := rest } from rfl,
      show (mapEngine (withFetch (some f)) s).engine.slots[a.slot].copy = s.engine.slots[a.slot].copy from rfl, apart] at beside
    simp only at beside
    generalize assembleCell a.cell { s with assembler := rest } s.engine.slots[a.slot].copy = r at alone beside engine
    have mode' : (setCopy a.slot r.2 r.1).engine.mode = .sweepWait .bus := (congrArg Engine.mode engine).trans mode
    have ready' : (setCopy a.slot r.2 r.1).engine.readWaits = false := (congrArg Engine.readWaits engine).trans ready
    rw [serveHead_resumeRead_of_release true mode' ready'] at alone
    rw [serveHead_resumeRead_of_release (u := setCopy a.slot r.2 (mapEngine (withFetch (some f)) r.1)) true mode' ready'] at beside
    refine sweepBegun_of_row (post := id) (u := setCopy a.slot r.2 r.1) ((runs s awake).trans (congrArg _ alone))
      ((runs (mapEngine (withFetch (some f)) s) awake).trans (congrArg _ beside)) (blind_id _) (fun _ _ _ => rfl) mode'
      ((congrArg Engine.fetch engine).trans idle)
      fun j other => ?_
    refine (congrArg Slot.inUse (getElem_set_fin_ne _ _ other)).trans ?_
    rw [engine]
    exact free j other

end

end Sys2Proof.Machine
end

section
/-!
SUPPORT. The last operation of the agent in SWEEP_WAIT: the stream commands and the teardown (R10–R23, R86–R89, R151, R170).
-/
namespace Sys2Proof.Machine

open Sys2Proof

/-! ### Commands that do not see a neutral change of the engine -/

/-- In mode `m`, which it keeps, the command sees no neutral change of the engine. -/
structure BlindAnswer (m : EngineMode) (answer : State → Ctx → StreamAnswer) : Prop where
  commutes : ∀ {ψ : Engine → Engine}, Neutral m ψ → ∀ {s : State} (x : Ctx), s.engine.mode = m →
    answer (mapEngine ψ s) x = { answer s x with state := mapEngine ψ (answer s x).state }
  mode : ∀ {s : State} (x : Ctx), s.engine.mode = m → (answer s x).state.engine.mode = m

/-- The same of an operation on a record. -/
structure BlindWork (m : EngineMode) (op : State → Ctx → Work) : Prop where
  commutes : ∀ {ψ : Engine → Engine}, Neutral m ψ → ∀ {s : State} (x : Ctx), s.engine.mode = m →
    op (mapEngine ψ s) x = (mapEngine ψ (op s x).1, (op s x).2)
  mode : ∀ {s : State} (x : Ctx), s.engine.mode = m → (op s x).1.engine.mode = m

section
variable {m : EngineMode}

theorem BlindWork.ofBlock {op : State → Ctx → Work} (blind : ∀ e s x, op (withEngine e s) x = (op s x).withEngine e)
    (kept : ∀ s x, BlockEffect s (op s x).1) : BlindWork m op where
  commutes _ s x _ := mapEngine_work_of_block (fun e s => blind e s x) (fun s => (kept s x).engine) _ s
  mode {s} x mode := by rw [(kept s x).engine]; exact mode

/-- The record's state at an operation outside RUNNING that sees no change leaves the slots and the fetch unit. -/
theorem BlindWork.unmoved {op : State → Ctx → Work} (blind : BlindWork m op) (waits : m ≠ .running) {s : State} (x : Ctx)
    (mode : s.engine.mode = m) : (op s x).1.engine.slots = s.engine.slots ∧ (op s x).1.engine.fetch = s.engine.fetch :=
  Blind.unmoved (op := fun s => (op s x).1)
    ⟨fun neutral _ mode => congrArg Prod.fst (blind.commutes neutral x mode), blind.mode x⟩ waits mode

theorem BlindAnswer.unmoved {answer : State → Ctx → StreamAnswer} (blind : BlindAnswer m answer) (waits : m ≠ .running) {s : State}
    (x : Ctx) (mode : s.engine.mode = m) :
    (answer s x).state.engine.slots = s.engine.slots ∧ (answer s x).state.engine.fetch = s.engine.fetch :=
  Blind.unmoved (op := fun s => (answer s x).state)
    ⟨fun neutral _ mode => congrArg StreamAnswer.state (blind.commutes neutral x mode), blind.mode x⟩ waits mode

theorem refuseStream_blind (status : Status) : BlindAnswer m (refuseStream status) := ⟨fun _ _ _ _ => rfl, fun _ => id⟩

/-- A choice that the record alone decides. -/
theorem BlindAnswer.ite {c : Ctx → Prop} [DecidablePred c] {f g : State → Ctx → StreamAnswer} (yes : BlindAnswer m f)
    (no : BlindAnswer m g) : BlindAnswer m (fun s x => if c x then f s x else g s x) where
  commutes {ψ} neutral s x mode := by
    by_cases chosen : c x
    · simp only [if_pos chosen]; exact yes.commutes neutral x mode
    · simp only [if_neg chosen]; exact no.commutes neutral x mode
  mode {s} x mode := by
    by_cases chosen : c x
    · simp only [if_pos chosen]; exact yes.mode x mode
    · simp only [if_neg chosen]; exact no.mode x mode

/-- The answer that an operation on the record leaves, the rest of it being the record's. -/
theorem BlindWork.answer {op : State → Ctx → Work} (blind : BlindWork m op) (wrote : Ctx → Bool) (status : Status)
    (result : Ctx → List Byte) : BlindAnswer m (fun s x => ⟨(op s x).1, (op s x).2, wrote x, status, result x⟩) where
  commutes neutral s x mode := by rw [blind.commutes neutral x mode]
  mode := blind.mode

theorem cut_blind (t : StreamId) : BlindWork m (cut t) := .ofBlock (fun e s x => cut_withEngine e t s x) fun s x => cut_block t s x

theorem releaseHeld_blind (t : StreamId) : BlindWork m (releaseHeld t) :=
  .ofBlock (fun e s x => releaseHeld_withEngine e t s x) fun s x => releaseHeld_block t s x

theorem closeBlocks_blind (t : StreamId) : BlindWork m (closeBlocks t) :=
  .ofBlock (fun e s x => closeBlocks_withEngine e t s x) fun s x => closeBlocks_block t s x

theorem record_blind (g : Ctx → Ctx) : BlindWork m (fun s x => (s, g x)) := ⟨fun _ _ _ _ => rfl, fun _ => id⟩

theorem reconfigure_blind (cfg : StreamCfg) (t : StreamId) : BlindWork m (reconfigure cfg t) := by
  refine .ofBlock (fun e s x => ?_) fun s x => ?_
  · unfold reconfigure
    split
    · rw [handOnBlocks_withEngine]; rfl
    all_goals rfl
  · unfold reconfigure
    split
    · exact handOnBlocks_block ..
    all_goals exact .refl s

section
variable (waits : m ≠ .running)
include waits

theorem tearDown_blind (t : StreamId) : BlindWork m (tearDown t) where
  commutes {ψ} neutral s x mode := by
    have owned : freeAll (ownedBlocks x) (setDrainPending t false (mapEngine ψ s)) =
        mapEngine ψ (freeAll (ownedBlocks x) (setDrainPending t false s)) :=
      mapEngine_of_block (fun e s => freeAll_withEngine e (ownedBlocks x) s) (fun s => (freeAll_block _ s).engine) ψ
        (setDrainPending t false s)
    have still : (freeAll (ownedBlocks x) (setDrainPending t false s)).engine.mode = m := by
      rw [(freeAll_block _ _).engine]; exact mode
    have same (v : State) : queuedOf t (mapEngine ψ v) = queuedOf t v := rfl
    have item (v : State) : markAbort t (mapEngine ψ v) = mapEngine ψ (markAbort t v) :=
      mapEngine_of_block (fun e s => markAbort_withEngine e t s) (fun s => (markAbort_same t s).1) ψ v
    have port (v : State) : judgePort (mapEngine ψ v) = mapEngine ψ (judgePort v) :=
      mapEngine_of_block judgePort_withEngine (fun s => (judgePort_block s).engine) ψ v
    unfold tearDown
    simp only
    rw [owned]
    simp only [same, (freeAllQueued_blind waits _).commutes neutral still, item, port]
  mode {s} x mode := by
    have still : (freeAll (ownedBlocks x) (setDrainPending t false s)).engine.mode = m := by
      rw [(freeAll_block _ _).engine]; exact mode
    have freed := (freeAllQueued_blind waits (queuedOf t (freeAll (ownedBlocks x) (setDrainPending t false s)))).mode still
    unfold tearDown
    simp only
    rw [(judgePort_block _).engine, (markAbort_same t _).1]
    exact freed

theorem tearDownUnlessClosed_blind (t : StreamId) : BlindWork m (tearDownUnlessClosed t) where
  commutes {ψ} neutral s x mode := by
    by_cases closed : x.state = .closed
    · rw [tearDownUnlessClosed_of_closed closed, tearDownUnlessClosed_of_closed closed]
    · rw [tearDownUnlessClosed_of_open closed, tearDownUnlessClosed_of_open closed]
      exact (tearDown_blind waits t).commutes neutral x mode
  mode {s} x mode := by
    by_cases closed : x.state = .closed
    · rw [tearDownUnlessClosed_of_closed closed]; exact mode
    · rw [tearDownUnlessClosed_of_open closed]; exact (tearDown_blind waits t).mode x mode

end

/-! ### The rows (R10–R23) -/

section
variable (record : List Byte) (t : StreamId)

theorem answerOpen_blind : BlindAnswer m (answerOpen record t) := by
  cases legal : configArg record with
  | none =>
    rw [show answerOpen record t = refuseStream .badArgument from funext fun s => funext fun x => answerOpen_of_illegal t s legal]
    exact refuseStream_blind _
  | some cfg =>
    rw [show answerOpen record t = _ from funext fun s => funext fun x => answerOpen_of_legal t s legal]
    exact .ite ((record_blind (openedCtx cfg)).answer (fun _ => true) .done fun _ => []) (refuseStream_blind _)

theorem answerPause_blind : BlindAnswer m (answerPause record t) :=
  .ite ((record_blind fun x => { x with state := .paused }).answer (fun _ => true) .done fun _ => []) (refuseStream_blind _)

theorem answerResume_blind : BlindAnswer m (answerResume record t) :=
  .ite ((record_blind resumedCtx).answer (fun _ => true) .done fun _ => []) (refuseStream_blind _)

theorem answerCut_blind : BlindAnswer m (answerCut record t) :=
  .ite ((cut_blind t).answer (fun x => x.fill.isFilling) .done fun _ => []) (refuseStream_blind _)

theorem answerRelease_blind : BlindAnswer m (answerRelease record t) :=
  .ite ((releaseHeld_blind t).answer (fun x => decide (0 < releasedCount x)) .done fun x => [byteOf (releasedCount x)])
    (refuseStream_blind _)

theorem answerQuery_blind : BlindAnswer m (answerQuery record t) := ⟨fun _ _ _ _ => rfl, fun _ => id⟩

theorem answerReconfigure_blind : BlindAnswer m (answerReconfigure record t) := by
  cases legal : configArg record with
  | none =>
    rw [show answerReconfigure record t = refuseStream .badArgument from
      funext fun s => funext fun x => answerReconfigure_of_illegal t s legal]
    exact refuseStream_blind _
  | some cfg =>
    have chosen (s : State) (x : Ctx) := answerReconfigure_of_legal t s (x := x) legal
    have taken := (reconfigure_blind (m := m) cfg t).answer (fun _ => true) .done fun _ => []
    refine ⟨fun {ψ} neutral s x mode => ?_, fun {s} x mode => ?_⟩
    · have may : mayReconfigure cfg t (mapEngine ψ s) x = mayReconfigure cfg t s x := rfl
      rw [chosen, chosen, may]
      split
      · exact taken.commutes neutral x mode
      · rfl
    · rw [chosen]
      split
      · exact taken.mode x mode
      · exact mode

theorem answerCloseGraceful_blind : BlindAnswer m (answerCloseGraceful record t) := by
  cases form : closeForm record with
  | none =>
    rw [show answerCloseGraceful record t = refuseStream .badArgument from
      funext fun s => funext fun x => answerCloseGraceful_of_no_form t s form]
    exact refuseStream_blind _
  | some named =>
    rw [show answerCloseGraceful record t = _ from funext fun s => funext fun x => answerCloseGraceful_of_form t s form]
    refine .ite ⟨fun {ψ} neutral s x mode => ?_, fun {s} x mode => ?_⟩ (refuseStream_blind _)
    · rw [(closeBlocks_blind t).commutes neutral x mode]
      have owed (v : State) : outstanding t (mapEngine ψ v) = outstanding t v := rfl
      unfold drainOrClose
      simp only [owed]
      split <;> rfl
    · have closes := (closeBlocks_blind t).mode x mode
      unfold drainOrClose
      split <;> exact closes

theorem answerCloseAbort_blind (waits : m ≠ .running) : BlindAnswer m (answerCloseAbort record t) := by
  cases form : closeForm record with
  | none =>
    rw [show answerCloseAbort record t = refuseStream .badArgument from
      funext fun s => funext fun x => answerCloseAbort_of_no_form t s form]
    exact refuseStream_blind _
  | some named =>
    rw [show answerCloseAbort record t = _ from funext fun s => funext fun x => answerCloseAbort_of_form t s form]
    exact .ite (refuseStream_blind _) ((tearDown_blind waits t).answer (fun _ => true) .done fun _ => [])

end

end

/-! ### The operations of the agent (R86, R170) -/

/-- A row of a stream command that holds its slot executes it. -/
theorem runStream_eq {c : Command} {record : List Byte} {t : StreamId} {i : SlotNo} {s : State} {mine : List Byte → Bool}
    (f : List Byte → StreamId → State → Ctx → StreamAnswer) (runs : Runs c record s) (holds : s.engine.mgmt = .holds t i)
    (taken : mine record = true) :
    let a := f record t s s.engine.slots[i].copy
    live (runStream c mine f) s = .next (takeNext (release i a.wrote (answered record a.status a.result i a.ctx a.state))) := by
  simp only [live, runStream, runs.awake, runs.executing, holds, runs.names, taken, and_self, Bool.false_eq_true, if_true, if_false,
    answered]

theorem answered_withFetch (record : List Byte) (status : Status) (result : List Byte) (i : SlotNo) (x : Ctx) (f : Option Fetch)
    (u : State) : answered record status result i x (mapEngine (withFetch f) u) =
      mapEngine (withFetch f) (answered record status result i x u) :=
  mapEngine_of_block (fun e s => finish_withEngine e record status result .idle s) (fun _ => (finish_engine ..).1) (withFetch f)
    { setCopy i x u with engine.mgmt := .idle }

section
variable {s : State} {i : SlotNo} (f : Fetch) (mode : s.engine.mode = .sweepWait .bus) (idle : s.engine.fetch = none)
  (free : ∀ j : SlotNo, j ≠ i → s.engine.slots[j].inUse = false)
include mode idle free

theorem streamCommand_begins {row : Instr} {c : Command} {record : List Byte} {t : StreamId} {mine : List Byte → Bool}
    {answer : List Byte → StreamId → State → Ctx → StreamAnswer} (event : exec row = live (runStream c mine answer))
    (runs : Runs c record s) (holds : s.engine.mgmt = .holds t i) (taken : mine record = true)
    (blind : BlindAnswer (.sweepWait .bus) (answer record t)) :
    ∃ v u, exec row { s with engine.fetch := some f } = .next v ∧ exec row s = .next u ∧
      SweepBegun .bus { v with engine.fetch := none } u := by
  have waits : EngineMode.sweepWait .bus ≠ .running := fun no => nomatch no
  have alone := runStream_eq answer runs holds taken
  have beside := runStream_eq (s := mapEngine (withFetch (some f)) s) answer ⟨runs.awake, runs.executing, runs.names⟩ holds taken
  have copy : (mapEngine (withFetch (some f)) s).engine.slots[i].copy = s.engine.slots[i].copy := rfl
  simp only at alone beside
  rw [copy, blind.commutes (withFetch_neutral (some f) waits) _ mode] at beside
  obtain ⟨slots, fetch⟩ := blind.unmoved waits s.engine.slots[i].copy mode
  have still := blind.mode s.engine.slots[i].copy mode
  generalize answer record t s s.engine.slots[i].copy = a at alone beside slots fetch still
  simp only [answered_withFetch] at beside
  obtain ⟨mode', -, -, -, -, -, -, -, fetch', -⟩ := answered_fields record a.status a.result i a.ctx a.state
  refine sweepBegun_of_row (by rw [event]; exact alone) (by rw [event]; exact beside) (takeNext_blind waits)
    (fun no => nomatch no) (mode'.trans still) (fetch'.trans (fetch.trans idle)) fun j apart => ?_
  rw [answered_slot_ne apart, slots]
  exact free j apart

/-- What follows the teardown of a stream. -/
def nextTeardown (n : StreamId) (s : State) : State :=
  if h : n.val + 1 < 256 then askEngage .management ⟨n.val + 1, h⟩ { s with agent.state := .tearing ⟨n.val + 1, h⟩ }
  else takeNext { s with agent.state := .idle }

omit mode idle free in
theorem nextTeardown_blind {m : EngineMode} (waits : m ≠ .running) (n : StreamId) : Blind m (nextTeardown n) := by
  by_cases more : n.val + 1 < 256
  · have next : nextTeardown n = fun s => askEngage .management ⟨n.val + 1, more⟩ { s with agent.state := .tearing ⟨n.val + 1, more⟩ } :=
      funext fun s => dif_pos more
    rw [next]
    exact (askEngage_management_blind waits _).comp (g := fun s => { s with agent.state := .tearing ⟨n.val + 1, more⟩ })
      (.ofRest fun _ _ => rfl)
  · have next : nextTeardown n = fun s => takeNext { s with agent.state := .idle } := funext fun s => dif_neg more
    rw [next]
    exact (takeNext_blind waits).comp (g := fun s => { s with agent.state := .idle }) (.ofRest fun _ _ => rfl)

theorem streamsTeardown_begins {n t : StreamId} (awake : s.resetLow = false) (tearing : s.agent.state = .tearing n)
    (holds : s.engine.mgmt = .holds t i) :
    ∃ v u, exec .streamsTeardown { s with engine.fetch := some f } = .next v ∧ exec .streamsTeardown s = .next u ∧
      SweepBegun .bus { v with engine.fetch := none } u := by
  have waits : EngineMode.sweepWait .bus ≠ .running := fun no => nomatch no
  have alone : teardownStep s = nextTeardown n (tornDown t i s) := teardownStep_eq tearing holds
  have beside : teardownStep (mapEngine (withFetch (some f)) s) = nextTeardown n (tornDown t i (mapEngine (withFetch (some f)) s)) :=
    teardownStep_eq (s := mapEngine (withFetch (some f)) s) tearing holds
  have copy : (mapEngine (withFetch (some f)) s).engine.slots[i].copy = s.engine.slots[i].copy := rfl
  have blind := tearDownUnlessClosed_blind waits t
  rw [tornDown] at alone beside
  rw [copy, blind.commutes (withFetch_neutral (some f) waits) _ mode] at beside
  obtain ⟨slots, fetch⟩ := blind.unmoved waits s.engine.slots[i].copy mode
  have still := blind.mode s.engine.slots[i].copy mode
  generalize tearDownUnlessClosed t s s.engine.slots[i].copy = w at alone beside slots fetch still
  refine sweepBegun_of_row (u := { setCopy i w.2 w.1 with engine.mgmt := .idle })
    ((exec_of_awake (f := teardownStep) rfl awake).trans (congrArg _ alone))
    ((exec_of_awake (f := teardownStep) (s := mapEngine (withFetch (some f)) s) rfl awake).trans (congrArg _ beside))
    (nextTeardown_blind waits n) (fun no => nomatch no) still (fetch.trans idle) fun j apart => ?_
  refine (congrArg Slot.inUse (getElem_set_fin_ne _ _ apart)).trans ?_
  rw [slots]
  exact free j apart

end

/-- The row of a stream command ends its operation. -/
theorem streamRow_begins {row : Instr} {c : Command} {legal : Prop} {record : List Byte} {t : StreamId} {i : SlotNo} {s : State}
    (f : Fetch) (mode : s.engine.mode = .sweepWait .bus) (idle : s.engine.fetch = none)
    (free : ∀ j : SlotNo, j ≠ i → s.engine.slots[j].inUse = false) (named : streamRow record row = some (c, legal)) (form : legal)
    (runs : Runs c record s) (holds : s.engine.mgmt = .holds t i) :
    ∃ v u, exec row { s with engine.fetch := some f } = .next v ∧ exec row s = .next u ∧
      SweepBegun .bus { v with engine.fetch := none } u := by
  have waits : EngineMode.sweepWait .bus ≠ .running := fun no => nomatch no
  cases row with
  | streamOpen =>
    obtain ⟨rfl, rfl⟩ := Prod.mk.inj (Option.some.inj named)
    exact streamCommand_begins f mode idle free (mine := anyRecord) rfl runs holds rfl (answerOpen_blind record t)
  | streamPause =>
    obtain ⟨rfl, rfl⟩ := Prod.mk.inj (Option.some.inj named)
    exact streamCommand_begins f mode idle free (mine := anyRecord) rfl runs holds rfl (answerPause_blind record t)
  | streamResume =>
    obtain ⟨rfl, rfl⟩ := Prod.mk.inj (Option.some.inj named)
    exact streamCommand_begins f mode idle free (mine := anyRecord) rfl runs holds rfl (answerResume_blind record t)
  | streamCut =>
    obtain ⟨rfl, rfl⟩ := Prod.mk.inj (Option.some.inj named)
    exact streamCommand_begins f mode idle free (mine := anyRecord) rfl runs holds rfl (answerCut_blind record t)
  | streamRelease =>
    obtain ⟨rfl, rfl⟩ := Prod.mk.inj (Option.some.inj named)
    exact streamCommand_begins f mode idle free (mine := anyRecord) rfl runs holds rfl (answerRelease_blind record t)
  | streamReconfigure =>
    obtain ⟨rfl, rfl⟩ := Prod.mk.inj (Option.some.inj named)
    exact streamCommand_begins f mode idle free (mine := anyRecord) rfl runs holds rfl (answerReconfigure_blind record t)
  | streamCloseGraceful =>
    obtain ⟨rfl, rfl⟩ := Prod.mk.inj (Option.some.inj named)
    exact streamCommand_begins f mode idle free (mine := fun r => closeForm r != some true) rfl runs holds
      (closeForm_ne form (by decide)) (answerCloseGraceful_blind record t)
  | streamCloseAbort =>
    obtain ⟨rfl, rfl⟩ := Prod.mk.inj (Option.some.inj named)
    exact streamCommand_begins f mode idle free (mine := fun r => closeForm r != some false) rfl runs holds
      (closeForm_ne form (by decide)) (answerCloseAbort_blind record t waits)
  | _ => cases named

/-! ### The release, in RUNNING and in SWEEP_WAIT (R73, R75, R87–R89) -/

/-- Settles O19: the release of a mark, and the operations that it ends in SWEEP_WAIT. -/
theorem releaseHandsMarkOnOrBeginsSweep : Obligations.ReleaseHandsMarkOnOrBeginsSweep := by
  refine ⟨fun i wrote s => ⟨fun stays => ?handed, fun k mode idle free => ?begins⟩,
    fun row i k f s awake mode idle ready free ends => ?rows⟩
  case handed =>
    exact ⟨release_keptByRelease stays wrote, release_state stays wrote, release_copy stays wrote, (release_effect i wrote s).eq⟩
  case begins =>
    rw [release_of_sweepWait wrote mode]
    exact leaveSweepWait_begins (s := givenUp i wrote s) mode (givenUp_free wrote free) idle
  case rows =>
    obtain (⟨rfl, a, rest, cell, own⟩ | ⟨rfl, t, holds⟩) | ⟨rfl, ⟨t, holds⟩, agent⟩ := ends
    · exact cellAssembly_begins f awake mode idle ready free cell own
    · exact drainCompletion_begins f awake mode idle free holds
    · obtain ⟨rfl, n, tearing⟩ | ⟨rfl, record, runs⟩ | ⟨record, c, legal, named, form, runs⟩ := agent
      · exact streamsTeardown_begins f mode idle free awake tearing holds
      · exact streamCommand_begins f mode idle free (mine := anyRecord) rfl runs holds rfl (answerQuery_blind record t)
      · exact streamRow_begins f mode idle free named form runs holds

end Sys2Proof.Machine
end
